-- ==== Sys2Proof/Word.lean ====
section
/-! DEFINITION. The word types of the FH28 model: what the manual treats as bits is a bit vector, what it
numbers is a bounded number, and what it counts or addresses is a natural number. -/

namespace Sys2Proof

/-- One byte (00_scope.md, Bytes and order). -/
abbrev Byte := BitVec 8

/-- Sixteen bytes as one number, byte 0 least significant: a cipher block, a tweak, a key cell (R6, R45). -/
abbrev Block := BitVec 128

/-- A 32-byte request or completion record as one number, byte 0 least significant (R169, R178). -/
abbrev Record := BitVec 256

/-- The 16-bit tag a master puts in a request (R178). -/
abbrev Tag := BitVec 16

/-- A 32-bit epoch (R2, R41). -/
abbrev Epoch := BitVec 32

/-- A range index, 0 to 15 (R23). -/
abbrev RangeId := Fin 16

/-- A key cell number, 0 to 63 (R45). -/
abbrev CellId := Fin 64

/-- A lane number, 0 to 3 (R87). -/
abbrev LaneId := Fin 4

end Sys2Proof
end

