-- ==== Sys2Proof/Config.lean ====
section
/-! DEFINITION. What one FH28 fixes: the figures of 00_scope.md, "Numbers at a glance", and the two free
values of the model, constants without a body. -/

namespace Sys2Proof.Config

/-- Records a request queue holds (R169). -/
def requestPlaces : Nat := 16

/-- Places of a completion queue (R169). -/
def completionPlaces : Nat := 32

/-- Most segments of a job (R28). -/
def maxSegments : Nat := 8

/-- Most sectors of a job or LBAs of a claim (R64, R125). -/
def maxCount : Nat := 256

/-- Most claims in the device (R125). -/
def maxClaims : Nat := 8

/-- Most claims of one range (R125). -/
def maxRangeClaims : Nat := 2

/-- Greatest capacity in sectors, 2^40 (R25). -/
def maxCapacity : Nat := 1099511627776

/-- Bytes of the buffer address space, 2^40 (R70, 00_scope.md "Buffer memory"). -/
def bufferBytes : Nat := 1099511627776

/-- The value at which a refusal count saturates (R31). -/
def refusalLimit : Nat := 65535

/-- Consecutive grants to the HIGH port after which the NORMAL port is granted (R93). -/
def starvationLimit : Nat := 8

/-- Greatest inactivity delay in seconds (R154). -/
def maxDelay : Nat := 3600

/-- FREE VALUE. Whether byte `i` of a write that was cut off has reached buffer memory, for the `n`-th
cut write of the run (R16, R82, R98: wholly old, wholly new, or a mixture). It has no body: nothing can
be proved of its value. Log entry 6. -/
opaque cutLands (n i : Nat) : Bool

/-- FREE VALUE. Whether an Engine Reset is taken while a Lane Test waits for its run. The rules disagree: R155, R171 and R174
hold the S-port until the Lane Test's completion; R89, R161 and row 7 of R164 speak of an Engine Reset taken during one. It
has no body: nothing can be proved of its value. Log entry 32. -/
opaque resetPassesLaneTest : Bool

end Sys2Proof.Config
end

