-- ==== Sys2Proof/Syntax.lean ====
section
/-! DEFINITION. The commands of the FH28: one constructor of `Instr` for each row of
spec/opcode_table.json, in the table's order, with the operands the rules give each step. A request kind
(READ to LANE_TEST) is the step in which a port takes its oldest queued record, which the record's own 32
bytes parameterise, so these constructors carry no operand of their own. -/

namespace Sys2Proof

/-- The three request ports (00_scope.md, R169). -/
inductive Port where
  | i
  | m
  | s
deriving DecidableEq, Repr

/-- The two sides that have a job table, an abort quota and an offer: the I-port and the M-port. -/
inductive Side where
  | i
  | m
deriving DecidableEq, Repr

/-- The two ports that take a Sweep Query (R122, R140). -/
inductive QueryPort where
  | m
  | s
deriving DecidableEq, Repr

/-- Who asks the buffer port for an access (R96): a lane, or a job in LISTING. -/
inductive Requester where
  | lane (l : LaneId)
  | list (side : Side) (slot : Nat)
deriving DecidableEq, Repr

/-- What a response for an access carries (R97). -/
inductive ResponseKind where
  | data
  | success
  | error
deriving DecidableEq, Repr

/-- An access of the interconnect to a port's window: its direction, byte offset and size (R169, R170). -/
structure WindowAccess where
  isWrite : Bool
  offset  : Nat
  size    : Nat
deriving DecidableEq, Repr

/-- The commands: the rows of spec/opcode_table.json. `placed` on a read's completion is what the other
masters of the shared buffer memory have put at the access's address before the read completed (log entry
5); the two flags of a lane self-test are its two comparisons (R146, log entry 8). -/
inductive Instr where
  | powerOnReset
  | inactivityTick
  | inactivityExpiry
  | requestWindowWrite (p : Port) (r : Record)
  | completionWindowRead (p : Port)
  | badWindowAccess (p : Port) (a : WindowAccess)
  | read
  | write
  | claim
  | release
  | sweepQuery (p : QueryPort)
  | recipher
  | screen
  | unknownKindRecord (p : Port)
  | status
  | formatSet
  | admitRequest
  | sealRequest
  | engineReset
  | zeroize
  | rangeDefine
  | rangeDelete
  | rangeLocks
  | rangeBind
  | rangeRekey
  | rangeErase
  | rangeQuery
  | countClear
  | keyOpen
  | keyPart
  | keyClear
  | keyQuery
  | classSet
  | busRecover
  | inactivitySet
  | retain
  | wake
  | laneTest
  | abortQuotaAnswer (p : Side)
  | grant
  | trailerReadDone (l : LaneId) (placed : List Byte)
  | dataUnitReadDone (l : LaneId) (placed : List Byte)
  | transformEnd (l : LaneId)
  | resultWriteDone (l : LaneId)
  | verdictListWriteDone (side : Side) (slot : Nat)
  | busErrorResponse (who : Requester)
  | droppedAccessResponse (who : Requester) (kind : ResponseKind)
  | laneSelfTestEnd (l : LaneId) (encOk decOk : Bool)
  | eventPost
  | drainEnd
  | keyClearDeferredDone
  | engineResetEnd
  | zeroizeClearing
deriving DecidableEq, Repr

end Sys2Proof
end

