-- ==== Sys2Proof/WellFormed.lean ====
section
/-! DEFINITION. Which commands are well formed: an operand names something that exists. The window's
classes of access stand here, since a window access is well formed by its class. -/

namespace Sys2Proof

/-- Slots of a job table: 32 in the I-table, 16 in the M-table (R64, R129). -/
def Side.slots : Side → Nat
  | .i => 32
  | .m => 16

/-- What an access to a port's window of 72 bytes is (R169, R170). -/
inductive WindowClass where
  | requestWrite
  | completionRead
  | freePlacesRead
  | waitingRead
  | bad
deriving DecidableEq, Repr

/-- The class of an access, by the layout of R169: every access the layout does not name is `bad` (R170). -/
def WindowAccess.kind (a : WindowAccess) : WindowClass :=
  if a.isWrite = true ∧ a.offset = 0x00 ∧ a.size = 32 then .requestWrite
  else if a.isWrite = false ∧ a.offset = 0x20 ∧ a.size = 32 then .completionRead
  else if a.isWrite = false ∧ a.offset = 0x40 ∧ a.size = 4 then .freePlacesRead
  else if a.isWrite = false ∧ a.offset = 0x44 ∧ a.size = 4 then .waitingRead
  else .bad

/-- A requester that can exist: a job slot lies in its table. -/
def Requester.wf : Requester → Bool
  | .lane _ => true
  | .list side slot => decide (slot < side.slots)

/-- The well-formed commands. A window access that has a row of its own (a record write, a completion read)
is no operand of BAD_WINDOW_ACCESS; a read of a count is (log entry 11). -/
def Instr.wf : Instr → Bool
  | .badWindowAccess _ a =>
      decide (a.size ≠ 0 ∧ a.kind ≠ .requestWrite ∧ a.kind ≠ .completionRead)
  | .trailerReadDone _ placed => decide (placed.length ≤ 8)
  | .dataUnitReadDone _ placed => decide (placed.length ≤ 4096)
  | .verdictListWriteDone side slot => decide (slot < side.slots)
  | .busErrorResponse who => who.wf
  | .droppedAccessResponse who _ => who.wf
  | .powerOnReset | .inactivityTick | .inactivityExpiry | .requestWindowWrite _ _
  | .completionWindowRead _ | .read | .write | .claim | .release | .sweepQuery _ | .recipher
  | .screen | .unknownKindRecord _ | .status | .formatSet | .admitRequest | .sealRequest
  | .engineReset | .zeroize | .rangeDefine | .rangeDelete | .rangeLocks | .rangeBind
  | .rangeRekey | .rangeErase | .rangeQuery | .countClear | .keyOpen | .keyPart | .keyClear
  | .keyQuery | .classSet | .busRecover | .inactivitySet | .retain | .wake | .laneTest
  | .abortQuotaAnswer _ | .grant | .transformEnd _ | .resultWriteDone _
  | .laneSelfTestEnd _ _ _ | .eventPost | .drainEnd | .keyClearDeferredDone
  | .engineResetEnd | .zeroizeClearing => true

end Sys2Proof
end

