-- ==== Sys2Proof/Decode.lean ====
section
/-! DEFINITION. The decoder the host asks for. The FH28 is a block, no processor: no row of
spec/opcode_table.json gives a pattern of bits, so no word spells a command. The codes that the part itself
reads, the kind codes of request records, are decoded in Machine/Operands.lean. -/

namespace Sys2Proof

/-- The command that a word of `nbits` bits spells by the opcode table's bits: none, since no row of the
table gives bits. -/
def decodeTableWord (_nbits _w : Nat) : Option Instr := none

end Sys2Proof
end

