-- ==== Sys2Proof/Machine/State.lean ====
section
/-! DEFINITION. The state of the FH28 as plain data, block by block as 00_scope.md lists the nine blocks,
and its value right after a power-on reset. -/

namespace Sys2Proof.Machine

/-! ## Range Table (02_range_table.md) -/

/-- A binding: a key group, named by its base cell, and an epoch (R23). -/
structure Binding where
  group : CellId
  epoch : Epoch
deriving DecidableEq, Repr

/-- A range record (R23). An ABSENT range holds zeros, the values it reports (R42; log entry 20). -/
structure RangeRec where
  present       : Bool
  first         : Nat
  last          : Nat
  readLock      : Bool
  writeLock     : Bool
  locksAtRetain : Bool
  current       : Option Binding
  previous      : Option Binding
  refusals      : Nat
deriving DecidableEq, Repr

/-- The data unit, 512 or 4096 bytes (R1, R25). -/
inductive DataUnit where
  | u512
  | u4096
deriving DecidableEq, Repr

/-- The admission state (R25). -/
inductive Admission where
  | sealed
  | opened
deriving DecidableEq, Repr

/-- The Range Table: sixteen records and three part-wide values (R23, R25). -/
structure RangeTable where
  ranges    : Vector RangeRec 16
  capacity  : Nat
  dataUnit  : DataUnit
  admission : Admission
deriving DecidableEq, Repr

/-! ## Key Store (03_key_store.md) -/

/-- A key cell: EMPTY or FILLED, and its 128 bits (R45). -/
structure KeyCell where
  filled : Bool
  bits   : Block
deriving DecidableEq, Repr

/-- S128 or S256 (R46). -/
inductive Strength where
  | s128
  | s256
deriving DecidableEq, Repr

/-- The states a group record stands in; EMPTY is no record (R47). -/
inductive GroupState where
  | loading
  | filled
  | retiring
deriving DecidableEq, Repr

/-- A binding slot of a range (R47). -/
inductive Slot where
  | current
  | previous
deriving DecidableEq, Repr

/-- The binding slot that names a group (R47). -/
structure BoundTo where
  range : RangeId
  slot  : Slot
deriving DecidableEq, Repr

/-- A group record, held at the group's base cell (R47). -/
structure GroupRec where
  state        : GroupState
  strength     : Strength
  bound        : Option BoundTo
  pins         : Nat
  waitingClear : Option Tag
deriving DecidableEq, Repr

/-- The open-load record: the base and strength of the LOADING group and its cells filled so far,
ascending (R50). -/
structure OpenLoad where
  base     : CellId
  strength : Strength
  parts    : List CellId
deriving DecidableEq, Repr

/-- The Key Store (R45, R47, R50). -/
structure KeyStore where
  cells  : Vector KeyCell 64
  groups : Vector (Option GroupRec) 64
  load   : Option OpenLoad
deriving DecidableEq, Repr

/-! ## Job Tables (04_interface_port_jobs.md, 07_claims_recipher_and_screen.md) -/

/-- The outcome of one sector of a job (R178, verdict codes). -/
inductive Verdict where
  | done
  | blank
  | retired
  | checkFail
  | notDone
  | reciphered
  | alreadyCurrent
  | overtaken
  | liveCurrent
  | livePrevious
deriving DecidableEq, Repr

/-- The state of one sector of a job (R64, R65). -/
inductive SectorState where
  | waiting
  | inLane
  | ended (v : Verdict)
deriving DecidableEq, Repr

/-- A segment of a job with its snapshot (R28, R73). -/
structure Segment where
  first    : Nat
  last     : Nat
  range    : RangeId
  current  : Option Binding
  previous : Option Binding
deriving DecidableEq, Repr

/-- The kinds of job (R64, R129). -/
inductive JobKind where
  | read
  | write
  | recipher
  | screen
deriving DecidableEq, Repr

/-- RUNNING or LISTING (R65). -/
inductive JobPhase where
  | running
  | listing
deriving DecidableEq, Repr

/-- Why a job was ended early (R64, R119). -/
inductive EndCause where
  | aborted
  | zeroized
  | busFault
  | sweepCancelled
deriving DecidableEq, Repr

/-- A job record (R64; R129 adds a RECIPHER's claim and its final verdicts). `sectors` is in LBA order
from the start LBA. -/
structure Job where
  tag        : Tag
  kind       : JobKind
  acceptance : Nat
  start      : Nat
  count      : Nat
  src        : Nat
  dst        : Option Nat
  list       : Option Nat
  segments   : List Segment
  pinned     : List CellId
  sectors    : List SectorState
  next       : Option Nat
  done       : Nat
  blank      : Nat
  fault      : Nat
  firstFault : Option Nat
  phase      : JobPhase
  cause      : Option EndCause
  claim      : Option RangeId
  finals     : List Verdict
deriving DecidableEq, Repr

/-- The I-table of 32 slots and the M-table of 16 (R64, R129). -/
structure JobTables where
  i : Vector (Option Job) 32
  m : Vector (Option Job) 16
deriving DecidableEq, Repr

/-! ## Dispatch Arbiter, lanes and buffer port (01_sector_cipher.md, 05_lanes_dispatch_and_the_buffer_port.md) -/

/-- The class of a port (R91). -/
inductive PortClass where
  | normal
  | high
deriving DecidableEq, Repr

/-- The Dispatch Arbiter's four items (R91). -/
structure Arbiter where
  iClass : PortClass
  mClass : PortClass
  count  : Nat
  last   : Option Side
deriving DecidableEq, Repr

/-- The lane operations (R12). -/
inductive Operation where
  | encipher
  | decipher
  | recipher
  | screen
deriving DecidableEq, Repr

/-- The phases of a lane's work (R12). -/
inductive LanePhase where
  | reading
  | transforming
  | writing
deriving DecidableEq, Repr

/-- The two fields of a sector's trailer (R2). -/
structure Trailer where
  epoch : Epoch
  check : BitVec 32
deriving DecidableEq, Repr

/-- A lane's work record (R12). A SCREEN takes the epochs of the snapshot only, so groups and epochs
stand apart. `held` is what the lane holds of the sector: the data unit it read, then the result (R14). -/
structure Work where
  side      : Side
  slot      : Nat
  op        : Operation
  lba       : Nat
  curGroup  : Option CellId
  curEpoch  : Option Epoch
  prevGroup : Option CellId
  prevEpoch : Option Epoch
  src       : Nat
  dst       : Option Nat
  phase     : LanePhase
  trailer   : Option Trailer
  chosen    : Option CellId
  held      : List Byte
deriving DecidableEq, Repr

/-- A cipher lane: health, work record, test hold (R87). -/
structure Lane where
  inService : Bool
  work      : Option Work
  testHold  : Bool
deriving DecidableEq, Repr

/-- The kinds of access the buffer port carries (R96). -/
inductive AccessKind where
  | trailerRead
  | dataRead
  | resultWrite
  | listWrite
deriving DecidableEq, Repr

/-- An outstanding access (R96). A write is one transaction that carries all its bytes (R97). -/
structure Access where
  who   : Requester
  kind  : AccessKind
  addr  : Nat
  len   : Nat
  bytes : List Byte
deriving DecidableEq, Repr

/-- The Buffer Port: NORMAL or FAULTED, the fault address, the outstanding accesses (R96). -/
structure BufferPort where
  faulted     : Bool
  faultAddr   : Nat
  outstanding : List Access
deriving DecidableEq, Repr

/-! ## Sweep Unit (06_rekey_erase_and_sweep_completion.md, 07_claims_recipher_and_screen.md) -/

/-- The states of a claim (R125). -/
inductive ClaimState where
  | claimed
  | reciphering
  | done
deriving DecidableEq, Repr

/-- A claim (R125). `overtaken` is ascending without duplicates; `frozen` says that its job's end has
frozen the set (R132; log entry 15); `job` is the M-table slot of its RECIPHER job. -/
structure Claim where
  range     : RangeId
  first     : Nat
  count     : Nat
  state     : ClaimState
  overtaken : List Nat
  cancelled : Bool
  frozen    : Bool
  job       : Option Nat
deriving DecidableEq, Repr

/-- The Sweep Unit: one mark and one claim list for each range, and the cancelled claims (R105, R119,
R125). -/
structure SweepUnit where
  marks     : Vector (Option Nat) 16
  claims    : Vector (List Claim) 16
  cancelled : List Claim
deriving DecidableEq, Repr

/-! ## Stage Controller (08_power_stages_and_inactivity_lock.md) -/

/-- The power stages (R143). -/
inductive Stage where
  | waking
  | run
  | draining
  | retain
  | failed
deriving DecidableEq, Repr

/-- Why RETAIN is or will be entered (R143). -/
inductive RetainCause where
  | request
  | inactivity
deriving DecidableEq, Repr

/-- Why a self-test run was begun (R143). -/
inductive TestCause where
  | powerOn
  | wake
  | request
deriving DecidableEq, Repr

/-- A self-test run in progress: its cause, the lanes still under test, the lanes passed so far (R143,
R146). -/
structure TestRun where
  cause  : TestCause
  under  : Vector Bool 4
  passed : Vector Bool 4
deriving DecidableEq, Repr

/-- The self-test record (R143). -/
structure SelfTestRecord where
  runs   : BitVec 16
  cause  : Option TestCause
  passed : Vector Bool 4
deriving DecidableEq, Repr

/-- The Stage Controller's items (R143). -/
structure StageController where
  stage           : Stage
  drainCause      : Option RetainCause
  waitingRetain   : Option Tag
  lastRetain      : Option RetainCause
  delay           : Nat
  mediaCounts     : Bool
  remaining       : Nat
  testRun         : Option TestRun
  waitingLaneTest : Option Tag
  selfTest        : SelfTestRecord
deriving DecidableEq, Repr

/-! ## Port Block (10_request_ports_and_records.md) -/

/-- The status codes' names (R178). -/
inductive Status where
  | ok
  | partly
  | badKind
  | badField
  | misaligned
  | outOfBuffer
  | overlap
  | outOfRange
  | isSealed
  | locked
  | noKey
  | fragmented
  | retaining
  | laneFault
  | busFault
  | aborted
  | zeroized
  | noClaim
  | claimLimit
  | claimOrder
  | notSweeping
  | sweepCancelled
  | sweepActive
  | occupied
  | noLoad
  | cellRepeat
  | badGroup
  | bound
  | alreadyKeyed
  | epochClash
  | rangeOverlap
  | rangePresent
  | notSealed
  | formatUnset
  | busy
deriving DecidableEq, Repr

/-- A claim as a Sweep Query reports it (R122): the size of the overtaken set, not its members. -/
structure ClaimReport where
  first     : Nat
  count     : Nat
  state     : ClaimState
  overtaken : Nat
deriving DecidableEq, Repr

/-- The answer of a Sweep Query (R122, R140). `next` is absent on the S-port, which does not carry the
next claim start (log entry 14). -/
structure SweepReport where
  range  : RangeId
  mark   : Option Nat
  claims : List ClaimReport
  next   : Option (Option Nat)
deriving DecidableEq, Repr

/-- The answer of a Key Query (R60): the cell, its state, and the group record that holds it. -/
structure KeyReport where
  cell       : CellId
  cellFilled : Bool
  group      : Option (CellId × GroupRec)
  filled     : Nat
deriving DecidableEq, Repr

/-- The answer of Status (R177). -/
structure StatusReport where
  stage      : Stage
  admission  : Admission
  capacity   : Nat
  dataUnit   : DataUnit
  faulted    : Bool
  faultAddr  : Nat
  inService  : Vector Bool 4
  selfTest   : SelfTestRecord
  remaining  : Nat
  iJobs      : Nat
  mJobs      : Nat
  claims     : Nat
  load       : Option OpenLoad
deriving DecidableEq, Repr

/-- An event record's values (R176). -/
inductive EventRecord where
  | rangeRefused (r : RangeId) (count : Nat)
  | sweepDone (r : RangeId) (epoch : Epoch)
  | busFault (addr : Nat)
  | selfTest (t : SelfTestRecord)
  | retainEntered (cause : Option RetainCause)
deriving DecidableEq, Repr

/-- The body of a completion record, one constructor for each row of the layout table of R178. -/
inductive Body where
  | empty
  | data (done blank fault firstFault : Nat)
  | recipher (reciphered already fault firstFault overtaken : Nat)
  | screen (live retired : Nat)
  | claim (r : RangeId) (next : Option Nat)
  | sweep (q : SweepReport)
  | range (r : RangeId) (e : RangeRec)
  | keyLoad (abandoned complete : Bool) (filled : Nat)
  | keyQuery (q : KeyReport)
  | laneTest (passed : Vector Bool 4) (runs : BitVec 16)
  | reset (iJobs mJobs iRecords mRecords : Nat)
  | status (q : StatusReport)
  | event (e : EventRecord)
deriving DecidableEq, Repr

/-- A completion record: kind code, status, tag and body (R178). -/
structure Completion where
  kind   : Byte
  status : Status
  tag    : Tag
  body   : Body
deriving DecidableEq, Repr

/-- One port's queues: the request queue and the filled places, oldest first, and the count of reserved
places (R169). -/
structure PortQueues where
  requests : List Record
  filled   : List Completion
  reserved : Nat
deriving DecidableEq, Repr

/-- The pending-event set (R175). -/
structure EventSet where
  rangeRefused  : Vector Bool 16
  sweepDone     : Vector Bool 16
  busFault      : Bool
  selfTest      : Bool
  retainEntered : Bool
deriving DecidableEq, Repr

/-- Engine Reset or Zeroize (R161, R165). -/
inductive ResetKind where
  | engine
  | zeroize
deriving DecidableEq, Repr

/-- A reset that holds the S-port: its tag, the abort quotas of the I-port and M-port (R162), the jobs whose
end cause it set and the records it has answered (R163). -/
structure ResetRun where
  kind      : ResetKind
  tag       : Tag
  iQuota    : Nat
  mQuota    : Nat
  iJobs     : Nat
  mJobs     : Nat
  iAnswered : Nat
  mAnswered : Nat
deriving DecidableEq, Repr

/-- The Port Block (R169, R175), with the reset that holds the S-port and its quotas (R162, R174). -/
structure PortBlock where
  i      : PortQueues
  m      : PortQueues
  s      : PortQueues
  events : EventSet
  reset  : Option ResetRun
deriving DecidableEq, Repr

/-- The last answer of the part's target ports on the interconnect (R169 to R172). A field of the model's
own: log entry 13. -/
inductive Answer where
  | idle
  | written (p : Port)
  | error (p : Port)
  | record (p : Port) (r : Record)
  | count (p : Port) (n : Nat)
deriving DecidableEq, Repr

/-- The state of the FH28, block by block; then the shared buffer memory, the model's own fields, and the
queue of waiting commands. -/
structure State where
  ports      : PortBlock
  table      : RangeTable
  keys       : KeyStore
  jobs       : JobTables
  arbiter    : Arbiter
  lanes      : Vector Lane 4
  bufferPort : BufferPort
  sweep      : SweepUnit
  stage      : StageController
  buffer     : List Host.Cell
  answer     : Answer
  draws      : Nat
  pending    : List Instr
deriving DecidableEq, Repr

/-- No command stops the part: every step ends in a next state (INVENTORY.md, Faults). The type is empty. -/
inductive Fault where
deriving DecidableEq, Repr

/-- Why a command has no meaning in the model. -/
inductive Refusal where
  /-- Raised by `exec` for a command that is not modelled yet, by its mnemonic; no arm raises it. Safe. -/
  | notModelled (mnemonic : String)
deriving DecidableEq, Repr

/-! ## The values after a power-on reset (R168) -/

/-- An ABSENT range (R44; log entry 20). -/
def RangeRec.absent : RangeRec :=
  { present := false, first := 0, last := 0, readLock := false, writeLock := false,
    locksAtRetain := false, current := none, previous := none, refusals := 0 }

/-- Range 0 at power-on: PRESENT, UNKEYED, both locks and locks-at-retain set, count 0 (R44). -/
def RangeRec.globalReset : RangeRec :=
  { RangeRec.absent with present := true, readLock := true, writeLock := true, locksAtRetain := true }

/-- The range records at power-on and after a Zeroize (R44, R166). -/
def rangesReset : Vector RangeRec 16 :=
  (Vector.replicate 16 RangeRec.absent).set 0 RangeRec.globalReset

/-- Every cell EMPTY and zero, no group record, no open load (R61, R63). -/
def KeyStore.cleared : KeyStore :=
  { cells := Vector.replicate 64 { filled := false, bits := 0 },
    groups := Vector.replicate 64 none, load := none }

/-- All four lanes, as a set. -/
def allLanes : Vector Bool 4 := Vector.replicate 4 true

/-- No lane, as a set. -/
def noLanes : Vector Bool 4 := Vector.replicate 4 false

/-- An empty port (R169). -/
def PortQueues.idle : PortQueues := { requests := [], filled := [], reserved := 0 }

/-- The machine right after a power-on reset: WAKING with the POWER_ON self-test run begun (R168, R145). -/
def State.reset : State :=
  { ports := { i := PortQueues.idle, m := PortQueues.idle, s := PortQueues.idle,
               events := { rangeRefused := Vector.replicate 16 false,
                           sweepDone := Vector.replicate 16 false,
                           busFault := false, selfTest := false, retainEntered := false },
               reset := none },
    table := { ranges := rangesReset, capacity := 0, dataUnit := .u512, admission := .sealed },
    keys := KeyStore.cleared,
    jobs := { i := Vector.replicate 32 none, m := Vector.replicate 16 none },
    arbiter := { iClass := .high, mClass := .normal, count := 0, last := none },
    lanes := Vector.replicate 4 { inService := false, work := none, testHold := true },
    bufferPort := { faulted := false, faultAddr := 0, outstanding := [] },
    sweep := { marks := Vector.replicate 16 none, claims := Vector.replicate 16 [], cancelled := [] },
    stage := { stage := .waking, drainCause := none, waitingRetain := none, lastRetain := none,
               delay := 0, mediaCounts := false, remaining := 0,
               testRun := some { cause := .powerOn, under := allLanes, passed := noLanes },
               waitingLaneTest := none,
               selfTest := { runs := 0, cause := none, passed := noLanes } },
    buffer := [], answer := .idle, draws := 0, pending := [] }

end Sys2Proof.Machine
end

