-- ==== Sys2Proof/Machine/Bytes.lean ====
section
/-! DEFINITION. Byte order. Byte 0 is the byte at the lowest address and the least significant byte of a
number (00_scope.md, "Bytes and order"). -/

namespace Sys2Proof.Machine

/-- Byte `i` of a block. -/
def byteAt (b : Block) (i : Nat) : Byte := b.extractLsb' (8 * i) 8

/-- The sixteen bytes of a block. -/
def blockBytes (b : Block) : List Byte := (List.range 16).map (byteAt b)

/-- The block whose bytes are listed, byte 0 first. -/
def blockOf (l : List Byte) : Block :=
  l.foldr (fun x acc => (acc <<< 8) ||| x.setWidth 128) 0

/-- `n` blocks cut from a list of bytes: block j is bytes 16j to 16j + 15 (R8). -/
def blocksOf : Nat → List Byte → List Block
  | 0, _ => []
  | n + 1, l => blockOf (l.take 16) :: blocksOf n (l.drop 16)

/-- The bytes of a list of blocks, in block order. -/
def bytesOfBlocks (bs : List Block) : List Byte := bs.flatMap blockBytes

/-- The number whose bytes are listed, little-endian. -/
def leNat (l : List Byte) : Nat := l.foldr (fun x acc => acc * 256 + x.toNat) 0

/-- The low `n` bytes of a number, little-endian. -/
def leBytes (n v : Nat) : List Byte :=
  (List.range n).map (fun i => BitVec.ofNat 8 (v >>> (8 * i)))

/-- Bytes `at` to `at + n - 1` of a record, read as one number (R178). -/
def recordField (r : Record) (lo n : Nat) : Nat := (r.extractLsb' (8 * lo) (8 * n)).toNat

/-- Byte `k` of a record. -/
def recordByte (r : Record) (k : Nat) : Byte := r.extractLsb' (8 * k) 8

/-- A record assembled from fields (offset, size in bytes, value); bytes no field names are zero (R172). -/
def assemble (fields : List (Nat × Nat × Nat)) : Record :=
  fields.foldr (fun f acc => acc ||| (BitVec.ofNat 256 (f.2.2 % 2 ^ (8 * f.2.1)) <<< (8 * f.1))) 0

end Sys2Proof.Machine
end

