-- ==== Sys2Proof/Machine/Operands.lean ====
section
/-! DEFINITION. Request records: kind codes, headers, bodies and reserved fields (R178, R179), and the
regions a data request names (R66, R70). -/

namespace Sys2Proof.Machine

/-- The kinds a request record can have (R178). -/
inductive Kind where
  | read
  | write
  | claim
  | release
  | sweepQuery
  | recipher
  | screen
  | status
  | formatSet
  | admitRequest
  | sealRequest
  | engineReset
  | zeroize
  | rangeDefine
  | rangeDelete
  | rangeLocks
  | rangeBind
  | rangeRekey
  | rangeErase
  | rangeQuery
  | countClear
  | keyOpen
  | keyPart
  | keyClear
  | keyQuery
  | classSet
  | busRecover
  | inactivitySet
  | retain
  | wake
  | laneTest
deriving DecidableEq, Repr

/-- The kind codes (R178). -/
def Kind.code : Kind → Byte
  | .read => 0x01
  | .write => 0x02
  | .claim => 0x10
  | .release => 0x11
  | .sweepQuery => 0x12
  | .recipher => 0x13
  | .screen => 0x14
  | .status => 0x20
  | .formatSet => 0x21
  | .admitRequest => 0x22
  | .sealRequest => 0x23
  | .engineReset => 0x24
  | .zeroize => 0x25
  | .rangeDefine => 0x30
  | .rangeDelete => 0x31
  | .rangeLocks => 0x32
  | .rangeBind => 0x33
  | .rangeRekey => 0x34
  | .rangeErase => 0x35
  | .rangeQuery => 0x36
  | .countClear => 0x37
  | .keyOpen => 0x40
  | .keyPart => 0x41
  | .keyClear => 0x42
  | .keyQuery => 0x43
  | .classSet => 0x50
  | .busRecover => 0x51
  | .inactivitySet => 0x52
  | .retain => 0x53
  | .wake => 0x54
  | .laneTest => 0x55

/-- The code of an event record (R178). -/
def eventCode : Byte := 0x7F

/-- The kinds each port takes (R178). R178's list of the S-port does not name COUNT_CLEAR, its table of kinds does,
and R32 and R43 take it on the S-port: it is taken there (DEDUCED, unsafe; log entry 31). -/
def portKinds : Port → List Kind
  | .i => [.read, .write]
  | .m => [.claim, .release, .sweepQuery, .recipher, .screen]
  | .s => [.sweepQuery, .status, .formatSet, .admitRequest, .sealRequest, .engineReset, .zeroize,
           .rangeDefine, .rangeDelete, .rangeLocks, .rangeBind, .rangeRekey, .rangeErase, .rangeQuery,
           .countClear, .keyOpen, .keyPart, .keyClear, .keyQuery, .classSet, .busRecover,
           .inactivitySet, .retain, .wake, .laneTest]

/-- Whether a port takes records of a kind code (R178). -/
def portTakesCode (p : Port) (code : Byte) : Bool := (portKinds p).any (fun k => k.code == code)

/-- The kind code of a record, byte 0. -/
def kindCode (r : Record) : Byte := recordByte r 0

/-- The tag of a record, bytes 2 and 3. -/
def recordTag (r : Record) : Tag := r.extractLsb' 16 16

/-- The flag "verdict list present", bit 0 of byte 1 (R66, R178). -/
def listFlag (r : Record) : Bool := (recordByte r 1).getLsbD 0

/-- Byte numbers `a` to `b`, both inclusive. -/
def byteSpan (a b : Nat) : List Nat := List.range' a (b + 1 - a)

/-- Whether every byte of a record but the kind code, the tag and the assigned ones is zero (R178). The
flags byte is assigned only where `assigned` lists it. -/
def reservedZero (r : Record) (assigned : List Nat) : Bool :=
  (List.range 32).all (fun k => k == 0 || k == 2 || k == 3 || assigned.contains k || recordByte r k == 0)

/-- Whether the flags byte holds no flag but "verdict list present" (R69, R178). -/
def flagsOk (r : Record) : Bool := (recordByte r 1) &&& 0xFE == 0

/-- Whether a locks byte holds no bit but its three (R178, RANGE_DEFINE). -/
def locksOk (r : Record) : Bool := (recordByte r 5) &&& 0xF8 == 0

/-- The start LBA, bytes 4 to 8 (R178). -/
def startOf (r : Record) : Nat := recordField r 4 5

/-- The sector count, bytes 10 and 11 (R178). -/
def countOf (r : Record) : Nat := recordField r 10 2

/-- The source address, bytes 12 to 16 (R178). -/
def sourceOf (r : Record) : Nat := recordField r 12 5

/-- The destination address, bytes 20 to 24 (R178). -/
def destOf (r : Record) : Nat := recordField r 20 5

/-- The verdict-list address field, bytes 27 to 31 (R178). -/
def listOf (r : Record) : Nat := recordField r 27 5

/-- The verdict-list address of a request that asked for a list (R66). -/
def listAddr (r : Record) : Option Nat := if listFlag r then some (listOf r) else none

/-- The assigned body bytes of READ, WRITE and RECIPHER; the verdict-list address is reserved while its
flag is clear (R66, R178). -/
def jobBytes (r : Record) : List Nat :=
  [1] ++ byteSpan 4 8 ++ byteSpan 10 16 ++ byteSpan 20 24 ++ (if listFlag r then byteSpan 27 31 else [])

/-- The assigned bytes of SCREEN: the destination address is reserved (R137, R178). -/
def screenBytes : List Nat := [1] ++ byteSpan 4 8 ++ byteSpan 10 16 ++ byteSpan 27 31

/-- Whether a count lies outside 1 to 256 (R69, R124). -/
def countBad (n : Nat) : Bool := n == 0 || decide (n > Config.maxCount)

/-- The field check of READ, WRITE and RECIPHER, check 2 of R68: true where it fails (R69). -/
def jobFieldBad (r : Record) : Bool :=
  countBad (countOf r) || !(flagsOk r) || !(reservedZero r (jobBytes r))

/-- The field check of SCREEN, which must ask for a verdict list (R137): true where it fails. -/
def screenFieldBad (r : Record) : Bool :=
  countBad (countOf r) || !(flagsOk r) || !(listFlag r) || !(reservedZero r screenBytes)

/-- A region of buffer memory: base and length in bytes (R70). -/
structure Region where
  base : Nat
  len  : Nat
deriving DecidableEq, Repr

/-- Whether two regions share a byte (R70). -/
def regionsShare (a b : Region) : Bool :=
  decide (a.base < b.base + b.len) && decide (b.base < a.base + a.len)

/-- Check 3 of R68: some base is not a multiple of 8. -/
def misalignedIn (rs : List Region) : Bool := rs.any (fun a => a.base % 8 != 0)

/-- Check 4 of R68: some region runs past byte 2^40 - 1. -/
def pastBuffer (rs : List Region) : Bool := rs.any (fun a => decide (a.base + a.len > Config.bufferBytes))

/-- Check 5 of R68: some two of the regions share a byte. -/
def overlapIn : List Region → Bool
  | [] => false
  | a :: rs => rs.any (regionsShare a) || overlapIn rs

/-- The verdict-list region, where one is asked for (R70). -/
def listRegion (r : Record) : List Region :=
  match listAddr r with
  | some a => [{ base := a, len := countOf r }]
  | none => []

/-- The range index byte as written, byte 4. -/
def indexOf (r : Record) : Nat := recordField r 4 1

/-- The range index of a record whose index byte is 0 to 15 (R179: read as the whole number). -/
def rangeOf (r : Record) : Option RangeId :=
  if h : indexOf r < 16 then some ⟨indexOf r, h⟩ else none

/-- A cell number field of 0 to 63 (R179). -/
def cellOf (n : Nat) : Option CellId := if h : n < 64 then some ⟨n, h⟩ else none

/-- The group base cell byte of RANGE_BIND, RANGE_REKEY and RANGE_ERASE, byte 5 (R178). -/
def groupByte (r : Record) : Nat := recordField r 5 1

/-- The epoch of RANGE_BIND, RANGE_REKEY and RANGE_ERASE, bytes 8 to 11 (R178). -/
def epochOf (r : Record) : Epoch := r.extractLsb' 64 32

/-- The strength a code names (R178, R179). -/
def strengthOfCode (n : Nat) : Option Strength :=
  if n = 1 then some .s128 else if n = 2 then some .s256 else none

/-- The class a code names (R178, R179). -/
def classOfCode (n : Nat) : Option PortClass :=
  if n = 0 then some .normal else if n = 1 then some .high else none

/-- The data unit a byte count names (R159, R179). -/
def unitOfBytes (n : Nat) : Option DataUnit :=
  if n = 512 then some .u512 else if n = 4096 then some .u4096 else none

/-- The first check that applies gives the status; none where every check passes. -/
def firstRefusal : List (Bool × Status) → Option Status
  | [] => none
  | (failed, st) :: rest => if failed then some st else firstRefusal rest

end Sys2Proof.Machine
end

