-- ==== Sys2Proof/Machine/Flags.lean ====
section
/-! DEFINITION. Status, verdict and state codes, and the byte layout of every completion record (R178). -/

namespace Sys2Proof.Machine

/-- The status codes (R178). -/
def Status.code : Status → Nat
  | .ok => 0x00
  | .partly => 0x01
  | .badKind => 0x02
  | .badField => 0x03
  | .misaligned => 0x04
  | .outOfBuffer => 0x05
  | .overlap => 0x06
  | .outOfRange => 0x07
  | .isSealed => 0x08
  | .locked => 0x09
  | .noKey => 0x0A
  | .fragmented => 0x0B
  | .retaining => 0x0C
  | .laneFault => 0x0D
  | .busFault => 0x0E
  | .aborted => 0x0F
  | .zeroized => 0x10
  | .noClaim => 0x11
  | .claimLimit => 0x12
  | .claimOrder => 0x13
  | .notSweeping => 0x14
  | .sweepCancelled => 0x15
  | .sweepActive => 0x16
  | .occupied => 0x17
  | .noLoad => 0x18
  | .cellRepeat => 0x19
  | .badGroup => 0x1A
  | .bound => 0x1B
  | .alreadyKeyed => 0x1C
  | .epochClash => 0x1D
  | .rangeOverlap => 0x1E
  | .rangePresent => 0x1F
  | .notSealed => 0x20
  | .formatUnset => 0x21
  | .busy => 0x22

/-- The verdict codes (R178). -/
def Verdict.code : Verdict → Byte
  | .done => 0x01
  | .blank => 0x02
  | .retired => 0x03
  | .checkFail => 0x04
  | .notDone => 0x05
  | .reciphered => 0x06
  | .alreadyCurrent => 0x07
  | .overtaken => 0x08
  | .liveCurrent => 0x09
  | .livePrevious => 0x0A

/-- The stage codes (R178). -/
def Stage.code : Stage → Nat
  | .waking => 1
  | .run => 2
  | .draining => 3
  | .retain => 4
  | .failed => 5

/-- The strength codes (R178). -/
def Strength.code : Strength → Nat
  | .s128 => 1
  | .s256 => 2

/-- The group state codes; EMPTY, no record, is 0 (R178). -/
def GroupState.code : GroupState → Nat
  | .loading => 1
  | .filled => 2
  | .retiring => 3

/-- The bound-to slot codes; none is 0 (R178). -/
def Slot.code : Slot → Nat
  | .current => 1
  | .previous => 2

/-- The claim state codes; no claim is 0 (R178). -/
def ClaimState.code : ClaimState → Nat
  | .claimed => 1
  | .reciphering => 2
  | .done => 3

/-- The self-test cause codes; none is 0 (R178). -/
def testCauseCode : Option TestCause → Nat
  | none => 0
  | some .powerOn => 1
  | some .wake => 2
  | some .request => 3

/-- The retain cause codes; none is 0 (R178). -/
def retainCauseCode : Option RetainCause → Nat
  | none => 0
  | some .request => 1
  | some .inactivity => 2

/-- A flag as bit `n` of a byte. -/
def bitAt (n : Nat) (b : Bool) : Nat := if b then 2 ^ n else 0

/-- A set of lanes, bit n for lane n (R178). -/
def laneMask (v : Vector Bool 4) : Nat :=
  bitAt 0 (v.get 0) + bitAt 1 (v.get 1) + bitAt 2 (v.get 2) + bitAt 3 (v.get 3)

/-- The layout of an event record's body (R178, EVENT). -/
def eventFields : EventRecord → List (Nat × Nat × Nat)
  | .rangeRefused r n => [(4, 1, 1), (5, 1, r.1), (6, 2, n)]
  | .sweepDone r e => [(4, 1, 2), (5, 1, r.1), (8, 4, e.toNat)]
  | .busFault a => [(4, 1, 3), (8, 5, a)]
  | .selfTest t => [(4, 1, 4), (5, 1, testCauseCode t.cause), (6, 1, laneMask t.passed), (8, 2, t.runs.toNat)]
  | .retainEntered c => [(4, 1, 5), (5, 1, retainCauseCode c)]

/-- A binding's base cell. While the binding is absent it is 0: R178 says so of an ABSENT range alone, and for a PRESENT
one it is the model's choice (DESIGN CHOICE, unsafe; log entry 29). -/
def bindingBase : Option Binding → Nat
  | some b => b.group.1
  | none => 0

/-- A binding's epoch. While the binding is absent it is 0: R178 says so of an ABSENT range alone, and for a PRESENT one
it is the model's choice (DESIGN CHOICE, unsafe; log entry 29). -/
def bindingEpoch : Option Binding → Nat
  | some b => b.epoch.toNat
  | none => 0

/-- The layout of a RANGE_QUERY completion's body (R42, R178). Bytes 6 and 18 to 21 of a PRESENT range without a current
binding, and bytes 7 and 22 to 25 of one without a previous binding, are 0: neither rule gives them a value (DESIGN CHOICE,
unsafe; log entry 29). -/
def rangeFields (r : RangeId) (e : RangeRec) : List (Nat × Nat × Nat) :=
  [(4, 1, r.1),
   (5, 1, bitAt 0 e.present + bitAt 1 e.readLock + bitAt 2 e.writeLock + bitAt 3 e.locksAtRetain +
      bitAt 4 e.current.isSome + bitAt 5 e.previous.isSome),
   (6, 1, bindingBase e.current), (7, 1, bindingBase e.previous), (8, 5, e.first), (13, 5, e.last),
   (18, 4, bindingEpoch e.current), (22, 4, bindingEpoch e.previous), (26, 2, e.refusals)]

/-- Field `f` of the `n`-th reported claim, 0 where there is no such claim (R178). -/
def claimField (q : SweepReport) (n : Nat) (f : ClaimReport → Nat) : Nat :=
  match q.claims[n]? with
  | some c => f c
  | none => 0

/-- The layout of a SWEEP_QUERY completion's body (R122, R140, R178). -/
def sweepFields (q : SweepReport) : List (Nat × Nat × Nat) :=
  [(4, 1, q.range.1),
   (5, 1, bitAt 0 q.mark.isSome + bitAt 1 (q.next == some none) +
      4 * claimField q 0 (fun c => c.state.code) + 16 * claimField q 1 (fun c => c.state.code)),
   (6, 1, claimField q 0 (fun c => c.count - 1)), (7, 1, claimField q 1 (fun c => c.count - 1)),
   (8, 5, q.mark.getD 0), (13, 5, (q.next.getD none).getD 0),
   (18, 5, claimField q 0 (fun c => c.first)), (23, 5, claimField q 1 (fun c => c.first)),
   (28, 2, claimField q 0 (fun c => c.overtaken)), (30, 2, claimField q 1 (fun c => c.overtaken))]

/-- The layout of a KEY_QUERY completion's body (R60, R178). Three fields are 0 where what they name is absent, and R178's
list of fields left zero names none of them: byte 8, the strength code, for a cell in no group, whose strength is none; byte
10, the bound-to range, while bound-to is none; bytes 14 and 15, the waiting clear's tag, while no clear waits (DESIGN
CHOICE, unsafe; log entry 29). -/
def keyFields (q : KeyReport) : List (Nat × Nat × Nat) :=
  match q.group with
  | none => [(4, 1, q.cell.1), (5, 1, q.cell.1), (6, 1, bitAt 0 q.cellFilled + bitAt 1 true)]
  | some (base, g) =>
      [(4, 1, q.cell.1), (5, 1, base.1),
       (6, 1, bitAt 0 q.cellFilled + bitAt 2 g.waitingClear.isSome),
       (7, 1, g.state.code), (8, 1, g.strength.code), (9, 1, q.filled),
       (10, 1, match g.bound with | some b => b.range.1 | none => 0),
       (11, 1, match g.bound with | some b => b.slot.code | none => 0),
       (12, 1, g.pins), (14, 2, match g.waitingClear with | some t => t.toNat | none => 0)]

/-- The layout of a STATUS completion's body (R177, R178). While no load is open, bytes 27 to 29, the open load's base cell,
strength code and cells filled, are 0: R50 and R178 give them no value then, and 0 is no strength code (DESIGN CHOICE,
unsafe; log entry 29). -/
def statusFields (q : StatusReport) : List (Nat × Nat × Nat) :=
  [(4, 1, q.stage.code),
   (5, 1, bitAt 0 (q.admission == .opened) + bitAt 1 q.faulted + bitAt 2 (q.dataUnit == .u4096) +
      bitAt 3 q.load.isSome),
   (6, 1, laneMask q.inService), (7, 1, laneMask q.selfTest.passed), (8, 6, q.capacity),
   (14, 5, q.faultAddr), (19, 1, testCauseCode q.selfTest.cause), (20, 2, q.selfTest.runs.toNat),
   (22, 2, q.remaining), (24, 1, q.iJobs), (25, 1, q.mJobs), (26, 1, q.claims),
   (27, 1, match q.load with | some l => l.base.1 | none => 0),
   (28, 1, match q.load with | some l => l.strength.code | none => 0),
   (29, 1, match q.load with | some l => l.parts.length | none => 0)]

/-- The layout of a completion body (R178). -/
def Body.fields : Body → List (Nat × Nat × Nat)
  | .empty => []
  | .data done blank fault first => [(4, 2, done), (6, 2, blank), (8, 2, fault), (10, 5, first)]
  | .recipher n already fault first overtaken =>
      [(4, 2, n), (6, 2, already), (8, 2, fault), (10, 5, first), (16, 2, overtaken)]
  | .screen live retired => [(4, 2, live), (6, 2, retired)]
  | .claim r next => [(4, 1, r.1), (5, 1, bitAt 0 next.isNone), (8, 5, next.getD 0)]
  | .sweep q => sweepFields q
  | .range r e => rangeFields r e
  | .keyLoad abandoned complete filled =>
      [(4, 1, bitAt 0 abandoned + bitAt 1 complete), (5, 1, filled)]
  | .keyQuery q => keyFields q
  | .laneTest passed runs => [(4, 1, laneMask passed), (6, 2, runs.toNat)]
  | .reset iJobs mJobs iRecords mRecords =>
      [(4, 1, iJobs), (5, 1, mJobs), (6, 1, iRecords), (7, 1, mRecords)]
  | .status q => statusFields q
  | .event e => eventFields e

/-- The 32 bytes of a completion record (R178); bytes its layout does not assign are zero (R172). -/
def Completion.record (c : Completion) : Record :=
  assemble ([(0, 1, c.kind.toNat), (1, 1, c.status.code), (2, 2, c.tag.toNat)] ++ c.body.fields)

end Sys2Proof.Machine
end

