-- ==== Sys2Proof/Machine/Memory.lean ====
section
/-! DEFINITION. The shared buffer memory (00_scope.md, "Buffer memory"): (address, byte) pairs in one
canonical form, addresses strictly rising and no pair equal to what an unlisted address reads as. -/

namespace Sys2Proof.Machine

/-- Buffer memory. -/
abbrev Memory := List Host.Cell

/-- What an address that is not listed reads as. The manual gives buffer memory no contents of its own.
DESIGN CHOICE, log entry 5. -/
def unlistedByte : Byte := 0

/-- The canonical form, from a lowest address on. -/
def Memory.wfFrom (lo : Nat) : Memory → Bool
  | [] => true
  | (a, v) :: m => decide (lo ≤ a) && (v != unlistedByte) && Memory.wfFrom (a + 1) m

/-- The canonical form of a memory. -/
def Memory.wf (m : Memory) : Bool := Memory.wfFrom 0 m

/-- The byte at an address. -/
def readByte : Memory → Nat → Byte
  | [], _ => unlistedByte
  | (b, v) :: m, a => if b = a then v else readByte m a

/-- A memory with one byte written. -/
def writeByte : Memory → Nat → Byte → Memory
  | [], a, v => if v = unlistedByte then [] else [(a, v)]
  | (b, w) :: m, a, v =>
      if b < a then (b, w) :: writeByte m a v
      else if b = a then (if v = unlistedByte then m else (a, v) :: m)
      else if v = unlistedByte then (b, w) :: m
      else (a, v) :: (b, w) :: m

/-- The `n` bytes from an address on. -/
def readBytes (m : Memory) (a n : Nat) : List Byte := (List.range' a n).map (readByte m)

/-- A memory with the listed bytes written from an address on. -/
def writeBytes : Memory → Nat → List Byte → Memory
  | m, _, [] => m
  | m, a, v :: vs => writeBytes (writeByte m a v) (a + 1) vs

/-- A memory after a write that was cut off: each byte is old or new, as the free value has it, `n` being
the number of the cut write and `i` the byte's place in it (R16, R82; log entry 6). -/
def cutBytes (n : Nat) : Nat → Memory → Nat → List Byte → Memory
  | _, m, _, [] => m
  | i, m, a, v :: vs =>
      cutBytes n (i + 1) (if Config.cutLands n i then writeByte m a v else m) (a + 1) vs

end Sys2Proof.Machine
end

