-- ==== Sys2Proof/Machine/Aes.lean ====
section
/-! DEFINITION. AES with 128-bit and 256-bit keys as FIPS PUB 197 specifies it: the block cipher E_K and
its inverse D_K of R7. The manual names that standard and does not reproduce its rounds; the tables and
rounds below are the standard's (PRESUMED, log entry 7). -/

namespace Sys2Proof.Machine

/-- The S-box of FIPS PUB 197, sixteen entries a row, the row's first entry in its highest byte. -/
def sboxRows : List Block :=
  [0x637c777bf26b6fc53001672bfed7ab76#128,
   0xca82c97dfa5947f0add4a2af9ca472c0#128,
   0xb7fd9326363ff7cc34a5e5f171d83115#128,
   0x04c723c31896059a071280e2eb27b275#128,
   0x09832c1a1b6e5aa0523bd6b329e32f84#128,
   0x53d100ed20fcb15b6acbbe394a4c58cf#128,
   0xd0efaafb434d338545f9027f503c9fa8#128,
   0x51a3408f929d38f5bcb6da2110fff3d2#128,
   0xcd0c13ec5f974417c4a77e3d645d1973#128,
   0x60814fdc222a908846eeb814de5e0bdb#128,
   0xe0323a0a4906245cc2d3ac629195e479#128,
   0xe7c8376d8dd54ea96c56f4ea657aae08#128,
   0xba78252e1ca6b4c6e8dd741f4bbd8b8a#128,
   0x703eb5664803f60e613557b986c11d9e#128,
   0xe1f8981169d98e949b1e87e9ce5528df#128,
   0x8ca1890dbfe6426841992d0fb054bb16#128]

/-- The inverse S-box of FIPS PUB 197, laid out as `sboxRows`. -/
def invSboxRows : List Block :=
  [0x52096ad53036a538bf40a39e81f3d7fb#128,
   0x7ce339829b2fff87348e4344c4dee9cb#128,
   0x547b9432a6c2233dee4c950b42fac34e#128,
   0x082ea16628d924b2765ba2496d8bd125#128,
   0x72f8f66486689816d4a45ccc5d65b692#128,
   0x6c704850fdedb9da5e154657a78d9d84#128,
   0x90d8ab008cbcd30af7e45805b8b34506#128,
   0xd02c1e8fca3f0f02c1afbd0301138a6b#128,
   0x3a9111414f67dcea97f2cfcef0b4e673#128,
   0x96ac7422e7ad3585e2f937e81c75df6e#128,
   0x47f11a711d29c5896fb7620eaa18be1b#128,
   0xfc563e4bc6d279209adbc0fe78cd5af4#128,
   0x1fdda8338807c731b11210592780ec5f#128,
   0x60517fa919b54a0d2de57a9f93c99cef#128,
   0xa0e03b4dae2af5b0c8ebbb3c83539961#128,
   0x172b047eba77d626e169146355210c7d#128]

/-- Entry `x` of a substitution table. -/
def boxEntry (rows : List Block) (x : Byte) : Byte :=
  (rows.getD (x.toNat / 16) 0).extractLsb' (8 * (15 - x.toNat % 16)) 8

/-- SubBytes on one byte. -/
def subByte (x : Byte) : Byte := boxEntry sboxRows x

/-- InvSubBytes on one byte. -/
def invSubByte (x : Byte) : Byte := boxEntry invSboxRows x

/-- SubBytes. -/
def subBytes (st : List Byte) : List Byte := st.map subByte

/-- InvSubBytes. -/
def invSubBytes (st : List Byte) : List Byte := st.map invSubByte

/-- ShiftRows. Byte i of the state stands in row i mod 4 and column i / 4; row r turns left by r columns. -/
def shiftRows (st : List Byte) : List Byte :=
  (List.range 16).map (fun i => st.getD ((i + 4 * (i % 4)) % 16) 0)

/-- InvShiftRows. -/
def invShiftRows (st : List Byte) : List Byte :=
  (List.range 16).map (fun i => st.getD ((i + 12 * (i % 4)) % 16) 0)

/-- Multiplication by x in GF(2^8) modulo x^8 + x^4 + x^3 + x + 1. -/
def xtime (b : Byte) : Byte := (b <<< 1) ^^^ (if b.msb then 0x1b#8 else 0#8)

/-- MixColumns, four bytes a column. -/
def mixColumns : List Byte → List Byte
  | a :: b :: c :: d :: rest =>
      (xtime a ^^^ (xtime b ^^^ b) ^^^ c ^^^ d) ::
      (a ^^^ xtime b ^^^ (xtime c ^^^ c) ^^^ d) ::
      (a ^^^ b ^^^ xtime c ^^^ (xtime d ^^^ d)) ::
      ((xtime a ^^^ a) ^^^ b ^^^ c ^^^ xtime d) :: mixColumns rest
  | _ => []

/-- Multiplication by 9 in GF(2^8). -/
def mul9 (b : Byte) : Byte := xtime (xtime (xtime b)) ^^^ b

/-- Multiplication by 11 in GF(2^8). -/
def mul11 (b : Byte) : Byte := xtime (xtime (xtime b)) ^^^ xtime b ^^^ b

/-- Multiplication by 13 in GF(2^8). -/
def mul13 (b : Byte) : Byte := xtime (xtime (xtime b)) ^^^ xtime (xtime b) ^^^ b

/-- Multiplication by 14 in GF(2^8). -/
def mul14 (b : Byte) : Byte := xtime (xtime (xtime b)) ^^^ xtime (xtime b) ^^^ xtime b

/-- InvMixColumns. -/
def invMixColumns : List Byte → List Byte
  | a :: b :: c :: d :: rest =>
      (mul14 a ^^^ mul11 b ^^^ mul13 c ^^^ mul9 d) ::
      (mul9 a ^^^ mul14 b ^^^ mul11 c ^^^ mul13 d) ::
      (mul13 a ^^^ mul9 b ^^^ mul14 c ^^^ mul11 d) ::
      (mul11 a ^^^ mul13 b ^^^ mul9 c ^^^ mul14 d) :: invMixColumns rest
  | _ => []

/-- A word of the key schedule, byte 0 least significant. -/
abbrev KeyWord := BitVec 32

/-- SubWord. -/
def subWord (w : KeyWord) : KeyWord :=
  (subByte (w.extractLsb' 0 8)).setWidth 32 ||| ((subByte (w.extractLsb' 8 8)).setWidth 32 <<< 8) |||
  ((subByte (w.extractLsb' 16 8)).setWidth 32 <<< 16) ||| ((subByte (w.extractLsb' 24 8)).setWidth 32 <<< 24)

/-- RotWord: the first byte becomes the last. -/
def rotWord (w : KeyWord) : KeyWord := (w >>> 8) ||| (w <<< 24)

/-- What word `i` of the schedule adds to word `i - nk`, from the word before it and the round constant
in effect. -/
def scheduleTerm (nk i : Nat) (rcon : Byte) (prev : KeyWord) : KeyWord :=
  if i % nk = 0 then subWord (rotWord prev) ^^^ rcon.setWidth 32
  else if nk > 6 ∧ i % nk = 4 then subWord prev
  else prev

/-- The key schedule's words, latest first, extended by `n` words from index `i` on. -/
def extendSchedule (nk : Nat) : Nat → Nat → Byte → List KeyWord → List KeyWord
  | 0, _, _, ws => ws
  | n + 1, i, rcon, ws =>
      extendSchedule nk n (i + 1) (if i % nk = 0 then xtime rcon else rcon)
        ((ws.getD (nk - 1) 0 ^^^ scheduleTerm nk i rcon (ws.getD 0 0)) :: ws)

/-- The `nk` words of a key, byte 0 of the key first. -/
def keyWordsOf (nk : Nat) (key : List Byte) : List KeyWord :=
  (List.range nk).map (fun i => (blockOf ((key.drop (4 * i)).take 4)).setWidth 32)

/-- Four schedule words as one round key. -/
def roundKeysOf : List KeyWord → List Block
  | a :: b :: c :: d :: rest =>
      (a.setWidth 128 ||| (b.setWidth 128 <<< 32) ||| (c.setWidth 128 <<< 64) ||| (d.setWidth 128 <<< 96)) ::
      roundKeysOf rest
  | _ => []

/-- The round keys of a key of 16 bytes (eleven) or 32 bytes (fifteen). -/
def expandKey (key : List Byte) : List Block :=
  let nk := key.length / 4
  roundKeysOf (extendSchedule nk (4 * (nk + 7) - nk) nk 1 (keyWordsOf nk key).reverse).reverse

/-- The rounds of the cipher after the first AddRoundKey; the last round has no MixColumns. -/
def cipherRounds : List Block → Block → Block
  | [], st => st
  | [k], st => blockOf (shiftRows (subBytes (blockBytes st))) ^^^ k
  | k :: ks, st => cipherRounds ks (blockOf (mixColumns (shiftRows (subBytes (blockBytes st)))) ^^^ k)

/-- The rounds of the inverse cipher, each undoing one round of `cipherRounds`, last round first. -/
def invCipherRounds : List Block → Block → Block
  | [], st => st
  | [k], st => blockOf (invSubBytes (invShiftRows (blockBytes (st ^^^ k))))
  | k :: ks, st =>
      blockOf (invSubBytes (invShiftRows (invMixColumns (blockBytes (invCipherRounds ks st ^^^ k)))))

/-- The cipher under given round keys. -/
def cipherWith : List Block → Block → Block
  | [], b => b
  | k :: ks, b => cipherRounds ks (b ^^^ k)

/-- The inverse cipher under given round keys. -/
def invCipherWith : List Block → Block → Block
  | [], b => b
  | k :: ks, b => invCipherRounds ks b ^^^ k

/-- E_K (R7). -/
def aesEncipher (key : List Byte) (b : Block) : Block := cipherWith (expandKey key) b

/-- D_K (R7). -/
def aesDecipher (key : List Byte) (b : Block) : Block := invCipherWith (expandKey key) b

end Sys2Proof.Machine
end

