-- ==== Sys2Proof/Machine/SectorTransform.lean ====
section
/-! DEFINITION. The arithmetic of one sector: forms, tweak, block transform, check and mask, and what a lane
computes in TRANSFORMING (01_sector_cipher.md, R1 to R20). -/

namespace Sys2Proof.Machine

/-- Bytes of a data unit (R1). -/
def DataUnit.bytes : DataUnit → Nat
  | .u512 => 512
  | .u4096 => 4096

/-- Blocks of a data unit, n of R8. -/
def DataUnit.blocks : DataUnit → Nat
  | .u512 => 32
  | .u4096 => 256

/-- The stride of the plain form (R1). -/
def DataUnit.plainStride (u : DataUnit) : Nat := u.bytes

/-- The stride of the cipher form (R1). -/
def DataUnit.cipherStride (u : DataUnit) : Nat := u.bytes + 8

/-- The address of sector `k` of a region (R1). -/
def sectorAddr (base stride k : Nat) : Nat := base + k * stride

/-- The eight trailer bytes (R2, R178). -/
def trailerBytes (t : Trailer) : List Byte := leBytes 4 t.epoch.toNat ++ leBytes 4 t.check.toNat

/-- The trailer that eight bytes hold (R2, R178). -/
def trailerOf (l : List Byte) : Trailer :=
  { epoch := BitVec.ofNat 32 (leNat (l.take 4)), check := BitVec.ofNat 32 (leNat ((l.drop 4).take 4)) }

/-- The data key K1 and the tweak key K2 of a group (R3). -/
structure GroupKeys where
  k1 : List Byte
  k2 : List Byte
deriving DecidableEq, Repr

/-- The sixteen bytes of cell `c`, in the order its Key Part carried them (R3, R45). -/
def cellBytes (ks : KeyStore) (c : Nat) : List Byte :=
  blockBytes ((ks.cells[c]?.map KeyCell.bits).getD 0)

/-- K1 and K2 of the group based at `g`, by its strength (R3); none where no record stands. -/
def groupKeys (ks : KeyStore) (g : CellId) : Option GroupKeys :=
  match ks.groups.get g with
  | none => none
  | some e =>
      match e.strength with
      | .s128 => some { k1 := cellBytes ks g.1, k2 := cellBytes ks (g.1 + 1) }
      | .s256 => some { k1 := cellBytes ks g.1 ++ cellBytes ks (g.1 + 1),
                        k2 := cellBytes ks (g.1 + 2) ++ cellBytes ks (g.1 + 3) }

/-- The tweak block of a sector: its LBA as a 128-bit little-endian number (R4). -/
def tweakBlock (lba : Nat) : Block := BitVec.ofNat 128 lba

/-- T0 (R5). -/
def initialTweak (k : GroupKeys) (lba : Nat) : Block := aesEncipher k.k2 (tweakBlock lba)

/-- One doubling (R6). -/
def doubleTweak (t : Block) : Block := (t <<< 1) ^^^ (if t.msb then 0x87#128 else 0#128)

/-- T_j from T0 (R6). -/
def tweakAt (t0 : Block) : Nat → Block
  | 0 => t0
  | j + 1 => doubleTweak (tweakAt t0 j)

/-- C_j = E_K1(P_j xor T_j) xor T_j for each block, the tweak doubling from block to block (R8). -/
def encipherBlocks (k1 : List Byte) : Block → List Block → List Block
  | _, [] => []
  | t, p :: ps => (aesEncipher k1 (p ^^^ t) ^^^ t) :: encipherBlocks k1 (doubleTweak t) ps

/-- P_j = D_K1(C_j xor T_j) xor T_j for each block (R9). -/
def decipherBlocks (k1 : List Byte) : Block → List Block → List Block
  | _, [] => []
  | t, c :: cs => (aesDecipher k1 (c ^^^ t) ^^^ t) :: decipherBlocks k1 (doubleTweak t) cs

/-- The ciphertext data unit of a plaintext data unit of `n` blocks at an LBA (R8). -/
def encipherUnit (k : GroupKeys) (lba n : Nat) (unit : List Byte) : List Byte :=
  bytesOfBlocks (encipherBlocks k.k1 (initialTweak k lba) (blocksOf n unit))

/-- The plaintext data unit of a ciphertext data unit of `n` blocks at an LBA (R9). -/
def decipherUnit (k : GroupKeys) (lba n : Nat) (unit : List Byte) : List Byte :=
  bytesOfBlocks (decipherBlocks k.k1 (initialTweak k lba) (blocksOf n unit))

/-- One step of the CRC register (R10). -/
def crcStep (c : BitVec 32) : BitVec 32 :=
  (c >>> 1) ^^^ (if c.getLsbD 0 then 0xEDB88320#32 else 0#32)

/-- One byte into the CRC register: exclusive-OR into its low 8 bits, then eight steps (R10). -/
def crcByte (c : BitVec 32) (b : Byte) : BitVec 32 := Nat.repeat crcStep 8 (c ^^^ b.setWidth 32)

/-- The check: the CRC-32 of a plaintext data unit (R10). -/
def crc32 (l : List Byte) : BitVec 32 := l.foldl crcByte 0xFFFFFFFF#32 ^^^ 0xFFFFFFFF#32

/-- The mask: bytes 0 to 3 of T_n (R11). -/
def sectorMask (k : GroupKeys) (lba n : Nat) : BitVec 32 :=
  (tweakAt (initialTweak k lba) n).setWidth 32

/-- The masked check of a plaintext data unit of `n` blocks (R11). -/
def maskedCheck (k : GroupKeys) (lba n : Nat) (plain : List Byte) : BitVec 32 :=
  crc32 plain ^^^ sectorMask k lba n

/-- The cipher-form sector: the ciphertext data unit, then its trailer (R1, R17). -/
def cipherSector (k : GroupKeys) (epoch : Epoch) (lba n : Nat) (plain : List Byte) : List Byte :=
  encipherUnit k lba n plain ++ trailerBytes { epoch := epoch, check := maskedCheck k lba n plain }

/-- How a transform ends: with a complete result sector, or with a verdict and no result (R14). -/
inductive TransformResult where
  | result (bytes : List Byte)
  | verdict (v : Verdict)
deriving DecidableEq, Repr

/-- The decipher half: the plaintext when the recomputed masked check equals the trailer's (R11, R19). -/
def decipherChecked (k : GroupKeys) (lba n : Nat) (t : Trailer) (unit : List Byte) :
    Option (List Byte) :=
  let plain := decipherUnit k lba n unit
  if maskedCheck k lba n plain = t.check then some plain else none

/-- What a lane holds at the end of its transform (R14, R17, R19, R20). None where the work names no key
group that stands, which the pin law rules out (R55; log entry 24). -/
def transformWork (ks : KeyStore) (n : Nat) (w : Work) : Option TransformResult :=
  match w.op with
  | .encipher =>
      match w.curGroup.bind (groupKeys ks), w.curEpoch with
      | some k, some e => some (.result (cipherSector k e w.lba n w.held))
      | _, _ => none
  | .decipher =>
      match w.chosen.bind (groupKeys ks), w.trailer with
      | some k, some t =>
          match decipherChecked k w.lba n t w.held with
          | some plain => some (.result plain)
          | none => some (.verdict .checkFail)
      | _, _ => none
  | .recipher =>
      match w.chosen.bind (groupKeys ks), w.trailer, w.curGroup.bind (groupKeys ks), w.curEpoch with
      | some k, some t, some kc, some e =>
          match decipherChecked k w.lba n t w.held with
          | some plain => some (.result (cipherSector kc e w.lba n plain))
          | none => some (.verdict .checkFail)
      | _, _, _, _ => none
  | .screen => none

end Sys2Proof.Machine
end

