-- ==== Sys2Proof/Machine/Ops.lean ====
section
/-! DEFINITION. The named operations over the Port Block, the Range Table, the Key Store and the Sweep Unit:
taking a record and posting its completion (R171, R172), events (R175), resolution and segments (R26 to
R29), groups and pins (R46 to R58), marks and claims (R105 to R128). -/

namespace Sys2Proof.Machine

/-- A vector with element `i` replaced. -/
def put {α : Type} {n : Nat} (v : Vector α n) (i : Fin n) (x : α) : Vector α n := v.set i.1 x i.2

/-! ## Ports -/

/-- The queues of a port. -/
def State.port (s : State) : Port → PortQueues
  | .i => s.ports.i
  | .m => s.ports.m
  | .s => s.ports.s

/-- The state with a port's queues replaced. -/
def State.setPort (s : State) (p : Port) (q : PortQueues) : State :=
  match p with
  | .i => { s with ports := { s.ports with i := q } }
  | .m => { s with ports := { s.ports with m := q } }
  | .s => { s with ports := { s.ports with s := q } }

/-- The port of a side. -/
def sidePort : Side → Port
  | .i => .i
  | .m => .m

/-- The port of a Sweep Query. -/
def queryPort : QueryPort → Port
  | .m => .m
  | .s => .s

/-- Whether a completion queue has a free place: neither filled nor reserved (R169, R171). -/
def hasPlace (q : PortQueues) : Bool :=
  decide (q.filled.length + q.reserved < Config.completionPlaces)

/-- Free request places, the count at offset 0x40 (R169). -/
def freePlaces (q : PortQueues) : Nat := Config.requestPlaces - q.requests.length

/-- Completions waiting, the count at offset 0x44 (R169). -/
def completionsWaiting (q : PortQueues) : Nat := q.filled.length

/-- The interrupt line of a port (R173). -/
def interruptLine (s : State) (p : Port) : Bool := decide (0 < completionsWaiting (s.port p))

/-- The stages in which the I-port and M-port take records (R144). -/
def stageTakes : Stage → Bool
  | .run => true
  | .draining => true
  | .failed => true
  | .waking => false
  | .retain => false

/-- Whether the oldest record of a queue is an Engine Reset. -/
def engineResetFirst (q : PortQueues) : Bool :=
  match q.requests.head? with
  | some r => kindCode r == Kind.engineReset.code
  | none => false

/-- Whether a port's treatment of records lets it take one: the stage for the I-port and M-port (R144), the
absence of a request that holds it for the S-port (R174); during a reset the I-port and M-port answer only
their quotas (R162). A Lane Test holds the S-port until its run ends (R155, R174). Whether an Engine Reset passes that hold, as
row 7 of R164 has it, is the free value `Config.resetPassesLaneTest` (DESIGN CHOICE, safe; log entry 32). -/
def portPermits (s : State) : Port → Bool
  | .s => s.ports.reset.isNone && s.stage.waitingRetain.isNone &&
      (s.stage.waitingLaneTest.isNone || (engineResetFirst s.ports.s && Config.resetPassesLaneTest))
  | .i => s.ports.reset.isNone && stageTakes s.stage.stage
  | .m => s.ports.reset.isNone && stageTakes s.stage.stage

/-- The record a port takes next: its oldest, when its treatment permits it and a place is free (R171). -/
def offered (s : State) (p : Port) : Option Record :=
  if portPermits s p && hasPlace (s.port p) then (s.port p).requests.head? else none

/-- Taking: the oldest record leaves the queue and a free place is reserved for its completion (R171). -/
def takeRecord (s : State) (p : Port) : State :=
  s.setPort p { s.port p with requests := (s.port p).requests.tail, reserved := (s.port p).reserved + 1 }

/-- A queue with a completion filled into a reserved place (R172). Every completion has its reserved place;
without one nothing is posted (log entry 18). -/
def fillReserved (q : PortQueues) (c : Completion) : PortQueues :=
  if q.reserved = 0 then q else { q with filled := q.filled ++ [c], reserved := q.reserved - 1 }

/-- Posting a completion into its reserved place (R172). -/
def post (s : State) (p : Port) (c : Completion) : State := s.setPort p (fillReserved (s.port p) c)

/-- Filling a place that is free, as an event record does (R176). -/
def postFree (s : State) (p : Port) (c : Completion) : State :=
  s.setPort p { s.port p with filled := (s.port p).filled ++ [c] }

/-- The completion of a record: its kind code and tag echoed (R178). -/
def completionOf (r : Record) (st : Status) (b : Body) : Completion :=
  { kind := kindCode r, status := st, tag := recordTag r, body := b }

/-- Answering a taken record at once. -/
def answerRecord (s : State) (p : Port) (r : Record) (st : Status) (b : Body) : State :=
  post s p (completionOf r st b)

/-- A port takes its oldest record of one kind and hands it to its block. In every state where the port does
not take a record of that kind the step does not come about (log entry 2). -/
def onRecord (p : Port) (k : Kind) (s : State) (f : Record → State → State) :
    Host.Outcome State Fault Refusal :=
  match offered s p with
  | some r => if kindCode r = k.code then .next (f r (takeRecord s p)) else .next s
  | none => .next s

/-- A record decided by ordered checks: the first that applies refuses it (R32, R49, R67, R108). -/
def decideRecord (p : Port) (r : Record) (checks : List (Bool × Status)) (s : State)
    (accept : State) : State :=
  match firstRefusal checks with
  | some st => answerRecord s p r st .empty
  | none => accept

/-! ## Events (R175) -/

/-- The state with the pending-event set changed. -/
def State.setEvents (s : State) (e : EventSet) : State := { s with ports := { s.ports with events := e } }

/-- RANGE_REFUSED of a range becomes pending (R31). -/
def raiseRangeRefused (s : State) (r : RangeId) : State :=
  s.setEvents { s.ports.events with rangeRefused := put s.ports.events.rangeRefused r true }

/-- SWEEP_DONE of a range becomes pending (R114). -/
def raiseSweepDone (s : State) (r : RangeId) : State :=
  s.setEvents { s.ports.events with sweepDone := put s.ports.events.sweepDone r true }

/-- BUS_FAULT becomes pending (R101). -/
def raiseBusFault (s : State) : State := s.setEvents { s.ports.events with busFault := true }

/-- SELF_TEST becomes pending (R158). -/
def raiseSelfTest (s : State) : State := s.setEvents { s.ports.events with selfTest := true }

/-- RETAIN_ENTERED becomes pending (R158). -/
def raiseRetainEntered (s : State) : State := s.setEvents { s.ports.events with retainEntered := true }

/-! ## Range Table -/

/-- The record of a range. -/
def RangeTable.entry (t : RangeTable) (r : RangeId) : RangeRec := t.ranges.get r

/-- The table with one record replaced. -/
def RangeTable.setEntry (t : RangeTable) (r : RangeId) (e : RangeRec) : RangeTable :=
  { t with ranges := put t.ranges r e }

/-- The state with one range record replaced. -/
def State.setRange (s : State) (r : RangeId) (e : RangeRec) : State :=
  { s with table := s.table.setEntry r e }

/-- The bounded ranges, 1 to 15. -/
def boundedRanges : List RangeId := (List.finRange 16).tail

/-- Whether a PRESENT range's bounds hold an LBA. -/
def boundsHold (e : RangeRec) (x : Nat) : Bool :=
  e.present && decide (e.first ≤ x) && decide (x ≤ e.last)

/-- The PRESENT bounded range that holds an LBA, if any. -/
def boundedAt (t : RangeTable) (x : Nat) : Option RangeId :=
  boundedRanges.find? (fun r => boundsHold (t.entry r) x)

/-- The range an LBA resolves to (R26). -/
def resolve (t : RangeTable) (x : Nat) : RangeId := (boundedAt t x).getD 0

/-- The lowest LBA at or above `x` outside every PRESENT bounded range, found in at most `n` skips. -/
def skipBounded (t : RangeTable) : Nat → Nat → Nat
  | 0, x => x
  | n + 1, x =>
      match boundedAt t x with
      | some r => skipBounded t n ((t.entry r).last + 1)
      | none => x

/-- The lowest LBA of a range at or above `x`, or none (R27). -/
def lowestAt (t : RangeTable) (r : RangeId) (x : Nat) : Option Nat :=
  if r = 0 then
    if skipBounded t 15 x < t.capacity then some (skipBounded t 15 x) else none
  else
    let e := t.entry r
    if e.present = false then none
    else if x < e.first then some e.first
    else if x ≤ e.last then some x
    else none

/-- Whether a range is SWEEPING: it has a previous binding (R24). -/
def isSweeping (t : RangeTable) (r : RangeId) : Bool := (t.entry r).previous.isSome

/-- Whether any range is SWEEPING. -/
def anySweeping (t : RangeTable) : Bool := (List.finRange 16).any (isSweeping t)

/-- The bindings of a range record. -/
def bindingsOf (e : RangeRec) : List Binding := e.current.toList ++ e.previous.toList

/-- The epochs of all live bindings, in range order (R41). -/
def liveEpochs (t : RangeTable) : List Epoch :=
  (List.finRange 16).flatMap (fun r => (bindingsOf (t.entry r)).map Binding.epoch)

/-- The EPOCH_CLASH test of a new epoch (R39, R41). -/
def epochClashes (t : RangeTable) (e : Epoch) : Bool := e == 0 || (liveEpochs t).contains e

/-- The segments of `n` consecutive LBAs, maximal runs that resolve to one range, each with that range's
bindings as they stand (R28, R29). -/
def segmentsOf (t : RangeTable) : Nat → Nat → List Segment
  | 0, _ => []
  | n + 1, x =>
      match segmentsOf t n (x + 1) with
      | seg :: rest =>
          if seg.range = resolve t x then { seg with first := x } :: rest
          else
            { first := x, last := x, range := resolve t x, current := (t.entry (resolve t x)).current,
              previous := (t.entry (resolve t x)).previous } :: seg :: rest
      | [] =>
          [{ first := x, last := x, range := resolve t x, current := (t.entry (resolve t x)).current,
             previous := (t.entry (resolve t x)).previous }]

/-- A refusal LOCKED counted against a range, saturating; from 0 to 1 it makes the event pending (R31). -/
def countRefusal (s : State) (r : RangeId) : State :=
  let e := s.table.entry r
  let s' := s.setRange r { e with refusals := min (e.refusals + 1) Config.refusalLimit }
  if e.refusals = 0 then raiseRangeRefused s' r else s'

/-! ## Key Store -/

/-- The state with the Key Store replaced. -/
def State.setKeys (s : State) (k : KeyStore) : State := { s with keys := k }

/-- Cells of a group of one strength (R46). -/
def Strength.size : Strength → Nat
  | .s128 => 2
  | .s256 => 4

/-- Whether a base is allowed for a strength: a multiple of its size (R46). -/
def baseAllowed (st : Strength) (base : CellId) : Bool := base.1 % st.size == 0

/-- Whether cell `c` is one of the cells of a group of a strength at a base. -/
def inGroup (base : CellId) (st : Strength) (c : CellId) : Bool :=
  decide (base.1 ≤ c.1) && decide (c.1 < base.1 + st.size)

/-- The group record that holds a cell, with its base (R47, R60). -/
def groupHolding (k : KeyStore) (c : CellId) : Option (CellId × GroupRec) :=
  (List.finRange 64).findSome? (fun b =>
    match k.groups.get b with
    | some g => if inGroup b g.strength c then some (b, g) else none
    | none => none)

/-- The cells of the store with those of one group emptied: overwritten with zeros (R45). -/
def emptyCells (cells : Vector KeyCell 64) (base : CellId) (st : Strength) : Vector KeyCell 64 :=
  Vector.ofFn (fun c : CellId => if inGroup base st c then { filled := false, bits := 0 } else cells.get c)

/-- The store with a group's cells emptied and its record removed (R45, R47). -/
def KeyStore.removeGroup (k : KeyStore) (base : CellId) (st : Strength) : KeyStore :=
  { k with cells := emptyCells k.cells base st, groups := put k.groups base none }

/-- The store with a group record changed; where no record stands, unchanged. -/
def KeyStore.changeGroup (k : KeyStore) (g : CellId) (f : GroupRec → GroupRec) : KeyStore :=
  { k with groups := put k.groups g ((k.groups.get g).map f) }

/-- The open load abandoned: its group's cells emptied, the record removed, the load absent (R53). -/
def KeyStore.abandonLoad (k : KeyStore) : KeyStore :=
  match k.load with
  | some l => { k.removeGroup l.base l.strength with load := none }
  | none => k

/-- A group's bound-to field set (R48). -/
def KeyStore.setBound (k : KeyStore) (g : CellId) (b : Option BoundTo) : KeyStore :=
  k.changeGroup g (fun e => { e with bound := b })

/-- A binding's group unbound, where there is a binding (R48). -/
def KeyStore.unbind (k : KeyStore) : Option Binding → KeyStore
  | some b => k.setBound b.group none
  | none => k

/-- The pins of a job taken (R55). -/
def KeyStore.pin (k : KeyStore) (gs : List CellId) : KeyStore :=
  gs.foldl (fun k g => k.changeGroup g (fun e => { e with pins := e.pins + 1 })) k

/-- The pins of a job released (R56). -/
def KeyStore.unpin (k : KeyStore) (gs : List CellId) : KeyStore :=
  gs.foldl (fun k g => k.changeGroup g (fun e => { e with pins := e.pins - 1 })) k

/-- Whether a cell is the base of a group in state FILLED (R39). -/
def groupFilled (k : KeyStore) (g : CellId) : Bool :=
  match k.groups.get g with
  | some e => e.state == .filled
  | none => false

/-- Whether a cell is the base of a group that is bound. -/
def groupBound (k : KeyStore) (g : CellId) : Bool :=
  match k.groups.get g with
  | some e => e.bound.isSome
  | none => false

/-! ## Sweep Unit -/

/-- The state with the Sweep Unit replaced. -/
def State.setSweep (s : State) (w : SweepUnit) : State := { s with sweep := w }

/-- The Sweep Unit with a range's mark set. -/
def SweepUnit.setMark (w : SweepUnit) (r : RangeId) (m : Option Nat) : SweepUnit :=
  { w with marks := put w.marks r m }

/-- The Sweep Unit with a range's claim list set. -/
def SweepUnit.setClaims (w : SweepUnit) (r : RangeId) (cs : List Claim) : SweepUnit :=
  { w with claims := put w.claims r cs }

/-- The last LBA of a claim (R125). -/
def Claim.last (c : Claim) : Nat := c.first + c.count - 1

/-- The device claim count: the claims of all lists and the cancelled claims (R125). -/
def deviceClaims (w : SweepUnit) : Nat :=
  ((List.finRange 16).map (fun r => (w.claims.get r).length)).sum + w.cancelled.length

/-- The next claim start of a range, none where there is none or the range is not sweeping (R126). -/
def nextClaimStart (s : State) (r : RangeId) : Option Nat :=
  match s.sweep.marks.get r with
  | none => none
  | some mark =>
      match (s.sweep.claims.get r).getLast? with
      | none => lowestAt s.table r mark
      | some youngest => lowestAt s.table r (youngest.last + 1)

/-- A function applied to every claim of the part, those of the lists and the cancelled ones. -/
def SweepUnit.mapClaims (w : SweepUnit) (f : Claim → Claim) : SweepUnit :=
  { w with claims := w.claims.map (List.map f), cancelled := w.cancelled.map f }

/-- The claims of the part that satisfy a test kept, the others removed. -/
def SweepUnit.filterClaims (w : SweepUnit) (f : Claim → Bool) : SweepUnit :=
  { w with claims := w.claims.map (List.filter f), cancelled := w.cancelled.filter f }

/-- Every claim of the part. -/
def SweepUnit.allClaims (w : SweepUnit) : List Claim := w.claims.toList.flatten ++ w.cancelled

/-- A claim with the LBAs of an accepted WRITE added to its overtaken set, unless it is DONE or its set is
frozen (R74, R132; log entry 15). -/
def overtakeClaim (start n : Nat) (c : Claim) : Claim :=
  if c.state = .done ∨ c.frozen = true then c
  else
    { c with overtaken := (List.range' c.first c.count).filter (fun x =>
        c.overtaken.contains x || (decide (start ≤ x) && decide (x < start + n))) }

/-- The end of a range's sweep: the previous binding dropped and its group unbound, the mark absent,
SWEEP_DONE pending (R113). -/
def endSweep (s : State) (r : RangeId) : State :=
  let e := s.table.entry r
  let s := s.setKeys (s.keys.unbind e.previous)
  let s := s.setRange r { e with previous := none }
  raiseSweepDone (s.setSweep (s.sweep.setMark r none)) r

/-- The advance over a claim list (R134): the oldest claims that are DONE are removed and the mark moves past
each; the flag says that the sweep-end test found no LBA. -/
def advanceOver (lowest : Nat → Option Nat) : List Claim → Nat → List Claim × Nat × Bool
  | [], mark => ([], mark, false)
  | c :: cs, mark =>
      if c.state = .done then
        match lowest (c.last + 1) with
        | none => (cs, c.last + 1, true)
        | some _ => advanceOver lowest cs (c.last + 1)
      else (c :: cs, mark, false)

/-- The mark advance of a range, made when a claim of it becomes DONE (R134). -/
def advanceMark (s : State) (r : RangeId) : State :=
  match s.sweep.marks.get r with
  | none => s
  | some mark =>
      let a := advanceOver (lowestAt s.table r) (s.sweep.claims.get r) mark
      let s' := s.setSweep ((s.sweep.setClaims r a.1).setMark r (some a.2.1))
      if a.2.2 then endSweep s' r else s'

end Sys2Proof.Machine
end

