-- ==== Sys2Proof/Machine/JobOps.lean ====
section
/-! DEFINITION. The shared operations over jobs, lanes and the buffer port: slots and offers (R64, R76), a
sector's end (R77), a job's end, its verdict list and its completion (R78 to R80, R132 to R135, R139), and
accesses (R96, R97). -/

namespace Sys2Proof.Machine

/-! ## Slots -/

/-- The job in a slot of a table. -/
def jobAt (s : State) (side : Side) (k : Nat) : Option Job :=
  match side with
  | .i => (s.jobs.i[k]?).join
  | .m => (s.jobs.m[k]?).join

/-- The state with a slot's contents replaced; a slot outside the table changes nothing. -/
def setJob (s : State) (side : Side) (k : Nat) (j : Option Job) : State :=
  match side with
  | .i => { s with jobs := { s.jobs with i := s.jobs.i.setIfInBounds k j } }
  | .m => { s with jobs := { s.jobs with m := s.jobs.m.setIfInBounds k j } }

/-- The lowest-numbered free slot of a table (R64, R129). -/
def freeSlot (s : State) (side : Side) : Option Nat :=
  (List.range side.slots).find? (fun k => (jobAt s side k).isNone)

/-- Whether a table holds no job. -/
def tableEmpty (s : State) (side : Side) : Bool :=
  (List.range side.slots).all (fun k => (jobAt s side k).isNone)

/-- Occupied slots of a table (R64, R129). -/
def jobCount (s : State) (side : Side) : Nat :=
  ((List.range side.slots).filter (fun k => (jobAt s side k).isSome)).length

/-- The next acceptance number of a table: above every number in it, and the lowest value, 0, when it is
empty (R86, R129; log entry 10). -/
def nextAcceptance (s : State) (side : Side) : Nat :=
  (List.range side.slots).foldl (fun n k =>
    match jobAt s side k with
    | some j => max n (j.acceptance + 1)
    | none => n) 0

/-- An operation applied to every slot that holds a job, in ascending order of slot number (R78, R135). -/
def forEachSlot (side : Side) (f : State → Nat → State) (s : State) : State :=
  (List.range side.slots).foldl f s

/-- A function applied to the job of every occupied slot of a table. -/
def mapJobs (s : State) (side : Side) (f : Job → Job) : State :=
  match side with
  | .i => { s with jobs := { s.jobs with i := s.jobs.i.map (Option.map f) } }
  | .m => { s with jobs := { s.jobs with m := s.jobs.m.map (Option.map f) } }

/-! ## A job's sectors -/

/-- Whether a sector has ended. -/
def SectorState.isEnded : SectorState → Bool
  | .ended _ => true
  | .waiting => false
  | .inLane => false

/-- Whether every sector of a job has ended (R65). -/
def Job.allEnded (j : Job) : Bool := j.sectors.all SectorState.isEnded

/-- A sector's verdict; NOT_DONE for one that has none. -/
def SectorState.verdict : SectorState → Verdict
  | .ended v => v
  | .waiting => .notDone
  | .inLane => .notDone

/-- The verdicts the lanes reported, in LBA order (R77, R131). -/
def Job.verdicts (j : Job) : List Verdict := j.sectors.map SectorState.verdict

/-- Whether a verdict counts as a fault (R77). -/
def Verdict.isFault : Verdict → Bool
  | .retired => true
  | .checkFail => true
  | _ => false

/-- The lower of a first fault LBA and a new one (R77). -/
def lowerFault (old : Option Nat) (lba : Nat) : Option Nat :=
  match old with
  | some x => some (min x lba)
  | none => some lba

/-- A report of a sector's end: its verdict recorded and the counts updated (R77). -/
def Job.endSector (j : Job) (lba : Nat) (v : Verdict) : Job :=
  { j with
    sectors := j.sectors.set (lba - j.start) (.ended v),
    done := if v = .done then j.done + 1 else j.done,
    blank := if v = .blank then j.blank + 1 else j.blank,
    fault := if v.isFault then j.fault + 1 else j.fault,
    firstFault := if v.isFault then lowerFault j.firstFault lba else j.firstFault }

/-- A WAITING sector ended NOT_DONE (R65). -/
def SectorState.stopWaiting : SectorState → SectorState
  | .waiting => .ended .notDone
  | st => st

/-- A job's WAITING sectors ended NOT_DONE and nothing more offered (R81, R119). -/
def Job.stopWaiting (j : Job) : Job :=
  { j with sectors := j.sectors.map SectorState.stopWaiting, next := none }

/-- An early end: the end cause set where there is none, and the WAITING sectors ended (R81, R119, R141). -/
def Job.stop (c : EndCause) (j : Job) : Job :=
  { j.stopWaiting with cause := some (j.cause.getD c) }

/-- A sector not yet ended becomes NOT_DONE (R82). -/
def SectorState.cut : SectorState → SectorState
  | .ended v => .ended v
  | .waiting => .ended .notDone
  | .inLane => .ended .notDone

/-- A bus fault's end: the end cause becomes BUS_FAULT whatever it was, every sector not ended becomes
NOT_DONE (R82, R99). -/
def Job.busFault (j : Job) : Job :=
  { j with cause := some .busFault, sectors := j.sectors.map SectorState.cut, next := none }

/-! ## Completions and verdict lists -/

/-- The kind code of a job's completion. -/
def JobKind.code : JobKind → Byte
  | .read => Kind.read.code
  | .write => Kind.write.code
  | .recipher => Kind.recipher.code
  | .screen => Kind.screen.code

/-- The final verdicts of a RECIPHER job: OVERTAKEN for every LBA of the frozen set, else the lane's
verdict (R132). -/
def Job.finalVerdicts (j : Job) (overtaken : List Nat) : List Verdict :=
  List.zipWith (fun x v => if overtaken.contains x then .overtaken else v)
    (List.range' j.start j.count) j.verdicts

/-- How often a verdict stands in a list. -/
def countVerdict (v : Verdict) (vs : List Verdict) : Nat := (vs.filter (fun w => w == v)).length

/-- The fault count of a RECIPHER job, from its final verdicts (R132). -/
def faultCount (vs : List Verdict) : Nat := (vs.filter Verdict.isFault).length

/-- The lowest LBA of a RECIPHER job whose final verdict is a fault, 0 while there is none (R132). -/
def firstFaultOf (start : Nat) (vs : List Verdict) : Nat :=
  match vs.findIdx? Verdict.isFault with
  | some k => start + k
  | none => 0

/-- The fault count that decides a job's status (R79, R132); a SCREEN has no fault (R139). -/
def Job.faults (j : Job) : Nat :=
  match j.kind with
  | .read => j.fault
  | .write => j.fault
  | .recipher => faultCount j.finals
  | .screen => 0

/-- The status of a job's completion, from its end cause and its fault count (R79, R132, R139). -/
def Job.status (j : Job) : Status :=
  match j.cause with
  | some .aborted => .aborted
  | some .zeroized => .zeroized
  | some .busFault => .busFault
  | some .sweepCancelled => .sweepCancelled
  | none => if j.faults = 0 then .ok else .partly

/-- The body of a job's completion (R79, R135, R139). -/
def Job.body (j : Job) : Body :=
  match j.kind with
  | .read => .data j.done j.blank j.fault (j.firstFault.getD 0)
  | .write => .data j.done j.blank j.fault (j.firstFault.getD 0)
  | .recipher =>
      .recipher (countVerdict .reciphered j.finals) (countVerdict .alreadyCurrent j.finals)
        (faultCount j.finals) (firstFaultOf j.start j.finals) (countVerdict .overtaken j.finals)
  | .screen =>
      .screen (countVerdict .liveCurrent j.verdicts + countVerdict .livePrevious j.verdicts)
        (countVerdict .retired j.verdicts)

/-- A job's completion record (R79). -/
def Job.completion (j : Job) : Completion :=
  { kind := j.kind.code, status := j.status, tag := j.tag, body := j.body }

/-- The verdicts of a job's list: final verdicts for a RECIPHER, the reported ones for the others
(R80, R135, R139). -/
def Job.listVerdicts (j : Job) : List Verdict :=
  match j.kind with
  | .recipher => j.finals
  | .read => j.verdicts
  | .write => j.verdicts
  | .screen => j.verdicts

/-- The bytes of a job's verdict list, byte k for the LBA start + k (R80). -/
def Job.listBytes (j : Job) : List Byte := j.listVerdicts.map Verdict.code

/-! ## Buffer port -/

/-- The state with the Buffer Port replaced. -/
def State.setBufferPort (s : State) (b : BufferPort) : State := { s with bufferPort := b }

/-- A requester asks for an access; a FAULTED port issues none (R97, R98). -/
def askAccess (s : State) (a : Access) : State :=
  if s.bufferPort.faulted then s
  else s.setBufferPort { s.bufferPort with outstanding := s.bufferPort.outstanding ++ [a] }

/-- The outstanding access of a requester, if any (R96). -/
def accessOf (s : State) (who : Requester) : Option Access :=
  s.bufferPort.outstanding.find? (fun a => a.who == who)

/-- A requester's access is no longer outstanding: delivered or dropped (R96, R97). -/
def clearAccess (s : State) (who : Requester) : State :=
  s.setBufferPort
    { s.bufferPort with outstanding := s.bufferPort.outstanding.filter (fun a => a.who != who) }

/-- Whether an access writes buffer memory. -/
def AccessKind.isWrite : AccessKind → Bool
  | .resultWrite => true
  | .listWrite => true
  | .trailerRead => false
  | .dataRead => false

/-- A write that has completed stands in buffer memory (R15, R80, R85), all its bytes in the step of its completion. Until then
a read of another job meets the old bytes: the spec does not say whether bytes of a write still outstanding can be seen
(DESIGN CHOICE, unsafe; log entry 33). -/
def landWrite (s : State) (a : Access) : State :=
  { s with buffer := writeBytes s.buffer a.addr a.bytes }

/-- A write that was cut off leaves each byte old or new (R16, R82, R98; log entry 6). -/
def cutWrite (s : State) (a : Access) : State :=
  if a.kind.isWrite then
    { s with buffer := cutBytes s.draws 0 s.buffer a.addr a.bytes, draws := s.draws + 1 }
  else s

/-- Every outstanding access is dropped, its write cut off (R98, R168). -/
def dropAll (s : State) : State :=
  let s' := s.bufferPort.outstanding.foldl cutWrite s
  s'.setBufferPort { s'.bufferPort with outstanding := [] }

/-- What the other masters have placed in buffer memory at a read's address, up to its length (log
entry 5). -/
def placeBytes (s : State) (a : Access) (placed : List Byte) : State :=
  { s with buffer := writeBytes s.buffer a.addr (placed.take a.len) }

/-! ## Lanes -/

/-- The state with a lane replaced. -/
def State.setLane (s : State) (l : LaneId) (x : Lane) : State := { s with lanes := put s.lanes l x }

/-- Whether a lane is still to be tested in the run in progress (R143). -/
def underTest (s : State) (l : LaneId) : Bool :=
  match s.stage.testRun with
  | some t => t.under.get l
  | none => false

/-- A lane's work record is gone; a lane that is to be tested is held (R87, R89). -/
def freeLane (s : State) (l : LaneId) : State :=
  s.setLane l { s.lanes.get l with work := none, testHold := (s.lanes.get l).testHold || underTest s l }

/-- The state with a lane's work record replaced. -/
def setWork (s : State) (l : LaneId) (w : Work) : State :=
  s.setLane l { s.lanes.get l with work := some w }

/-- A sector's end recorded at its job (R77). -/
def endSector (s : State) (side : Side) (k lba : Nat) (v : Verdict) : State :=
  match jobAt s side k with
  | some j => setJob s side k (some (j.endSector lba v))
  | none => s

/-! ## The end of a job -/

/-- The claim a RECIPHER job holds: the one that records its slot (R125). -/
def claimOfJob (s : State) (k : Nat) : Option Claim :=
  s.sweep.allClaims.find? (fun c => c.job == some k)

/-- A function applied to the claim that a RECIPHER job holds. -/
def changeClaimOfJob (s : State) (k : Nat) (f : Claim → Claim) : State :=
  s.setSweep (s.sweep.mapClaims (fun c => if c.job = some k then f c else c))

/-- The claim settled at the end of its RECIPHER job (R132, R133): the overtaken set frozen; DONE and the
mark advanced when the job ended by itself; back to CLAIMED on a bus fault, unless the claim is cancelled or
a reset is ending the part's claims (R100, R141; log entry 16). A claim that stays is removed as the
completion is posted. -/
def settleClaim (s : State) (k : Nat) (cause : Option EndCause) : State :=
  match claimOfJob s k with
  | none => s
  | some c =>
      match cause with
      | none =>
          advanceMark (changeClaimOfJob s k
            (fun c => { c with state := .done, frozen := true, job := none })) c.range
      | some .busFault =>
          if c.cancelled || s.ports.reset.isSome then s
          else changeClaimOfJob s k (fun c => { c with state := .claimed, frozen := false, job := none })
      | some .aborted => changeClaimOfJob s k (fun c => { c with frozen := true })
      | some .zeroized => changeClaimOfJob s k (fun c => { c with frozen := true })
      | some .sweepCancelled => changeClaimOfJob s k (fun c => { c with frozen := true })

/-- Posting a job's completion (R78): its reserved place filled, its pins released, its slot free, and a
claim it still holds removed (R119, R133, R135). -/
def postJob (s : State) (side : Side) (k : Nat) (j : Job) : State :=
  let s := post s (sidePort side) j.completion
  let s := s.setKeys (s.keys.unpin j.pinned)
  let s := setJob s side k none
  match j.kind with
  | .recipher => s.setSweep (s.sweep.filterClaims (fun c => c.job != some k))
  | .read => s
  | .write => s
  | .screen => s

/-- A job whose sectors have all ended enters LISTING when it asked for a verdict list and its end cause is
not BUS_FAULT; otherwise its completion is posted at once (R65, R78). -/
def listOrPost (s : State) (side : Side) (k : Nat) (j : Job) : State :=
  match j.list with
  | some addr =>
      if j.cause = some .busFault then postJob s side k j
      else
        askAccess (setJob s side k (some { j with phase := .listing }))
          { who := .list side k, kind := .listWrite, addr := addr, len := j.count, bytes := j.listBytes }
  | none => postJob s side k j

/-- The end of a job (R78, R132, R139): for a RECIPHER the final verdicts are made and its claim is settled,
then the list is written or the completion posted. -/
def endJob (s : State) (side : Side) (k : Nat) (j : Job) : State :=
  match j.kind with
  | .recipher =>
      let overtaken := match claimOfJob s k with | some c => c.overtaken | none => []
      let j' := { j with finals := j.finalVerdicts overtaken }
      listOrPost (settleClaim (setJob s side k (some j')) k j.cause) side k j'
  | .read => listOrPost s side k j
  | .write => listOrPost s side k j
  | .screen => listOrPost s side k j

/-- A RUNNING job ends once every sector of it has ended (R65). -/
def closeJob (s : State) (side : Side) (k : Nat) : State :=
  match jobAt s side k with
  | some j => if j.phase = .running ∧ j.allEnded = true then endJob s side k j else s
  | none => s

/-- A lane reports the end of its sector: the lane is free, the job table records the verdict and ends the
job with its last sector (R15, R77). -/
def reportSector (s : State) (l : LaneId) (v : Verdict) : State :=
  match (s.lanes.get l).work with
  | some w => closeJob (endSector (freeLane s l) w.side w.slot w.lba v) w.side w.slot
  | none => s

/-- A lane abandons its sector: its access dropped, NOT_DONE reported (R16). The job's end is looked at
after every lane has reported. -/
def abandonSector (s : State) (l : LaneId) : State :=
  match (s.lanes.get l).work with
  | some w => endSector (clearAccess (freeLane s l) (.lane l)) w.side w.slot w.lba .notDone
  | none => s

/-! ## Offers -/

/-- The job of two that was accepted first. -/
def earlierJob (a b : Option (Nat × Job)) : Option (Nat × Job) :=
  match a, b with
  | some x, some y => if y.2.acceptance < x.2.acceptance then some y else some x
  | some x, none => some x
  | none, y => y

/-- The slot's job as one that can offer a sector: end cause none and a sector WAITING (R76). -/
def offering (s : State) (side : Side) (k : Nat) : Option (Nat × Job) :=
  match jobAt s side k with
  | some j => if j.cause = none ∧ j.next.isSome = true then some (k, j) else none
  | none => none

/-- The job whose next sector a table offers: the lowest acceptance number among those that can offer
(R76, R90, R129). -/
def offerOf (s : State) (side : Side) : Option (Nat × Job) :=
  (List.range side.slots).foldl (fun best k => earlierJob best (offering s side k)) none

/-- The segment of a job that holds an LBA. -/
def Job.segmentAt (j : Job) (lba : Nat) : Option Segment :=
  j.segments.find? (fun g => decide (g.first ≤ lba) && decide (lba ≤ g.last))

/-- A job whose offered sector has been granted: the sector IN_LANE, the next LBA moved on (R76). -/
def Job.granted (j : Job) (lba : Nat) : Job :=
  { j with
    sectors := j.sectors.set (lba - j.start) .inLane,
    next := if lba + 1 < j.start + j.count then some (lba + 1) else none }

/-- The operation of a job's sectors (R12). -/
def JobKind.operation : JobKind → Operation
  | .read => .decipher
  | .write => .encipher
  | .recipher => .recipher
  | .screen => .screen

/-- The stride of a job's source region (R1, R66). -/
def JobKind.sourceStride (u : DataUnit) : JobKind → Nat
  | .write => u.plainStride
  | .read => u.cipherStride
  | .recipher => u.cipherStride
  | .screen => u.cipherStride

/-- The stride of a job's destination region (R1, R66). -/
def JobKind.destStride (u : DataUnit) : JobKind → Nat
  | .read => u.plainStride
  | .write => u.cipherStride
  | .recipher => u.cipherStride
  | .screen => u.cipherStride

/-- The work record a lane fills in at a grant (R12): the bindings come from the snapshot of the segment that
holds the LBA (R75), and a SCREEN takes the epochs only. -/
def workOf (u : DataUnit) (side : Side) (k : Nat) (j : Job) (lba : Nat) : Work :=
  let cur := (j.segmentAt lba).bind Segment.current
  let prev := (j.segmentAt lba).bind Segment.previous
  { side := side, slot := k, op := j.kind.operation, lba := lba,
    curGroup := if j.kind = .screen then none else cur.map Binding.group,
    curEpoch := cur.map Binding.epoch,
    prevGroup := if j.kind = .screen then none else prev.map Binding.group,
    prevEpoch := prev.map Binding.epoch,
    src := sectorAddr j.src (j.kind.sourceStride u) (lba - j.start),
    dst := j.dst.map (fun d => sectorAddr d (j.kind.destStride u) (lba - j.start)),
    phase := .reading, trailer := none, chosen := none, held := [] }

/-- The first access a lane asks for: the plain-form unit for an ENCIPHER, else the trailer (R12, R96). -/
def firstAccess (u : DataUnit) (l : LaneId) (w : Work) : Access :=
  match w.op with
  | .encipher => { who := .lane l, kind := .dataRead, addr := w.src, len := u.bytes, bytes := [] }
  | .decipher => { who := .lane l, kind := .trailerRead, addr := w.src + u.bytes, len := 8, bytes := [] }
  | .recipher => { who := .lane l, kind := .trailerRead, addr := w.src + u.bytes, len := 8, bytes := [] }
  | .screen => { who := .lane l, kind := .trailerRead, addr := w.src + u.bytes, len := 8, bytes := [] }

/-- A lane enters WRITING with a whole result sector and asks for its write (R15). -/
def startWriting (s : State) (l : LaneId) (w : Work) (result : List Byte) : State :=
  askAccess (setWork s l { w with phase := .writing, held := result })
    { who := .lane l, kind := .resultWrite, addr := w.dst.getD 0, len := result.length, bytes := result }

end Sys2Proof.Machine
end

