-- ==== Sys2Proof/Machine/StageOps.lean ====
section
/-! DEFINITION. The shared operations of the Stage Controller and of the resets, and what comes about in the
same step as its cause: a waiting Key Clear, the end of a drain, the end of a reset (R58, R149, R163). -/

namespace Sys2Proof.Machine

/-- The state with the Stage Controller replaced. -/
def State.setStage (s : State) (c : StageController) : State := { s with stage := c }

/-! ## The inactivity timer -/

/-- Whether any lane holds a sector. -/
def anyLaneBusy (s : State) : Bool := (List.finRange 4).any (fun l => (s.lanes.get l).work.isSome)

/-- Whether the inactivity timer runs (R151). -/
def timerRuns (s : State) : Bool :=
  s.stage.stage == .run && s.stage.delay != 0 && s.stage.testRun.isNone && tableEmpty s .i &&
  !(anyLaneBusy s) && (!s.stage.mediaCounts || tableEmpty s .m)

/-- The inactivity remaining set to the full delay (R152). -/
def restartTimer (s : State) : State := s.setStage { s.stage with remaining := s.stage.delay }

/-- What the Stage Controller does when a job is accepted: an I-port job restarts the timer always, an
M-port job while the media-counts flag is set (R152). -/
def jobAccepted (s : State) : Side → State
  | .i => restartTimer s
  | .m => if s.stage.mediaCounts then restartTimer s else s

/-! ## Waking and self-test -/

/-- A wake (R145, R147): the stage WAKING, a test run of all lanes begun, every lane HELD (R89). -/
def wakePart (s : State) (cause : TestCause) (laneTest : Option Tag) : State :=
  { s with
    stage := { s.stage with
      stage := .waking, drainCause := none, waitingRetain := none,
      testRun := some { cause := cause, under := allLanes, passed := noLanes },
      waitingLaneTest := laneTest },
    lanes := s.lanes.map (fun x => { x with testHold := true }) }

/-- The abort quota of a side: 0 outside a reset (R162). -/
def quotaOf (s : State) : Side → Nat
  | .i => match s.ports.reset with | some r => r.iQuota | none => 0
  | .m => match s.ports.reset with | some r => r.mQuota | none => 0

/-- Whether a request queue holds a record outside an abort quota (R147, R150). -/
def recordWaits (s : State) (side : Side) : Bool :=
  decide (quotaOf s side < (s.port (sidePort side)).requests.length)

/-- In RETAIN, a record that waits in the I-port or M-port queue wakes the part (R147). -/
def wakeByRecord (s : State) : State :=
  if s.stage.stage = .retain ∧ (recordWaits s .i || recordWaits s .m) = true then wakePart s .wake none
  else s

/-! ## Retain -/

/-- A range's locks at an entry to RETAIN (R38). -/
def lockAtRetain (e : RangeRec) : RangeRec :=
  if e.present && e.locksAtRetain then { e with readLock := true, writeLock := true } else e

/-- Entry to RETAIN (R150). -/
def retainEntry (s : State) (cause : RetainCause) : State :=
  let s := s.setStage { s.stage with
    stage := .retain, drainCause := none, waitingRetain := none, lastRetain := some cause,
    testRun := none, waitingLaneTest := none }
  let s := { s with table := { s.table with ranges := s.table.ranges.map lockAtRetain } }
  raiseRetainEntered s

/-- The completion of a held request: its kind, its tag, OK (R172). -/
def heldCompletion (k : Kind) (tag : Tag) (b : Body) : Completion :=
  { kind := k.code, status := .ok, tag := tag, body := b }

/-- The end of a drain (R149): with both tables empty RETAIN is entered with the drain cause, a waiting
Retain request completes OK after that entry, and a waiting record wakes the part (R150). -/
def endDrain (s : State) : State :=
  if s.stage.stage = .draining ∧ (tableEmpty s .i && tableEmpty s .m) = true then
    let entered := retainEntry s (s.stage.drainCause.getD .request)
    wakeByRecord (match s.stage.waitingRetain with
      | some tag => post entered .s (heldCompletion .retain tag .empty)
      | none => entered)
  else s

/-- An expiry of the inactivity timer (R153): RETAIN at once with both tables empty, otherwise a drain with
cause INACTIVITY. -/
def expireTimer (s : State) : State :=
  let s := s.setStage { s.stage with remaining := 0 }
  if (tableEmpty s .i && tableEmpty s .m) = true then wakeByRecord (retainEntry s .inactivity)
  else s.setStage { s.stage with stage := .draining, drainCause := some .inactivity, waitingRetain := none }

/-- A second of the reference timer while the timer runs: the remaining falls by 1, and at 0 the timer expires
(R151; log entry 4). -/
def timerSecond (s : State) : State :=
  if s.stage.remaining ≤ 1 then expireTimer s
  else s.setStage { s.stage with remaining := s.stage.remaining - 1 }

/-! ## Waiting Key Clears -/

/-- A RETIRING group without a pin is emptied and its waiting Key Clear completes OK (R58). -/
def finishKeyClear (s : State) (g : CellId) : State :=
  match s.keys.groups.get g with
  | some e =>
      if e.state = .retiring ∧ e.pins = 0 then
        let s := s.setKeys (s.keys.removeGroup g e.strength)
        match e.waitingClear with
        | some tag => post s .s (heldCompletion .keyClear tag .empty)
        | none => s
      else s
  | none => s

/-- The Key Clears whose groups have lost their last pin complete in ascending order of base cell (R58). -/
def finishKeyClears (s : State) : State := (List.finRange 64).foldl finishKeyClear s

/-! ## The end of a reset -/

/-- The four conditions of R163: both tables empty, both quotas 0, no lane busy, no access outstanding. -/
def resetClear (s : State) (r : ResetRun) : Bool :=
  tableEmpty s .i && tableEmpty s .m && r.iQuota == 0 && r.mQuota == 0 && !(anyLaneBusy s) &&
  s.bufferPort.outstanding.isEmpty

/-- Steps 1 and 2 of R163: the Buffer Port NORMAL with its fault address kept, the arbiter's count 0 and
last-granted port none. -/
def resetPortAndArbiter (s : State) : State :=
  { s with
    bufferPort := { s.bufferPort with faulted := false },
    arbiter := { s.arbiter with count := 0, last := none } }

/-- The clearing of a Zeroize, steps 1 to 3 of R166: the Range Table as at power-on but for capacity and data
unit, SEALED; no mark and no claim; the Key Store empty. -/
def zeroizeClear (s : State) : State :=
  { s with
    table := { s.table with ranges := rangesReset, admission := .sealed },
    sweep := { marks := Vector.replicate 16 none, claims := Vector.replicate 16 [], cancelled := [] },
    keys := KeyStore.cleared }

/-- The kind of a reset's completion. -/
def ResetKind.kind : ResetKind → Kind
  | .engine => .engineReset
  | .zeroize => .zeroize

/-- The reset's own completion, with its four counts, and the hold of the S-port released (R163, R166). -/
def completeReset (s : State) (r : ResetRun) : State :=
  let s := { s with ports := { s.ports with reset := none } }
  post s .s (heldCompletion r.kind.kind r.tag (.reset r.iJobs r.mJobs r.iAnswered r.mAnswered))

/-- The end of an Engine Reset once its four conditions hold (R163). -/
def endEngineReset (s : State) : State :=
  match s.ports.reset with
  | some r =>
      if r.kind = .engine ∧ resetClear s r = true then completeReset (resetPortAndArbiter s) r else s
  | none => s

/-- The clearing and completion of a Zeroize once the four conditions hold (R165, R166). -/
def endZeroize (s : State) : State :=
  match s.ports.reset with
  | some r =>
      if r.kind = .zeroize ∧ resetClear s r = true then
        completeReset (resetPortAndArbiter (zeroizeClear s)) r
      else s
  | none => s

/-- What comes about in the same step as a job's completion, a sector's end or an answered quota record (log
entry 3): waiting Key Clears (R58), then the end of a drain (R149), then the end of a reset (R163, R166). -/
def settle (s : State) : State := endZeroize (endEngineReset (endDrain (finishKeyClears s)))

end Sys2Proof.Machine
end

