-- ==== Sys2Proof/Machine/RangeCommands.lean ====
section
/-! DEFINITION. The S-port requests of the Range Table (02_range_table.md), Range Rekey, Range Erase and Sweep
Query (06_rekey_erase_and_sweep_completion.md). -/

namespace Sys2Proof.Machine

/-- A record with a range index and reserved fields: an index above 15 or a reserved field that is not zero
is refused BAD_FIELD before any other check (R32, R108, R124). -/
def withRange (p : Port) (r : Record) (assigned : List Nat) (s : State) (f : RangeId → State) : State :=
  match rangeOf r with
  | some x => if reservedZero r assigned then f x else answerRecord s p r .badField .empty
  | none => answerRecord s p r .badField .empty

/-- The locks byte's three bits (R178). -/
def withLocks (e : RangeRec) (r : Record) : RangeRec :=
  { e with readLock := (recordByte r 5).getLsbD 0, writeLock := (recordByte r 5).getLsbD 1,
           locksAtRetain := (recordByte r 5).getLsbD 2 }

/-- The first LBA of a RANGE_DEFINE, bytes 8 to 12 (R178). -/
def defineFirst (r : Record) : Nat := recordField r 8 5

/-- The last LBA of a RANGE_DEFINE, bytes 16 to 20 (R178). -/
def defineLast (r : Record) : Nat := recordField r 16 5

/-- Whether some PRESENT bounded range shares an LBA with `first` to `last` (R33). -/
def boundsTaken (t : RangeTable) (first last : Nat) : Bool :=
  boundedRanges.any (fun x => (t.entry x).present && decide (first ≤ (t.entry x).last) &&
    decide ((t.entry x).first ≤ last))

/-- RANGE_DEFINE (R33). -/
def execRangeDefine (s : State) : Host.Outcome State Fault Refusal :=
  onRecord .s .rangeDefine s (fun r s =>
    withRange .s r ([4, 5] ++ byteSpan 8 12 ++ byteSpan 16 20) s (fun x =>
      decideRecord .s r
        [(!(locksOk r), .badField),
         (x == 0 || decide (defineFirst r > defineLast r), .badField),
         (anySweeping s.table, .sweepActive),
         ((s.table.entry x).present, .rangePresent),
         (decide (defineLast r ≥ s.table.capacity), .outOfRange),
         (boundsTaken s.table (defineFirst r) (defineLast r), .rangeOverlap)] s
        (answerRecord
          (s.setRange x (withLocks { RangeRec.absent with
            present := true, first := defineFirst r, last := defineLast r } r)) .s r .ok .empty)))

/-- RANGE_DELETE (R35). -/
def execRangeDelete (s : State) : Host.Outcome State Fault Refusal :=
  onRecord .s .rangeDelete s (fun r s =>
    withRange .s r [4] s (fun x =>
      decideRecord .s r
        [(x == 0 || !(s.table.entry x).present, .badField),
         (anySweeping s.table, .sweepActive)] s
        (answerRecord
          ((s.setKeys (s.keys.unbind (s.table.entry x).current)).setRange x RangeRec.absent)
          .s r .ok .empty)))

/-- RANGE_LOCKS (R37). -/
def execRangeLocks (s : State) : Host.Outcome State Fault Refusal :=
  onRecord .s .rangeLocks s (fun r s =>
    withRange .s r [4, 5] s (fun x =>
      decideRecord .s r
        [(!(locksOk r), .badField), (!(s.table.entry x).present, .badField)] s
        (answerRecord (s.setRange x (withLocks (s.table.entry x) r)) .s r .ok .empty)))

/-- The three checks of a new binding: the group FILLED, unbound, and the epoch free (R39, R109, R116). -/
def bindingChecks (s : State) (g : CellId) (e : Epoch) : List (Bool × Status) :=
  [(!(groupFilled s.keys g), .badGroup), (groupBound s.keys g, .bound),
   (epochClashes s.table e, .epochClash)]

/-- A record that names a group: a cell number above 63 is refused BAD_FIELD (R39, R108). -/
def withGroup (r : Record) (s : State) (f : CellId → State) : State :=
  match cellOf (groupByte r) with
  | some g => f g
  | none => answerRecord s .s r .badField .empty

/-- The assigned bytes of RANGE_BIND, RANGE_REKEY and RANGE_ERASE (R178). -/
def bindBytes : List Nat := [4, 5] ++ byteSpan 8 11

/-- A range given a current binding, its group bound to the range in slot CURRENT (R39, R48). -/
def bindCurrent (s : State) (x : RangeId) (b : Binding) : State :=
  (s.setKeys (s.keys.setBound b.group (some { range := x, slot := .current }))).setRange x
    { s.table.entry x with current := some b }

/-- RANGE_BIND (R39). -/
def execRangeBind (s : State) : Host.Outcome State Fault Refusal :=
  onRecord .s .rangeBind s (fun r s =>
    withRange .s r bindBytes s (fun x =>
      withGroup r s (fun g =>
        decideRecord .s r
          ([(!(s.table.entry x).present, .badField),
            ((s.table.entry x).current.isSome, .alreadyKeyed)] ++ bindingChecks s g (epochOf r)) s
          (answerRecord (bindCurrent s x { group := g, epoch := epochOf r }) .s r .ok .empty))))

/-- Steps 1 to 3 of R110: the current binding becomes the previous, the new one current, the mark present at
the range's first LBA, or 0 for range 0. -/
def startSweep (s : State) (x : RangeId) (b : Binding) : State :=
  let e := s.table.entry x
  let keys := match e.current with
    | some old => s.keys.setBound old.group (some { range := x, slot := .previous })
    | none => s.keys
  let s := s.setKeys (keys.setBound b.group (some { range := x, slot := .current }))
  let s := s.setRange x { e with current := some b, previous := e.current }
  s.setSweep (s.sweep.setMark x (some (if x = 0 then 0 else e.first)))

/-- Range Rekey's effect with the sweep-end test made at once (R110, R111). -/
def rekeyRange (s : State) (x : RangeId) (b : Binding) : State :=
  let started := startSweep s x b
  match lowestAt started.table x (if x = 0 then 0 else (s.table.entry x).first) with
  | some _ => started
  | none => endSweep started x

/-- RANGE_REKEY (R109, R110). -/
def execRangeRekey (s : State) : Host.Outcome State Fault Refusal :=
  onRecord .s .rangeRekey s (fun r s =>
    withRange .s r bindBytes s (fun x =>
      withGroup r s (fun g =>
        decideRecord .s r
          ([(!(s.table.entry x).present, .badField), ((s.table.entry x).current.isNone, .noKey),
            (isSweeping s.table x, .sweepActive)] ++ bindingChecks s g (epochOf r)) s
          (answerRecord (rekeyRange s x { group := g, epoch := epochOf r }) .s r .ok .empty))))

/-- Steps 1 and 2 of R117: both old groups unbound, the range KEYED with the new binding. -/
def replaceBindings (s : State) (x : RangeId) (b : Binding) : State :=
  let e := s.table.entry x
  let keys := ((s.keys.unbind e.current).unbind e.previous).setBound b.group
    (some { range := x, slot := .current })
  (s.setKeys keys).setRange x { e with current := some b, previous := none }

/-- A range's sweep removed by its erase (R117, R118): CLAIMED and DONE claims are removed, RECIPHERING ones
cancelled and taken out of the list, the mark absent. -/
def cancelSweep (s : State) (x : RangeId) : State :=
  let going := (s.sweep.claims.get x).filter (fun c => c.state == .reciphering)
  s.setSweep { (s.sweep.setClaims x []).setMark x none with
    cancelled := s.sweep.cancelled ++ going.map (fun c => { c with cancelled := true }) }

/-- The RECIPHER job in M-table slot `k` is ended SWEEP_CANCELLED (R119). -/
def cancelJob (s : State) (k : Nat) : State :=
  match jobAt s .m k with
  | some j => closeJob (setJob s .m k (some (j.stop .sweepCancelled))) .m k
  | none => s

/-- Whether an erase of range `x` cancels a claim that records M-table slot `k` (R118). -/
def erasesJob (s : State) (x : RangeId) (k : Nat) : Bool :=
  (s.sweep.claims.get x).any (fun c => c.state == .reciphering && c.job == some k)

/-- Range Erase's effect (R117 to R119), with what comes about in the same step: the jobs of the cancelled claims
end in ascending order of slot (R135). -/
def eraseRange (s : State) (x : RangeId) (b : Binding) : State :=
  settle (forEachSlot .m (fun t k => if erasesJob s x k = true then cancelJob t k else t)
    (cancelSweep (replaceBindings s x b) x))

/-- RANGE_ERASE (R116, R117). -/
def execRangeErase (s : State) : Host.Outcome State Fault Refusal :=
  onRecord .s .rangeErase s (fun r s =>
    withRange .s r bindBytes s (fun x =>
      withGroup r s (fun g =>
        decideRecord .s r
          ([(!(s.table.entry x).present, .badField), ((s.table.entry x).current.isNone, .noKey)] ++
            bindingChecks s g (epochOf r)) s
          (answerRecord (eraseRange s x { group := g, epoch := epochOf r }) .s r .ok .empty))))

/-- A range record as Range Query reports it: range 0's bounds as zero (R42). -/
def reportedEntry (t : RangeTable) (x : RangeId) : RangeRec :=
  if x = 0 then { t.entry x with first := 0, last := 0 } else t.entry x

/-- RANGE_QUERY (R42). -/
def execRangeQuery (s : State) : Host.Outcome State Fault Refusal :=
  onRecord .s .rangeQuery s (fun r s =>
    withRange .s r [4] s (fun x => answerRecord s .s r .ok (.range x (reportedEntry s.table x))))

/-- COUNT_CLEAR (R43). -/
def execCountClear (s : State) : Host.Outcome State Fault Refusal :=
  onRecord .s .countClear s (fun r s =>
    withRange .s r [4] s (fun x =>
      decideRecord .s r [(!(s.table.entry x).present, .badField)] s
        (answerRecord (s.setRange x { s.table.entry x with refusals := 0 }) .s r .ok .empty)))

/-- A claim as a Sweep Query reports it (R122). -/
def claimReport (c : Claim) : ClaimReport :=
  { first := c.first, count := c.count, state := c.state, overtaken := c.overtaken.length }

/-- The sweep state of a range as a Sweep Query reports it (R122); the M-port's carries the next claim start
too (R140). A range that is not SWEEPING reports neither mark nor claim. -/
def sweepReport (s : State) (p : QueryPort) (x : RangeId) : SweepReport :=
  { range := x,
    mark := if isSweeping s.table x then s.sweep.marks.get x else none,
    claims := if isSweeping s.table x then (s.sweep.claims.get x).map claimReport else [],
    next := match p with
      | .m => some (if isSweeping s.table x then nextClaimStart s x else none)
      | .s => none }

/-- SWEEP_QUERY on the S-port (R122) and on the M-port, where a drain refuses it (R124, R140). -/
def execSweepQuery (p : QueryPort) (s : State) : Host.Outcome State Fault Refusal :=
  onRecord (queryPort p) .sweepQuery s (fun r s =>
    withRange (queryPort p) r [4] s (fun x =>
      decideRecord (queryPort p) r [(p == .m && s.stage.stage == .draining, .retaining)] s
        (answerRecord s (queryPort p) r .ok (.sweep (sweepReport s p x)))))

end Sys2Proof.Machine
end

