-- ==== Sys2Proof/Machine/JobCommands.lean ====
section
/-! DEFINITION. The records that become jobs: READ and WRITE on the I-port (04_interface_port_jobs.md),
RECIPHER and SCREEN on the M-port; and CLAIM and RELEASE (07_claims_recipher_and_screen.md). -/

namespace Sys2Proof.Machine

/-! ## The checks of a data request (R68, R130, R137) -/

/-- The regions in use of a READ, WRITE or RECIPHER (R70, R130). -/
def jobRegions (u : DataUnit) (k : JobKind) (r : Record) : List Region :=
  [{ base := sourceOf r, len := countOf r * k.sourceStride u },
   { base := destOf r, len := countOf r * k.destStride u }] ++ listRegion r

/-- The regions in use of a SCREEN: its source and its verdict list (R137). -/
def screenRegions (u : DataUnit) (r : Record) : List Region :=
  { base := sourceOf r, len := countOf r * u.cipherStride } :: listRegion r

/-- Checks 2 to 8 of R68: the record's fields and regions, then the stage and the buffer port. -/
def earlyChecks (s : State) (fieldBad : Bool) (rs : List Region) : List (Bool × Status) :=
  [(fieldBad, .badField), (misalignedIn rs, .misaligned), (pastBuffer rs, .outOfBuffer),
   (overlapIn rs, .overlap), (s.stage.stage == .draining, .retaining),
   (s.stage.stage == .failed, .laneFault), (s.bufferPort.faulted, .busFault)]

/-- The segments of a data request's LBAs (R28). -/
def requestSegments (s : State) (r : Record) : List Segment := segmentsOf s.table (countOf r) (startOf r)

/-- Checks 9 to 11 of R68: admission, capacity, fragmentation. -/
def tableChecks (s : State) (r : Record) : List (Bool × Status) :=
  [(s.table.admission == .sealed, .isSealed),
   (decide (startOf r + countOf r - 1 ≥ s.table.capacity), .outOfRange),
   (decide ((requestSegments s r).length > Config.maxSegments), .fragmented)]

/-- The lock of a job's direction in a range record (R30). -/
def directionLock (k : JobKind) (e : RangeRec) : Bool :=
  match k with
  | .read => e.readLock
  | .write => e.writeLock
  | .recipher => false
  | .screen => false

/-- The lowest-LBA segment whose range is locked for the job's direction (R30, R31). -/
def lockedSegment (s : State) (k : JobKind) (r : Record) : Option Segment :=
  (requestSegments s r).find? (fun g => directionLock k (s.table.entry g.range))

/-- A table without a free slot. In the I-table R64 rules it out (log entry 21). -/
def tableFull (s : State) (side : Side) : Bool := (freeSlot s side).isNone

/-- The checks of a READ or WRITE after the kind check (R68). -/
def ioChecks (s : State) (k : JobKind) (r : Record) : List (Bool × Status) :=
  earlyChecks s (jobFieldBad r) (jobRegions s.table.dataUnit k r) ++ tableChecks s r ++
    [((lockedSegment s k r).isSome, .locked),
     ((requestSegments s r).any (fun g => g.current.isNone), .noKey), (tableFull s .i, .busy)]

/-! ## Acceptance (R73, R131, R138) -/

/-- The groups of the bindings listed, each once (R55). -/
def groupsOf (bs : List Binding) : List CellId := (bs.map Binding.group).foldr List.insert []

/-- The groups a job pins: the current groups for a WRITE, the current and previous groups for a READ and a
RECIPHER, none for a SCREEN (R55). -/
def pinnedGroups (k : JobKind) (segs : List Segment) : List CellId :=
  match k with
  | .write => groupsOf (segs.flatMap (fun g => g.current.toList))
  | .read => groupsOf (segs.flatMap (fun g => g.current.toList ++ g.previous.toList))
  | .recipher => groupsOf (segs.flatMap (fun g => g.current.toList ++ g.previous.toList))
  | .screen => []

/-- The job record of an accepted request (R64, R73): every sector WAITING, RUNNING, no end cause. -/
def newJob (s : State) (side : Side) (k : JobKind) (r : Record) (segs : List Segment)
    (claim : Option RangeId) : Job :=
  { tag := recordTag r, kind := k, acceptance := nextAcceptance s side, start := startOf r,
    count := countOf r, src := sourceOf r, dst := if k = .screen then none else some (destOf r),
    list := listAddr r, segments := segs, pinned := pinnedGroups k segs,
    sectors := List.replicate (countOf r) .waiting, next := some (startOf r),
    done := 0, blank := 0, fault := 0, firstFault := none, phase := .running, cause := none,
    claim := claim, finals := [] }

/-- A job takes the lowest free slot, pins its groups, and the Stage Controller is told (R73, R131, R138). -/
def acceptJob (s : State) (side : Side) (j : Job) : State :=
  let k := (freeSlot s side).getD 0
  let s := setJob s side k (some j)
  let s := s.setKeys (s.keys.pin j.pinned)
  jobAccepted s side

/-- The overtaken LBAs of an accepted WRITE marked (R74). -/
def markOvertaken (s : State) (r : Record) : State :=
  s.setSweep (s.sweep.mapClaims (overtakeClaim (startOf r) (countOf r)))

/-- A READ or WRITE refused with a status; LOCKED counts against one range (R31, R67). -/
def refuseIo (s : State) (k : JobKind) (r : Record) (st : Status) : State :=
  match st, lockedSegment s k r with
  | .locked, some g => answerRecord (countRefusal s g.range) .i r .locked .empty
  | _, _ => answerRecord s .i r st .empty

/-- READ (R68, R73). -/
def execRead (s : State) : Host.Outcome State Fault Refusal :=
  onRecord .i .read s (fun r s =>
    match firstRefusal (ioChecks s .read r) with
    | some st => refuseIo s .read r st
    | none => acceptJob s .i (newJob s .i .read r (requestSegments s r) none))

/-- WRITE (R68, R73, R74). -/
def execWrite (s : State) : Host.Outcome State Fault Refusal :=
  onRecord .i .write s (fun r s =>
    match firstRefusal (ioChecks s .write r) with
    | some st => refuseIo s .write r st
    | none => markOvertaken (acceptJob s .i (newJob s .i .write r (requestSegments s r) none)) r)

/-! ## CLAIM and RELEASE -/

/-- The first LBA of a CLAIM, bytes 8 to 12 (R178). -/
def claimFirst (r : Record) : Nat := recordField r 8 5

/-- The count of a CLAIM, bytes 14 and 15 (R178). -/
def claimCount (r : Record) : Nat := recordField r 14 2

/-- A CLAIM's or RELEASE's completion past the field check: the range and its next claim start as it stands,
or "none" (R127, R128). -/
def answerClaim (s : State) (r : Record) (x : RangeId) (st : Status) : State :=
  answerRecord s .m r st (.claim x (if isSweeping s.table x then nextClaimStart s x else none))

/-- Check 4 of R127: an LBA of the claim is at or above the capacity or resolves to another range. -/
def claimOutside (t : RangeTable) (x : RangeId) (first n : Nat) : Bool :=
  (List.range' first n).any (fun a => decide (a ≥ t.capacity) || resolve t a != x)

/-- The stage check and the checks of a CLAIM (R124, R127). -/
def claimChecks (s : State) (x : RangeId) (first n : Nat) : List (Bool × Status) :=
  [(s.stage.stage == .draining, .retaining), (!(isSweeping s.table x), .notSweeping),
   (decide (deviceClaims s.sweep ≥ Config.maxClaims) ||
      decide ((s.sweep.claims.get x).length ≥ Config.maxRangeClaims), .claimLimit),
   (nextClaimStart s x != some first, .claimOrder),
   (claimOutside s.table x first n, .badField)]

/-- A new claim (R127). -/
def newClaim (x : RangeId) (first n : Nat) : Claim :=
  { range := x, first := first, count := n, state := .claimed, overtaken := [], cancelled := false,
    frozen := false, job := none }

/-- A claim appended at the young end of a range's list (R127). -/
def appendClaim (s : State) (c : Claim) : State :=
  s.setSweep (s.sweep.setClaims c.range (s.sweep.claims.get c.range ++ [c]))

/-- CLAIM (R127). -/
def execClaim (s : State) : Host.Outcome State Fault Refusal :=
  onRecord .m .claim s (fun r s =>
    withRange .m r ([4] ++ byteSpan 8 12 ++ byteSpan 14 15) s (fun x =>
      if countBad (claimCount r) then answerRecord s .m r .badField .empty
      else
        match firstRefusal (claimChecks s x (claimFirst r) (claimCount r)) with
        | some st => answerClaim s r x st
        | none => answerClaim (appendClaim s (newClaim x (claimFirst r) (claimCount r))) r x .ok))

/-- Whether a range's youngest claim is CLAIMED (R128). -/
def youngestClaimed (s : State) (x : RangeId) : Bool :=
  match (s.sweep.claims.get x).getLast? with
  | some c => c.state == .claimed
  | none => false

/-- The stage check and the checks of a RELEASE (R124, R128). -/
def releaseChecks (s : State) (x : RangeId) : List (Bool × Status) :=
  [(s.stage.stage == .draining, .retaining), (!(isSweeping s.table x), .notSweeping),
   (!(youngestClaimed s x), .claimOrder)]

/-- RELEASE (R128). -/
def execRelease (s : State) : Host.Outcome State Fault Refusal :=
  onRecord .m .release s (fun r s =>
    withRange .m r [4] s (fun x =>
      match firstRefusal (releaseChecks s x) with
      | some st => answerClaim s r x st
      | none =>
          answerClaim (s.setSweep (s.sweep.setClaims x (s.sweep.claims.get x).dropLast)) r x .ok))

/-! ## RECIPHER and SCREEN -/

/-- Whether a claim is the one a RECIPHER names: CLAIMED, with its first LBA and its count (R130). -/
def claimMatches (r : Record) (c : Claim) : Bool :=
  c.state == .claimed && c.first == startOf r && c.count == countOf r

/-- The claim a RECIPHER names, in any range's list (R130). -/
def matchingClaim (s : State) (r : Record) : Option Claim :=
  s.sweep.claims.toList.flatten.find? (claimMatches r)

/-- The checks of a RECIPHER after the kind check (R130). -/
def recipherChecks (s : State) (r : Record) : List (Bool × Status) :=
  earlyChecks s (jobFieldBad r) (jobRegions s.table.dataUnit .recipher r) ++
    [((matchingClaim s r).isNone, .noClaim), (tableFull s .m, .busy)]

/-- The one segment of a RECIPHER job: the claim's LBAs with its range's bindings (R131). -/
def claimSegment (s : State) (c : Claim) : Segment :=
  { first := c.first, last := c.last, range := c.range, current := (s.table.entry c.range).current,
    previous := (s.table.entry c.range).previous }

/-- The matched claim becomes RECIPHERING under a job slot (R131). -/
def startClaim (s : State) (r : Record) (x : RangeId) (k : Nat) : State :=
  s.setSweep (s.sweep.setClaims x ((s.sweep.claims.get x).map
    (fun c => if claimMatches r c then { c with state := .reciphering, job := some k } else c)))

/-- RECIPHER (R130, R131). -/
def execRecipher (s : State) : Host.Outcome State Fault Refusal :=
  onRecord .m .recipher s (fun r s =>
    match firstRefusal (recipherChecks s r), matchingClaim s r with
    | none, some c =>
        acceptJob (startClaim s r c.range ((freeSlot s .m).getD 0)) .m
          (newJob s .m .recipher r [claimSegment s c] (some c.range))
    | some st, _ => answerRecord s .m r st .empty
    | none, none => answerRecord s .m r .noClaim .empty)

/-- The checks of a SCREEN after the kind check (R137). -/
def screenChecks (s : State) (r : Record) : List (Bool × Status) :=
  earlyChecks s (screenFieldBad r) (screenRegions s.table.dataUnit r) ++ tableChecks s r ++
    [(tableFull s .m, .busy)]

/-- SCREEN (R137, R138). -/
def execScreen (s : State) : Host.Outcome State Fault Refusal :=
  onRecord .m .screen s (fun r s =>
    match firstRefusal (screenChecks s r) with
    | some st => answerRecord s .m r st .empty
    | none => acceptJob s .m (newJob s .m .screen r (requestSegments s r) none))

end Sys2Proof.Machine
end

