-- ==== Sys2Proof/Machine/KeyCommands.lean ====
section
/-! DEFINITION. The S-port requests of the Key Store and the end of a waiting Key Clear (03_key_store.md). -/

namespace Sys2Proof.Machine

/-- A record with a cell number, byte 4: a number above 63 or a reserved field that is not zero is refused
BAD_FIELD before any other check (R49). -/
def withCell (r : Record) (assigned : List Nat) (s : State) (f : CellId → State) : State :=
  match cellOf (recordField r 4 1) with
  | some c => if reservedZero r assigned then f c else answerRecord s .s r .badField .empty
  | none => answerRecord s .s r .badField .empty

/-- Check 2 of Key Open: a cell of the new group is FILLED, or belongs to a group record that is LOADING or
RETIRING (R51). -/
def cellsOccupied (k : KeyStore) (base : CellId) (st : Strength) : Bool :=
  (List.finRange 64).any (fun c => inGroup base st c &&
    ((k.cells.get c).filled ||
      match groupHolding k c with
      | some (_, g) => g.state == .loading || g.state == .retiring
      | none => false))

/-- Key Open's effect: an open load is abandoned, then the LOADING group and its load are made (R52). -/
def openLoad (k : KeyStore) (base : CellId) (st : Strength) : KeyStore :=
  let k := k.abandonLoad
  { k with
    groups := put k.groups base (some
      { state := .loading, strength := st, bound := none, pins := 0, waitingClear := none }),
    load := some { base := base, strength := st, parts := [] } }

/-- KEY_OPEN (R51, R52). -/
def execKeyOpen (s : State) : Host.Outcome State Fault Refusal :=
  onRecord .s .keyOpen s (fun r s =>
    withCell r [4, 5] s (fun base =>
      match strengthOfCode (recordField r 5 1) with
      | none => answerRecord s .s r .badField .empty
      | some st =>
          decideRecord .s r
            [(!(baseAllowed st base), .badField), (cellsOccupied s.keys base st, .occupied)] s
            (answerRecord (s.setKeys (openLoad s.keys base st)) .s r .ok
              (.keyLoad s.keys.load.isSome false 0))))

/-- The set of filled cells of a load with one added, ascending (R50). -/
def addPart (parts : List CellId) (c : CellId) : List CellId :=
  (List.finRange 64).filter (fun x => parts.contains x || x == c)

/-- Key Part's effect: the cell FILLED with its bytes; with the last cell the load closes and the group is
FILLED (R54). -/
def fillPart (k : KeyStore) (l : OpenLoad) (c : CellId) (bits : Block) : KeyStore :=
  let parts := addPart l.parts c
  let k := { k with cells := put k.cells c { filled := true, bits := bits } }
  if parts.length = l.strength.size then
    { k.changeGroup l.base (fun g => { g with state := .filled }) with load := none }
  else { k with load := some { l with parts := parts } }

/-- KEY_PART (R54). A FILLED cell is never written (R45). -/
def execKeyPart (s : State) : Host.Outcome State Fault Refusal :=
  onRecord .s .keyPart s (fun r s =>
    withCell r ([4] ++ byteSpan 16 31) s (fun c =>
      match s.keys.load with
      | none => answerRecord s .s r .noLoad .empty
      | some l =>
          decideRecord .s r
            [(!(inGroup l.base l.strength c), .badField),
             (l.parts.contains c || (s.keys.cells.get c).filled, .cellRepeat)] s
            (answerRecord (s.setKeys (fillPart s.keys l c (r.extractLsb' 128 128))) .s r .ok
              (.keyLoad false (decide ((addPart l.parts c).length = l.strength.size))
                (addPart l.parts c).length))))

/-- Key Clear on the group based at `c` once its checks pass (R57): the load abandoned, the cells emptied, or
the group RETIRING with the request waiting (R58). -/
def clearGroup (s : State) (r : Record) (c : CellId) (g : GroupRec) : State :=
  match g.state with
  | .loading => answerRecord (s.setKeys s.keys.abandonLoad) .s r .ok .empty
  | .filled =>
      if g.pins = 0 then
        answerRecord (s.setKeys (s.keys.removeGroup c g.strength)) .s r .ok .empty
      else
        s.setKeys (s.keys.changeGroup c
          (fun g => { g with state := .retiring, waitingClear := some (recordTag r) }))
  | .retiring => answerRecord s .s r .busy .empty

/-- KEY_CLEAR (R57). -/
def execKeyClear (s : State) : Host.Outcome State Fault Refusal :=
  onRecord .s .keyClear s (fun r s =>
    withCell r [4] s (fun c =>
      match groupHolding s.keys c with
      | none => answerRecord s .s r .ok .empty
      | some (b, g) =>
          decideRecord .s r
            [(b != c, .badGroup), (g.bound.isSome, .bound), (g.state == .retiring, .busy)] s
            (clearGroup s r c g)))

/-- FILLED cells of a group (R60). -/
def cellsFilled (k : KeyStore) (base : CellId) (st : Strength) : Nat :=
  ((List.finRange 64).filter (fun c => inGroup base st c && (k.cells.get c).filled)).length

/-- The answer of a Key Query (R60). It carries no key byte. -/
def keyReport (k : KeyStore) (c : CellId) : KeyReport :=
  { cell := c, cellFilled := (k.cells.get c).filled, group := groupHolding k c,
    filled := match groupHolding k c with
      | some (b, g) => cellsFilled k b g.strength
      | none => 0 }

/-- KEY_QUERY (R60). -/
def execKeyQuery (s : State) : Host.Outcome State Fault Refusal :=
  onRecord .s .keyQuery s (fun r s =>
    withCell r [4] s (fun c => answerRecord s .s r .ok (.keyQuery (keyReport s.keys c))))

/-- KEY_CLEAR_DEFERRED_DONE (R58): every RETIRING group that has lost its last pin is emptied and its waiting
Key Clear completes. The command that releases the pin does this in its own step (log entry 3). -/
def execKeyClearDeferredDone (s : State) : Host.Outcome State Fault Refusal :=
  .next (finishKeyClears s)

end Sys2Proof.Machine
end

