-- ==== Sys2Proof/Machine/LaneCommands.lean ====
section
/-! DEFINITION. The steps of the arbiter, the lanes and the buffer port: grants (R91 to R94), reads, transforms
and writes (R12 to R21), verdict lists (R78), bus faults (R98 to R101), Class Set and Bus Recover (R95, R103). -/

namespace Sys2Proof.Machine

/-! ## The grant -/

/-- The other side. -/
def otherSide : Side → Side
  | .i => .m
  | .m => .i

/-- The HIGH side while the classes differ (R93). -/
def highSide (a : Arbiter) : Option Side :=
  match a.iClass, a.mClass with
  | .high, .normal => some .i
  | .normal, .high => some .m
  | .high, .high => none
  | .normal, .normal => none

/-- The side granted while the classes are equal and both wait: the one not granted last, the I-port when
none was (R94). -/
def alternate (last : Option Side) : Side :=
  match last with
  | some .i => .m
  | some .m => .i
  | none => .i

/-- The side granted and the consecutive count afterwards, from the arbiter's state and the sides that have a
sector waiting (R93, R94). -/
def chooseGrant (a : Arbiter) (waits : Side → Bool) : Option (Side × Nat) :=
  match highSide a with
  | some h =>
      match waits h, waits (otherSide h) with
      | true, true =>
          if a.count < Config.starvationLimit then some (h, a.count + 1) else some (otherSide h, 0)
      | true, false => some (h, 0)
      | false, true => some (otherSide h, 0)
      | false, false => none
  | none =>
      match waits .i, waits .m with
      | true, true => some (alternate a.last, 0)
      | true, false => some (.i, 0)
      | false, true => some (.m, 0)
      | false, false => none

/-- Whether a lane is eligible for a grant: FREE, and the stage RUN or DRAINING (R87). -/
def laneEligible (s : State) (l : LaneId) : Bool :=
  (s.stage.stage == .run || s.stage.stage == .draining) && (s.lanes.get l).inService &&
  (s.lanes.get l).work.isNone && !(s.lanes.get l).testHold

/-- The eligible lane with the lowest number (R92). -/
def eligibleLane (s : State) : Option LaneId := (List.finRange 4).find? (laneEligible s)

/-- A sector handed to a lane: the sector IN_LANE, the lane READING with its first access asked (R12, R76,
R92). -/
def grantSector (s : State) (l : LaneId) (side : Side) (k : Nat) (j : Job) (lba : Nat) : State :=
  let w := workOf s.table.dataUnit side k j lba
  let s := setJob s side k (some (j.granted lba))
  askAccess (setWork s l w) (firstAccess s.table.dataUnit l w)

/-- GRANT (R92). -/
def execGrant (s : State) : Host.Outcome State Fault Refusal :=
  match eligibleLane s, chooseGrant s.arbiter (fun side => (offerOf s side).isSome) with
  | some l, some (side, count) =>
      match offerOf s side with
      | some (k, j) =>
          match j.next with
          | some lba =>
              .next { grantSector s l side k j lba with
                arbiter := { s.arbiter with count := count, last := some side } }
          | none => .next s
      | none => .next s
  | _, _ => .next s

/-- CLASS_SET (R95). -/
def execClassSet (s : State) : Host.Outcome State Fault Refusal :=
  onRecord .s .classSet s (fun r s =>
    match classOfCode (recordField r 4 1), classOfCode (recordField r 5 1), reservedZero r [4, 5] with
    | some i, some m, true =>
        answerRecord { s with arbiter := { s.arbiter with iClass := i, mClass := m, count := 0 } }
          .s r .ok .empty
    | _, _, _ => answerRecord s .s r .badField .empty)

/-! ## Reads -/

/-- What a trailer's epoch decides (R13). -/
inductive Classified where
  | choose (g : Option CellId)
  | zeros
  | ends (v : Verdict)
deriving DecidableEq, Repr

/-- The classification of a trailer's epoch against the sector's bindings (R18, R20, R21). An ENCIPHER reads
no trailer. -/
def classify (w : Work) (e : Epoch) : Option Classified :=
  match w.op with
  | .encipher => none
  | .decipher =>
      if e = 0 then some .zeros
      else if w.curEpoch = some e then some (.choose w.curGroup)
      else if w.prevEpoch = some e then some (.choose w.prevGroup)
      else some (.ends .retired)
  | .recipher =>
      if w.prevEpoch = some e then some (.choose w.prevGroup)
      else if w.curEpoch = some e then some (.ends .alreadyCurrent)
      else if e = 0 then some (.ends .blank)
      else some (.ends .retired)
  | .screen =>
      if w.curEpoch = some e then some (.ends .liveCurrent)
      else if w.prevEpoch = some e then some (.ends .livePrevious)
      else if e = 0 then some (.ends .blank)
      else some (.ends .retired)

/-- What follows a trailer read: the data unit asked for, the zeros written, or the sector's end (R13). -/
def afterTrailer (s : State) (l : LaneId) (w : Work) : Classified → State
  | .choose g =>
      askAccess (setWork s l { w with chosen := g })
        { who := .lane l, kind := .dataRead, addr := w.src, len := s.table.dataUnit.bytes, bytes := [] }
  | .zeros => startWriting s l w (List.replicate s.table.dataUnit.bytes 0)
  | .ends v => settle (reportSector s l v)

/-- TRAILER_READ_DONE (R13). -/
def execTrailerReadDone (l : LaneId) (placed : List Byte) (s : State) :
    Host.Outcome State Fault Refusal :=
  match (s.lanes.get l).work, accessOf s (.lane l) with
  | some w, some a =>
      if w.phase = .reading ∧ a.kind = .trailerRead then
        let s' := clearAccess (placeBytes s a placed) (.lane l)
        let t := trailerOf (readBytes s'.buffer a.addr 8)
        match classify w t.epoch with
        | some c => .next (afterTrailer s' l { w with trailer := some t } c)
        | none => .next s
      else .next s
  | _, _ => .next s

/-- DATA_UNIT_READ_DONE (R13): the lane holds the bytes read and enters TRANSFORMING. -/
def execDataUnitReadDone (l : LaneId) (placed : List Byte) (s : State) :
    Host.Outcome State Fault Refusal :=
  match (s.lanes.get l).work, accessOf s (.lane l) with
  | some w, some a =>
      if w.phase = .reading ∧ a.kind = .dataRead then
        let s' := clearAccess (placeBytes s a placed) (.lane l)
        .next (setWork s' l
          { w with phase := .transforming, held := readBytes s'.buffer a.addr a.len })
      else .next s
  | _, _ => .next s

/-! ## Transform and write -/

/-- TRANSFORM_END (R14): with a result the lane enters WRITING; with none the sector ends at once. -/
def execTransformEnd (l : LaneId) (s : State) : Host.Outcome State Fault Refusal :=
  match (s.lanes.get l).work with
  | some w =>
      if w.phase = .transforming then
        match transformWork s.keys s.table.dataUnit.blocks w with
        | some (.result bytes) => .next (startWriting s l w bytes)
        | some (.verdict v) => .next (settle (reportSector s l v))
        | none => .next s
      else .next s
  | none => .next s

/-- The verdict of a sector whose write has completed (R15). -/
def writtenVerdict (w : Work) : Option Verdict :=
  match w.op with
  | .encipher => some .done
  | .decipher => if w.trailer.map Trailer.epoch = some 0 then some .blank else some .done
  | .recipher => some .reciphered
  | .screen => none

/-- RESULT_WRITE_DONE (R15): the result stands in buffer memory and the sector ends with its verdict. -/
def execResultWriteDone (l : LaneId) (s : State) : Host.Outcome State Fault Refusal :=
  match (s.lanes.get l).work, accessOf s (.lane l) with
  | some w, some a =>
      if w.phase = .writing ∧ a.kind = .resultWrite then
        match writtenVerdict w with
        | some v => .next (settle (reportSector (clearAccess (landWrite s a) (.lane l)) l v))
        | none => .next s
      else .next s
  | _, _ => .next s

/-- VERDICT_LIST_WRITE_DONE (R78): the list stands in buffer memory and the completion is posted. -/
def execVerdictListWriteDone (side : Side) (slot : Nat) (s : State) :
    Host.Outcome State Fault Refusal :=
  match jobAt s side slot, accessOf s (.list side slot) with
  | some j, some a =>
      if j.phase = .listing ∧ a.kind = .listWrite then
        .next (settle (postJob (clearAccess (landWrite s a) (.list side slot)) side slot j))
      else .next s
  | _, _ => .next s

/-! ## The bus fault -/

/-- Every job of a table ends on a bus fault: a RUNNING one as its last sectors end, a LISTING one with its
list abandoned (R82, R99, R133). -/
def endOnFault (side : Side) (s : State) (k : Nat) : State :=
  match jobAt s side k with
  | some j =>
      match j.phase with
      | .running => endJob s side k j
      | .listing => postJob s side k j
  | none => s

/-- Every lane's sector abandoned (R16). -/
def abandonAll (s : State) : State := (List.finRange 4).foldl abandonSector s

/-- A bus fault (R98 to R101): the port FAULTED with the access's address, every access dropped, every
sector abandoned, every job ended BUS_FAULT in ascending order of slot, and BUS_FAULT pending. -/
def busFault (s : State) (a : Access) : State :=
  let s := dropAll s
  let s := s.setBufferPort { s.bufferPort with faulted := true, faultAddr := a.addr }
  let s := abandonAll s
  let s := mapJobs (mapJobs s .i Job.busFault) .m Job.busFault
  let s := forEachSlot .m (endOnFault .m) (forEachSlot .i (endOnFault .i) s)
  settle (raiseBusFault s)

/-- BUS_ERROR_RESPONSE (R98). -/
def execBusErrorResponse (who : Requester) (s : State) : Host.Outcome State Fault Refusal :=
  match accessOf s who with
  | some a => if s.bufferPort.faulted then .next s else .next (busFault s a)
  | none => .next s

/-- DROPPED_ACCESS_RESPONSE (R97, R98): a response for a dropped access, whatever it carries, is discarded
and changes no state of the part (log entry 19). -/
def execDroppedAccessResponse (_who : Requester) (_kind : ResponseKind) (s : State) :
    Host.Outcome State Fault Refusal :=
  .next s

/-- BUS_RECOVER (R103). -/
def execBusRecover (s : State) : Host.Outcome State Fault Refusal :=
  onRecord .s .busRecover s (fun r s =>
    decideRecord .s r [(!(reservedZero r []), .badField)] s
      (answerRecord (s.setBufferPort { s.bufferPort with faulted := false }) .s r .ok .empty))

end Sys2Proof.Machine
end

