-- ==== Sys2Proof/Machine/PortBlock.lean ====
section
/-! DEFINITION. The commands of the port windows and of the Port Block: record writes, completion reads, other
accesses, unknown kinds, Status, events and quota answers (10_request_ports_and_records.md, R162). -/

namespace Sys2Proof.Machine

/-- The state with the last answer on the interconnect set (log entry 13). -/
def State.setAnswer (s : State) (a : Answer) : State := { s with answer := a }

/-- REQUEST_WINDOW_WRITE (R170): the record joins the queue, and in RETAIN a record in the I-port or M-port
queue wakes the part (R147); at 16 records it is answered with an error and dropped. -/
def execRequestWindowWrite (p : Port) (r : Record) (s : State) : Host.Outcome State Fault Refusal :=
  if (s.port p).requests.length < Config.requestPlaces then
    let queued :=
      (s.setPort p { s.port p with requests := (s.port p).requests ++ [r] }).setAnswer (.written p)
    .next (if p = .s then queued else wakeByRecord queued)
  else .next (s.setAnswer (.error p))

/-- COMPLETION_WINDOW_READ (R172): the oldest filled place's record, and the place becomes free; a NONE record,
all zero, when no place is filled. -/
def execCompletionWindowRead (p : Port) (s : State) : Host.Outcome State Fault Refusal :=
  match (s.port p).filled with
  | c :: cs => .next ((s.setPort p { s.port p with filled := cs }).setAnswer (.record p c.record))
  | [] => .next (s.setAnswer (.record p 0))

/-- BAD_WINDOW_ACCESS (R170): an error response, nothing else changes. An operand that names a read of a count
is answered with the count (R169; log entry 11); one that names an access with a row of its own is no
step of this row. -/
def execBadWindowAccess (p : Port) (a : WindowAccess) (s : State) : Host.Outcome State Fault Refusal :=
  match a.kind with
  | .bad => .next (s.setAnswer (.error p))
  | .freePlacesRead => .next (s.setAnswer (.count p (freePlaces (s.port p))))
  | .waitingRead => .next (s.setAnswer (.count p (completionsWaiting (s.port p))))
  | .requestWrite => .next s
  | .completionRead => .next s

/-- UNKNOWN_KIND_RECORD (R178): a taken record of a code the port does not take is refused BAD_KIND, its tag
and code echoed. -/
def execUnknownKindRecord (p : Port) (s : State) : Host.Outcome State Fault Refusal :=
  match offered s p with
  | some r =>
      if portTakesCode p (kindCode r) then .next s
      else .next (answerRecord (takeRecord s p) p r .badKind .empty)
  | none => .next s

/-- The values of a Status completion (R177). -/
def statusReport (s : State) : StatusReport :=
  { stage := s.stage.stage, admission := s.table.admission, capacity := s.table.capacity,
    dataUnit := s.table.dataUnit, faulted := s.bufferPort.faulted, faultAddr := s.bufferPort.faultAddr,
    inService := s.lanes.map Lane.inService, selfTest := s.stage.selfTest, remaining := s.stage.remaining,
    iJobs := jobCount s .i, mJobs := jobCount s .m, claims := deviceClaims s.sweep, load := s.keys.load }

/-- STATUS (R177). -/
def execStatus (s : State) : Host.Outcome State Fault Refusal :=
  onRecord .s .status s (fun r s =>
    decideRecord .s r [(!(reservedZero r []), .badField)] s
      (answerRecord s .s r .ok (.status (statusReport s))))

/-- The members of an event family pending, by ascending range index (R176). -/
def firstMember (v : Vector Bool 16) : Option RangeId := (List.finRange 16).find? (fun r => v.get r)

/-- The first pending event in priority order, with its owner's values and the set without it (R176). -/
def firstEvent (s : State) : Option (EventRecord × EventSet) :=
  let e := s.ports.events
  if e.busFault then some (.busFault s.bufferPort.faultAddr, { e with busFault := false })
  else if e.retainEntered then some (.retainEntered s.stage.lastRetain, { e with retainEntered := false })
  else if e.selfTest then some (.selfTest s.stage.selfTest, { e with selfTest := false })
  else
    match firstMember e.sweepDone with
    | some r =>
        some (.sweepDone r (match (s.table.entry r).current with | some b => b.epoch | none => 0),
          { e with sweepDone := put e.sweepDone r false })
    | none =>
        match firstMember e.rangeRefused with
        | some r =>
            some (.rangeRefused r (s.table.entry r).refusals,
              { e with rangeRefused := put e.rangeRefused r false })
        | none => none

/-- An event record: kind EVENT, status OK, tag 0 (R176). -/
def eventCompletion (v : EventRecord) : Completion :=
  { kind := eventCode, status := .ok, tag := 0, body := .event v }

/-- EVENT_POST (R176): the first pending event fills a free S-port place and its member is cleared. -/
def execEventPost (s : State) : Host.Outcome State Fault Refusal :=
  match firstEvent s with
  | some (v, e) =>
      if hasPlace s.ports.s then .next (postFree (s.setEvents e) .s (eventCompletion v)) else .next s
  | none => .next s

/-- The status of a record answered from an abort quota (R162, R165). -/
def ResetKind.quotaStatus : ResetKind → Status
  | .engine => .aborted
  | .zeroize => .zeroized

/-- A reset with one record of a side's quota answered (R162). -/
def ResetRun.answered (r : ResetRun) : Side → ResetRun
  | .i => { r with iQuota := r.iQuota - 1, iAnswered := r.iAnswered + 1 }
  | .m => { r with mQuota := r.mQuota - 1, mAnswered := r.mAnswered + 1 }

/-- One held quota record answered without being checked (R162). -/
def answerQuota (s : State) (side : Side) (reset : ResetRun) (r : Record) : State :=
  let q := s.port (sidePort side)
  let s := s.setPort (sidePort side) { q with requests := q.requests.tail }
  let s := postFree s (sidePort side) (completionOf r reset.kind.quotaStatus .empty)
  { s with ports := { s.ports with reset := some (reset.answered side) } }

/-- ABORT_QUOTA_ANSWER (R162): in every stage, when the port has a free place; the reset ends with the last
answer that leaves it clear (R163). -/
def execAbortQuotaAnswer (side : Side) (s : State) : Host.Outcome State Fault Refusal :=
  match s.ports.reset, (s.port (sidePort side)).requests with
  | some reset, r :: _ =>
      if quotaOf s side ≠ 0 ∧ hasPlace (s.port (sidePort side)) = true then
        .next (settle (answerQuota s side reset r))
      else .next s
  | _, _ => .next s

end Sys2Proof.Machine
end

