-- ==== Sys2Proof/Machine/ResetCommands.lean ====
section
/-! DEFINITION. Format Set, Admit, Seal, Engine Reset, Zeroize and the power-on reset
(09_admission_engine_reset_and_zeroize.md). -/

namespace Sys2Proof.Machine

/-- The capacity and the data unit of a FORMAT_SET, bytes 4 to 9 and 10 to 11, where they are admissible
(R159, R179). -/
def formatFields (r : Record) : Option (Nat × DataUnit) :=
  if recordField r 4 6 = 0 ∨ recordField r 4 6 > Config.maxCapacity ∨
      reservedZero r (byteSpan 4 11) = false then none
  else
    match unitOfBytes (recordField r 10 2) with
    | some u => some (recordField r 4 6, u)
    | none => none

/-- Check 5 of R159: a PRESENT bounded range has its last LBA at or above the new capacity. -/
def rangePastCapacity (t : RangeTable) (capacity : Nat) : Bool :=
  boundedRanges.any (fun x => (t.entry x).present && decide ((t.entry x).last ≥ capacity))

/-- FORMAT_SET (R159). -/
def execFormatSet (s : State) : Host.Outcome State Fault Refusal :=
  onRecord .s .formatSet s (fun r s =>
    match formatFields r with
    | none => answerRecord s .s r .badField .empty
    | some (capacity, u) =>
        decideRecord .s r
          [(s.table.admission == .opened, .notSealed), (anySweeping s.table, .sweepActive),
           (!(tableEmpty s .i) || !(tableEmpty s .m), .busy),
           (rangePastCapacity s.table capacity, .rangeOverlap)] s
          (answerRecord { s with table := { s.table with capacity := capacity, dataUnit := u } }
            .s r .ok .empty))

/-- ADMIT (R160). -/
def execAdmitRequest (s : State) : Host.Outcome State Fault Refusal :=
  onRecord .s .admitRequest s (fun r s =>
    decideRecord .s r
      [(!(reservedZero r []), .badField),
       (s.table.admission == .sealed && s.table.capacity == 0, .formatUnset)] s
      (answerRecord { s with table := { s.table with admission := .opened } } .s r .ok .empty))

/-- SEAL (R160). -/
def execSealRequest (s : State) : Host.Outcome State Fault Refusal :=
  onRecord .s .sealRequest s (fun r s =>
    decideRecord .s r [(!(reservedZero r []), .badField)] s
      (answerRecord { s with table := { s.table with admission := .sealed } } .s r .ok .empty))

/-- Jobs of a table whose end cause is none: those a reset ends (R163), counted at its taking. One of them that a
later bus fault ends BUS_FAULT stays counted (DESIGN CHOICE, unsafe; log entry 30). -/
def jobsToEnd (s : State) (side : Side) : Nat :=
  ((List.range side.slots).filter (fun k =>
    match jobAt s side k with
    | some j => j.cause == none
    | none => false)).length

/-- The end cause a reset gives (R161, R165). -/
def ResetKind.cause : ResetKind → EndCause
  | .engine => .aborted
  | .zeroize => .zeroized

/-- A lane in READING or TRANSFORMING abandons its sector at a reset; one in WRITING goes on (R16, R161). -/
def abandonUnlessWriting (s : State) (l : LaneId) : State :=
  match (s.lanes.get l).work with
  | some w => if w.phase = .writing then s else abandonSector s l
  | none => s

/-- The reset's record at its taking: the quotas are the records waiting in the two request queues (R162), and the
job counts those of `jobsToEnd`, fixed here (log entry 30). -/
def newReset (s : State) (kind : ResetKind) (tag : Tag) : ResetRun :=
  { kind := kind, tag := tag, iQuota := s.ports.i.requests.length, mQuota := s.ports.m.requests.length,
    iJobs := jobsToEnd s .i, mJobs := jobsToEnd s .m, iAnswered := 0, mAnswered := 0 }

/-- The taking of an Engine Reset or a Zeroize (R161, R165), with what comes about in the same step: jobs whose
last sector has ended go on to their list or completion in ascending order of slot, and a reset that finds
nothing in flight ends at once (R163). -/
def takeReset (kind : ResetKind) (r : Record) (s : State) : State :=
  let run := newReset s kind (recordTag r)
  let s := { s with ports := { s.ports with reset := some run } }
  let s := mapJobs (mapJobs s .i (Job.stop kind.cause)) .m (Job.stop kind.cause)
  let s := (List.finRange 4).foldl abandonUnlessWriting s
  let s := s.setSweep (s.sweep.filterClaims (fun c => c.state == .reciphering))
  settle (forEachSlot .m (fun s k => closeJob s .m k) (forEachSlot .i (fun s k => closeJob s .i k) s))

/-- ENGINE_RESET (R161). -/
def execEngineReset (s : State) : Host.Outcome State Fault Refusal :=
  onRecord .s .engineReset s (fun r s =>
    decideRecord .s r [(!(reservedZero r []), .badField)] s (takeReset .engine r s))

/-- ZEROIZE (R165). -/
def execZeroize (s : State) : Host.Outcome State Fault Refusal :=
  onRecord .s .zeroize s (fun r s =>
    decideRecord .s r [(!(reservedZero r []), .badField)] s (takeReset .zeroize r s))

/-- ENGINE_RESET_END (R163). The command that makes the last condition hold does this in its own step (log
entry 3). -/
def execEngineResetEnd (s : State) : Host.Outcome State Fault Refusal := .next (endEngineReset s)

/-- ZEROIZE_CLEARING (R166). The command that makes the last condition hold does this in its own step (log
entry 3). -/
def execZeroizeClearing (s : State) : Host.Outcome State Fault Refusal := .next (endZeroize s)

/-- POWER_ON_RESET (R168): every block at its power-on values. The shared buffer memory is outside the part:
it stays, but for the destinations of writes in flight; the waiting commands stay (log entry 17). -/
def execPowerOnReset (s : State) : Host.Outcome State Fault Refusal :=
  .next { State.reset with
    buffer := (dropAll s).buffer, draws := (dropAll s).draws, pending := s.pending }

end Sys2Proof.Machine
end

