-- ==== Sys2Proof/Machine/StageCommands.lean ====
section
/-! DEFINITION. The commands of the Stage Controller (08_power_stages_and_inactivity_lock.md). -/

namespace Sys2Proof.Machine

/-- INACTIVITY_TICK (R151): a second marked by the reference timer; nothing while the timer does not run. -/
def execInactivityTick (s : State) : Host.Outcome State Fault Refusal :=
  if timerRuns s then .next (timerSecond s) else .next s

/-- INACTIVITY_EXPIRY (R153): the second at which the remaining reaches 0 (log entry 4). -/
def execInactivityExpiry (s : State) : Host.Outcome State Fault Refusal :=
  if timerRuns s = true ∧ s.stage.remaining ≤ 1 then .next (expireTimer s) else .next s

/-- The fields of an INACTIVITY_SET, bytes 4 to 6, where they are admissible (R154, R179). -/
def inactivityFields (r : Record) : Option (Nat × Bool) :=
  if recordField r 4 2 ≤ Config.maxDelay ∧ recordField r 6 1 ≤ 1 ∧ reservedZero r [4, 5, 6] = true then
    some (recordField r 4 2, recordField r 6 1 == 1)
  else none

/-- INACTIVITY_SET (R154). -/
def execInactivitySet (s : State) : Host.Outcome State Fault Refusal :=
  onRecord .s .inactivitySet s (fun r s =>
    match inactivityFields r with
    | some (delay, media) =>
        answerRecord (s.setStage { s.stage with delay := delay, mediaCounts := media, remaining := delay })
          .s r .ok .empty
    | none => answerRecord s .s r .badField .empty)

/-- Whether some lane is IN_SERVICE (R148). -/
def anyInService (s : State) : Bool := (List.finRange 4).any (fun l => (s.lanes.get l).inService)

/-- RETAIN entered at once on a Retain request: OK, and a waiting record wakes the part (R148, R150). -/
def retainAtOnce (s : State) (r : Record) : State :=
  wakeByRecord (answerRecord (retainEntry s .request) .s r .ok .empty)

/-- The start of a drain by a Retain request, which holds the S-port (R148). -/
def beginDrain (s : State) (r : Record) : State :=
  s.setStage { s.stage with
    stage := .draining, drainCause := some .request, waitingRetain := some (recordTag r) }

/-- A Retain request by stage (R148). -/
def retainByStage (r : Record) (s : State) : State :=
  match s.stage.stage with
  | .run =>
      if (tableEmpty s .i && tableEmpty s .m) = true then retainAtOnce s r
      else if anyInService s then beginDrain s r
      else answerRecord s .s r .busy .empty
  | .failed => retainAtOnce s r
  | .retain => answerRecord s .s r .ok .empty
  | .waking => answerRecord s .s r .busy .empty
  | .draining => answerRecord s .s r .busy .empty

/-- RETAIN (R148). -/
def execRetain (s : State) : Host.Outcome State Fault Refusal :=
  onRecord .s .retain s (fun r s =>
    decideRecord .s r [(!(reservedZero r []), .badField)] s (retainByStage r s))

/-- A Wake by stage (R147). -/
def wakeByStage (r : Record) (s : State) : State :=
  match s.stage.stage with
  | .retain => wakePart (answerRecord s .s r .ok .empty) .wake none
  | .waking => answerRecord s .s r .ok .empty
  | .run => answerRecord s .s r .ok .empty
  | .failed => answerRecord s .s r .ok .empty
  | .draining => answerRecord s .s r .busy .empty

/-- WAKE (R147). -/
def execWake (s : State) : Host.Outcome State Fault Refusal :=
  onRecord .s .wake s (fun r s =>
    decideRecord .s r [(!(reservedZero r []), .badField)] s (wakeByStage r s))

/-- A test run begun without a move of the stage: every lane that holds no work is held at once (R89, R155,
R156). -/
def beginLaneTest (s : State) (tag : Tag) : State :=
  { s with
    stage := { s.stage with
      testRun := some { cause := .request, under := allLanes, passed := noLanes },
      waitingLaneTest := some tag },
    lanes := s.lanes.map (fun x => { x with testHold := x.testHold || x.work.isNone }) }

/-- A Lane Test by stage (R155, R156). -/
def laneTestByStage (r : Record) (s : State) : State :=
  match s.stage.stage with
  | .run => beginLaneTest s (recordTag r)
  | .failed => beginLaneTest s (recordTag r)
  | .retain => wakePart s .request (some (recordTag r))
  | .waking => answerRecord s .s r .busy .empty
  | .draining => answerRecord s .s r .busy .empty

/-- LANE_TEST (R155, R156). -/
def execLaneTest (s : State) : Host.Outcome State Fault Refusal :=
  onRecord .s .laneTest s (fun r s =>
    decideRecord .s r [(!(reservedZero r []), .badField)] s (laneTestByStage r s))

/-- Whether a set of lanes has a member. -/
def laneSetNonempty (v : Vector Bool 4) : Bool := (List.finRange 4).any (fun l => v.get l)

/-- The stage after a test run: from WAKING, RUN or FAILED by its result; from FAILED, RUN once a lane has
passed (R145, R156). -/
def stageAfterRun (st : Stage) (passed : Vector Bool 4) : Stage :=
  match st with
  | .waking => if laneSetNonempty passed then .run else .failed
  | .failed => if laneSetNonempty passed then .run else .failed
  | .run => .run
  | .draining => .draining
  | .retain => .retain

/-- The end of a test run (R146): the record updated, SELF_TEST pending, the stage moved, the timer set on an
entry to RUN (R152), and a waiting Lane Test completed with the lanes passed and the run count (R155, R156). -/
def endTestRun (s : State) (t : TestRun) : State :=
  let c := s.stage
  let st := stageAfterRun c.stage t.passed
  let entersRun := st == .run && c.stage != .run
  let s := s.setStage { c with
    stage := st, testRun := none, waitingLaneTest := none,
    remaining := if entersRun then c.delay else c.remaining,
    selfTest := { runs := c.selfTest.runs + 1, cause := some t.cause, passed := t.passed } }
  let s := raiseSelfTest s
  match c.waitingLaneTest with
  | some tag =>
      post s .s (heldCompletion .laneTest tag (.laneTest t.passed (c.selfTest.runs + 1)))
  | none => s

/-- One lane's result taken into a run: the lane out of the set under test, in the set passed if it passed. -/
def TestRun.lane (t : TestRun) (l : LaneId) (passed : Bool) : TestRun :=
  { t with under := put t.under l false, passed := put t.passed l passed }

/-- The end of one lane's test (R146, R88, R89). -/
def endLaneTest (s : State) (l : LaneId) (t : TestRun) (passed : Bool) : State :=
  let t' := t.lane l passed
  let s := s.setLane l { s.lanes.get l with inService := passed, testHold := false }
  let s := s.setStage { s.stage with testRun := some t' }
  if laneSetNonempty t'.under then s else endTestRun s t'

/-- LANE_SELF_TEST_END (R146): the lane passes if its encipherment gave the expected ciphertext and its
decipherment the plaintext (log entry 8). -/
def execLaneSelfTestEnd (l : LaneId) (encOk decOk : Bool) (s : State) :
    Host.Outcome State Fault Refusal :=
  match s.stage.testRun with
  | some t =>
      if t.under.get l = true ∧ (s.lanes.get l).testHold = true then
        .next (endLaneTest s l t (encOk && decOk))
      else .next s
  | none => .next s

/-- DRAIN_END (R149): a drain with both tables empty ends in RETAIN. The command that posts the last job's
completion does this in its own step (log entry 3). -/
def execDrainEnd (s : State) : Host.Outcome State Fault Refusal := .next (endDrain s)

end Sys2Proof.Machine
end

