-- ==== Sys2Proof/Machine/Dispatch.lean ====
section
/-! DEFINITION. The dispatch: one arm for each command, one direct call of its meaning. -/

namespace Sys2Proof.Machine

def exec (i : Instr) (s : State) : Host.Outcome State Fault Refusal :=
  match i with
  | .powerOnReset => Sys2Proof.Machine.execPowerOnReset s
  | .inactivityTick => Sys2Proof.Machine.execInactivityTick s
  | .inactivityExpiry => Sys2Proof.Machine.execInactivityExpiry s
  | .requestWindowWrite p r => Sys2Proof.Machine.execRequestWindowWrite p r s
  | .completionWindowRead p => Sys2Proof.Machine.execCompletionWindowRead p s
  | .badWindowAccess p a => Sys2Proof.Machine.execBadWindowAccess p a s
  | .read => Sys2Proof.Machine.execRead s
  | .write => Sys2Proof.Machine.execWrite s
  | .claim => Sys2Proof.Machine.execClaim s
  | .release => Sys2Proof.Machine.execRelease s
  | .sweepQuery p => Sys2Proof.Machine.execSweepQuery p s
  | .recipher => Sys2Proof.Machine.execRecipher s
  | .screen => Sys2Proof.Machine.execScreen s
  | .unknownKindRecord p => Sys2Proof.Machine.execUnknownKindRecord p s
  | .status => Sys2Proof.Machine.execStatus s
  | .formatSet => Sys2Proof.Machine.execFormatSet s
  | .admitRequest => Sys2Proof.Machine.execAdmitRequest s
  | .sealRequest => Sys2Proof.Machine.execSealRequest s
  | .engineReset => Sys2Proof.Machine.execEngineReset s
  | .zeroize => Sys2Proof.Machine.execZeroize s
  | .rangeDefine => Sys2Proof.Machine.execRangeDefine s
  | .rangeDelete => Sys2Proof.Machine.execRangeDelete s
  | .rangeLocks => Sys2Proof.Machine.execRangeLocks s
  | .rangeBind => Sys2Proof.Machine.execRangeBind s
  | .rangeRekey => Sys2Proof.Machine.execRangeRekey s
  | .rangeErase => Sys2Proof.Machine.execRangeErase s
  | .rangeQuery => Sys2Proof.Machine.execRangeQuery s
  | .countClear => Sys2Proof.Machine.execCountClear s
  | .keyOpen => Sys2Proof.Machine.execKeyOpen s
  | .keyPart => Sys2Proof.Machine.execKeyPart s
  | .keyClear => Sys2Proof.Machine.execKeyClear s
  | .keyQuery => Sys2Proof.Machine.execKeyQuery s
  | .classSet => Sys2Proof.Machine.execClassSet s
  | .busRecover => Sys2Proof.Machine.execBusRecover s
  | .inactivitySet => Sys2Proof.Machine.execInactivitySet s
  | .retain => Sys2Proof.Machine.execRetain s
  | .wake => Sys2Proof.Machine.execWake s
  | .laneTest => Sys2Proof.Machine.execLaneTest s
  | .abortQuotaAnswer p => Sys2Proof.Machine.execAbortQuotaAnswer p s
  | .grant => Sys2Proof.Machine.execGrant s
  | .trailerReadDone l placed => Sys2Proof.Machine.execTrailerReadDone l placed s
  | .dataUnitReadDone l placed => Sys2Proof.Machine.execDataUnitReadDone l placed s
  | .transformEnd l => Sys2Proof.Machine.execTransformEnd l s
  | .resultWriteDone l => Sys2Proof.Machine.execResultWriteDone l s
  | .verdictListWriteDone side slot => Sys2Proof.Machine.execVerdictListWriteDone side slot s
  | .busErrorResponse who => Sys2Proof.Machine.execBusErrorResponse who s
  | .droppedAccessResponse who kind => Sys2Proof.Machine.execDroppedAccessResponse who kind s
  | .laneSelfTestEnd l encOk decOk => Sys2Proof.Machine.execLaneSelfTestEnd l encOk decOk s
  | .eventPost => Sys2Proof.Machine.execEventPost s
  | .drainEnd => Sys2Proof.Machine.execDrainEnd s
  | .keyClearDeferredDone => Sys2Proof.Machine.execKeyClearDeferredDone s
  | .engineResetEnd => Sys2Proof.Machine.execEngineResetEnd s
  | .zeroizeClearing => Sys2Proof.Machine.execZeroizeClearing s

end Sys2Proof.Machine
end

