-- ==== Sys2Proof/Safety.lean ====
section
/-! DEFINITION. The terms the statements are made in: when a port takes a record, what a completed request
leaves, when each command runs as its rule says, and the laws that hold of every state of a run. -/

namespace Sys2Proof.Machine

/-! ## Taking and completing -/

/-- Port `p` takes the record `r`, of kind `k`, next: its treatment of records permits it, a completion place
is free, and `r` is its oldest record (R171). -/
abbrev Taken (s : State) (p : Port) (r : Record) (k : Kind) : Prop :=
  portPermits s p = true ∧ (s.port p).filled.length + (s.port p).reserved < 32 ∧
  (s.port p).requests.head? = some r ∧ kindCode r = k.code

/-- Port `p` takes no record: a reset holds every port (R162, R174), a waiting Retain request the S-port (R174), a waiting
Lane Test the S-port too (R174), but against an Engine Reset at the head of its queue only as the free value has it (R164
row 7; log entry 32), the stage WAKING or RETAIN the I-port and the M-port (R144). -/
def PortHeld (s : State) : Port → Prop
  | .s => s.ports.reset ≠ none ∨ s.stage.waitingRetain ≠ none ∨
      (s.stage.waitingLaneTest ≠ none ∧ ((∀ r, s.ports.s.requests.head? = some r → kindCode r ≠ Kind.engineReset.code) ∨
        Config.resetPassesLaneTest = false))
  | .i => s.ports.reset ≠ none ∨ s.stage.stage = .waking ∨ s.stage.stage = .retain
  | .m => s.ports.reset ≠ none ∨ s.stage.stage = .waking ∨ s.stage.stage = .retain

/-- Port `p` has no record to take now: it is held, no completion place is free, or no record waits (R171). -/
def TakesNothing (s : State) (p : Port) : Prop :=
  PortHeld s p ∨ 32 ≤ (s.port p).filled.length + (s.port p).reserved ∨ (s.port p).requests = []

/-- The commands by which each port takes a record of each kind it admits (R178). -/
def recordCommands : Port → List (Kind × Instr)
  | .i => [(.read, .read), (.write, .write)]
  | .m => [(.claim, .claim), (.release, .release), (.sweepQuery, .sweepQuery .m), (.recipher, .recipher),
           (.screen, .screen)]
  | .s => [(.sweepQuery, .sweepQuery .s), (.status, .status), (.formatSet, .formatSet),
           (.admitRequest, .admitRequest), (.sealRequest, .sealRequest), (.engineReset, .engineReset),
           (.zeroize, .zeroize), (.rangeDefine, .rangeDefine), (.rangeDelete, .rangeDelete),
           (.rangeLocks, .rangeLocks), (.rangeBind, .rangeBind), (.rangeRekey, .rangeRekey),
           (.rangeErase, .rangeErase), (.rangeQuery, .rangeQuery), (.countClear, .countClear), (.keyOpen, .keyOpen),
           (.keyPart, .keyPart), (.keyClear, .keyClear), (.keyQuery, .keyQuery), (.classSet, .classSet),
           (.busRecover, .busRecover), (.inactivitySet, .inactivitySet), (.retain, .retain), (.wake, .wake),
           (.laneTest, .laneTest)]

/-- The state in which port `p` has taken its oldest record and posted its completion in one step: the record
has left the queue, the completion is the youngest filled place, no place more is reserved (R171, R172).
Nothing else differs. -/
def completed (s : State) (p : Port) (c : Completion) : State :=
  s.setPort p { requests := (s.port p).requests.tail, filled := (s.port p).filled ++ [c],
                reserved := (s.port p).reserved }

/-- The state in which port `p` has taken its oldest record, whose completion comes later: one place more is
reserved (R171). Nothing else differs. -/
def takenOnly (s : State) (p : Port) : State :=
  s.setPort p { requests := (s.port p).requests.tail, filled := (s.port p).filled,
                reserved := (s.port p).reserved + 1 }

/-- The completion of a record: its kind code and tag echoed (R178). -/
def answerOf (r : Record) (st : Status) (b : Body) : Completion :=
  { kind := kindCode r, status := st, tag := recordTag r, body := b }

/-- Every byte of buffer memory reads as before. -/
def SameMemory (s t : State) : Prop := ∀ a, readByte t.buffer a = readByte s.buffer a

/-- Every byte of buffer memory outside the `n` bytes from `lo` on reads as before. -/
def SameOutside (s t : State) (lo n : Nat) : Prop :=
  ∀ a, a < lo ∨ lo + n ≤ a → readByte t.buffer a = readByte s.buffer a

/-- Both job tables are empty. -/
abbrev NoJobs (s : State) : Prop := tableEmpty s .i = true ∧ tableEmpty s .m = true

/-- No waiting Key Clear has its group's last pin released: each RETIRING group is pinned (R58). -/
abbrev NoReleasedClear (s : State) : Prop :=
  ∀ g : CellId, ∀ e ∈ (s.keys.groups.get g).toList, e.state = .retiring → e.pins ≠ 0

/-- No group is RETIRING. -/
abbrev NoRetiring (s : State) : Prop :=
  ∀ g : CellId, ∀ e ∈ (s.keys.groups.get g).toList, e.state ≠ .retiring

/-- No record waits in the I-port or M-port queue. -/
abbrev QueuesEmpty (s : State) : Prop := s.ports.i.requests = [] ∧ s.ports.m.requests = []

/-- The checks of a table in order: the first condition that holds gives the status (R32, R49, R67, R108). -/
def Refuses : List (Prop × Status) → Status → Prop
  | [], _ => False
  | (c, st) :: rest, st' => (c ∧ st' = st) ∨ (¬ c ∧ Refuses rest st')

/-- The command answers the record `r` of port `p` at once and changes nothing else. -/
def AnsweredOnly (c : Instr) (s : State) (p : Port) (r : Record) (st : Status) (b : Body) : Prop :=
  ∃ t, exec c s = .next t ∧ SameMemory s t ∧ t = completed s p (answerOf r st b)

/-! ## Range and key requests -/

/-- No range is SWEEPING. -/
abbrev NoSweep (s : State) : Prop := ∀ q : RangeId, (s.table.entry q).previous = none

/-- The group and epoch of a RANGE_BIND, RANGE_REKEY or RANGE_ERASE pass their checks: the group is FILLED and
unbound, the epoch is not 0 and no live binding has it (R39). -/
abbrev NewBinding (s : State) (r : Record) (g : CellId) (ge : GroupRec) : Prop :=
  cellOf (groupByte r) = some g ∧ s.keys.groups.get g = some ge ∧ ge.state = .filled ∧ ge.bound = none ∧
  epochOf r ≠ 0 ∧ ∀ q : RangeId, ∀ b ∈ bindingsOf (s.table.entry q), b.epoch ≠ epochOf r

/-- RANGE_DEFINE passes its checks (R32, R33). -/
abbrev DefineReady (s : State) (r : Record) (x : RangeId) : Prop :=
  Taken s .s r .rangeDefine ∧ rangeOf r = some x ∧
  reservedZero r ([4, 5] ++ byteSpan 8 12 ++ byteSpan 16 20) = true ∧ locksOk r = true ∧ x ≠ 0 ∧
  recordField r 8 5 ≤ recordField r 16 5 ∧ NoSweep s ∧ (s.table.entry x).present = false ∧
  recordField r 16 5 < s.table.capacity ∧
  ∀ q : RangeId, q ≠ 0 → (s.table.entry q).present = true →
    (s.table.entry q).last < recordField r 8 5 ∨ recordField r 16 5 < (s.table.entry q).first

/-- RANGE_DELETE passes its checks (R32, R35). -/
abbrev DeleteReady (s : State) (r : Record) (x : RangeId) : Prop :=
  Taken s .s r .rangeDelete ∧ rangeOf r = some x ∧ reservedZero r [4] = true ∧ x ≠ 0 ∧
  (s.table.entry x).present = true ∧ NoSweep s

/-- RANGE_LOCKS passes its checks (R32, R37). -/
abbrev LocksReady (s : State) (r : Record) (x : RangeId) : Prop :=
  Taken s .s r .rangeLocks ∧ rangeOf r = some x ∧ reservedZero r [4, 5] = true ∧ locksOk r = true ∧
  (s.table.entry x).present = true

/-- COUNT_CLEAR passes its checks (R32, R43). -/
abbrev CountClearReady (s : State) (r : Record) (x : RangeId) : Prop :=
  Taken s .s r .countClear ∧ rangeOf r = some x ∧ reservedZero r [4] = true ∧
  (s.table.entry x).present = true

/-- The assigned bytes of RANGE_BIND, RANGE_REKEY and RANGE_ERASE are the only ones in use (R178). -/
abbrev BindFields (r : Record) (x : RangeId) : Prop :=
  rangeOf r = some x ∧ reservedZero r [4, 5, 8, 9, 10, 11] = true

/-- RANGE_BIND passes its checks (R39). -/
abbrev BindReady (s : State) (r : Record) (x : RangeId) (g : CellId) (ge : GroupRec) : Prop :=
  Taken s .s r .rangeBind ∧ BindFields r x ∧ (s.table.entry x).present = true ∧
  (s.table.entry x).current = none ∧ NewBinding s r g ge

/-- RANGE_REKEY passes its checks; `old` is the range's current binding, `og` its group's record (R109). -/
abbrev RekeyReady (s : State) (r : Record) (x : RangeId) (g : CellId) (ge : GroupRec) (old : Binding)
    (og : GroupRec) : Prop :=
  Taken s .s r .rangeRekey ∧ BindFields r x ∧ (s.table.entry x).present = true ∧
  (s.table.entry x).current = some old ∧ (s.table.entry x).previous = none ∧ NewBinding s r g ge ∧
  s.keys.groups.get old.group = some og ∧ old.group ≠ g

/-- RANGE_ERASE passes its checks; `old` is the range's current binding (R116). -/
abbrev EraseReady (s : State) (r : Record) (x : RangeId) (g : CellId) (ge : GroupRec) (old : Binding) :
    Prop :=
  Taken s .s r .rangeErase ∧ BindFields r x ∧ (s.table.entry x).present = true ∧
  (s.table.entry x).current = some old ∧ NewBinding s r g ge

/-- The checks of R33 on an index of 0 to 15. -/
def defineTable (s : State) (r : Record) (x : RangeId) : List (Prop × Status) :=
  [(reservedZero r ([4, 5] ++ byteSpan 8 12 ++ byteSpan 16 20) = false ∨ locksOk r = false, .badField),
   (x = 0 ∨ recordField r 16 5 < recordField r 8 5, .badField), (¬ NoSweep s, .sweepActive),
   ((s.table.entry x).present = true, .rangePresent), (s.table.capacity ≤ recordField r 16 5, .outOfRange),
   (∃ q : RangeId, q ≠ 0 ∧ (s.table.entry q).present = true ∧ recordField r 8 5 ≤ (s.table.entry q).last ∧
      (s.table.entry q).first ≤ recordField r 16 5, .rangeOverlap)]

/-- The checks of R35 on an index of 0 to 15. -/
def deleteTable (s : State) (r : Record) (x : RangeId) : List (Prop × Status) :=
  [(reservedZero r [4] = false, .badField), (x = 0 ∨ (s.table.entry x).present = false, .badField),
   (¬ NoSweep s, .sweepActive)]

/-- The three checks on the new binding that R39, R109 and R116 share. -/
def bindingTable (s : State) (r : Record) (g : CellId) : List (Prop × Status) :=
  [(¬ ∃ e, s.keys.groups.get g = some e ∧ e.state = .filled, .badGroup),
   (∃ e, s.keys.groups.get g = some e ∧ e.bound ≠ none, .bound),
   (epochOf r = 0 ∨ ∃ q : RangeId, ∃ b ∈ bindingsOf (s.table.entry q), b.epoch = epochOf r, .epochClash)]

/-- The checks of R39. -/
def bindTable (s : State) (r : Record) (x : RangeId) (g : CellId) : List (Prop × Status) :=
  [((s.table.entry x).present = false, .badField), ((s.table.entry x).current ≠ none, .alreadyKeyed)] ++
    bindingTable s r g

/-- The checks of R109. -/
def rekeyTable (s : State) (r : Record) (x : RangeId) (g : CellId) : List (Prop × Status) :=
  [((s.table.entry x).present = false, .badField), ((s.table.entry x).current = none, .noKey),
   ((s.table.entry x).previous ≠ none, .sweepActive)] ++ bindingTable s r g

/-- The checks of R116. -/
def eraseTable (s : State) (r : Record) (x : RangeId) (g : CellId) : List (Prop × Status) :=
  [((s.table.entry x).present = false, .badField), ((s.table.entry x).current = none, .noKey)] ++
    bindingTable s r g

/-- An index above 15, a cell number above 63 or a reserved field that is not zero (R32, R108). -/
abbrev BindFieldsBad (r : Record) : Prop :=
  rangeOf r = none ∨ cellOf (groupByte r) = none ∨ reservedZero r [4, 5, 8, 9, 10, 11] = false

/-- The checks of R51 on a cell number of 0 to 63. -/
def openTable (s : State) (r : Record) (base : CellId) : List (Prop × Status) :=
  [(strengthOfCode (recordField r 5 1) = none, .badField),
   (∃ st, strengthOfCode (recordField r 5 1) = some st ∧ base.1 % st.size ≠ 0, .badField),
   (∃ st, strengthOfCode (recordField r 5 1) = some st ∧ ∃ c : CellId, base.1 ≤ c.1 ∧ c.1 < base.1 + st.size ∧
      ((s.keys.cells.get c).filled = true ∨ ∃ h, groupHolding s.keys c = some h ∧ h.2.state ≠ .filled),
    .occupied)]

/-- The checks of R54 on a cell number of 0 to 63. A FILLED cell is refused with the repeated ones (R45). -/
def partTable (s : State) (c : CellId) : List (Prop × Status) :=
  [(s.keys.load = none, .noLoad),
   (∃ l, s.keys.load = some l ∧ ¬ (l.base.1 ≤ c.1 ∧ c.1 < l.base.1 + l.strength.size), .badField),
   (∃ l, s.keys.load = some l ∧ (c ∈ l.parts ∨ (s.keys.cells.get c).filled = true), .cellRepeat)]

/-- The checks of R57. -/
def clearTable (s : State) (c : CellId) : List (Prop × Status) :=
  [(∃ b e, groupHolding s.keys c = some (b, e) ∧ b ≠ c, .badGroup),
   (∃ e, groupHolding s.keys c = some (c, e) ∧ e.bound ≠ none, .bound),
   (∃ e, groupHolding s.keys c = some (c, e) ∧ e.state = .retiring, .busy)]

/-- A group's bound-to field becomes `b`, where a record stands. -/
def boundTo (gs : Vector (Option GroupRec) 64) (g : CellId) (b : Option BoundTo) :
    Vector (Option GroupRec) 64 :=
  put gs g ((gs.get g).map (fun e => { e with bound := b }))

/-- The groups of a list of bindings unbound, one after the other. -/
def unboundAll (gs : Vector (Option GroupRec) 64) (bs : List Binding) : Vector (Option GroupRec) 64 :=
  bs.foldl (fun gs b => boundTo gs b.group none) gs

/-- Cell `c` is one of the 2 or 4 cells of a group of a strength at a base (R46, R47). -/
def CellsOf (base : CellId) (st : Strength) (c : CellId) : Prop :=
  base.1 ≤ c.1 ∧ c.1 < base.1 + (match st with | .s128 => 2 | .s256 => 4)

/-- KEY_OPEN passes its checks (R49, R51). -/
abbrev OpenReady (s : State) (r : Record) (base : CellId) (st : Strength) : Prop :=
  Taken s .s r .keyOpen ∧ cellOf (recordField r 4 1) = some base ∧ reservedZero r [4, 5] = true ∧
  strengthOfCode (recordField r 5 1) = some st ∧ base.1 % st.size = 0 ∧
  ∀ c : CellId, base.1 ≤ c.1 → c.1 < base.1 + st.size →
    (s.keys.cells.get c).filled = false ∧
    ∀ h ∈ (groupHolding s.keys c).toList, h.2.state = .filled

/-- KEY_PART passes its checks on the open load `l` (R49, R54). -/
abbrev PartReady (s : State) (r : Record) (c : CellId) (l : OpenLoad) : Prop :=
  Taken s .s r .keyPart ∧ cellOf (recordField r 4 1) = some c ∧
  reservedZero r ([4] ++ byteSpan 16 31) = true ∧ s.keys.load = some l ∧ l.base.1 ≤ c.1 ∧
  c.1 < l.base.1 + l.strength.size ∧ c ∉ l.parts ∧ (s.keys.cells.get c).filled = false

/-- KEY_CLEAR is taken for cell `c` (R49). -/
abbrev ClearTaken (s : State) (r : Record) (c : CellId) : Prop :=
  Taken s .s r .keyClear ∧ cellOf (recordField r 4 1) = some c ∧ reservedZero r [4] = true

/-! ## Data requests -/

/-- The regions of a data request are aligned, end at or below byte 2^40 - 1 and share no byte (R70). -/
abbrev RegionsGood (rs : List Region) : Prop :=
  (∀ a ∈ rs, a.base % 8 = 0 ∧ a.base + a.len ≤ 1099511627776) ∧
  rs.Pairwise (fun a b => a.base + a.len ≤ b.base ∨ b.base + b.len ≤ a.base)

/-- The fields of a READ, WRITE or RECIPHER are good (R69). -/
abbrev JobFieldsGood (r : Record) : Prop :=
  1 ≤ countOf r ∧ countOf r ≤ 256 ∧ flagsOk r = true ∧ reservedZero r (jobBytes r) = true

/-- The stage and the buffer port let a data request through (checks 6 to 8 of R68). -/
abbrev PathOpen (s : State) : Prop :=
  s.stage.stage ≠ .draining ∧ s.stage.stage ≠ .failed ∧ s.bufferPort.faulted = false

/-- A data request's bytes of the verdict-list region, where it asks for one (R66). -/
def listRegions (r : Record) : List Region :=
  if listFlag r = true then [{ base := listOf r, len := countOf r }] else []

/-- The bytes of a sector in plain form and in cipher form (R1). -/
def plainBytes (s : State) : Nat := s.table.dataUnit.bytes
def cipherBytes (s : State) : Nat := s.table.dataUnit.bytes + 8

/-- Admission is OPEN, the LBAs lie below the capacity and need at most 8 segments (checks 9 to 11). -/
abbrev TableGood (s : State) (r : Record) : Prop :=
  s.table.admission = .opened ∧ startOf r + countOf r - 1 < s.table.capacity ∧
  (requestSegments s r).length ≤ 8

/-- The slots of a table: 32 in the I-table, 16 in the M-table (R64, R129). -/
abbrev slotCount : Side → Nat
  | .i => 32
  | .m => 16

/-- `k` is the lowest free slot of a table: one of its slots, it holds no job, and every lower one holds one (R64, R129). -/
abbrev LowestFree (s : State) (side : Side) (k : Nat) : Prop :=
  k < slotCount side ∧ jobAt s side k = none ∧ ∀ k', k' < k → jobAt s side k' ≠ none

/-- Every slot of a table holds a job. -/
abbrev TableFull (s : State) (side : Side) : Prop := ∀ k, k < slotCount side → jobAt s side k ≠ none

/-- Checks 2 to 8 of R68, on a request's fields, its regions in use, and the state of the part. -/
def earlyTable (s : State) (fieldsGood : Prop) (rs : List Region) : List (Prop × Status) :=
  [(¬ fieldsGood, .badField), (∃ a ∈ rs, a.base % 8 ≠ 0, .misaligned),
   (∃ a ∈ rs, 1099511627776 < a.base + a.len, .outOfBuffer),
   (¬ rs.Pairwise (fun a b => a.base + a.len ≤ b.base ∨ b.base + b.len ≤ a.base), .overlap),
   (s.stage.stage = .draining, .retaining), (s.stage.stage = .failed, .laneFault),
   (s.bufferPort.faulted = true, .busFault)]

/-- Checks 9 to 11 of R68. -/
def lookupTable (s : State) (r : Record) : List (Prop × Status) :=
  [(s.table.admission = .sealed, .isSealed), (s.table.capacity ≤ startOf r + countOf r - 1, .outOfRange),
   (8 < (requestSegments s r).length, .fragmented)]

/-- Checks 12 and 13 of R68, and BUSY where no slot is free (log entry 21). -/
def lockTable (s : State) (kind : JobKind) (r : Record) : List (Prop × Status) :=
  [(∃ g ∈ requestSegments s r, directionLock kind (s.table.entry g.range) = true, .locked),
   (∃ g ∈ requestSegments s r, g.current = none, .noKey), (TableFull s .i, .busy)]

/-- The checks of a READ or WRITE after its kind (R68); the strides are those of R1. -/
def ioTable (s : State) (kind : JobKind) (r : Record) : List (Prop × Status) :=
  earlyTable s (JobFieldsGood r)
      ([{ base := sourceOf r, len := countOf r * (if kind = .write then plainBytes s else cipherBytes s) },
        { base := destOf r, len := countOf r * (if kind = .read then plainBytes s else cipherBytes s) }] ++
        listRegions r) ++
    lookupTable s r ++ lockTable s kind r

/-- The checks of a RECIPHER after its kind (R130). -/
def recipherTable (s : State) (r : Record) : List (Prop × Status) :=
  earlyTable s (JobFieldsGood r)
      ([{ base := sourceOf r, len := countOf r * cipherBytes s },
        { base := destOf r, len := countOf r * cipherBytes s }] ++ listRegions r) ++
    [(¬ ∃ (x : RangeId) (c : Claim), c ∈ s.sweep.claims.get x ∧ c.state = .claimed ∧ c.first = startOf r ∧
        c.count = countOf r, .noClaim), (TableFull s .m, .busy)]

/-- The checks of a SCREEN after its kind (R137). -/
def screenTable (s : State) (r : Record) : List (Prop × Status) :=
  earlyTable s (1 ≤ countOf r ∧ countOf r ≤ 256 ∧ flagsOk r = true ∧ listFlag r = true ∧
      reservedZero r ([1] ++ byteSpan 4 8 ++ byteSpan 10 16 ++ byteSpan 27 31) = true)
      ({ base := sourceOf r, len := countOf r * cipherBytes s } :: listRegions r) ++
    lookupTable s r ++ [(TableFull s .m, .busy)]

/-- READ passes all thirteen checks of R68; `k` is the lowest free slot (R64). -/
abbrev ReadReady (s : State) (r : Record) (k : Nat) : Prop :=
  Taken s .i r .read ∧ JobFieldsGood r ∧
  RegionsGood ([{ base := sourceOf r, len := countOf r * cipherBytes s },
                { base := destOf r, len := countOf r * plainBytes s }] ++ listRegions r) ∧
  PathOpen s ∧ TableGood s r ∧
  (∀ g ∈ requestSegments s r, (s.table.entry g.range).readLock = false ∧ g.current.isSome = true) ∧
  LowestFree s .i k

/-- WRITE passes all thirteen checks of R68; `k` is the lowest free slot (R64). -/
abbrev WriteReady (s : State) (r : Record) (k : Nat) : Prop :=
  Taken s .i r .write ∧ JobFieldsGood r ∧
  RegionsGood ([{ base := sourceOf r, len := countOf r * plainBytes s },
                { base := destOf r, len := countOf r * cipherBytes s }] ++ listRegions r) ∧
  PathOpen s ∧ TableGood s r ∧
  (∀ g ∈ requestSegments s r, (s.table.entry g.range).writeLock = false ∧ g.current.isSome = true) ∧
  LowestFree s .i k

/-- RECIPHER passes its checks: `c` is the CLAIMED claim it names, `k` the lowest free slot (R130). -/
abbrev RecipherReady (s : State) (r : Record) (c : Claim) (k : Nat) : Prop :=
  Taken s .m r .recipher ∧ JobFieldsGood r ∧
  RegionsGood ([{ base := sourceOf r, len := countOf r * cipherBytes s },
                { base := destOf r, len := countOf r * cipherBytes s }] ++ listRegions r) ∧
  PathOpen s ∧ matchingClaim s r = some c ∧ LowestFree s .m k

/-- SCREEN passes its checks; `k` is the lowest free slot (R137). -/
abbrev ScreenReady (s : State) (r : Record) (k : Nat) : Prop :=
  Taken s .m r .screen ∧ 1 ≤ countOf r ∧ countOf r ≤ 256 ∧ flagsOk r = true ∧ listFlag r = true ∧
  reservedZero r ([1] ++ byteSpan 4 8 ++ byteSpan 10 16 ++ byteSpan 27 31) = true ∧
  RegionsGood [{ base := sourceOf r, len := countOf r * cipherBytes s },
               { base := listOf r, len := countOf r }] ∧
  PathOpen s ∧ TableGood s r ∧ LowestFree s .m k

/-- The job an accepted request becomes: every sector WAITING, RUNNING, no end cause (R64, R73). -/
def acceptedJob (s : State) (side : Side) (kind : JobKind) (r : Record) (segs : List Segment)
    (pinned : List CellId) (claim : Option RangeId) : Job :=
  { tag := recordTag r, kind := kind, acceptance := nextAcceptance s side, start := startOf r,
    count := countOf r, src := sourceOf r, dst := if kind = .screen then none else some (destOf r),
    list := if listFlag r = true then some (listOf r) else none, segments := segs, pinned := pinned,
    sectors := List.replicate (countOf r) .waiting, next := some (startOf r), done := 0, blank := 0,
    fault := 0, firstFault := none, phase := .running, cause := none, claim := claim, finals := [] }

/-- The Key Store with each group of a set pinned once more; nothing else of it differs (R55). -/
def PinnedOnce (k k' : KeyStore) (gs : List CellId) : Prop :=
  gs.Nodup ∧ k'.cells = k.cells ∧ k'.load = k.load ∧
  ∀ g, k'.groups.get g = (k.groups.get g).map (fun e => if g ∈ gs then { e with pins := e.pins + 1 } else e)

/-- CLAIM passes its checks; `mark` is the range's mark (R124, R127). -/
abbrev ClaimReady (s : State) (r : Record) (x : RangeId) (mark : Nat) : Prop :=
  Taken s .m r .claim ∧ rangeOf r = some x ∧
  reservedZero r ([4] ++ byteSpan 8 12 ++ byteSpan 14 15) = true ∧ 1 ≤ claimCount r ∧
  claimCount r ≤ 256 ∧ s.stage.stage ≠ .draining ∧ (s.table.entry x).previous.isSome = true ∧
  s.sweep.marks.get x = some mark ∧ deviceClaims s.sweep < 8 ∧ (s.sweep.claims.get x).length < 2 ∧
  nextClaimStart s x = some (claimFirst r) ∧
  ∀ a ∈ List.range' (claimFirst r) (claimCount r), a < s.table.capacity ∧ resolve s.table a = x

/-- RELEASE passes its checks; `c` is the youngest claim and `cs` the claims before it (R124, R128). -/
abbrev ReleaseReady (s : State) (r : Record) (x : RangeId) (cs : List Claim) (c : Claim) : Prop :=
  Taken s .m r .release ∧ rangeOf r = some x ∧ reservedZero r [4] = true ∧ s.stage.stage ≠ .draining ∧
  (s.table.entry x).previous.isSome = true ∧ s.sweep.claims.get x = cs ++ [c] ∧ c.state = .claimed

/-- The field check of a CLAIM (R124). -/
abbrev ClaimFieldsBad (r : Record) : Prop :=
  rangeOf r = none ∨ reservedZero r ([4] ++ byteSpan 8 12 ++ byteSpan 14 15) = false ∨ claimCount r = 0 ∨
  256 < claimCount r

/-- The stage check and the checks of a CLAIM (R124, R127). -/
def claimTable (s : State) (r : Record) (x : RangeId) : List (Prop × Status) :=
  [(s.stage.stage = .draining, .retaining), ((s.table.entry x).previous = none, .notSweeping),
   (8 ≤ deviceClaims s.sweep ∨ 2 ≤ (s.sweep.claims.get x).length, .claimLimit),
   (nextClaimStart s x ≠ some (claimFirst r), .claimOrder),
   (∃ a, claimFirst r ≤ a ∧ a < claimFirst r + claimCount r ∧ (s.table.capacity ≤ a ∨ resolve s.table a ≠ x),
    .badField)]

/-- The stage check and the checks of a RELEASE (R124, R128). -/
def releaseTable (s : State) (x : RangeId) : List (Prop × Status) :=
  [(s.stage.stage = .draining, .retaining), ((s.table.entry x).previous = none, .notSweeping),
   (¬ ∃ cs c, s.sweep.claims.get x = cs ++ [c] ∧ c.state = .claimed, .claimOrder)]

/-- The body of a CLAIM's or RELEASE's answer past the field check (R127, R128). -/
def claimBody (s : State) (x : RangeId) : Body :=
  .claim x (if (s.table.entry x).previous.isSome = true then nextClaimStart s x else none)

/-! ## Lanes -/

/-- The offer of a side is the sector at `lba` of the job `j` in slot `k`: of the jobs with no end cause and a
sector WAITING it was accepted first (R76). -/
def Offers (s : State) (side : Side) (k : Nat) (j : Job) (lba : Nat) : Prop :=
  jobAt s side k = some j ∧ j.cause = none ∧ j.next = some lba ∧
  ∀ k' j', jobAt s side k' = some j' → j'.cause = none → j'.next ≠ none → j.acceptance ≤ j'.acceptance

/-- With a lane eligible and a port waiting a grant is made, and it leaves in the arbiter the port that `chooseGrant`
gives, as the last granted, and its count; the classes stay (R92 to R94). -/
def GrantRecords (s : State) : Prop :=
  (∃ l, laneEligible s l = true) →
  ∀ side count, chooseGrant s.arbiter (fun sd => (offerOf s sd).isSome) = some (side, count) →
    ∃ t, exec .grant s = .next t ∧ t.arbiter = { s.arbiter with count := count, last := some side }

/-- The lane `l` holds the work `w` in `phase` and its access `a`, of a kind, is outstanding. -/
abbrev LaneWaits (s : State) (l : LaneId) (w : Work) (phase : LanePhase) (a : Access) (kind : AccessKind) :
    Prop :=
  (s.lanes.get l).work = some w ∧ w.phase = phase ∧ accessOf s (.lane l) = some a ∧ a.kind = kind

/-- The accesses that remain when a requester's is delivered (R96). -/
def without (s : State) (who : Requester) : List Access :=
  s.bufferPort.outstanding.filter (fun a => a.who != who)

/-- The sector at `lba` is not the job's last to end: another sector of it has not ended (R65). -/
abbrev OthersOpen (j : Job) (lba : Nat) : Prop :=
  j.phase = .running ∧ ∃ i, i < j.sectors.length ∧ i ≠ lba - j.start ∧
    j.sectors[i]?.map SectorState.isEnded = some false

/-- The lane with its work record gone; held when it is still to be tested (R87, R89). -/
def laneFreed (s : State) (l : LaneId) : Lane :=
  { s.lanes.get l with work := none, testHold := (s.lanes.get l).testHold || underTest s l }

/-- The state in which lane `l` has reported the end of its sector, not the last of job `j`, and nothing else
has changed (R15, R77). -/
def sectorReported (s : State) (l : LaneId) (w : Work) (j : Job) (v : Verdict) : State :=
  setJob (s.setLane l (laneFreed s l)) w.side w.slot (some (j.endSector w.lba v))

/-- A trailer with epoch `e` ends the sector at once with verdict `v` (the tables of R18, R20 and R21). -/
def EndsAt (w : Work) (e : Epoch) (v : Verdict) : Prop :=
  match w.op with
  | .encipher => False
  | .decipher => e ≠ 0 ∧ w.curEpoch ≠ some e ∧ w.prevEpoch ≠ some e ∧ v = .retired
  | .recipher =>
      w.prevEpoch ≠ some e ∧
      ((e ≠ 0 ∧ w.curEpoch = some e ∧ v = .alreadyCurrent) ∨
       (e = 0 ∧ w.curEpoch ≠ some e ∧ v = .blank) ∨
       (e ≠ 0 ∧ w.curEpoch ≠ some e ∧ v = .retired))
  | .screen =>
      (e ≠ 0 ∧ w.curEpoch = some e ∧ v = .liveCurrent) ∨
      (e ≠ 0 ∧ w.curEpoch ≠ some e ∧ w.prevEpoch = some e ∧ v = .livePrevious) ∨
      (e = 0 ∧ w.curEpoch ≠ some e ∧ w.prevEpoch ≠ some e ∧ v = .blank) ∨
      (e ≠ 0 ∧ w.curEpoch ≠ some e ∧ w.prevEpoch ≠ some e ∧ v = .retired)

/-- A trailer with epoch `e` chooses group `g` (the tables of R18 and R20). -/
def Chooses (w : Work) (e : Epoch) (g : Option CellId) : Prop :=
  match w.op with
  | .encipher => False
  | .decipher =>
      e ≠ 0 ∧ ((w.curEpoch = some e ∧ g = w.curGroup) ∨
        (w.curEpoch ≠ some e ∧ w.prevEpoch = some e ∧ g = w.prevGroup))
  | .recipher => e ≠ 0 ∧ w.prevEpoch = some e ∧ g = w.prevGroup
  | .screen => False

/-- Buffer memory as a read meets it: the other masters' bytes placed at the access (log entry 5). -/
def memoryAt (s : State) (a : Access) (placed : List Byte) : Memory :=
  writeBytes s.buffer a.addr (placed.take a.len)

/-! ## Stages -/

/-- The state right after RETAIN is entered with a cause, nothing else changed (R150, R38). -/
def retained (s : State) (cause : RetainCause) : State :=
  { s with
    stage := { s.stage with
      stage := .retain, drainCause := none, waitingRetain := none, lastRetain := some cause,
      testRun := none, waitingLaneTest := none },
    table := { s.table with
      ranges := s.table.ranges.map (fun e =>
        if (e.present && e.locksAtRetain) = true then { e with readLock := true, writeLock := true }
        else e) },
    ports := { s.ports with events := { s.ports.events with retainEntered := true } } }

/-- The state right after a wake, nothing else changed (R145, R147, R89). -/
def woken (s : State) (cause : TestCause) (tag : Option Tag) : State :=
  { s with
    stage := { s.stage with
      stage := .waking, drainCause := none, waitingRetain := none,
      testRun := some { cause := cause, under := Vector.replicate 4 true,
                        passed := Vector.replicate 4 false },
      waitingLaneTest := tag },
    lanes := s.lanes.map (fun x => { x with testHold := true }) }

/-- An Engine Reset is the oldest record of the S-port, with a free place and nothing but a waiting Lane Test to hold it. -/
abbrev ResetBehindLaneTest (s : State) (r : Record) : Prop :=
  s.ports.reset = none ∧ s.stage.waitingRetain = none ∧ s.stage.waitingLaneTest ≠ none ∧
  s.ports.s.filled.length + s.ports.s.reserved < 32 ∧ s.ports.s.requests.head? = some r ∧
  kindCode r = Kind.engineReset.code ∧ reservedZero r [] = true

/-- An Engine Reset leaves the stage, a test run and a waiting Lane Test as they are; a lane that it makes abandon its sector
while that lane waits to be tested is held, every other lane's hold and every lane's health stand (R88, R89, R164 row 7). -/
def KeepsTestRun (s t : State) : Prop :=
  t.stage = s.stage ∧
  ∀ l, (t.lanes.get l).inService = (s.lanes.get l).inService ∧
    ((t.lanes.get l).testHold = true ↔ (s.lanes.get l).testHold = true ∨
      ∃ w run, (s.lanes.get l).work = some w ∧ w.phase ≠ .writing ∧
        s.stage.testRun = some run ∧ run.under.get l = true)

/-- A request with no fields beyond its header is taken. -/
abbrev HeaderTaken (s : State) (r : Record) (k : Kind) : Prop := Taken s .s r k ∧ reservedZero r [] = true

/-- The inactivity timer runs (R151). -/
abbrev TimerOn (s : State) : Prop :=
  s.stage.stage = .run ∧ s.stage.delay ≠ 0 ∧ s.stage.testRun = none ∧ tableEmpty s .i = true ∧
  (∀ l : LaneId, (s.lanes.get l).work = none) ∧
  (s.stage.mediaCounts = true → tableEmpty s .m = true)

/-- The checks of R159. -/
def formatSetTable (s : State) (r : Record) : List (Prop × Status) :=
  [(recordField r 4 6 = 0 ∨ 1099511627776 < recordField r 4 6 ∨ unitOfBytes (recordField r 10 2) = none ∨
      reservedZero r (byteSpan 4 11) = false, .badField),
   (s.table.admission = .opened, .notSealed), (¬ NoSweep s, .sweepActive), (¬ NoJobs s, .busy),
   (∃ q : RangeId, q ≠ 0 ∧ (s.table.entry q).present = true ∧ recordField r 4 6 ≤ (s.table.entry q).last,
    .rangeOverlap)]

/-- The S-port requests with no fields beyond their header, BUS_RECOVER apart. -/
def headerRequests : List (Kind × Instr) :=
  [(.status, .status), (.admitRequest, .admitRequest), (.sealRequest, .sealRequest),
   (.engineReset, .engineReset), (.zeroize, .zeroize), (.retain, .retain), (.wake, .wake),
   (.laneTest, .laneTest)]

/-! ## Resets -/

/-- The completions of held S-port requests posted in their reserved places, in order (R172); one that has no place, which
the rules exclude, is not posted (log entry 18). Nothing else differs. -/
def heldPosted (s : State) (cs : List Completion) : State :=
  s.setPort .s { s.ports.s with
    filled := s.ports.s.filled ++ cs.take s.ports.s.reserved, reserved := s.ports.s.reserved - cs.length }

/-- The four conditions under which a reset ends (R163). -/
abbrev NothingInFlight (s : State) (run : ResetRun) : Prop :=
  NoJobs s ∧ run.iQuota = 0 ∧ run.mQuota = 0 ∧ (∀ l : LaneId, (s.lanes.get l).work = none) ∧
  s.bufferPort.outstanding = []

/-- A Zeroize has cleared the Range Table, the Sweep Unit and the Key Store; capacity and data unit are kept
(steps 1 to 3 of R166). -/
def zeroized (s : State) : State :=
  { s with
    table := { ranges := State.reset.table.ranges, capacity := s.table.capacity,
               dataUnit := s.table.dataUnit, admission := .sealed },
    sweep := State.reset.sweep,
    keys := State.reset.keys }

/-- The end of a reset: the Buffer Port NORMAL with its fault address kept, the arbiter's count 0 and
last-granted port none, the completion with its four counts posted, the S-port free (R163). -/
def resetEnded (s : State) (run : ResetRun) : State :=
  heldPosted
    { s with
      bufferPort := { s.bufferPort with faulted := false },
      arbiter := { s.arbiter with count := 0, last := none },
      ports := { s.ports with reset := none } }
    [{ kind := match run.kind with | .engine => 0x24 | .zeroize => 0x25, status := .ok, tag := run.tag,
       body := .reset run.iJobs run.mJobs run.iAnswered run.mAnswered }]

/-- The power-on values of every block (R168), and the interrupt lines deasserted (R173). -/
def PowerOnValues (t : State) : Prop :=
  (∀ p, (t.port p).requests = [] ∧ (t.port p).filled = [] ∧ (t.port p).reserved = 0) ∧
  (∀ p, interruptLine t p = false) ∧
  t.ports.reset = none ∧
  (∀ r, t.ports.events.rangeRefused.get r = false ∧ t.ports.events.sweepDone.get r = false) ∧
  t.ports.events.busFault = false ∧ t.ports.events.selfTest = false ∧
  t.ports.events.retainEntered = false ∧
  (t.table.entry 0).present = true ∧ (t.table.entry 0).readLock = true ∧
  (t.table.entry 0).writeLock = true ∧ (t.table.entry 0).locksAtRetain = true ∧
  (t.table.entry 0).current = none ∧ (t.table.entry 0).previous = none ∧
  (t.table.entry 0).refusals = 0 ∧ (∀ r, r ≠ 0 → (t.table.entry r).present = false) ∧
  t.table.capacity = 0 ∧ t.table.dataUnit = .u512 ∧ t.table.admission = .sealed ∧
  (∀ c, (t.keys.cells.get c).filled = false ∧ (t.keys.cells.get c).bits = 0) ∧
  (∀ g, t.keys.groups.get g = none) ∧ t.keys.load = none ∧
  (∀ side k, jobAt t side k = none) ∧
  t.arbiter = { iClass := .high, mClass := .normal, count := 0, last := none } ∧
  (∀ l, (t.lanes.get l).work = none ∧ (t.lanes.get l).inService = false ∧
    (t.lanes.get l).testHold = true) ∧
  t.bufferPort = { faulted := false, faultAddr := 0, outstanding := [] } ∧
  (∀ r, t.sweep.marks.get r = none ∧ t.sweep.claims.get r = []) ∧ t.sweep.cancelled = [] ∧
  t.stage.stage = .waking ∧ t.stage.delay = 0 ∧ t.stage.mediaCounts = false ∧ t.stage.remaining = 0 ∧
  t.stage.drainCause = none ∧ t.stage.waitingRetain = none ∧ t.stage.waitingLaneTest = none ∧
  t.stage.lastRetain = none ∧
  (∃ run, t.stage.testRun = some run ∧ run.cause = .powerOn ∧
    ∀ l, run.under.get l = true ∧ run.passed.get l = false) ∧
  t.stage.selfTest.runs = 0 ∧ t.stage.selfTest.cause = none ∧
  (∀ l, t.stage.selfTest.passed.get l = false)

/-! ## The bytes of a completion -/

/-- The bytes of a completion's body, read back at the places R178 gives them. A value wider than its field would be
cut to it. -/
def BodyBytes (r : Record) : Body → Prop
  | .empty => True
  | .data done blank fault first =>
      recordField r 4 2 = done % 65536 ∧ recordField r 6 2 = blank % 65536 ∧
      recordField r 8 2 = fault % 65536 ∧ recordField r 10 5 = first % 2 ^ 40
  | .recipher n already fault first overtaken =>
      recordField r 4 2 = n % 65536 ∧ recordField r 6 2 = already % 65536 ∧
      recordField r 8 2 = fault % 65536 ∧ recordField r 10 5 = first % 2 ^ 40 ∧
      recordField r 16 2 = overtaken % 65536
  | .screen live retired => recordField r 4 2 = live % 65536 ∧ recordField r 6 2 = retired % 65536
  | .claim x next =>
      recordField r 4 1 = x.1 ∧ recordField r 5 1 = bitAt 0 next.isNone ∧
      recordField r 8 5 = next.getD 0 % 2 ^ 40
  | .sweep q =>
      recordField r 4 1 = q.range.1 ∧ (recordByte r 5).getLsbD 0 = q.mark.isSome ∧
      (recordByte r 5).getLsbD 1 = (q.next == some none) ∧
      recordField r 5 1 / 4 % 4 = claimField q 0 (fun c => c.state.code) ∧
      recordField r 5 1 / 16 = claimField q 1 (fun c => c.state.code) ∧
      recordField r 6 1 = claimField q 0 (fun c => c.count - 1) % 256 ∧
      recordField r 7 1 = claimField q 1 (fun c => c.count - 1) % 256 ∧
      recordField r 8 5 = q.mark.getD 0 % 2 ^ 40 ∧ recordField r 13 5 = (q.next.getD none).getD 0 % 2 ^ 40 ∧
      recordField r 18 5 = claimField q 0 (fun c => c.first) % 2 ^ 40 ∧
      recordField r 23 5 = claimField q 1 (fun c => c.first) % 2 ^ 40 ∧
      recordField r 28 2 = claimField q 0 (fun c => c.overtaken) % 65536 ∧
      recordField r 30 2 = claimField q 1 (fun c => c.overtaken) % 65536
  | .range x e =>
      recordField r 4 1 = x.1 ∧ (recordByte r 5).getLsbD 0 = e.present ∧ (recordByte r 5).getLsbD 1 = e.readLock ∧
      (recordByte r 5).getLsbD 2 = e.writeLock ∧ (recordByte r 5).getLsbD 3 = e.locksAtRetain ∧
      (recordByte r 5).getLsbD 4 = e.current.isSome ∧ (recordByte r 5).getLsbD 5 = e.previous.isSome ∧
      recordField r 6 1 = bindingBase e.current ∧ recordField r 7 1 = bindingBase e.previous ∧
      recordField r 8 5 = e.first % 2 ^ 40 ∧ recordField r 13 5 = e.last % 2 ^ 40 ∧
      recordField r 18 4 = bindingEpoch e.current ∧ recordField r 22 4 = bindingEpoch e.previous ∧
      recordField r 26 2 = e.refusals % 65536
  | .keyLoad abandoned complete filled =>
      recordField r 4 1 = bitAt 0 abandoned + bitAt 1 complete ∧ recordField r 5 1 = filled % 256
  | .keyQuery q =>
      recordField r 4 1 = q.cell.1 ∧ (recordByte r 6).getLsbD 0 = q.cellFilled ∧
      (recordByte r 6).getLsbD 1 = q.group.isNone ∧
      (q.group = none → recordField r 5 1 = q.cell.1 ∧ recordField r 7 1 = 0 ∧ recordField r 8 1 = 0) ∧
      ∀ b g, q.group = some (b, g) →
        (recordByte r 6).getLsbD 2 = g.waitingClear.isSome ∧ recordField r 5 1 = b.1 ∧
        recordField r 7 1 = g.state.code ∧ recordField r 8 1 = g.strength.code ∧
        recordField r 9 1 = q.filled % 256 ∧ recordField r 10 1 = (g.bound.map (fun b => b.range.1)).getD 0 ∧
        recordField r 11 1 = (g.bound.map (fun b => b.slot.code)).getD 0 ∧ recordField r 12 1 = g.pins % 256 ∧
        recordField r 14 2 = (g.waitingClear.map BitVec.toNat).getD 0
  | .laneTest passed runs => recordField r 4 1 = laneMask passed ∧ recordField r 6 2 = runs.toNat
  | .reset iJobs mJobs iRecords mRecords =>
      recordField r 4 1 = iJobs % 256 ∧ recordField r 5 1 = mJobs % 256 ∧
      recordField r 6 1 = iRecords % 256 ∧ recordField r 7 1 = mRecords % 256
  | .status q =>
      recordField r 4 1 = q.stage.code ∧ (recordByte r 5).getLsbD 0 = (q.admission == .opened) ∧
      (recordByte r 5).getLsbD 1 = q.faulted ∧ (recordByte r 5).getLsbD 2 = (q.dataUnit == .u4096) ∧
      (recordByte r 5).getLsbD 3 = q.load.isSome ∧ recordField r 6 1 = laneMask q.inService ∧
      recordField r 7 1 = laneMask q.selfTest.passed ∧ recordField r 8 6 = q.capacity % 2 ^ 48 ∧
      recordField r 14 5 = q.faultAddr % 2 ^ 40 ∧ recordField r 19 1 = testCauseCode q.selfTest.cause ∧
      recordField r 20 2 = q.selfTest.runs.toNat ∧ recordField r 22 2 = q.remaining % 65536 ∧
      recordField r 24 1 = q.iJobs % 256 ∧ recordField r 25 1 = q.mJobs % 256 ∧
      recordField r 26 1 = q.claims % 256 ∧ recordField r 27 1 = (q.load.map (fun l => l.base.1)).getD 0 ∧
      recordField r 28 1 = (q.load.map (fun l => l.strength.code)).getD 0 ∧
      recordField r 29 1 = (q.load.map (fun l => l.parts.length)).getD 0 % 256
  | .event e =>
      match e with
      | .rangeRefused x n => recordField r 4 1 = 1 ∧ recordField r 5 1 = x.1 ∧ recordField r 6 2 = n % 65536
      | .sweepDone x e => recordField r 4 1 = 2 ∧ recordField r 5 1 = x.1 ∧ recordField r 8 4 = e.toNat
      | .busFault a => recordField r 4 1 = 3 ∧ recordField r 8 5 = a % 2 ^ 40
      | .selfTest t =>
          recordField r 4 1 = 4 ∧ recordField r 5 1 = testCauseCode t.cause ∧
          recordField r 6 1 = laneMask t.passed ∧ recordField r 8 2 = t.runs.toNat
      | .retainEntered c => recordField r 4 1 = 5 ∧ recordField r 5 1 = retainCauseCode c

/-! ## Slots, claims and the end of a job -/

/-- The next acceptance number of a table is above every number in it, and the lowest, 0 (log entry 10), where the
table is empty (R64, R86, R129). -/
def AcceptanceAbove (s : State) (side : Side) : Prop :=
  (∀ k j, jobAt s side k = some j → j.acceptance < nextAcceptance s side) ∧
  (tableEmpty s side = true → nextAcceptance s side = 0)

/-- Where the next claim of range `x` begins once `cs` are its claims, oldest first (R126). -/
def startAfter (s : State) (x : RangeId) (cs : List Claim) : Option Nat :=
  match s.sweep.marks.get x, cs.getLast? with
  | none, _ => none
  | some mark, none => lowestAt s.table x mark
  | some _, some youngest => lowestAt s.table x (youngest.first + youngest.count)

/-- A range's claims hold LBAs, and each begins where R126 lets it, given the claims older than it (R125). -/
def ClaimsInOrder (s : State) (x : RangeId) (cs : List Claim) : Prop :=
  ∀ older c younger, cs = older ++ c :: younger → 1 ≤ c.count ∧ startAfter s x older = some c.first

/-- The Key Store with the pins of one job released; nothing else of it differs (R56). -/
def PinsReleased (k k' : KeyStore) (gs : List CellId) : Prop :=
  k'.cells = k.cells ∧ k'.load = k.load ∧
  ∀ g, k'.groups.get g = (k.groups.get g).map (fun e => { e with pins := e.pins - gs.count g })

/-- `p` is `s` with the completion of the job `j` of slot `k` posted: its reserved place filled, its pins released, its
slot free, a claim that a RECIPHER still holds removed (R78, R119, R133, R135). Nothing else differs. -/
def JobPosted (s : State) (side : Side) (k : Nat) (j : Job) (p : State) : Prop :=
  PinsReleased s.keys p.keys j.pinned ∧
  p = { (setJob s side k none).setPort (sidePort side)
          { s.port (sidePort side) with
            filled := (s.port (sidePort side)).filled ++ [j.completion],
            reserved := (s.port (sidePort side)).reserved - 1 } with
        keys := p.keys,
        sweep := if j.kind = .recipher then
            { s.sweep with
              claims := s.sweep.claims.map (List.filter (fun c => c.job != some k)),
              cancelled := s.sweep.cancelled.filter (fun c => c.job != some k) }
          else s.sweep }

/-- A job that asked for a verdict list enters LISTING with the write of its list asked; the completion of one that did
not is posted (R65, R78, R80). Nothing else differs. -/
def ListedOrPosted (s : State) (side : Side) (k : Nat) (j : Job) (p : State) : Prop :=
  (∀ addr, j.list = some addr →
    p = { setJob s side k (some { j with phase := .listing }) with
          bufferPort := { s.bufferPort with outstanding := s.bufferPort.outstanding ++
            [{ who := .list side k, kind := .listWrite, addr := addr, len := j.count, bytes := j.listBytes }] } }) ∧
  (j.list = none → JobPosted s side k j p)

/-- The state with every claim that records M-table slot `k` changed. -/
def withClaimOf (s : State) (k : Nat) (f : Claim → Claim) : State :=
  { s with sweep := { s.sweep with
      claims := s.sweep.claims.map (List.map (fun d => if d.job = some k then f d else d)),
      cancelled := s.sweep.cancelled.map (fun d => if d.job = some k then f d else d) } }

/-- `q` is `s` with range `x`'s oldest claims, as far as they are DONE, passed: they are removed and the mark stands
past the last of them. Where the range has no LBA left there, its sweep ends: the previous binding dropped, its group
unbound, no mark, SWEEP_DONE pending; and the look stops (R134, R106, R113). Nothing else differs. -/
def MarkAdvanced (s : State) (x : RangeId) (q : State) : Prop :=
  ∀ mark, s.sweep.marks.get x = some mark → ∃ passed rest,
    s.sweep.claims.get x = passed ++ rest ∧ (∀ c ∈ passed, c.state = .done) ∧
    (∀ c ∈ passed.dropLast, lowestAt s.table x (c.last + 1) ≠ none) ∧
    (((∀ c, rest.head? = some c → c.state ≠ .done) ∧
        (∀ c, passed.getLast? = some c → lowestAt s.table x (c.last + 1) ≠ none) ∧
        q = s.setSweep { s.sweep with
          claims := put s.sweep.claims x rest,
          marks := put s.sweep.marks x
            (some (match passed.getLast? with | some c => c.last + 1 | none => mark)) }) ∨
      ∃ c, passed.getLast? = some c ∧ lowestAt s.table x (c.last + 1) = none ∧
        q = (((s.setKeys { s.keys with
              groups := unboundAll s.keys.groups (s.table.entry x).previous.toList }).setRange x
            { s.table.entry x with previous := none }).setSweep
            { s.sweep with claims := put s.sweep.claims x rest, marks := put s.sweep.marks x none }).setEvents
          { s.ports.events with sweepDone := put s.ports.events.sweepDone x true })

/-- `c` is the one claim of the part that records M-table slot `k` (R125). -/
abbrev HoldsClaim (s : State) (k : Nat) (c : Claim) : Prop :=
  ((∃ x, c ∈ s.sweep.claims.get x) ∨ c ∈ s.sweep.cancelled) ∧ c.job = some k ∧
  (∀ x, ∀ d ∈ s.sweep.claims.get x, d.job = some k → d = c) ∧ ∀ d ∈ s.sweep.cancelled, d.job = some k → d = c

/-- `q` is `s` with the claim of the RECIPHER job in slot `k` settled at that job's end (R132, R133): with end cause none it
is DONE, leaves its job, and the mark advance follows; cut short by a reset or an erase it stays, its set frozen, until
the completion is posted. -/
def ClaimSettled (s : State) (k : Nat) (c : Claim) (cause : Option EndCause) (q : State) : Prop :=
  (cause = none →
    MarkAdvanced (withClaimOf s k (fun d => { d with state := .done, frozen := true, job := none })) c.range q) ∧
  (cause = some .aborted ∨ cause = some .zeroized ∨ cause = some .sweepCancelled →
    q = withClaimOf s k (fun d => { d with frozen := true }))

/-- `p` is `s` with the end of the job `j` of slot `k`, whose sectors have all ended (R78, R132, R139): a RECIPHER's final
verdicts are made from its claim's set and the claim is settled; then the list is asked for or the completion posted. A
mark must stand only where the job ended by itself: a Range Erase has taken it away with the sweep (R117, R119). -/
def JobEnded (s : State) (side : Side) (k : Nat) (j : Job) (p : State) : Prop :=
  (j.kind ≠ .recipher → ListedOrPosted s side k j p) ∧
  (j.kind = .recipher → ∀ c, HoldsClaim s k c →
    (j.cause = none → ∃ mark, s.sweep.marks.get c.range = some mark) →
    let j' := { j with finals := j.finalVerdicts c.overtaken }
    ∃ q, ClaimSettled (setJob s side k (some j')) k c j.cause q ∧ ListedOrPosted q side k j' p)

/-- Every other sector of the job has ended: the one at `lba` is its last (R65). -/
abbrev LastOpen (j : Job) (lba : Nat) : Prop :=
  j.phase = .running ∧ j.cause ≠ some .busFault ∧
  ∀ i, i < j.sectors.length → i ≠ lba - j.start → j.sectors[i]?.map SectorState.isEnded = some true

/-- A group whose Key Clear waited and has lost its last pin (R58). -/
def released (e : GroupRec) : Bool := e.state == .retiring && e.pins == 0

/-- The completions of the Key Clears that waited on the released groups, in ascending order of base cell (R58). -/
def clearPosts (k : KeyStore) : List Completion :=
  (List.finRange 64).filterMap (fun g => (k.groups.get g).bind (fun e =>
    if released e = true then
      e.waitingClear.map (fun tag => { kind := 0x42, status := .ok, tag := tag, body := .empty })
    else none))

/-- `q` is `p` with every waiting Key Clear completed whose group has lost its last pin: the group's cells emptied, its
record removed, OK with its tag, in ascending order of base cell (R58). Nothing else differs. -/
def ClearsDone (p q : State) : Prop :=
  q = heldPosted (p.setKeys q.keys) (clearPosts p.keys) ∧ q.keys.load = p.keys.load ∧
  (∀ g, q.keys.groups.get g = (p.keys.groups.get g).filter (fun e => !released e)) ∧
  ∀ c : CellId,
    let emptied := ∃ g e, p.keys.groups.get g = some e ∧ released e = true ∧ g.1 ≤ c.1 ∧ c.1 < g.1 + e.strength.size
    (emptied → q.keys.cells.get c = { filled := false, bits := 0 }) ∧
    (¬ emptied → q.keys.cells.get c = p.keys.cells.get c)

/-- A record waits at the I-port or the M-port beyond the abort quota that a reset has left there (R147, R150, R162). -/
abbrev RecordHeld (s : State) : Prop :=
  (s.ports.reset.elim 0 ResetRun.iQuota) < s.ports.i.requests.length ∨
  (s.ports.reset.elim 0 ResetRun.mQuota) < s.ports.m.requests.length

/-- `u` is `q` with its drain ended, where it drains and no job is left: RETAIN with the drain cause, then the waiting Retain
request's completion, then a wake with cause WAKE where a record is held (R149, R150, R147). Nothing else differs. -/
def DrainDone (q u : State) : Prop :=
  (q.stage.stage ≠ .draining ∨ ¬ NoJobs q → u = q) ∧
  ∀ cause, q.stage.stage = .draining → NoJobs q → q.stage.drainCause = some cause →
    let entered := heldPosted (retained q cause) (q.stage.waitingRetain.toList.map (fun tag =>
      { kind := 0x53, status := .ok, tag := tag, body := .empty }))
    (RecordHeld q → u = woken entered .wake none) ∧ (¬ RecordHeld q → u = entered)

/-- `t` is `u` with its reset ended, where one runs and its four conditions hold (R163, R166). Nothing else differs. -/
def ResetDone (u t : State) : Prop :=
  ((∀ run, u.ports.reset = some run → ¬ NothingInFlight u run) → t = u) ∧
  ∀ run, u.ports.reset = some run → NothingInFlight u run →
    t = match run.kind with
      | .engine => resetEnded u run
      | .zeroize => resetEnded (zeroized u) run

/-- `t` is `p`, right after a job's end or an answered quota record, with all that follows in the same step (log entry 3), in
this order: the Key Clears whose groups have lost their last pin (R58), the end of a drain (R149), the end of a reset
(R163, R166). -/
def Follows (p t : State) : Prop := ∃ q u, ClearsDone p q ∧ DrainDone q u ∧ ResetDone u t

/-! ## Events that end many jobs at once -/

/-- The overtaken set of the claim that records M-table slot `k`, empty where none does (R125). -/
def overtakenOf (s : State) (k : Nat) : List Nat :=
  match s.sweep.allClaims.find? (fun c => c.job == some k) with
  | some c => c.overtaken
  | none => []

/-- Whether a lane holds sector `i` of the job `j` in slot `k`. -/
def laneHolds (s : State) (side : Side) (k : Nat) (j : Job) (i : Nat) : Bool :=
  (List.finRange 4).any (fun l => (s.lanes.get l).work.any (fun w =>
    w.side == side && w.slot == k && w.lba - j.start == i))

/-- The job in slot `k` as a bus fault ends it (R82, R99, R132): end cause BUS_FAULT whatever it was, NOT_DONE for every
sector a lane holds and every one not ended, the counts as they stand; a RUNNING RECIPHER's final verdicts are made
then, from its claim's set. -/
def faultEnded (s : State) (side : Side) (k : Nat) (j : Job) : Job :=
  let cut : Job := { j with
    cause := some .busFault, next := none,
    sectors := j.sectors.mapIdx (fun i (st : SectorState) => .ended (if laneHolds s side k j i then .notDone else st.verdict)) }
  { cut with finals :=
      if j.kind = .recipher ∧ j.phase = .running then cut.finalVerdicts (overtakenOf s k) else j.finals }

/-- The completions a bus fault posts for one table, in ascending order of slot (R78, R99, R135). -/
def faultPosts (s : State) (side : Side) : List Completion :=
  (List.range side.slots).filterMap (fun k => (jobAt s side k).map (fun j => (faultEnded s side k j).completion))

/-- The pins that the jobs of both tables hold on a group (R55). -/
def pinsHeld (s : State) (g : CellId) : Nat :=
  ((List.range 32).map (fun k => (jobAt s .i k).elim 0 (fun j => j.pinned.count g))).sum +
  ((List.range 16).map (fun k => (jobAt s .m k).elim 0 (fun j => j.pinned.count g))).sum

/-- A job ended early by a cause: an end cause it already has is kept, its WAITING sectors are NOT_DONE, and it offers
nothing more (R81, R119, R141). -/
def endedEarly (c : EndCause) (j : Job) : Job :=
  { j with cause := some (j.cause.getD c), next := none,
           sectors := j.sectors.map (fun st => if st = .waiting then .ended .notDone else st) }

/-- The job in M-table slot `k` as a Range Erase of `x` cuts it short, where a RECIPHERING claim of `x` records it (R118,
R119). -/
def erasedJob (s : State) (x : RangeId) (k : Nat) : Option Job :=
  if (s.sweep.claims.get x).any (fun c => c.state == .reciphering && c.job == some k) = true then
    (jobAt s .m k).map (endedEarly .sweepCancelled)
  else none

/-- The completions a Range Erase of `x` posts in its own step, in ascending order of slot: those of the RECIPHER jobs it
cancels that have no sector in a lane and asked for no list (R119, R135). -/
def erasePosts (s : State) (x : RangeId) : List Completion :=
  (List.range 16).filterMap (fun k => (erasedJob s x k).bind (fun j =>
    if .inLane ∉ j.sectors ∧ j.list = none then
      some ({ j with finals := j.finalVerdicts (overtakenOf s k) }).completion
    else none))

/-- The list writes a Range Erase of `x` asks for in its own step, in ascending order of slot: those of the RECIPHER jobs it
cancels that have no sector in a lane and asked for a list (R78, R119). -/
def eraseAsks (s : State) (x : RangeId) : List Access :=
  (List.range 16).filterMap (fun k => (erasedJob s x k).bind (fun j =>
    if .inLane ∉ j.sectors then
      j.list.map (fun addr =>
        { who := .list .m k, kind := .listWrite, addr := addr, len := j.count,
          bytes := ({ j with finals := j.finalVerdicts (overtakenOf s k) }).listBytes })
    else none))

/-- The pins on group `g` that a Range Erase of `x` releases in its own step, with the completions it posts (R56, R119). -/
def eraseUnpins (s : State) (x : RangeId) (g : CellId) : Nat :=
  ((List.range 16).map (fun k => (erasedJob s x k).elim 0 (fun j =>
    if .inLane ∉ j.sectors ∧ j.list = none then j.pinned.count g else 0))).sum

/-- The claims that a Range Erase of `x` cancels: the RECIPHERING ones, with their cancelled flag set (R118). -/
def eraseCancels (s : State) (x : RangeId) : List Claim :=
  ((s.sweep.claims.get x).filter (fun c => c.state == .reciphering)).map (fun c => { c with cancelled := true })

/-- What becomes of a claim in the step of a Range Erase of `x` (R119, R132, R135): one that records a job ended there is
removed with the completion posted, or has its set frozen as the list is asked for; every other one stays as it is. -/
def erasedClaim (s : State) (x : RangeId) (c : Claim) : Option Claim :=
  match c.job.bind (erasedJob s x) with
  | some j => if .inLane ∈ j.sectors then some c else if j.list = none then none else some { c with frozen := true }
  | none => some c

/-- Whether a lane in READING or TRANSFORMING holds sector `i` of the job `j` in slot `k`: the taking of a reset has it
abandon the sector (R16, R161). -/
def laneAbandons (s : State) (side : Side) (k : Nat) (j : Job) (i : Nat) : Bool :=
  (List.finRange 4).any (fun l => (s.lanes.get l).work.any (fun w =>
    w.phase != .writing && (w.side == side && w.slot == k && w.lba - j.start == i)))

/-- A lane as the taking of a reset leaves it: free once it has abandoned its sector, else as it was (R16, R89, R161). -/
def laneLeft (s : State) (l : LaneId) : Lane :=
  match (s.lanes.get l).work with
  | some w => if w.phase = .writing then s.lanes.get l else laneFreed s l
  | none => s.lanes.get l

/-- The job in slot `k` as the taking of a reset leaves it before its end is looked at: the end cause it had, or the
reset's; NOT_DONE for its WAITING sectors and for those the lanes abandon; nothing to offer (R81, R141, R161). -/
def stoppedAtTaking (s : State) (side : Side) (k : Nat) (cause : EndCause) (j : Job) : Job :=
  let cut := endedEarly cause j
  { cut with sectors := cut.sectors.mapIdx (fun i (st : SectorState) =>
      if laneAbandons s side k j i = true then .ended .notDone else st) }

/-- The job, a RECIPHER's final verdicts made from its claim's set (R132). -/
def withFinals (s : State) (k : Nat) (j : Job) : Job :=
  if j.kind = .recipher then { j with finals := j.finalVerdicts (overtakenOf s k) } else j

/-- A RUNNING job whose sectors have all ended: it ends (R65, R78). -/
abbrev Job.AtEnd (j : Job) : Prop := j.phase = .running ∧ ∀ st ∈ j.sectors, st.isEnded = true

/-- A job's end posts its completion at once: it asked for no list, or its end cause is BUS_FAULT (R78). -/
abbrev Job.PostsAtOnce (j : Job) : Prop := j.list = none ∨ j.cause = some .busFault

/-- The completions that the taking of a reset posts for one table, in ascending order of slot (R78, R135, R161). -/
def takingPosts (s : State) (side : Side) (cause : EndCause) : List Completion :=
  (List.range side.slots).filterMap (fun k => (jobAt s side k).bind (fun j =>
    let cut := stoppedAtTaking s side k cause j
    if cut.AtEnd ∧ cut.PostsAtOnce then some (withFinals s k cut).completion else none))

/-- The pins that the jobs of one table hold on a group and that the taking of a reset releases with their
completions (R56, R161). -/
def takingUnpins (s : State) (side : Side) (cause : EndCause) (g : CellId) : Nat :=
  ((List.range side.slots).map (fun k => (jobAt s side k).elim 0 (fun j =>
    let cut := stoppedAtTaking s side k cause j
    if cut.AtEnd ∧ cut.PostsAtOnce then j.pinned.count g else 0))).sum

/-- Every claim that records a job is RECIPHERING (R125). -/
abbrev JobClaimsReciphering (s : State) : Prop :=
  (∀ x, ∀ c ∈ s.sweep.claims.get x, c.job ≠ none → c.state = .reciphering) ∧
  ∀ c ∈ s.sweep.cancelled, c.job ≠ none → c.state = .reciphering

/-- Each RECIPHERING claim of range `x` is the one claim of a RUNNING RECIPHER job with end cause none (R125, R131). -/
abbrev RecipheringHeld (s : State) (x : RangeId) : Prop :=
  ∀ c ∈ s.sweep.claims.get x, c.state = .reciphering → ∃ k j, HoldsClaim s k c ∧ jobAt s .m k = some j ∧
    j.kind = .recipher ∧ j.phase = .running ∧ j.cause = none

/-- The jobs of a table with end cause none. -/
def unendedJobs (s : State) (side : Side) : Nat :=
  ((List.range side.slots).filter (fun k => (jobAt s side k).any (fun j => j.cause == none))).length

/-! ## The laws of every state -/

/-- No queue holds more records than it has places (R169, R171). -/
def PortsWithin (s : State) : Prop :=
  ∀ p, (s.port p).requests.length ≤ 16 ∧ (s.port p).filled.length + (s.port p).reserved ≤ 32

/-- An EMPTY key cell holds zeros (R45). -/
def EmptyCellsZero (s : State) : Prop :=
  ∀ c, (s.keys.cells.get c).filled = false → (s.keys.cells.get c).bits = 0

/-- The epochs of all live bindings are distinct and not 0 (R41). -/
def EpochLaw (s : State) : Prop := (liveEpochs s.table).Nodup ∧ (0 : Epoch) ∉ liveEpochs s.table

/-- A range has a previous binding exactly when it has a mark, only with a current binding; an ABSENT range
has neither binding nor mark, and its bounds, locks and refusal count are zero and clear (R42; held so: log entry 20);
range 0 is PRESENT (R23, R24). -/
def SweepLaw (s : State) : Prop :=
  (s.table.entry 0).present = true ∧
  ∀ r, ((s.table.entry r).previous.isSome = (s.sweep.marks.get r).isSome) ∧
    ((s.table.entry r).previous.isSome = true → (s.table.entry r).current.isSome = true) ∧
    ((s.table.entry r).present = false → s.table.entry r =
      { present := false, first := 0, last := 0, readLock := false, writeLock := false, locksAtRetain := false,
        current := none, previous := none, refusals := 0 })

/-- PRESENT bounded ranges have ordered bounds below the capacity and share no LBA (R26). -/
def BoundsLaw (t : RangeTable) : Prop :=
  (∀ r, r ≠ 0 → (t.entry r).present = true → (t.entry r).first ≤ (t.entry r).last ∧
    (t.entry r).last < t.capacity) ∧
  ∀ r q, r ≠ 0 → q ≠ 0 → r ≠ q → (t.entry r).present = true → (t.entry q).present = true →
    (t.entry r).last < (t.entry q).first ∨ (t.entry q).last < (t.entry r).first

/-- The counts stay within the values their rules give: at most 2 claims of a range and 8 of the device
(R125), refusal counts at most 65535 (R31), the arbiter's count at most 8 and 0 while the classes are equal
(R91), the inactivity remaining at most the delay and the delay at most 3600 (R143). -/
def CountsWithin (s : State) : Prop :=
  (∀ r, (s.sweep.claims.get r).length ≤ 2) ∧ deviceClaims s.sweep ≤ 8 ∧
  (∀ r, (s.table.entry r).refusals ≤ 65535) ∧ s.arbiter.count ≤ 8 ∧
  (s.arbiter.iClass = s.arbiter.mClass → s.arbiter.count = 0) ∧
  s.stage.remaining ≤ s.stage.delay ∧ s.stage.delay ≤ 3600

/-- While the Buffer Port is FAULTED no access is outstanding, no job is in either table and no lane holds a
sector (R98, R99, R103). -/
def FaultedQuiet (s : State) : Prop :=
  s.bufferPort.faulted = true → s.bufferPort.outstanding = [] ∧ NoJobs s ∧ ∀ l : LaneId, (s.lanes.get l).work = none

/-- The I-table holds READ and WRITE jobs alone, the M-table RECIPHER and SCREEN jobs alone (R64, R129). -/
def TablesByKind (s : State) : Prop :=
  (∀ k j, jobAt s .i k = some j → j.kind = .read ∨ j.kind = .write) ∧
  ∀ k j, jobAt s .m k = some j → j.kind = .recipher ∨ j.kind = .screen

/-- Two states that differ in the bits of key cells at most. -/
def SameButKeyBits (s t : State) : Prop :=
  (∀ c, (s.keys.cells.get c).filled = (t.keys.cells.get c).filled) ∧
  { s with keys := { s.keys with cells := t.keys.cells } } = t

end Sys2Proof.Machine
end

