-- ==== Sys2Proof/Certificates/Slice0/Obligations.lean ====
section
/-! DEFINITION. The statements: what the rules of spec/ say each command and the part do. Where a conclusion
is `t = …`, the state written out differs from `s` in what it names alone, so it is the command's frame too. -/

open Sys2Proof Sys2Proof.Machine

/-! ## The queue of commands and the power-on reset -/

/-- One step runs the command at the front of the queue with the queue's rest, and idles on an empty queue (log
entry 1). -/
def Obligations.StepRunsFrontCommand : Prop :=
  (∀ (c : Instr) (rest : List Instr) (s : State),
    step { s with pending := c :: rest } = exec c { s with pending := rest }) ∧
  ∀ s : State, s.pending = [] → step s = .next s

/-- The power-on values of R168 stand right after reset and after a power-on reset from any state, every interrupt line
deasserted (R169, R173). Buffer memory keeps every byte no write was in flight to; the waiting commands stay (log entry
17). -/
def Obligations.PowerOnResetGivesPowerOnValues : Prop :=
  PowerOnValues State.reset ∧
  ∀ s : State, ∃ t, exec .powerOnReset s = .next t ∧ PowerOnValues t ∧ t.pending = s.pending ∧
    ∀ a, (∀ x ∈ s.bufferPort.outstanding, x.kind.isWrite = true → a < x.addr ∨ x.addr + x.bytes.length ≤ a) →
      readByte t.buffer a = readByte s.buffer a

/-! ## The port windows -/

/-- R170: a record written joins the queue at its young end, whatever it holds; in RETAIN a record in the I-port or
M-port queue wakes the part with cause WAKE (R147), but a record of the abort quota of a reset that runs does not (R162);
with 16 records queued the write is answered with an error and the record dropped. The last answer on the interconnect is log entry 13. -/
def Obligations.RequestWriteQueuesOrDrops : Prop :=
  ∀ (p : Port) (r : Record) (s : State),
    ((s.port p).requests.length < 16 → (p = .s ∨ s.stage.stage ≠ .retain) →
      ∃ t, exec (.requestWindowWrite p r) s = .next t ∧ SameMemory s t ∧
        t = { s.setPort p { s.port p with requests := (s.port p).requests ++ [r] } with
              answer := .written p }) ∧
    ((s.port p).requests.length < 16 → p ≠ .s → s.stage.stage = .retain →
      let queued := { s.setPort p { s.port p with requests := (s.port p).requests ++ [r] } with answer := .written p }
      ∃ t, exec (.requestWindowWrite p r) s = .next t ∧ SameMemory s t ∧
        (s.ports.reset = none → RecordHeld queued) ∧
        (RecordHeld queued → t = woken queued .wake none) ∧ (¬ RecordHeld queued → t = queued)) ∧
    (16 ≤ (s.port p).requests.length →
      ∃ t, exec (.requestWindowWrite p r) s = .next t ∧ SameMemory s t ∧
        t = { s with answer := .error p })

/-- R172: a read of the completion window gives the oldest filled place's record and frees the place; with no place
filled it gives a record of zeros, kind NONE, and changes nothing (log entry 13 for the answer). R178: a completion's
record has its kind, status code and tag in its header and its body's fields at the places of the table; every byte the
layout does not assign is zero (fields that name something absent: log entry 29). R173: a port's interrupt line is asserted
exactly while a place of its completion queue is filled, a reserved place does not assert it, and the read of the last
filled place deasserts it at once. -/
def Obligations.CompletionReadGivesOldest : Prop :=
  (∀ c : Completion,
    recordByte c.record 0 = c.kind ∧ recordField c.record 1 1 = c.status.code ∧ recordTag c.record = c.tag ∧
    BodyBytes c.record c.body ∧
    ∀ i, 4 ≤ i → i < 32 → (∀ f ∈ c.body.fields, i < f.1 ∨ f.1 + f.2.1 ≤ i) → recordByte c.record i = 0) ∧
  ∀ (p : Port) (s : State),
    (interruptLine s p = true ↔ (s.port p).filled ≠ []) ∧
    (∀ c cs, (s.port p).filled = c :: cs →
      ∃ t, exec (.completionWindowRead p) s = .next t ∧ SameMemory s t ∧
        (interruptLine t p = true ↔ cs ≠ []) ∧ (∀ p', p' ≠ p → interruptLine t p' = interruptLine s p') ∧
        t = { s.setPort p { s.port p with filled := cs } with answer := .record p c.record }) ∧
    ((s.port p).filled = [] →
      ∃ t, exec (.completionWindowRead p) s = .next t ∧ SameMemory s t ∧
        t = { s with answer := .record p 0 })

/-- R169, R170: an access to a window that its layout does not name is answered with an error and changes nothing; a
read of a count gives 16 minus the queued records, or the filled places, and changes nothing (log entries 11, 13). -/
def Obligations.OtherWindowAccessChangesNothing : Prop :=
  ∀ (p : Port) (a : WindowAccess) (s : State),
    (a ≠ { isWrite := true, offset := 0x00, size := 32 } →
      a ≠ { isWrite := false, offset := 0x20, size := 32 } →
      a ≠ { isWrite := false, offset := 0x40, size := 4 } →
      a ≠ { isWrite := false, offset := 0x44, size := 4 } →
      ∃ t, exec (.badWindowAccess p a) s = .next t ∧ SameMemory s t ∧ t = { s with answer := .error p }) ∧
    (a = { isWrite := false, offset := 0x40, size := 4 } →
      ∃ t, exec (.badWindowAccess p a) s = .next t ∧ SameMemory s t ∧
        t = { s with answer := .count p (16 - (s.port p).requests.length) }) ∧
    (a = { isWrite := false, offset := 0x44, size := 4 } →
      ∃ t, exec (.badWindowAccess p a) s = .next t ∧ SameMemory s t ∧
        t = { s with answer := .count p (s.port p).filled.length })

/-- R171: when a port takes a record. The I-port and M-port take none in WAKING and RETAIN (R144), the S-port none while a
Retain request that drains or a Lane Test waits (R174), but for an Engine Reset at the head of its queue during a Lane Test if
the free value has it pass (row 7 of R164; log entry 32), no port one while a reset runs (R162, R174), and none without a
free completion place or a record. Then no command that takes a record at the port changes anything; nor does one
of another kind than the oldest record's (log entry 2). R178: a taken record of a code its port does not take is refused
BAD_KIND with its tag and code echoed, and nothing else changes; so is a request with no fields beyond its header BAD_FIELD,
whose other bytes are not zero. -/
def Obligations.UnknownKindAndBadHeaderRefused : Prop :=
  (∀ (p : Port) (s : State),
    (portPermits s p = true ↔ ¬ PortHeld s p) ∧
    (∀ k ∈ portKinds p, ∃ c, (k, c) ∈ recordCommands p) ∧
    (TakesNothing s p → exec (.unknownKindRecord p) s = .next s ∧
      ∀ c ∈ recordCommands p, exec c.2 s = .next s) ∧
    (∀ r, (s.port p).requests.head? = some r →
      (∀ c ∈ recordCommands p, kindCode r ≠ c.1.code → exec c.2 s = .next s) ∧
      ∀ k ∈ portKinds p, kindCode r = k.code → exec (.unknownKindRecord p) s = .next s)) ∧
  ∀ (p : Port) (r : Record) (s : State),
    (portPermits s p = true → (s.port p).filled.length + (s.port p).reserved < 32 →
      (s.port p).requests.head? = some r → (∀ k ∈ portKinds p, k.code ≠ kindCode r) →
      AnsweredOnly (.unknownKindRecord p) s p r .badKind .empty) ∧
    ∀ h ∈ headerRequests, Taken s .s r h.1 → reservedZero r [] = false →
      AnsweredOnly h.2 s .s r .badField .empty

/-- R176: with a free place the first pending event in the order BUS_FAULT, RETAIN_ENTERED, SELF_TEST, SWEEP_DONE by
range, RANGE_REFUSED by range is posted with its owner's values of that moment, and its member is cleared. -/
def Obligations.EventPostTakesFirstInOrder : Prop :=
  ∀ (s : State) (e : EventSet), s.ports.events = e →
    s.ports.s.filled.length + s.ports.s.reserved < 32 →
    let posts (v : EventRecord) (e' : EventSet) : Prop :=
      ∃ t, exec .eventPost s = .next t ∧ SameMemory s t ∧
        t = { s with ports := { s.ports with
              events := e',
              s := { s.ports.s with filled := s.ports.s.filled ++
                [{ kind := 0x7F, status := .ok, tag := 0, body := .event v }] } } }
    (e.busFault = true → posts (.busFault s.bufferPort.faultAddr) { e with busFault := false }) ∧
    (e.busFault = false → e.retainEntered = true →
      posts (.retainEntered s.stage.lastRetain) { e with retainEntered := false }) ∧
    (e.busFault = false → e.retainEntered = false → e.selfTest = true →
      posts (.selfTest s.stage.selfTest) { e with selfTest := false }) ∧
    (e.busFault = false → e.retainEntered = false → e.selfTest = false →
      (∀ r : RangeId, e.sweepDone.get r = true → (∀ q, q < r → e.sweepDone.get q = false) →
        posts (.sweepDone r (((s.table.entry r).current.map Binding.epoch).getD 0))
          { e with sweepDone := put e.sweepDone r false }) ∧
      (∀ r : RangeId, (∀ q, e.sweepDone.get q = false) → e.rangeRefused.get r = true →
        (∀ q, q < r → e.rangeRefused.get q = false) →
        posts (.rangeRefused r (s.table.entry r).refusals)
          { e with rangeRefused := put e.rangeRefused r false }))

/-- R162: during a reset a port answers the oldest record of its quota unchecked, ABORTED or ZEROIZED, with its tag and
code echoed and every count zero, and the quota falls by 1. Here no Key Clear is released and no drain ends. While a job, a
quota record, a busy lane or an access is left the reset goes on and nothing else changes. With none left, it ends in the
same step (R163, R166; log entry 3) and its completion's counts hold this last answer. In every state what follows is what
the rules place in the same step. -/
def Obligations.QuotaRecordAnsweredUnchecked : Prop :=
  ∀ (side : Side) (run : ResetRun) (r : Record) (rest : List Record) (s : State),
    s.ports.reset = some run → (s.port (sidePort side)).requests = r :: rest →
    (s.port (sidePort side)).filled.length + (s.port (sidePort side)).reserved < 32 →
    (match side with | .i => run.iQuota | .m => run.mQuota) ≠ 0 →
    let answered := s.setPort (sidePort side)
      { requests := rest,
        filled := (s.port (sidePort side)).filled ++
          [answerOf r (match run.kind with | .engine => .aborted | .zeroize => .zeroized) .empty],
        reserved := (s.port (sidePort side)).reserved }
    let run' : ResetRun := match side with
      | .i => { run with iQuota := run.iQuota - 1, iAnswered := run.iAnswered + 1 }
      | .m => { run with mQuota := run.mQuota - 1, mAnswered := run.mAnswered + 1 }
    let after := { answered with ports := { answered.ports with reset := some run' } }
    ∃ t, exec (.abortQuotaAnswer side) s = .next t ∧ SameMemory s t ∧ Follows after t ∧
      (NoReleasedClear s → (s.stage.stage ≠ .draining ∨ ¬ NoJobs s) → ¬ NothingInFlight s run' → t = after) ∧
      (NoReleasedClear s → s.stage.stage ≠ .draining → NothingInFlight s run' → s.ports.s.reserved ≠ 0 →
        t = match run.kind with
          | .engine => resetEnded after run'
          | .zeroize => resetEnded (zeroized after) run')

/-- R42, R60, R122, R140, R177: RANGE_QUERY, KEY_QUERY, SWEEP_QUERY and STATUS answer OK with the values as they stand and
change nothing but the port's queues. Of an ABSENT range RANGE_QUERY reports zeros, clear locks and no binding, in every
state that keeps the law of O57. KEY_QUERY's group is the one that contains the cell: its record stands at a base from which
the strength's 2 or 4 cells (R46) reach it, the lowest such base, so the one such base where there is but one. A range that
does not sweep reports neither mark nor claim. An index above 15, a cell number above 63 or a reserved field that is not zero
is refused BAD_FIELD; the M-port refuses a query RETAINING in DRAINING. -/
def Obligations.QueriesAnswerAndChangeNothing : Prop :=
  (∀ (k : KeyStore) (c b : CellId),
    let stands (b : CellId) (e : GroupRec) : Prop := k.groups.get b = some e ∧ CellsOf b e.strength c
    (∀ st, inGroup b st c = true ↔ CellsOf b st c) ∧
    (∀ e, groupHolding k c = some (b, e) ↔ stands b e ∧ ∀ b', b' < b → ∀ e', ¬ stands b' e') ∧
    (∀ e, stands b e → (∀ b' e', stands b' e' → b' = b) → groupHolding k c = some (b, e)) ∧
    (groupHolding k c = none ↔ ∀ b' e', ¬ stands b' e')) ∧
  ∀ (s : State) (r : Record),
    (∀ x, Taken s .s r .rangeQuery → rangeOf r = some x → reservedZero r [4] = true →
      ∃ t, exec .rangeQuery s = .next t ∧ SameMemory s t ∧
        t = completed s .s (answerOf r .ok (.range x
          (if x = 0 then { s.table.entry x with first := 0, last := 0 } else s.table.entry x))) ∧
        (SweepLaw s → (s.table.entry x).present = false → t = completed s .s (answerOf r .ok (.range x
          { present := false, first := 0, last := 0, readLock := false, writeLock := false, locksAtRetain := false,
            current := none, previous := none, refusals := 0 })))) ∧
    (∀ c, Taken s .s r .keyQuery → cellOf (recordField r 4 1) = some c → reservedZero r [4] = true →
      ∃ t, exec .keyQuery s = .next t ∧ SameMemory s t ∧
        t = completed s .s (answerOf r .ok (.keyQuery
          { cell := c, cellFilled := (s.keys.cells.get c).filled, group := groupHolding s.keys c,
            filled := match groupHolding s.keys c with
              | some (b, g) => ((List.finRange 64).filter (fun c' => inGroup b g.strength c' &&
                  (s.keys.cells.get c').filled)).length
              | none => 0 }))) ∧
    (∀ p x, Taken s (queryPort p) r .sweepQuery → rangeOf r = some x → reservedZero r [4] = true →
      (p = .m → s.stage.stage ≠ .draining) →
      ∃ t, exec (.sweepQuery p) s = .next t ∧ SameMemory s t ∧
        t = completed s (queryPort p) (answerOf r .ok (.sweep
          (if (s.table.entry x).previous.isSome = true then
            { range := x, mark := s.sweep.marks.get x,
              claims := (s.sweep.claims.get x).map (fun c =>
                { first := c.first, count := c.count, state := c.state, overtaken := c.overtaken.length }),
              next := match p with | .m => some (nextClaimStart s x) | .s => none }
          else { range := x, mark := none, claims := [],
                 next := match p with | .m => some none | .s => none })))) ∧
    (Taken s .s r .status → reservedZero r [] = true →
      ∃ t, exec .status s = .next t ∧ SameMemory s t ∧
        t = completed s .s (answerOf r .ok (.status
          { stage := s.stage.stage, admission := s.table.admission, capacity := s.table.capacity,
            dataUnit := s.table.dataUnit, faulted := s.bufferPort.faulted,
            faultAddr := s.bufferPort.faultAddr, inService := s.lanes.map Lane.inService,
            selfTest := s.stage.selfTest, remaining := s.stage.remaining, iJobs := jobCount s .i,
            mJobs := jobCount s .m, claims := deviceClaims s.sweep, load := s.keys.load }))) ∧
    (Taken s .s r .rangeQuery → rangeOf r = none ∨ reservedZero r [4] = false →
      AnsweredOnly .rangeQuery s .s r .badField .empty) ∧
    (Taken s .s r .keyQuery → cellOf (recordField r 4 1) = none ∨ reservedZero r [4] = false →
      AnsweredOnly .keyQuery s .s r .badField .empty) ∧
    (∀ p, Taken s (queryPort p) r .sweepQuery → rangeOf r = none ∨ reservedZero r [4] = false →
      AnsweredOnly (.sweepQuery p) s (queryPort p) r .badField .empty) ∧
    (Taken s .m r .sweepQuery → rangeOf r ≠ none → reservedZero r [4] = true → s.stage.stage = .draining →
      AnsweredOnly (.sweepQuery .m) s .m r .retaining .empty)

/-! ## The Range Table -/

/-- R33, R35: RANGE_DEFINE makes the range PRESENT and UNKEYED with the bounds and locks given and count 0; RANGE_DELETE
makes it ABSENT and unbinds the group it was bound to, which stays FILLED with its pins. That the deleted record then holds
zeros is the model's choice (log entry 20): R35 gives it no value. Otherwise each is refused with the status of the first
check that applies, an index above 15 first (R32), and changes nothing. -/
def Obligations.RangeDefineAndDelete : Prop :=
  ∀ (s : State) (r : Record) (x : RangeId),
    (DefineReady s r x →
      ∃ t, exec .rangeDefine s = .next t ∧ SameMemory s t ∧
        t = completed (s.setRange x
          { present := true, first := recordField r 8 5, last := recordField r 16 5,
            readLock := (recordByte r 5).getLsbD 0, writeLock := (recordByte r 5).getLsbD 1,
            locksAtRetain := (recordByte r 5).getLsbD 2, current := none, previous := none,
            refusals := 0 }) .s (answerOf r .ok .empty)) ∧
    (DeleteReady s r x →
      ∃ t, exec .rangeDelete s = .next t ∧ SameMemory s t ∧
        t = completed ((s.setKeys { s.keys with
            groups := unboundAll s.keys.groups (s.table.entry x).current.toList }).setRange x
          RangeRec.absent) .s (answerOf r .ok .empty)) ∧
    (∀ st, Taken s .s r .rangeDefine → rangeOf r = none ∧ st = .badField ∨
        rangeOf r = some x ∧ Refuses (defineTable s r x) st → AnsweredOnly .rangeDefine s .s r st .empty) ∧
    (∀ st, Taken s .s r .rangeDelete → rangeOf r = none ∧ st = .badField ∨
        rangeOf r = some x ∧ Refuses (deleteTable s r x) st → AnsweredOnly .rangeDelete s .s r st .empty)

/-- R37: RANGE_LOCKS writes the read lock, the write lock and locks-at-retain of a PRESENT range, in every stage and
condition, and nothing else of the part. R32, R37: an index above 15, a reserved field or a reserved bit of the locks byte
that is not zero (R178), or an ABSENT range, is refused BAD_FIELD and changes nothing. -/
def Obligations.RangeLocksWritesThreeLocks : Prop :=
  ∀ (s : State) (r : Record) (x : RangeId),
    (LocksReady s r x →
      ∃ t, exec .rangeLocks s = .next t ∧ SameMemory s t ∧
        t = completed (s.setRange x { s.table.entry x with
          readLock := (recordByte r 5).getLsbD 0, writeLock := (recordByte r 5).getLsbD 1,
          locksAtRetain := (recordByte r 5).getLsbD 2 }) .s (answerOf r .ok .empty)) ∧
    (Taken s .s r .rangeLocks →
      rangeOf r = none ∨ reservedZero r [4, 5] = false ∨ (∃ i, 3 ≤ i ∧ i < 8 ∧ (recordByte r 5).getLsbD i = true) ∨
        (rangeOf r = some x ∧ (s.table.entry x).present = false) →
      AnsweredOnly .rangeLocks s .s r .badField .empty)

/-- R39: RANGE_BIND gives an UNKEYED range the current binding named and marks the group bound to it, slot CURRENT; otherwise
it is refused with the status of the first check of its table that applies, and changes nothing. -/
def Obligations.RangeBindBindsCurrent : Prop :=
  ∀ (s : State) (r : Record) (x : RangeId) (g : CellId) (ge : GroupRec),
    (BindReady s r x g ge →
      ∃ t, exec .rangeBind s = .next t ∧ SameMemory s t ∧
        t = completed ((s.setKeys { s.keys with
            groups := put s.keys.groups g (some { ge with bound := some { range := x, slot := .current } }) }).setRange
          x { s.table.entry x with current := some { group := g, epoch := epochOf r } }) .s
          (answerOf r .ok .empty)) ∧
    (∀ st, Taken s .s r .rangeBind → BindFieldsBad r ∧ st = .badField ∨
        BindFields r x ∧ cellOf (groupByte r) = some g ∧ Refuses (bindTable s r x g) st →
      AnsweredOnly .rangeBind s .s r st .empty)

/-- R110, R111: RANGE_REKEY moves the current binding to the previous, takes the new one as current, and sets the mark at
the range's first LBA, or 0 for range 0. Where the range has no LBA at or above the mark, the sweep ends in the same
step: no previous binding, the old group unbound, no mark, SWEEP_DONE pending. R109: otherwise it is refused with the status
of the first check of its table that applies, and changes nothing. -/
def Obligations.RangeRekeyStartsSweep : Prop :=
  ∀ (s : State) (r : Record) (x : RangeId) (g : CellId) (ge : GroupRec) (old : Binding) (og : GroupRec)
    (start : Nat),
    (∀ st, Taken s .s r .rangeRekey → BindFieldsBad r ∧ st = .badField ∨
        BindFields r x ∧ cellOf (groupByte r) = some g ∧ Refuses (rekeyTable s r x g) st →
      AnsweredOnly .rangeRekey s .s r st .empty) ∧
    (RekeyReady s r x g ge old og → start = (if x = 0 then 0 else (s.table.entry x).first) →
    ((lowestAt s.table x start).isSome = true →
      ∃ t, exec .rangeRekey s = .next t ∧ SameMemory s t ∧
        t = completed (((s.setKeys { s.keys with
            groups := put (put s.keys.groups old.group
                (some { og with bound := some { range := x, slot := .previous } })) g
              (some { ge with bound := some { range := x, slot := .current } }) }).setRange x
            { s.table.entry x with
              current := some { group := g, epoch := epochOf r }, previous := some old }).setSweep
            { s.sweep with marks := put s.sweep.marks x (some start) }) .s (answerOf r .ok .empty)) ∧
    (lowestAt s.table x start = none →
      ∃ t, exec .rangeRekey s = .next t ∧ SameMemory s t ∧
        t = completed ((((s.setKeys { s.keys with
            groups := put (put s.keys.groups old.group (some { og with bound := none })) g
              (some { ge with bound := some { range := x, slot := .current } }) }).setRange x
            { s.table.entry x with
              current := some { group := g, epoch := epochOf r }, previous := none }).setSweep
            { s.sweep with marks := put s.sweep.marks x none }).setEvents
            { s.ports.events with sweepDone := put s.ports.events.sweepDone x true }) .s
          (answerOf r .ok .empty)))

/-- R117, R118: RANGE_ERASE unbinds the range's groups, gives it the new binding alone, and removes its mark and its
claims. In the first clause no claim of the range is RECIPHERING, and no job's end follows. In the second any claims
stand: the range has the new binding alone, no mark and no claim, its bounds and refusal count are unchanged, its old
groups are unbound, and no other range's bindings change. R119: each RECIPHERING claim leaves the list with its cancelled
flag set, and its job ends SWEEP_CANCELLED: with a sector in a lane it runs on, its WAITING sectors NOT_DONE; with none it
writes its list, or its completion is posted, in ascending order of slot, and the claim is gone. In that step nothing else of
the part changes: `p` is the whole state once those jobs have ended, their pins released; what follows in the step comes
next, and the erase's own completion is posted last (log entries 3, 22). R116: otherwise
it is refused with the status of the first check of its table that applies, and changes nothing. -/
def Obligations.RangeEraseReplacesBindings : Prop :=
  ∀ (s : State) (r : Record) (x : RangeId) (g : CellId) (ge : GroupRec) (old : Binding),
    (∀ st, Taken s .s r .rangeErase → BindFieldsBad r ∧ st = .badField ∨
        BindFields r x ∧ cellOf (groupByte r) = some g ∧ Refuses (eraseTable s r x g) st →
      AnsweredOnly .rangeErase s .s r st .empty) ∧
    (EraseReady s r x g ge old →
    ((∀ c ∈ s.sweep.claims.get x, c.state ≠ .reciphering) → NoReleasedClear s →
      (s.stage.stage ≠ .draining ∨ ¬ NoJobs s) →
      ∃ t, exec .rangeErase s = .next t ∧ SameMemory s t ∧
        t = completed (((s.setKeys { s.keys with
            groups := boundTo (unboundAll s.keys.groups (bindingsOf (s.table.entry x))) g
              (some { range := x, slot := .current }) }).setRange x
            { s.table.entry x with
              current := some { group := g, epoch := epochOf r }, previous := none }).setSweep
            { s.sweep with
              marks := put s.sweep.marks x none, claims := put s.sweep.claims x [] }) .s
          (answerOf r .ok .empty)) ∧
    ∃ t, exec .rangeErase s = .next t ∧ SameMemory s t ∧
      (t.table.entry x).current = some { group := g, epoch := epochOf r } ∧
      (t.table.entry x).previous = none ∧ t.sweep.marks.get x = none ∧ t.sweep.claims.get x = [] ∧
      (t.table.entry x).first = (s.table.entry x).first ∧
      (t.table.entry x).last = (s.table.entry x).last ∧
      (t.table.entry x).refusals = (s.table.entry x).refusals ∧
      (∀ q, q ≠ x → bindingsOf (t.table.entry q) = bindingsOf (s.table.entry q)) ∧
      (∀ b ∈ bindingsOf (s.table.entry x), b.group ≠ g →
        ∀ e, t.keys.groups.get b.group = some e → e.bound = none) ∧
      (∃ e, t.keys.groups.get g = some e ∧ e.state = .filled ∧ e.bound = some { range := x, slot := .current }) ∧
      (RecipheringHeld s x → s.bufferPort.faulted = false →
        t.ports.m.filled = s.ports.m.filled ++ (erasePosts s x).take s.ports.m.reserved ∧
        ∀ c ∈ s.sweep.claims.get x, c.state = .reciphering → ∀ k j, c.job = some k → jobAt s .m k = some j →
          (.inLane ∈ j.sectors →
            jobAt t .m k = some (endedEarly .sweepCancelled j) ∧ { c with cancelled := true } ∈ t.sweep.cancelled) ∧
          (.inLane ∉ j.sectors → j.list = none →
            jobAt t .m k = none ∧ ∀ d ∈ t.sweep.cancelled, d.job ≠ some k) ∧
          (.inLane ∉ j.sectors → ∀ addr, j.list = some addr →
            let cut := endedEarly .sweepCancelled j
            let final := { cut with finals := cut.finalVerdicts c.overtaken, phase := .listing }
            jobAt t .m k = some final ∧ { c with cancelled := true, frozen := true } ∈ t.sweep.cancelled ∧
            { who := .list .m k, kind := .listWrite, addr := addr, len := j.count, bytes := final.listBytes }
              ∈ t.bufferPort.outstanding)) ∧
      (RecipheringHeld s x → s.bufferPort.faulted = false →
        ∃ p u, Follows p u ∧ t = heldPosted u [answerOf r .ok .empty] ∧
          ((clearPosts p.keys).length ≤ s.ports.s.reserved →
            t.ports.s.filled = s.ports.s.filled ++ clearPosts p.keys ++ [answerOf r .ok .empty]) ∧
          t.jobs = p.jobs ∧ p.jobs.i = s.jobs.i ∧ (∀ k, erasedJob s x k = none → jobAt p .m k = jobAt s .m k) ∧
          p.keys.cells = s.keys.cells ∧ p.keys.load = s.keys.load ∧
          (∀ h, p.keys.groups.get h =
            ((boundTo (unboundAll s.keys.groups (bindingsOf (s.table.entry x))) g
              (some { range := x, slot := .current })).get h).map
              (fun e => { e with pins := e.pins - eraseUnpins s x h })) ∧
          p.sweep.marks = put s.sweep.marks x none ∧
          (∀ q, p.sweep.claims.get q = if q = x then [] else (s.sweep.claims.get q).filterMap (erasedClaim s x)) ∧
          p.sweep.cancelled = (s.sweep.cancelled ++ eraseCancels s x).filterMap (erasedClaim s x) ∧
          p = { (takenOnly s .s).setPort .m { s.ports.m with
                  filled := s.ports.m.filled ++ (erasePosts s x).take s.ports.m.reserved,
                  reserved := s.ports.m.reserved - (erasePosts s x).length } with
                jobs := p.jobs, keys := p.keys, sweep := p.sweep,
                table := s.table.setEntry x { s.table.entry x with
                  current := some { group := g, epoch := epochOf r }, previous := none },
                bufferPort := { s.bufferPort with
                  outstanding := s.bufferPort.outstanding ++ eraseAsks s x } }))

/-- R43: COUNT_CLEAR sets a PRESENT range's refusal count to 0 and withdraws no pending event; of an ABSENT range, or with a
field that is not good (R32), it is refused BAD_FIELD. -/
def Obligations.CountClearZeroesCount : Prop :=
  ∀ (s : State) (r : Record) (x : RangeId),
    (CountClearReady s r x →
      ∃ t, exec .countClear s = .next t ∧ SameMemory s t ∧ t.ports.events = s.ports.events ∧
        t = completed (s.setRange x { s.table.entry x with refusals := 0 }) .s (answerOf r .ok .empty)) ∧
    (Taken s .s r .countClear →
      rangeOf r = none ∨ reservedZero r [4] = false ∨ (rangeOf r = some x ∧ (s.table.entry x).present = false) →
      AnsweredOnly .countClear s .s r .badField .empty)

/-! ## The Key Store -/

/-- R52, R53: KEY_OPEN makes a LOADING group and its load, with no cell filled; an open load is abandoned first, its cells
emptied and its record removed, and the completion says so. R51: otherwise it is refused with the status of the first check
of its table that applies, and changes nothing. -/
def Obligations.KeyOpenMakesLoadingGroup : Prop :=
  ∀ (s : State) (r : Record) (base : CellId) (st : Strength),
    (∀ refusal, Taken s .s r .keyOpen →
      (cellOf (recordField r 4 1) = none ∨ reservedZero r [4, 5] = false) ∧ refusal = .badField ∨
        cellOf (recordField r 4 1) = some base ∧ reservedZero r [4, 5] = true ∧
          Refuses (openTable s r base) refusal →
      AnsweredOnly .keyOpen s .s r refusal .empty) ∧
    (OpenReady s r base st →
    let fresh : GroupRec := { state := .loading, strength := st, bound := none, pins := 0, waitingClear := none }
    (s.keys.load = none →
      ∃ t, exec .keyOpen s = .next t ∧ SameMemory s t ∧
        t = completed (s.setKeys
          { cells := s.keys.cells, groups := put s.keys.groups base (some fresh),
            load := some { base := base, strength := st, parts := [] } }) .s
          (answerOf r .ok (.keyLoad false false 0))) ∧
    ∀ l, s.keys.load = some l →
      ∃ t, exec .keyOpen s = .next t ∧ SameMemory s t ∧
        t = completed (s.setKeys
          { cells := emptyCells s.keys.cells l.base l.strength,
            groups := put (put s.keys.groups l.base none) base (some fresh),
            load := some { base := base, strength := st, parts := [] } }) .s
          (answerOf r .ok (.keyLoad true false 0)))

/-- R54, R45: KEY_PART fills the EMPTY cell named with the record's 16 bytes and adds it to the load; with the group's last
cell the load closes, the group is FILLED and the completion says so. Otherwise it is refused with the status of the first
check of its table that applies, and changes nothing. -/
def Obligations.KeyPartFillsCell : Prop :=
  ∀ (s : State) (r : Record) (c : CellId) (l : OpenLoad),
    (∀ refusal, Taken s .s r .keyPart →
      (cellOf (recordField r 4 1) = none ∨ reservedZero r ([4] ++ byteSpan 16 31) = false) ∧ refusal = .badField ∨
        cellOf (recordField r 4 1) = some c ∧ reservedZero r ([4] ++ byteSpan 16 31) = true ∧
          Refuses (partTable s c) refusal →
      AnsweredOnly .keyPart s .s r refusal .empty) ∧
    (PartReady s r c l →
    let parts := (List.finRange 64).filter (fun x => l.parts.contains x || x == c)
    let cells := put s.keys.cells c { filled := true, bits := r.extractLsb' 128 128 }
    (parts.length ≠ l.strength.size →
      ∃ t, exec .keyPart s = .next t ∧ SameMemory s t ∧
        t = completed (s.setKeys
          { cells := cells, groups := s.keys.groups, load := some { l with parts := parts } }) .s
          (answerOf r .ok (.keyLoad false false parts.length))) ∧
    (parts.length = l.strength.size →
      ∃ t, exec .keyPart s = .next t ∧ SameMemory s t ∧
        t = completed (s.setKeys
          { cells := cells,
            groups := put s.keys.groups l.base ((s.keys.groups.get l.base).map
              (fun e => { e with state := .filled })),
            load := none }) .s
          (answerOf r .ok (.keyLoad false true parts.length))))

/-- R57, R58: KEY_CLEAR by the group's state. EMPTY: nothing to clear. LOADING: the load is abandoned. FILLED, unbound, without
pins: its cells are emptied and its record removed. FILLED, unbound, pinned: it becomes RETIRING with the request's tag,
its cells as they were, and no completion is posted yet. Otherwise it is refused with the status of the first check of its
table that applies, and changes nothing. R45: emptying a group makes each of its 2 or 4 cells EMPTY and zero, and no other. -/
def Obligations.KeyClearByGroupState : Prop :=
  (∀ (cells : Vector KeyCell 64) (base : CellId) (st : Strength) (c : CellId),
    (CellsOf base st c → (emptyCells cells base st).get c = { filled := false, bits := 0 }) ∧
    (¬ CellsOf base st c → (emptyCells cells base st).get c = cells.get c)) ∧
  ∀ (s : State) (r : Record) (c : CellId),
    (Taken s .s r .keyClear → cellOf (recordField r 4 1) = none ∨ reservedZero r [4] = false →
      AnsweredOnly .keyClear s .s r .badField .empty) ∧
    (∀ st, ClearTaken s r c → Refuses (clearTable s c) st → AnsweredOnly .keyClear s .s r st .empty) ∧
    (ClearTaken s r c →
    (groupHolding s.keys c = none →
      ∃ t, exec .keyClear s = .next t ∧ SameMemory s t ∧ t = completed s .s (answerOf r .ok .empty)) ∧
    (∀ e l, groupHolding s.keys c = some (c, e) → e.bound = none → e.state = .loading →
      s.keys.load = some l →
      ∃ t, exec .keyClear s = .next t ∧ SameMemory s t ∧
        t = completed (s.setKeys
          { cells := emptyCells s.keys.cells l.base l.strength, groups := put s.keys.groups l.base none,
            load := none }) .s (answerOf r .ok .empty)) ∧
    (∀ e, groupHolding s.keys c = some (c, e) → e.bound = none → e.state = .filled → e.pins = 0 →
      ∃ t, exec .keyClear s = .next t ∧ SameMemory s t ∧
        t = completed (s.setKeys
          { cells := emptyCells s.keys.cells c e.strength, groups := put s.keys.groups c none,
            load := s.keys.load }) .s (answerOf r .ok .empty)) ∧
    (∀ e, groupHolding s.keys c = some (c, e) → e.bound = none → e.state = .filled → e.pins ≠ 0 →
      ∃ t, exec .keyClear s = .next t ∧ SameMemory s t ∧
        t = takenOnly (s.setKeys { s.keys with
          groups := put s.keys.groups c (some { e with state := .retiring, waitingClear := some (recordTag r) }) })
          .s))

/-- R58: when a RETIRING group has lost its last pin, its cells are emptied, its record is removed and the Key Clear waiting
on it completes OK with its tag. Several such groups do so in one step, in ascending order of base cell, and in every state
no other group, cell or part of the state changes. The second clause writes the state out for one such group. -/
def Obligations.DeferredKeyClearCompletes : Prop :=
  (∀ s : State, ∃ t, exec .keyClearDeferredDone s = .next t ∧ SameMemory s t ∧ ClearsDone s t) ∧
  ∀ (s : State) (g : CellId) (e : GroupRec) (tag : Tag),
    s.keys.groups.get g = some e → e.state = .retiring → e.pins = 0 → e.waitingClear = some tag →
    s.ports.s.reserved ≠ 0 →
    (∀ g' : CellId, g' ≠ g → ∀ e' ∈ (s.keys.groups.get g').toList, e'.state = .retiring → e'.pins ≠ 0) →
    ∃ t, exec .keyClearDeferredDone s = .next t ∧ SameMemory s t ∧
      t = (s.setKeys
          { s.keys with cells := emptyCells s.keys.cells g e.strength, groups := put s.keys.groups g none }).setPort .s
        { s.ports.s with
          filled := s.ports.s.filled ++ [{ kind := 0x42, status := .ok, tag := tag, body := .empty }],
          reserved := s.ports.s.reserved - 1 }

/-! ## Data requests -/

/-- R73, R55: an accepted READ takes the lowest free slot with its segments and snapshot, pins each current and previous
group once, and sets the inactivity remaining to the full delay. No completion is posted. R64, R86: its acceptance number is
above every number in the table, and the lowest, 0 (log entry 10), in an empty one. -/
def Obligations.ReadAcceptedBecomesJob : Prop :=
  ∀ (s : State) (r : Record) (k : Nat), ReadReady s r k →
    AcceptanceAbove s .i ∧
    ∃ t, exec .read s = .next t ∧ SameMemory s t ∧
      (∃ gs, PinnedOnce s.keys t.keys gs ∧
        (∀ g, g ∈ gs ↔ ∃ seg ∈ requestSegments s r,
          seg.current.map Binding.group = some g ∨ seg.previous.map Binding.group = some g) ∧
        t = { setJob (takenOnly s .i) .i k
                (some (acceptedJob s .i .read r (requestSegments s r) gs none)) with
              keys := t.keys, stage := { s.stage with remaining := s.stage.delay } })

/-- R73, R74, R55: an accepted WRITE does the same, pins each current group alone, and adds its LBAs to the overtaken set of
every CLAIMED or RECIPHERING claim they lie in; a DONE claim is not marked (nor one whose set its job's end has frozen,
log entry 15). R64, R86: its acceptance number is above every number in the table (log entry 10). -/
def Obligations.WriteAcceptedMarksOvertaken : Prop :=
  ∀ (s : State) (r : Record) (k : Nat), WriteReady s r k →
    AcceptanceAbove s .i ∧
    ∃ t, exec .write s = .next t ∧ SameMemory s t ∧
      (∃ gs, PinnedOnce s.keys t.keys gs ∧
        (∀ g, g ∈ gs ↔ ∃ seg ∈ requestSegments s r, seg.current.map Binding.group = some g) ∧
        t = { setJob (takenOnly s .i) .i k
                (some (acceptedJob s .i .write r (requestSegments s r) gs none)) with
              keys := t.keys, sweep := t.sweep,
              stage := { s.stage with remaining := s.stage.delay } }) ∧
      t.sweep.marks = s.sweep.marks ∧
      (∀ x : RangeId, (t.sweep.claims.get x).length = (s.sweep.claims.get x).length) ∧
      t.sweep.cancelled.length = s.sweep.cancelled.length ∧
      ∀ c c' : Claim,
        ((∃ x : RangeId, ∃ i : Nat, (s.sweep.claims.get x)[i]? = some c ∧ (t.sweep.claims.get x)[i]? = some c') ∨
          ∃ i : Nat, s.sweep.cancelled[i]? = some c ∧ t.sweep.cancelled[i]? = some c') →
        c' = { c with overtaken := c'.overtaken } ∧
        (c.state = .done ∨ c.frozen = true → c' = c) ∧
        (c.state ≠ .done → c.frozen = false → ∀ y, y ∈ c'.overtaken ↔
          (c.first ≤ y ∧ y < c.first + c.count) ∧
          (y ∈ c.overtaken ∨ (startOf r ≤ y ∧ y < startOf r + countOf r)))

/-- R67, R68, R31: a READ or WRITE that fails a check is answered with the status of the first check of R68 that fails and
leaves no other trace; one refused LOCKED adds 1 to the refusal count, saturating, of the range of its lowest locked
segment, and makes RANGE_REFUSED of that range pending when the count was 0. R130, R137: a RECIPHER or SCREEN that fails a
check is answered with the status of the first, and leaves no other trace. -/
def Obligations.RefusedDataRequestLeavesNoTrace : Prop :=
  (∀ (s : State) (r : Record) (kind : JobKind) (c : Instr),
    (kind = .read ∧ c = .read ∧ Taken s .i r .read) ∨ (kind = .write ∧ c = .write ∧ Taken s .i r .write) →
    (∀ st, Refuses (ioTable s kind r) st → st ≠ .locked → AnsweredOnly c s .i r st .empty) ∧
    (Refuses (ioTable s kind r) .locked →
      ∃ g ∈ requestSegments s r, directionLock kind (s.table.entry g.range) = true ∧
        (∀ g' ∈ requestSegments s r, directionLock kind (s.table.entry g'.range) = true → g.first ≤ g'.first) ∧
        ∃ t, exec c s = .next t ∧ SameMemory s t ∧
          t = completed ((s.setRange g.range { s.table.entry g.range with
                refusals := min ((s.table.entry g.range).refusals + 1) 65535 }).setEvents
              (if (s.table.entry g.range).refusals = 0 then
                { s.ports.events with rangeRefused := put s.ports.events.rangeRefused g.range true }
              else s.ports.events)) .i (answerOf r .locked .empty))) ∧
  ∀ (s : State) (r : Record) (st : Status),
    (Taken s .m r .recipher → Refuses (recipherTable s r) st → AnsweredOnly .recipher s .m r st .empty) ∧
    (Taken s .m r .screen → Refuses (screenTable s r) st → AnsweredOnly .screen s .m r st .empty)

/-- R28: the segments of n LBAs from x on cover exactly those LBAs in ascending order, each resolves to its one range and
carries that range's bindings, and neighbours belong to different ranges. -/
def Obligations.SegmentsCoverMaximalRuns : Prop :=
  ∀ (t : RangeTable) (n x : Nat), n ≠ 0 →
    let segs := segmentsOf t n x
    (segs.head?.map Segment.first = some x) ∧ (segs.getLast?.map Segment.last = some (x + n - 1)) ∧
    (∀ g ∈ segs, g.first ≤ g.last ∧ (∀ y, g.first ≤ y → y ≤ g.last → resolve t y = g.range) ∧
      g.current = (t.entry g.range).current ∧ g.previous = (t.entry g.range).previous) ∧
    ∀ (i : Nat) (a b : Segment), segs[i]? = some a → segs[i + 1]? = some b →
      b.first = a.last + 1 ∧ a.range ≠ b.range

/-- R27: the lowest LBA of a range at or above x, or none. A bounded PRESENT range has its first to its last LBA; range 0
has every LBA below the capacity that no PRESENT bounded range contains; an ABSENT range has none. -/
def Obligations.LowestLbaOfRange : Prop :=
  ∀ (t : RangeTable) (r : RangeId),
    let belongs (y : Nat) : Prop :=
      if r = 0 then y < t.capacity ∧ ∀ q : RangeId, q ≠ 0 → (t.entry q).present = true →
        ¬ ((t.entry q).first ≤ y ∧ y ≤ (t.entry q).last)
      else (t.entry r).present = true ∧ (t.entry r).first ≤ y ∧ y ≤ (t.entry r).last
    (r ≠ 0 → (t.entry r).first ≤ (t.entry r).last) →
    ∀ x, (∀ y, lowestAt t r x = some y ↔ (x ≤ y ∧ belongs y ∧ ∀ z, x ≤ z → belongs z → y ≤ z)) ∧
      (lowestAt t r x = none ↔ ∀ z, x ≤ z → ¬ belongs z)

/-! ## Claims, RECIPHER and SCREEN -/

/-- R127, R128: CLAIM appends a CLAIMED claim with an empty overtaken set at the young end of the range's list; RELEASE
removes the youngest claim. Each completes OK with the range's next claim start as it stands afterwards. R126: that start
is the range's lowest LBA at or above the mark where the list is empty, else the lowest above the youngest claim. R125: CLAIM
and RELEASE keep each claim of the list at the start its elders give, so a RELEASE reports the removed claim's first LBA.
Otherwise each is refused with the status of the first check that applies, BAD_FIELD first (R124), and changes nothing. -/
def Obligations.ClaimAndRelease : Prop :=
  ∀ (s : State) (r : Record) (x : RangeId),
    ((∀ c ∈ s.sweep.claims.get x, 1 ≤ c.count) →
      nextClaimStart s x = startAfter s x (s.sweep.claims.get x)) ∧
    (Taken s .m r .claim → ClaimFieldsBad r → AnsweredOnly .claim s .m r .badField .empty) ∧
    (∀ st, Taken s .m r .claim → ¬ ClaimFieldsBad r → rangeOf r = some x → Refuses (claimTable s r x) st →
      AnsweredOnly .claim s .m r st (claimBody s x)) ∧
    (Taken s .m r .release → rangeOf r = none ∨ reservedZero r [4] = false →
      AnsweredOnly .release s .m r .badField .empty) ∧
    (∀ st, Taken s .m r .release → rangeOf r = some x → reservedZero r [4] = true → Refuses (releaseTable s x) st →
      AnsweredOnly .release s .m r st (claimBody s x)) ∧
    (∀ mark, ClaimReady s r x mark →
      ∃ t, exec .claim s = .next t ∧ SameMemory s t ∧
        (ClaimsInOrder s x (s.sweep.claims.get x) → ClaimsInOrder t x (t.sweep.claims.get x)) ∧
        t = completed (s.setSweep { s.sweep with
            claims := put s.sweep.claims x (s.sweep.claims.get x ++
              [{ range := x, first := claimFirst r, count := claimCount r, state := .claimed,
                 overtaken := [], cancelled := false, frozen := false, job := none }]) }) .m
          (answerOf r .ok (.claim x (lowestAt s.table x (claimFirst r + claimCount r))))) ∧
    ∀ cs c, ReleaseReady s r x cs c →
      let released := s.setSweep { s.sweep with claims := put s.sweep.claims x cs }
      ∃ t, exec .release s = .next t ∧ SameMemory s t ∧
        t = completed released .m (answerOf r .ok (.claim x (nextClaimStart released x))) ∧
        (ClaimsInOrder s x (cs ++ [c]) → ClaimsInOrder t x cs ∧ nextClaimStart released x = some c.first)

/-- R131, R55: an accepted RECIPHER takes the lowest free M-table slot with one segment, its claim's LBAs under its range's
bindings, pins the range's groups once each, and makes the claim RECIPHERING under its slot; with the media-counts flag
set the inactivity remaining becomes the full delay. R129: its acceptance number is above every number in the table. The claim
named is a CLAIMED one of some range with the request's first LBA and count, the only one where there is but one (R130). -/
def Obligations.RecipherAcceptedStartsClaim : Prop :=
  (∀ (s : State) (r : Record) (c : Claim),
    let named (c : Claim) : Prop := (∃ x, c ∈ s.sweep.claims.get x) ∧ c.state = .claimed ∧ c.first = startOf r ∧
      c.count = countOf r
    (matchingClaim s r = some c → named c) ∧ (named c → (∀ d, named d → d = c) → matchingClaim s r = some c)) ∧
  ∀ (s : State) (r : Record) (c : Claim) (k : Nat), RecipherReady s r c k →
    let e := s.table.entry c.range
    AcceptanceAbove s .m ∧
    ∃ t, exec .recipher s = .next t ∧ SameMemory s t ∧
      ∃ gs, PinnedOnce s.keys t.keys gs ∧
        (∀ g, g ∈ gs ↔ e.current.map Binding.group = some g ∨ e.previous.map Binding.group = some g) ∧
        t = { setJob (takenOnly s .m) .m k (some (acceptedJob s .m .recipher r
                [{ first := c.first, last := c.first + c.count - 1, range := c.range,
                   current := e.current, previous := e.previous }] gs (some c.range))) with
              keys := t.keys,
              sweep := { s.sweep with
                claims := put s.sweep.claims c.range ((s.sweep.claims.get c.range).map (fun d =>
                  if d.state = .claimed ∧ d.first = startOf r ∧ d.count = countOf r then
                    { d with state := .reciphering, job := some k } else d)) },
              stage := if s.stage.mediaCounts = true then { s.stage with remaining := s.stage.delay }
                       else s.stage }

/-- R138: an accepted SCREEN takes the lowest free M-table slot with its segments and snapshot, pins nothing and marks no
claim; with the media-counts flag set the inactivity remaining becomes the full delay. R129: its acceptance number is
above every number in the table. -/
def Obligations.ScreenAcceptedPinsNothing : Prop :=
  ∀ (s : State) (r : Record) (k : Nat), ScreenReady s r k →
    AcceptanceAbove s .m ∧
    ∃ t, exec .screen s = .next t ∧ SameMemory s t ∧
      t = { setJob (takenOnly s .m) .m k
              (some (acceptedJob s .m .screen r (requestSegments s r) [] none)) with
            stage := if s.stage.mediaCounts = true then { s.stage with remaining := s.stage.delay }
                     else s.stage }

/-! ## The arbiter, the lanes and the buffer port -/

/-- R87: a lane is eligible while the stage is RUN or DRAINING, it is IN_SERVICE, it holds no work and no test hold. R76: a
port waits while a job of its table without an end cause has a sector to offer. With no lane eligible or no port waiting
nothing is granted and nothing changes. R92, R76, R12: a grant hands the offered sector of the port chosen, of the job accepted first, to the eligible lane with
the lowest number. The sector is IN_LANE, the job's next LBA moves on, the lane is READING and asks for the plain-form
data unit (ENCIPHER) or the trailer, at sector k's address. -/
def Obligations.GrantHandsOfferedSector : Prop :=
  (∀ s : State,
    (∀ l, laneEligible s l = true ↔ (s.stage.stage = .run ∨ s.stage.stage = .draining) ∧
      (s.lanes.get l).inService = true ∧ (s.lanes.get l).work = none ∧ (s.lanes.get l).testHold = false) ∧
    (∀ side, (offerOf s side).isSome = true ↔
      ∃ k j, jobAt s side k = some j ∧ j.cause = none ∧ j.next.isSome = true) ∧
    ((∀ l, laneEligible s l = false) ∨ (∀ side, offerOf s side = none) → exec .grant s = .next s)) ∧
  ∀ (s : State) (l : LaneId) (side : Side) (count k : Nat) (j : Job) (lba : Nat),
    (∀ l', laneEligible s l' = true → l ≤ l') → laneEligible s l = true →
    chooseGrant s.arbiter (fun sd => (offerOf s sd).isSome) = some (side, count) →
    offerOf s side = some (k, j) → j.next = some lba → s.bufferPort.faulted = false →
    Offers s side k j lba ∧
    let n := lba - j.start
    let unit := s.table.dataUnit.bytes
    let srcStride := if j.kind = .write then unit else unit + 8
    let dstStride := if j.kind = .read then unit else unit + 8
    let cur := (j.segments.find? (fun g => g.first ≤ lba && lba ≤ g.last)).bind Segment.current
    let prev := (j.segments.find? (fun g => g.first ≤ lba && lba ≤ g.last)).bind Segment.previous
    let screen := j.kind = .screen
    let w : Work :=
      { side := side, slot := k,
        op := match j.kind with
          | .read => .decipher | .write => .encipher | .recipher => .recipher | .screen => .screen,
        lba := lba,
        curGroup := if screen then none else cur.map Binding.group, curEpoch := cur.map Binding.epoch,
        prevGroup := if screen then none else prev.map Binding.group, prevEpoch := prev.map Binding.epoch,
        src := j.src + n * srcStride, dst := j.dst.map (fun d => d + n * dstStride),
        phase := .reading, trailer := none, chosen := none, held := [] }
    let a : Access :=
      if j.kind = .write then { who := .lane l, kind := .dataRead, addr := w.src, len := unit, bytes := [] }
      else { who := .lane l, kind := .trailerRead, addr := w.src + unit, len := 8, bytes := [] }
    ∃ t, exec .grant s = .next t ∧ SameMemory s t ∧
      t = { setJob s side k (some { j with
              sectors := j.sectors.set n .inLane,
              next := if lba + 1 < j.start + j.count then some (lba + 1) else none }) with
            lanes := put s.lanes l { s.lanes.get l with work := some w },
            bufferPort := { s.bufferPort with outstanding := s.bufferPort.outstanding ++ [a] },
            arbiter := { s.arbiter with count := count, last := some side } }

/-- R93: the port chosen and the count afterwards while the classes differ, H the HIGH port and N the other; the count
stays at most 8; of any nine grants in a row with both ports waiting exactly one goes to the NORMAL port; and a grant
leaves that count and that port in the arbiter. -/
def Obligations.ArbiterWhileClassesDiffer : Prop :=
  ∀ (a : Arbiter) (h n : Side), (a.iClass ≠ a.mClass) →
    ((h = .i ∧ n = .m ∧ a.iClass = .high) ∨ (h = .m ∧ n = .i ∧ a.mClass = .high)) →
    (∀ waits : Side → Bool,
      (waits h = true → waits n = false → chooseGrant a waits = some (h, 0)) ∧
      (waits h = false → waits n = true → chooseGrant a waits = some (n, 0)) ∧
      (waits h = true → waits n = true → a.count ≤ 7 → chooseGrant a waits = some (h, a.count + 1)) ∧
      (waits h = true → waits n = true → a.count = 8 → chooseGrant a waits = some (n, 0)) ∧
      (waits h = false → waits n = false → chooseGrant a waits = none)) ∧
    (∀ grants : Nat → Side, ∀ counts : Nat → Nat, counts 0 = a.count → a.count ≤ 8 →
      (∀ i, chooseGrant { a with count := counts i } (fun _ => true) = some (grants i, counts (i + 1))) →
      ∀ i, counts i ≤ 8 ∧ ((List.range' i 9).filter (fun m => grants m == n)).length = 1) ∧
    ∀ s : State, s.arbiter = a → GrantRecords s

/-- R94: while the classes are equal the grant goes to the port that waits, and with both waiting to the one not granted
last, the I-port when none was; the count stays 0; with both waiting throughout the grants alternate; and a grant
leaves the port granted in the arbiter as the last-granted port. -/
def Obligations.ArbiterWhileClassesEqual : Prop :=
  ∀ a : Arbiter, a.iClass = a.mClass →
    (∀ waits : Side → Bool,
      (waits .i = true → waits .m = true → a.last = none → chooseGrant a waits = some (.i, 0)) ∧
      (waits .i = true → waits .m = true → a.last = some .i → chooseGrant a waits = some (.m, 0)) ∧
      (waits .i = true → waits .m = true → a.last = some .m → chooseGrant a waits = some (.i, 0)) ∧
      (waits .i = true → waits .m = false → chooseGrant a waits = some (.i, 0)) ∧
      (waits .i = false → waits .m = true → chooseGrant a waits = some (.m, 0)) ∧
      (waits .i = false → waits .m = false → chooseGrant a waits = none)) ∧
    (∀ (grants : Nat → Side) (lasts : Nat → Option Side), lasts 0 = a.last →
      (∀ i, chooseGrant { a with last := lasts i } (fun _ => true) = some (grants i, 0) ∧
        lasts (i + 1) = some (grants i)) →
      (grants 0 = .m ↔ a.last = some .i) ∧ ∀ i, grants (i + 1) ≠ grants i ∧ grants (i + 2) = grants i) ∧
    ∀ s : State, s.arbiter = a → GrantRecords s

/-- R13, R18, R20, R21: a trailer read that completes records the trailer. An epoch that chooses a group has the data unit
asked for; epoch 0 in a decipher has zeros written; any other epoch ends the sector at once with the verdict of the
operation's table. Where other sectors of the job are open no job ends and nothing follows but a released Key Clear; where it
is the job's last the job ends (R65, R78, R132, R139), with what comes about in the same step (R58, R149, R163): normally, or
cut short by a reset or by a Range Erase, which has taken the mark (R117, R119). `placed` is what the other masters have put at
the trailer (log entry 5); no other byte changes. -/
def Obligations.TrailerReadClassifies : Prop :=
  ∀ (s : State) (l : LaneId) (w : Work) (a : Access) (placed : List Byte),
    LaneWaits s l w .reading a .trailerRead → s.bufferPort.faulted = false →
    let mem := memoryAt s a placed
    let tr := trailerOf (readBytes mem a.addr 8)
    let w' : Work := { w with trailer := some tr }
    (∀ g, Chooses w tr.epoch g →
      ∃ t, exec (.trailerReadDone l placed) s = .next t ∧
        SameOutside s t a.addr (min placed.length a.len) ∧
        t = { s with
          buffer := mem,
          lanes := put s.lanes l { s.lanes.get l with work := some { w' with chosen := g } },
          bufferPort := { s.bufferPort with outstanding := without s (.lane l) ++
            [{ who := .lane l, kind := .dataRead, addr := w.src, len := s.table.dataUnit.bytes, bytes := [] }] } }) ∧
    (w.op = .decipher → tr.epoch = 0 →
      ∃ t, exec (.trailerReadDone l placed) s = .next t ∧
        SameOutside s t a.addr (min placed.length a.len) ∧
        t = { s with
          buffer := mem,
          lanes := put s.lanes l { s.lanes.get l with work := some { w' with
            phase := .writing, held := List.replicate s.table.dataUnit.bytes 0 } },
          bufferPort := { s.bufferPort with outstanding := without s (.lane l) ++
            [{ who := .lane l, kind := .resultWrite, addr := w.dst.getD 0, len := s.table.dataUnit.bytes,
               bytes := List.replicate s.table.dataUnit.bytes 0 }] } }) ∧
    (∀ v j, EndsAt w tr.epoch v → jobAt s w.side w.slot = some j → OthersOpen j w.lba →
      let p := { sectorReported s l w j v with
              buffer := mem,
              bufferPort := { s.bufferPort with outstanding := without s (.lane l) } }
      ∃ t, exec (.trailerReadDone l placed) s = .next t ∧
        SameOutside s t a.addr (min placed.length a.len) ∧ Follows p t ∧ (NoReleasedClear s → t = p)) ∧
    (∀ v j, EndsAt w tr.epoch v → jobAt s w.side w.slot = some j → LastOpen j w.lba →
      (s.port (sidePort w.side)).reserved ≠ 0 →
      ∃ t, exec (.trailerReadDone l placed) s = .next t ∧
        SameOutside s t a.addr (min placed.length a.len) ∧
        ∃ p, JobEnded { sectorReported s l w j v with
              buffer := mem,
              bufferPort := { s.bufferPort with outstanding := without s (.lane l) } }
            w.side w.slot (j.endSector w.lba v) p ∧ Follows p t)

/-- R13: a data-unit read that completes gives the lane the bytes as they stand, and the lane enters TRANSFORMING. `placed`
is what the other masters have put there (log entry 5); no other byte changes. -/
def Obligations.DataUnitReadStartsTransform : Prop :=
  ∀ (s : State) (l : LaneId) (w : Work) (a : Access) (placed : List Byte),
    LaneWaits s l w .reading a .dataRead →
    ∃ t, exec (.dataUnitReadDone l placed) s = .next t ∧
      SameOutside s t a.addr (min placed.length a.len) ∧
      t = { s with
        buffer := memoryAt s a placed,
        lanes := put s.lanes l { s.lanes.get l with work := some { w with
          phase := .transforming, held := readBytes (memoryAt s a placed) a.addr a.len } },
        bufferPort := { s.bufferPort with outstanding := without s (.lane l) } }

/-- R14, R17, R19, R20: the end of a transform. An encipher, a decipher or recipher whose masked check passes enters WRITING
with its whole result and asks for its write; one whose check fails ends CHECK_FAIL with nothing written. Where other
sectors of its job are open no job ends and nothing follows but a released Key Clear; where it is the job's last the job ends
(R65, R78, R132), cancelled ones too (R119), with what comes about in the same step (log entry 3). -/
def Obligations.TransformEndByOperation : Prop :=
  ∀ (s : State) (l : LaneId) (w : Work),
    (s.lanes.get l).work = some w → w.phase = .transforming → s.bufferPort.faulted = false →
    let n := s.table.dataUnit.blocks
    let writes (result : List Byte) : Prop :=
      ∃ t, exec (.transformEnd l) s = .next t ∧ SameMemory s t ∧
        t = { s with
          lanes := put s.lanes l { s.lanes.get l with work := some { w with phase := .writing, held := result } },
          bufferPort := { s.bufferPort with outstanding := s.bufferPort.outstanding ++
            [{ who := .lane l, kind := .resultWrite, addr := w.dst.getD 0, len := result.length, bytes := result }] } }
    (∀ g k e, w.op = .encipher → w.curGroup = some g → groupKeys s.keys g = some k → w.curEpoch = some e →
      writes (encipherUnit k w.lba n w.held ++
        trailerBytes { epoch := e, check := crc32 w.held ^^^ sectorMask k w.lba n })) ∧
    (∀ g k tr, w.op = .decipher → w.chosen = some g → groupKeys s.keys g = some k → w.trailer = some tr →
      crc32 (decipherUnit k w.lba n w.held) ^^^ sectorMask k w.lba n = tr.check →
      writes (decipherUnit k w.lba n w.held)) ∧
    (∀ g k tr gc kc e, w.op = .recipher → w.chosen = some g → groupKeys s.keys g = some k →
      w.trailer = some tr → w.curGroup = some gc → groupKeys s.keys gc = some kc → w.curEpoch = some e →
      crc32 (decipherUnit k w.lba n w.held) ^^^ sectorMask k w.lba n = tr.check →
      writes (encipherUnit kc w.lba n (decipherUnit k w.lba n w.held) ++
        trailerBytes
          { epoch := e, check := crc32 (decipherUnit k w.lba n w.held) ^^^ sectorMask kc w.lba n })) ∧
    (∀ g k tr j, (w.op = .decipher ∨
        (w.op = .recipher ∧ (w.curGroup.bind (groupKeys s.keys)).isSome = true ∧ w.curEpoch.isSome = true)) →
      w.chosen = some g → groupKeys s.keys g = some k → w.trailer = some tr →
      crc32 (decipherUnit k w.lba n w.held) ^^^ sectorMask k w.lba n ≠ tr.check →
      jobAt s w.side w.slot = some j →
      (OthersOpen j w.lba →
        ∃ t, exec (.transformEnd l) s = .next t ∧ SameMemory s t ∧
          Follows (sectorReported s l w j .checkFail) t ∧
          (NoReleasedClear s → t = sectorReported s l w j .checkFail)) ∧
      (LastOpen j w.lba → (s.port (sidePort w.side)).reserved ≠ 0 →
        ∃ t, exec (.transformEnd l) s = .next t ∧ SameMemory s t ∧
          ∃ p, JobEnded (sectorReported s l w j .checkFail) w.side w.slot (j.endSector w.lba .checkFail) p ∧
            Follows p t))

/-- R15, R77: a result write that completes stands in buffer memory, byte for byte, no other byte changes, and the sector
ends DONE, BLANK after a blank trailer, or RECIPHERED; the lane is free. Where other sectors of the job are open no job ends
and nothing follows but a released Key Clear. Where it is the job's last, the job ends (R65, R78): a RECIPHER's final verdicts are made from its claim's frozen
set (R132), the claim is DONE and the mark advances over the oldest DONE claims, to the sweep's end where no LBA is left
(R133, R134, R113), but a cancelled job's set is frozen and its claim goes with its completion (R119, R135); then the verdict list's write is asked for, or the completion is posted, the pins released and the slot
freed; with what comes about in the same step (R58, R149, R163; log entry 3). -/
def Obligations.ResultWriteEndsSector : Prop :=
  ∀ (s : State) (l : LaneId) (w : Work) (a : Access) (j : Job) (v : Verdict),
    LaneWaits s l w .writing a .resultWrite →
    ((w.op = .encipher ∧ v = .done) ∨ (w.op = .recipher ∧ v = .reciphered) ∨
      (w.op = .decipher ∧ w.trailer.map Trailer.epoch = some 0 ∧ v = .blank) ∨
      (w.op = .decipher ∧ w.trailer.map Trailer.epoch ≠ some 0 ∧ v = .done)) →
    jobAt s w.side w.slot = some j →
    (OthersOpen j w.lba ∨
      LastOpen j w.lba ∧ s.bufferPort.faulted = false ∧ (s.port (sidePort w.side)).reserved ≠ 0) →
    ∃ t, exec (.resultWriteDone l) s = .next t ∧
      SameOutside s t a.addr a.bytes.length ∧
      (Memory.wf s.buffer = true → ∀ i b, a.bytes[i]? = some b → readByte t.buffer (a.addr + i) = b) ∧
      let reported := { sectorReported s l w j v with
        buffer := t.buffer,
        bufferPort := { s.bufferPort with outstanding := without s (.lane l) } }
      (OthersOpen j w.lba → Follows reported t ∧ (NoReleasedClear s → t = reported)) ∧
      (LastOpen j w.lba → s.bufferPort.faulted = false → (s.port (sidePort w.side)).reserved ≠ 0 →
        ∃ p, JobEnded reported w.side w.slot (j.endSector w.lba v) p ∧ Follows p t)

/-- R78, R79, R80: a verdict-list write that completes stands in buffer memory and the job's completion is posted: its reserved
place is filled, each of its pins is released, its slot is free, and a claim a RECIPHER still holds is removed. In the
same step (log entry 3), in this order, every RETIRING group that loses its last pin is emptied and its Key Clear completes,
in ascending order of base cell (R58); the last job ends a drain in RETAIN, and a record held wakes the part (R149, R150,
R147); and a reset with nothing left ends (R163, R166). -/
def Obligations.VerdictListWritePostsCompletion : Prop :=
  ∀ (s : State) (side : Side) (k : Nat) (j : Job) (a : Access),
    jobAt s side k = some j → j.phase = .listing → accessOf s (.list side k) = some a → a.kind = .listWrite →
    (s.port (sidePort side)).reserved ≠ 0 →
    ∃ t, exec (.verdictListWriteDone side k) s = .next t ∧
      SameOutside s t a.addr a.bytes.length ∧
      (Memory.wf s.buffer = true → ∀ i b, a.bytes[i]? = some b → readByte t.buffer (a.addr + i) = b) ∧
      ∃ p, JobPosted { s with
              buffer := t.buffer, bufferPort := { s.bufferPort with outstanding := without s (.list side k) } }
            side k j p ∧ Follows p t

/-- R77: a report of a sector's end makes it ENDED with its verdict and adds to one count at most: done for DONE, blank for
BLANK, fault for RETIRED and CHECK_FAIL, whose LBA becomes the first fault LBA where none or a higher one stood; nothing else
of the job changes. R79, R135, R139: the completion of a job carries its tag and its kind; its status follows from its end cause and, where
there is none, from its fault count. A READ's or WRITE's has its three counts and first fault LBA, 0 while there is no
fault. A RECIPHER's counts its final verdicts (R132): OVERTAKEN for an LBA of its claim's set, else the lane's. A SCREEN's
counts the live and the retired, and RETIRED is no fault. R80: byte k of the verdict list is the code of sector k's
verdict, a RECIPHER's final one. -/
def Obligations.JobCompletionByKind : Prop :=
  [Verdict.done, .blank, .retired, .checkFail, .notDone, .reciphered, .alreadyCurrent, .overtaken, .liveCurrent,
    .livePrevious].map Verdict.code = [1, 2, 3, 4, 5, 6, 7, 8, 9, 10] ∧
  (∀ (j : Job) (lba : Nat) (v : Verdict),
    let j' := j.endSector lba v
    let faulty := v = .retired ∨ v = .checkFail
    j' = { j with sectors := j'.sectors, done := j'.done, blank := j'.blank, fault := j'.fault,
                  firstFault := j'.firstFault } ∧
    j'.sectors.length = j.sectors.length ∧
    (lba - j.start < j.sectors.length → j'.sectors[lba - j.start]? = some (.ended v)) ∧
    (∀ i, i ≠ lba - j.start → j'.sectors[i]? = j.sectors[i]?) ∧
    j'.done = j.done + (if v = .done then 1 else 0) ∧ j'.blank = j.blank + (if v = .blank then 1 else 0) ∧
    j'.fault = j.fault + (if v = .retired ∨ v = .checkFail then 1 else 0) ∧
    (¬ faulty → j'.firstFault = j.firstFault) ∧
    (faulty → ∃ low, j'.firstFault = some low ∧ low ≤ lba ∧ (∀ old, j.firstFault = some old → low ≤ old) ∧
      (low = lba ∨ j.firstFault = some low)) ∧
    ((j.fault = 0 ↔ j.firstFault = none) → (j'.fault = 0 ↔ j'.firstFault = none))) ∧
  ∀ (j : Job) (faults : Nat) (st : Status),
    ((j.cause = none ∧ faults = 0 ∧ st = .ok) ∨ (j.cause = none ∧ 0 < faults ∧ st = .partly) ∨
      (j.cause = some .aborted ∧ st = .aborted) ∨ (j.cause = some .zeroized ∧ st = .zeroized) ∨
      (j.cause = some .busFault ∧ st = .busFault) ∨
      (j.cause = some .sweepCancelled ∧ j.kind = .recipher ∧ st = .sweepCancelled)) →
    (∀ code, (j.kind = .read ∧ code = 0x01) ∨ (j.kind = .write ∧ code = 0x02) →
      faults = j.fault → (j.fault = 0 → j.firstFault = none) →
      j.completion =
        { kind := code, status := st, tag := j.tag,
          body := .data j.done j.blank j.fault (if j.fault = 0 then 0 else j.firstFault.getD 0) }) ∧
    (j.kind = .recipher →
      let faulty : Verdict → Prop := fun v => v = .retired ∨ v = .checkFail
      (∀ (overtaken : List Nat) (i : Nat) (v : Verdict), j.sectors.length = j.count → j.sectors[i]? = some (.ended v) →
        (j.finalVerdicts overtaken)[i]? = some (if j.start + i ∈ overtaken then .overtaken else v)) ∧
      (faults = j.finals.count .retired + j.finals.count .checkFail → ∃ first,
        j.completion =
          { kind := 0x13, status := st, tag := j.tag,
            body := .recipher (j.finals.count .reciphered) (j.finals.count .alreadyCurrent) faults first
              (j.finals.count .overtaken) } ∧
        (faults = 0 → first = 0) ∧
        ∀ i v, j.finals[i]? = some v → faulty v → (∀ m u, m < i → j.finals[m]? = some u → ¬ faulty u) →
          first = j.start + i) ∧
      j.listBytes.length = j.finals.length ∧
      ∀ (i : Nat) (v : Verdict), j.finals[i]? = some v → j.listBytes[i]? = some v.code) ∧
    (j.kind = .screen → faults = 0 →
      j.completion =
        { kind := 0x14, status := st, tag := j.tag,
          body := .screen (j.verdicts.count .liveCurrent + j.verdicts.count .livePrevious)
            (j.verdicts.count .retired) }) ∧
    (j.kind ≠ .recipher →
      j.listBytes.length = j.sectors.length ∧
      ∀ (i : Nat) (v : Verdict), j.sectors[i]? = some (.ended v) → j.listBytes[i]? = some v.code)

/-- R98, R99, R101: an error response makes the Buffer Port FAULTED with the access's address, drops every access, frees every
lane, ends every job and makes BUS_FAULT pending; no other byte of memory than those of the writes in flight changes.
Each job's completion is posted BUS_FAULT in its reserved place in ascending order of slot, and its pins are released, so
that a RETIRING group without a pin is gone (R58). An uncancelled RECIPHERING claim returns to CLAIMED with its overtaken set, the other claims and
the marks stand, a cancelled one is removed, its job RUNNING or LISTING (R100). While a reset runs the jobs' claims are removed instead (log entry 16),
and with both quotas answered the reset ends in this step, its port NORMAL again (R163, R164). `p` is the state before what
follows in the same step: the Key Clears, a drain's end, a reset's end (R104; log entry 3). From then on a response for a
dropped access, an error too, changes nothing: as it does in every state (log entry 19). -/
def Obligations.BusErrorEndsEveryJob : Prop :=
  (∀ (s : State) (who : Requester) (kind : ResponseKind), exec (.droppedAccessResponse who kind) s = .next s) ∧
  ∀ (s : State) (who : Requester) (a : Access),
    accessOf s who = some a → s.bufferPort.faulted = false →
    ∃ t, exec (.busErrorResponse who) s = .next t ∧
      (∀ b, (∀ x ∈ s.bufferPort.outstanding, x.kind.isWrite = true →
          b < x.addr ∨ x.addr + x.bytes.length ≤ b) → readByte t.buffer b = readByte s.buffer b) ∧
      (∀ side k, jobAt t side k = none) ∧
      (∀ l, (t.lanes.get l).work = none ∧ (t.lanes.get l).inService = (s.lanes.get l).inService) ∧
      t.ports.events.busFault = true ∧ (s.stage.stage ≠ .draining → t.stage = s.stage) ∧
      t.bufferPort.faultAddr = a.addr ∧ t.bufferPort.outstanding = [] ∧
      (TablesByKind s → ∀ side, (t.port (sidePort side)).requests = (s.port (sidePort side)).requests ∧
        (t.port (sidePort side)).filled =
          (s.port (sidePort side)).filled ++ (faultPosts s side).take (s.port (sidePort side)).reserved) ∧
      ((∀ run, s.ports.reset = some run → run.kind = .engine) →
        ∀ g, t.keys.groups.get g = (s.keys.groups.get g).bind (fun e =>
          if e.state = .retiring ∧ e.pins ≤ pinsHeld s g then none
          else some { e with pins := e.pins - pinsHeld s g })) ∧
      (s.ports.reset = none →
        t.ports.reset = none ∧ t.bufferPort.faulted = true ∧ t.arbiter = s.arbiter ∧
        t.sweep.marks = s.sweep.marks ∧
        (∀ x, ∀ c ∈ s.sweep.claims.get x, c.job = none → c ∈ t.sweep.claims.get x) ∧
        ∀ c k j, TablesByKind s → HoldsClaim s k c → jobAt s .m k = some j → j.kind = .recipher →
          (c.cancelled = false → j.phase = .running → ∀ x, c ∈ s.sweep.claims.get x →
            { c with state := .claimed, frozen := false, job := none } ∈ t.sweep.claims.get x) ∧
          (c.cancelled = true → (∀ x, c ∉ t.sweep.claims.get x) ∧ c ∉ t.sweep.cancelled)) ∧
      (∀ run, s.ports.reset = some run →
        (∀ k j, jobAt s .m k = some j → j.kind = .recipher →
          (∀ x, ∀ d ∈ t.sweep.claims.get x, d ∈ s.sweep.claims.get x ∧ d.job ≠ some k) ∧
          ∀ d ∈ t.sweep.cancelled, d ∈ s.sweep.cancelled ∧ d.job ≠ some k) ∧
        (run.iQuota = 0 ∧ run.mQuota = 0 →
          t.ports.reset = none ∧ t.bufferPort.faulted = false ∧
          t.arbiter = { s.arbiter with count := 0, last := none }) ∧
        (run.iQuota ≠ 0 ∨ run.mQuota ≠ 0 →
          t.ports.reset = some run ∧ t.bufferPort.faulted = true ∧ t.arbiter = s.arbiter)) ∧
      (∃ p, NoJobs p ∧ (∀ l, (p.lanes.get l).work = none) ∧
        p.bufferPort = { faulted := true, faultAddr := a.addr, outstanding := [] } ∧
        p.stage = s.stage ∧ p.table = s.table ∧ p.arbiter = s.arbiter ∧ p.ports.s = s.ports.s ∧
        p.ports.reset = s.ports.reset ∧ p.ports.i.requests = s.ports.i.requests ∧
        p.ports.m.requests = s.ports.m.requests ∧ p.ports.events = { s.ports.events with busFault := true } ∧
        p.keys.cells = s.keys.cells ∧ p.keys.load = s.keys.load ∧
        (∀ g, p.keys.groups.get g = (s.keys.groups.get g).map (fun e => { e with pins := e.pins - pinsHeld s g })) ∧
        Follows p t) ∧
      ∀ who' kind, exec (.droppedAccessResponse who' kind) t = .next t ∧
        exec (.busErrorResponse who') t = .next t

/-- R95: CLASS_SET sets both classes and the count to 0 and keeps the last-granted port, in every stage and in SEALED and
OPEN; a class code other than 0 or 1, or a reserved field that is not zero, is refused BAD_FIELD and changes nothing. -/
def Obligations.ClassSetSetsBothClasses : Prop :=
  ∀ (s : State) (r : Record), Taken s .s r .classSet →
    (∀ i m, classOfCode (recordField r 4 1) = some i → classOfCode (recordField r 5 1) = some m →
      reservedZero r [4, 5] = true →
      ∃ t, exec .classSet s = .next t ∧ SameMemory s t ∧
        t = completed { s with arbiter := { iClass := i, mClass := m, count := 0, last := s.arbiter.last } } .s
          (answerOf r .ok .empty)) ∧
    (1 < recordField r 4 1 ∨ 1 < recordField r 5 1 ∨ reservedZero r [4, 5] = false →
      ∃ t, exec .classSet s = .next t ∧ SameMemory s t ∧ t = completed s .s (answerOf r .badField .empty))

/-- R103: BUS_RECOVER returns the Buffer Port to NORMAL, keeps the fault address and a pending BUS_FAULT event, and completes
OK, in NORMAL too, in every stage; a reserved field that is not zero is refused BAD_FIELD. -/
def Obligations.BusRecoverReturnsToNormal : Prop :=
  ∀ (s : State) (r : Record), Taken s .s r .busRecover →
    (reservedZero r [] = true →
      ∃ t, exec .busRecover s = .next t ∧ SameMemory s t ∧
        t.bufferPort.faultAddr = s.bufferPort.faultAddr ∧ t.ports.events = s.ports.events ∧
        t = completed { s with bufferPort := { s.bufferPort with faulted := false } } .s
          (answerOf r .ok .empty)) ∧
    (reservedZero r [] = false →
      ∃ t, exec .busRecover s = .next t ∧ SameMemory s t ∧ t = completed s .s (answerOf r .badField .empty))

/-! ## Stages -/

/-- R151, R153: while the timer runs a second lowers the remaining by 1; the second that brings it to 0 is the expiry (log
entry 4): with both tables empty RETAIN is entered with cause INACTIVITY, and a record held at the I-port or M-port then wakes the
part at once (R150, R147); with an M-port job a drain begins. While the timer does not run a second changes nothing. -/
def Obligations.InactivitySecondAndExpiry : Prop :=
  ∀ s : State,
    (TimerOn s → 2 ≤ s.stage.remaining →
      ∃ t, exec .inactivityTick s = .next t ∧ SameMemory s t ∧
        t = { s with stage := { s.stage with remaining := s.stage.remaining - 1 } }) ∧
    (∀ c, c = .inactivityTick ∨ c = .inactivityExpiry → TimerOn s → s.stage.remaining ≤ 1 →
      (tableEmpty s .m = true →
        let entered := retained { s with stage := { s.stage with remaining := 0 } } .inactivity
        ∃ t, exec c s = .next t ∧ SameMemory s t ∧
          (RecordHeld s → t = woken entered .wake none) ∧ (¬ RecordHeld s → t = entered)) ∧
      (tableEmpty s .m = false →
        ∃ t, exec c s = .next t ∧ SameMemory s t ∧
          t = { s with stage := { s.stage with
                remaining := 0, stage := .draining, drainCause := some .inactivity, waitingRetain := none } })) ∧
    (¬ TimerOn s → exec .inactivityTick s = .next s)

/-- R154: INACTIVITY_SET sets the delay, the media-counts flag and the remaining to the values given, in every stage and in
SEALED and OPEN; a delay above 3600, a media-counts value other than 0 or 1, or a reserved field that is not zero is
refused BAD_FIELD and changes nothing. With delay 0 the timer does not run. -/
def Obligations.InactivitySetRestartsTimer : Prop :=
  ∀ (s : State) (r : Record), Taken s .s r .inactivitySet →
    (recordField r 4 2 ≤ 3600 → recordField r 6 1 ≤ 1 → reservedZero r [4, 5, 6] = true →
      ∃ t, exec .inactivitySet s = .next t ∧ SameMemory s t ∧
        (recordField r 4 2 = 0 → exec .inactivityTick t = .next t) ∧
        t = completed { s with stage := { s.stage with
            delay := recordField r 4 2, mediaCounts := recordField r 6 1 == 1,
            remaining := recordField r 4 2 } } .s (answerOf r .ok .empty)) ∧
    (3600 < recordField r 4 2 ∨ 1 < recordField r 6 1 ∨ reservedZero r [4, 5, 6] = false →
      ∃ t, exec .inactivitySet s = .next t ∧ SameMemory s t ∧ t = completed s .s (answerOf r .badField .empty))

/-- R148, R150, R38: a Retain request. In RUN with both tables empty, and in FAILED, RETAIN is entered with cause REQUEST; in
RUN with a job and a lane IN_SERVICE a drain begins and the request's tag holds the S-port; in RETAIN it changes nothing
and completes OK; in WAKING and DRAINING, and in RUN with jobs and no lane IN_SERVICE, it is refused BUSY. A record held at
the I-port or M-port at the entry wakes the part at once with cause WAKE (R147); the locks, the event and the request's
completion of the entry stand. -/
def Obligations.RetainRequestByStage : Prop :=
  ∀ (s : State) (r : Record), HeaderTaken s r .retain →
    ((s.stage.stage = .run ∧ NoJobs s) ∨ s.stage.stage = .failed →
      let entered := completed (retained s .request) .s (answerOf r .ok .empty)
      ∃ t, exec .retain s = .next t ∧ SameMemory s t ∧
        (RecordHeld s → t = woken entered .wake none) ∧ (¬ RecordHeld s → t = entered)) ∧
    (s.stage.stage = .run → ¬ NoJobs s → (∃ l : LaneId, (s.lanes.get l).inService = true) →
      ∃ t, exec .retain s = .next t ∧ SameMemory s t ∧
        t = { takenOnly s .s with stage := { s.stage with
              stage := .draining, drainCause := some .request, waitingRetain := some (recordTag r) } }) ∧
    (s.stage.stage = .retain →
      ∃ t, exec .retain s = .next t ∧ SameMemory s t ∧ t = completed s .s (answerOf r .ok .empty)) ∧
    (s.stage.stage = .waking ∨ s.stage.stage = .draining ∨
        (s.stage.stage = .run ∧ ¬ NoJobs s ∧ ∀ l : LaneId, (s.lanes.get l).inService = false) →
      ∃ t, exec .retain s = .next t ∧ SameMemory s t ∧ t = completed s .s (answerOf r .busy .empty))

/-- R147, R155, R156, R89: a Wake in RETAIN wakes the part with cause WAKE and completes OK; in WAKING, RUN and FAILED it changes
nothing; in DRAINING it is refused BUSY. A Lane Test in RETAIN wakes the part with cause REQUEST; in RUN and FAILED it
begins a run of all lanes, each lane without work held at once; its tag holds the S-port; in WAKING and DRAINING it is
refused BUSY. R164 row 7: an Engine Reset taken in WAKING leaves the run, the waiting Lane Test and the stage as they are; a
lane it makes abandon its sector while that lane waits to be tested is held (R89), and every other lane's hold and every
lane's health stand. One that waits behind a Lane Test does so too if the free value has it pass, or else is no step and
stays queued (R174; log entry 32). -/
def Obligations.WakeAndLaneTestByStage : Prop :=
  ∀ (s : State) (r : Record),
    (HeaderTaken s r .wake →
      (s.stage.stage = .retain →
        ∃ t, exec .wake s = .next t ∧ SameMemory s t ∧
          t = woken (completed s .s (answerOf r .ok .empty)) .wake none) ∧
      (s.stage.stage = .waking ∨ s.stage.stage = .run ∨ s.stage.stage = .failed →
        ∃ t, exec .wake s = .next t ∧ SameMemory s t ∧ t = completed s .s (answerOf r .ok .empty)) ∧
      (s.stage.stage = .draining →
        ∃ t, exec .wake s = .next t ∧ SameMemory s t ∧ t = completed s .s (answerOf r .busy .empty))) ∧
    (HeaderTaken s r .laneTest →
      (s.stage.stage = .retain →
        ∃ t, exec .laneTest s = .next t ∧ SameMemory s t ∧
          t = woken (takenOnly s .s) .request (some (recordTag r))) ∧
      (s.stage.stage = .run ∨ s.stage.stage = .failed →
        ∃ t, exec .laneTest s = .next t ∧ SameMemory s t ∧
          t = { takenOnly s .s with
            stage := { s.stage with
              testRun := some { cause := .request, under := Vector.replicate 4 true,
                                passed := Vector.replicate 4 false },
              waitingLaneTest := some (recordTag r) },
            lanes := s.lanes.map (fun x => { x with testHold := x.testHold || x.work.isNone }) }) ∧
      (s.stage.stage = .waking ∨ s.stage.stage = .draining →
        ∃ t, exec .laneTest s = .next t ∧ SameMemory s t ∧ t = completed s .s (answerOf r .busy .empty))) ∧
    (HeaderTaken s r .engineReset → s.stage.stage = .waking →
      ∃ t, exec .engineReset s = .next t ∧ SameMemory s t ∧ KeepsTestRun s t) ∧
    (ResetBehindLaneTest s r →
      (Config.resetPassesLaneTest = true → s.stage.stage ≠ .draining →
        ∃ t, exec .engineReset s = .next t ∧ SameMemory s t ∧ KeepsTestRun s t) ∧
      (Config.resetPassesLaneTest = false → exec .engineReset s = .next s))

/-- R146, R145, R156, R88: a lane's test gives it its health, clears its hold and takes it out of the run. With the last lane the
run ends: the record takes the count plus 1, wrapping, the run's cause and the lanes passed, SELF_TEST is pending, and the
stage moves from WAKING or FAILED to RUN with the remaining at the full delay if a lane passed, to FAILED otherwise; a
waiting Lane Test completes OK with the lanes passed and the count. -/
def Obligations.LaneSelfTestGivesHealth : Prop :=
  ∀ (s : State) (l : LaneId) (encOk decOk : Bool) (run : TestRun),
    s.stage.testRun = some run → run.under.get l = true → (s.lanes.get l).testHold = true →
    let ok := encOk && decOk
    let lanes := put s.lanes l { s.lanes.get l with inService := ok, testHold := false }
    let run' : TestRun := { run with under := put run.under l false, passed := put run.passed l ok }
    ((∃ l', l' ≠ l ∧ run.under.get l' = true) →
      ∃ t, exec (.laneSelfTestEnd l encOk decOk) s = .next t ∧ SameMemory s t ∧
        t = { s with lanes := lanes, stage := { s.stage with testRun := some run' } }) ∧
    ((∀ l', l' ≠ l → run.under.get l' = false) →
      let up := s.stage.stage = .waking ∨ s.stage.stage = .failed
      let anyPassed := ∃ l', run'.passed.get l' = true
      ∃ t, exec (.laneSelfTestEnd l encOk decOk) s = .next t ∧ SameMemory s t ∧ t.lanes = lanes ∧
        t.stage.selfTest = { runs := s.stage.selfTest.runs + 1, cause := some run.cause, passed := run'.passed } ∧
        t.stage.testRun = none ∧ t.stage.waitingLaneTest = none ∧ t.ports.events.selfTest = true ∧
        (up → anyPassed → t.stage.stage = .run ∧ t.stage.remaining = s.stage.delay) ∧
        (up → ¬ anyPassed → t.stage.stage = .failed ∧ t.stage.remaining = s.stage.remaining) ∧
        (¬ up → t.stage.stage = s.stage.stage ∧ t.stage.remaining = s.stage.remaining) ∧
        (s.stage.waitingLaneTest = none → t.ports.s = s.ports.s) ∧
        (∀ tag, s.stage.waitingLaneTest = some tag → s.ports.s.reserved ≠ 0 →
          t.ports.s = { s.ports.s with
            filled := s.ports.s.filled ++
              [{ kind := 0x55, status := .ok, tag := tag,
                 body := .laneTest run'.passed (s.stage.selfTest.runs + 1) }],
            reserved := s.ports.s.reserved - 1 }) ∧
        t = { s with
          lanes := t.lanes,
          stage := { s.stage with
            stage := t.stage.stage, testRun := none, waitingLaneTest := none,
            remaining := t.stage.remaining, selfTest := t.stage.selfTest },
          ports := { s.ports with
            s := t.ports.s, events := { s.ports.events with selfTest := true } } })

/-- R149, R150: a drain with both tables empty ends in RETAIN with the drain cause, and a waiting Retain request completes OK
after the entry. A record held at the I-port or M-port, outside an abort quota, then wakes the part with cause WAKE (R147);
the locks and the event of the entry stand. The second clause writes the state out where no record waits. -/
def Obligations.DrainEndEntersRetain : Prop :=
  (∀ s : State, ∃ t, exec .drainEnd s = .next t ∧ SameMemory s t ∧ DrainDone s t) ∧
  ∀ (s : State) (cause : RetainCause), s.stage.stage = .draining → NoJobs s → s.stage.drainCause = some cause →
    QueuesEmpty s →
    (s.stage.waitingRetain = none →
      ∃ t, exec .drainEnd s = .next t ∧ SameMemory s t ∧ t = retained s cause) ∧
    ∀ tag, s.stage.waitingRetain = some tag → s.ports.s.reserved ≠ 0 →
      ∃ t, exec .drainEnd s = .next t ∧ SameMemory s t ∧
        t = (retained s cause).setPort .s { s.ports.s with
          filled := s.ports.s.filled ++ [{ kind := 0x53, status := .ok, tag := tag, body := .empty }],
          reserved := s.ports.s.reserved - 1 }

/-! ## Admission and resets -/

/-- R159, R160: FORMAT_SET sets the capacity and the data unit, or is refused with the status of the first check of its table
that applies; ADMIT opens the drive once the capacity is set, and changes nothing in OPEN; SEAL seals it. Each is taken in
every stage. -/
def Obligations.FormatAdmitSeal : Prop :=
  ∀ (s : State) (r : Record),
    (∀ u, Taken s .s r .formatSet → 1 ≤ recordField r 4 6 → recordField r 4 6 ≤ 1099511627776 →
      unitOfBytes (recordField r 10 2) = some u → reservedZero r (byteSpan 4 11) = true →
      s.table.admission = .sealed → NoSweep s → NoJobs s →
      (∀ q : RangeId, q ≠ 0 → (s.table.entry q).present = true → (s.table.entry q).last < recordField r 4 6) →
      ∃ t, exec .formatSet s = .next t ∧ SameMemory s t ∧
        t = completed { s with table := { s.table with capacity := recordField r 4 6, dataUnit := u } } .s
          (answerOf r .ok .empty)) ∧
    (∀ st, Taken s .s r .formatSet → Refuses (formatSetTable s r) st → AnsweredOnly .formatSet s .s r st .empty) ∧
    (HeaderTaken s r .admitRequest → s.table.admission = .opened ∨ s.table.capacity ≠ 0 →
      ∃ t, exec .admitRequest s = .next t ∧ SameMemory s t ∧
        t = completed { s with table := { s.table with admission := .opened } } .s (answerOf r .ok .empty)) ∧
    (HeaderTaken s r .admitRequest → s.table.admission = .sealed → s.table.capacity = 0 →
      ∃ t, exec .admitRequest s = .next t ∧ SameMemory s t ∧
        t = completed s .s (answerOf r .formatUnset .empty)) ∧
    (HeaderTaken s r .sealRequest →
      ∃ t, exec .sealRequest s = .next t ∧ SameMemory s t ∧
        t = completed { s with table := { s.table with admission := .sealed } } .s (answerOf r .ok .empty))

/-- R161, R162, R165: the taking of an Engine Reset or a Zeroize, with whatever is in flight. Every job still in a table
has the end cause it had, SWEEP_CANCELLED say, or else ABORTED or ZEROIZED, no sector WAITING and nothing to offer. A lane in
WRITING keeps its work and its access; every other lane has no work and no access. No claim is CLAIMED or DONE, and a
RECIPHERING one stays with its set while its job does and is removed with it. No record of the I-port and M-port has left
its queue. The reset notes the waiting records as its quotas and the jobs whose end cause it set (counted here: log entry 30); it may end
in this step, nothing being in flight, and its completion then carries those counts. A job with a sector still in WRITING, or
in LISTING, stays in its slot, a LISTING one with its list write. A job whose last sector ended with the taking enters
LISTING with its list write asked, or has its completion posted, with the status of its end cause, in ascending order of
slot, its pins released and its slot free (R78, R132, R135). `p` is the state before what follows in the same step (log
entry 3). -/
def Obligations.ResetTakingStopsWork : Prop :=
  ∀ (s : State) (r : Record) (c : Instr) (kind : ResetKind) (cause : EndCause),
    (c = .engineReset ∧ kind = .engine ∧ cause = .aborted ∧ HeaderTaken s r .engineReset) ∨
      (c = .zeroize ∧ kind = .zeroize ∧ cause = .zeroized ∧ HeaderTaken s r .zeroize) →
    ∃ t, exec c s = .next t ∧ SameMemory s t ∧
      (∀ side k j, jobAt t side k = some j → ∃ j0, jobAt s side k = some j0 ∧ j.tag = j0.tag ∧
        j.cause = some (j0.cause.getD cause) ∧ j.next = none ∧ SectorState.waiting ∉ j.sectors) ∧
      (∀ l w, (s.lanes.get l).work = some w → w.phase = .writing →
        (t.lanes.get l).work = some w ∧ accessOf t (.lane l) = accessOf s (.lane l)) ∧
      (∀ l, (∀ w, (s.lanes.get l).work = some w → w.phase ≠ .writing) → (t.lanes.get l).work = none) ∧
      (∀ l w, (s.lanes.get l).work = some w → w.phase ≠ .writing → accessOf t (.lane l) = none) ∧
      (∀ x, ∀ cl ∈ t.sweep.claims.get x, cl.state = .reciphering) ∧
      (∀ k j, jobAt s .m k = some j → j.kind = .recipher → jobAt t .m k = none →
        (∀ x, ∀ cl ∈ t.sweep.claims.get x, cl.job ≠ some k) ∧ ∀ cl ∈ t.sweep.cancelled, cl.job ≠ some k) ∧
      (∀ x cl k, TablesByKind s → cl ∈ s.sweep.claims.get x → cl.state = .reciphering → cl.job = some k →
        jobAt t .m k ≠ none →
        ∃ d ∈ t.sweep.claims.get x, d.job = some k ∧ d.overtaken = cl.overtaken) ∧
      t.ports.i.requests = s.ports.i.requests ∧ t.ports.m.requests = s.ports.m.requests ∧
      (t.ports.reset = some
          { kind := kind, tag := recordTag r, iQuota := s.ports.i.requests.length,
            mQuota := s.ports.m.requests.length, iJobs := unendedJobs s .i, mJobs := unendedJobs s .m,
            iAnswered := 0, mAnswered := 0 } ∨
        (t.ports.reset = none ∧ QueuesEmpty s ∧ NoJobs t ∧
          (NoRetiring s →
            { kind := kindCode r, status := .ok, tag := recordTag r,
              body := .reset (unendedJobs s .i) (unendedJobs s .m) 0 0 } ∈ t.ports.s.filled))) ∧
      (TablesByKind s → JobClaimsReciphering s →
        (∀ side, (t.port (sidePort side)).filled = (s.port (sidePort side)).filled ++
          (takingPosts s side cause).take (s.port (sidePort side)).reserved) ∧
        (∀ side k j, jobAt s side k = some j →
          let cut := stoppedAtTaking s side k cause j
          (¬ cut.AtEnd → jobAt t side k = some cut) ∧
          (j.phase = .listing → accessOf t (.list side k) = accessOf s (.list side k)) ∧
          (cut.AtEnd → cut.PostsAtOnce → jobAt t side k = none) ∧
          (cut.AtEnd → ∀ addr, cut.list = some addr → cut.cause ≠ some .busFault →
            let ended := withFinals s k cut
            jobAt t side k = some { ended with phase := .listing } ∧
            (s.bufferPort.faulted = false →
              { who := .list side k, kind := .listWrite, addr := addr, len := ended.count, bytes := ended.listBytes }
                ∈ t.bufferPort.outstanding))) ∧
        ∃ p, p.jobs = t.jobs ∧ (∀ l, p.lanes.get l = laneLeft s l) ∧ p.bufferPort.outstanding = t.bufferPort.outstanding ∧
          p.bufferPort.faulted = s.bufferPort.faulted ∧ p.stage = s.stage ∧ p.table = s.table ∧
          p.arbiter = s.arbiter ∧ p.ports = { (takenOnly s .s).ports with
            i := t.ports.i, m := t.ports.m, reset := some
              { kind := kind, tag := recordTag r, iQuota := s.ports.i.requests.length,
                mQuota := s.ports.m.requests.length, iJobs := unendedJobs s .i, mJobs := unendedJobs s .m,
                iAnswered := 0, mAnswered := 0 } } ∧
          p.keys.cells = s.keys.cells ∧ p.keys.load = s.keys.load ∧
          (∀ g, p.keys.groups.get g = (s.keys.groups.get g).map (fun e =>
            { e with pins := e.pins - (takingUnpins s .i cause g + takingUnpins s .m cause g) })) ∧
          Follows p t)

/-- R163, R166: the end of a reset once its four conditions hold. An Engine Reset returns the Buffer Port to NORMAL and the
arbiter's count and last-granted port to their start, and completes OK with its four counts; a Zeroize has first cleared
the Range Table, the Sweep Unit and the Key Store. Keys, ranges and marks stay over an Engine Reset. -/
def Obligations.ResetEndCompletes : Prop :=
  ∀ (s : State) (run : ResetRun), s.ports.reset = some run → NothingInFlight s run → s.ports.s.reserved ≠ 0 →
    (run.kind = .engine →
      ∃ t, exec .engineResetEnd s = .next t ∧ SameMemory s t ∧ t = resetEnded s run) ∧
    (run.kind = .zeroize →
      ∃ t, exec .zeroizeClearing s = .next t ∧ SameMemory s t ∧ t = resetEnded (zeroized s) run)

/-! ## The sector cipher -/

/-- R3: K1 and K2 are the bytes of a group's cells in order, each cell's in the order its Key Part carried them: of S128 cell
base and cell base + 1, of S256 cells base, base + 1 and cells base + 2, base + 3; without a record there are none. R4: byte i
of the tweak block of an LBA is bits 8i to 8i + 7 of it, bytes 5 to 15 are 0x00. R5: T0 is the tweak block enciphered under K2
(AES: log entry 7). R6: each tweak after it is its predecessor shifted left by one bit, with 0x87 exclusive-ORed into byte 0
if the bit shifted out was 1. -/
def Obligations.TweakBlockAndDoubling : Prop :=
  (∀ (ks : KeyStore) (g : CellId),
    let cell (c : CellId) : List Byte := (List.range 16).map (fun i => (ks.cells.get c).bits.extractLsb' (8 * i) 8)
    (ks.groups.get g = none → groupKeys ks g = none) ∧
    (∀ e (c1 : CellId), ks.groups.get g = some e → e.strength = .s128 → c1.1 = g.1 + 1 →
      groupKeys ks g = some { k1 := cell g, k2 := cell c1 }) ∧
    ∀ e (c1 c2 c3 : CellId), ks.groups.get g = some e → e.strength = .s256 → c1.1 = g.1 + 1 → c2.1 = g.1 + 2 →
      c3.1 = g.1 + 3 → groupKeys ks g = some { k1 := cell g ++ cell c1, k2 := cell c2 ++ cell c3 }) ∧
  (∀ lba i, lba < 1099511627776 → i < 16 →
    (byteAt (tweakBlock lba) i).toNat = lba / 2 ^ (8 * i) % 256 ∧
    (5 ≤ i → byteAt (tweakBlock lba) i = 0x00)) ∧
  (∀ (k : GroupKeys) (lba : Nat), initialTweak k lba = aesEncipher k.k2 (tweakBlock lba)) ∧
  ∀ (t0 : Block) (j : Nat), tweakAt t0 0 = t0 ∧
    (tweakAt t0 (j + 1)).toNat =
      Nat.xor ((tweakAt t0 j).toNat * 2 % 2 ^ 128) (if 2 ^ 127 ≤ (tweakAt t0 j).toNat then 0x87 else 0)

/-- R9: deciphering the ciphertext blocks that the encipher produced, with the same keys and LBA, returns the plaintext. AES
is log entry 7's. -/
def Obligations.DecipherUndoesEncipher : Prop :=
  ∀ (k : GroupKeys) (lba n : Nat) (unit : List Byte), unit.length = 16 * n →
    decipherUnit k lba n (encipherUnit k lba n unit) = unit

/-- R8: a data unit has 32 or 256 blocks; ciphertext block j is E_K1(P_j xor T_j) xor T_j, P_j being bytes 16j to 16j + 15, at
the same place, and R9: plaintext block j is D_K1(C_j xor T_j) xor T_j, with T_j the tweaks of R6 from T0. R10: the check is
the CRC-32 of the plaintext: 0xFFFFFFFF at the start, each byte exclusive-ORed into the low 8 bits before eight steps,
0xFFFFFFFF exclusive-ORed at the end. R11: the mask is bytes 0 to 3 of T_n, little-endian. R2, R17: the sector's trailer is its
epoch, then its masked check, each little-endian. R11, R19: a sector deciphered under the group and at the LBA it was
enciphered with always passes its check and gives its plaintext. AES is log entry 7's. -/
def Obligations.EncipheredSectorPassesItsCheck : Prop :=
  (DataUnit.u512.blocks = 32 ∧ DataUnit.u4096.blocks = 256) ∧
  (∀ (k : GroupKeys) (lba n j : Nat) (unit : List Byte), unit.length = 16 * n → j < n →
    let cut (l : List Byte) : List Byte := (l.drop (16 * j)).take 16
    let tweak := tweakAt (initialTweak k lba) j
    (encipherUnit k lba n unit).length = 16 * n ∧ (decipherUnit k lba n unit).length = 16 * n ∧
    ∀ p : Block, (∀ i, i < 16 → (cut unit)[i]? = some (byteAt p i)) →
      ∀ i, i < 16 →
        (cut (encipherUnit k lba n unit))[i]? = some (byteAt (aesEncipher k.k1 (p ^^^ tweak) ^^^ tweak) i) ∧
        (cut (decipherUnit k lba n unit))[i]? = some (byteAt (aesDecipher k.k1 (p ^^^ tweak) ^^^ tweak) i)) ∧
  (∀ (k : GroupKeys) (lba n i : Nat), i < 4 →
    (sectorMask k lba n).extractLsb' (8 * i) 8 = byteAt (tweakAt (initialTweak k lba) n) i) ∧
  (crc32 [] = 0 ∧ ∀ (l : List Byte) (b : Byte),
    crc32 (l ++ [b]) ^^^ 0xFFFFFFFF#32 = Nat.repeat crcStep 8 ((crc32 l ^^^ 0xFFFFFFFF#32) ^^^ b.setWidth 32)) ∧
  (∀ c : BitVec 32, (crcStep c).toNat = Nat.xor (c.toNat / 2) (if c.toNat % 2 = 1 then 0xEDB88320 else 0)) ∧
  (∀ (t : Trailer) (i : Nat), (trailerBytes t).length = 8 ∧ trailerOf (trailerBytes t) = t ∧
    (i < 4 → (trailerBytes t)[i]? = some (t.epoch.extractLsb' (8 * i) 8) ∧
      (trailerBytes t)[4 + i]? = some (t.check.extractLsb' (8 * i) 8))) ∧
  ∀ (k : GroupKeys) (e : Epoch) (lba n : Nat) (unit : List Byte), unit.length = 16 * n →
    let sector := cipherSector k e lba n unit
    sector.length = 16 * n + 8 ∧ sector.take (16 * n) = encipherUnit k lba n unit ∧
    trailerOf (sector.drop (16 * n)) = { epoch := e, check := crc32 unit ^^^ sectorMask k lba n } ∧
    decipherChecked k lba n (trailerOf (sector.drop (16 * n))) (sector.take (16 * n)) = some unit

/-! ## The laws of every state -/

/-- The laws below hold right after reset. -/
def Obligations.LawsHoldAtReset : Prop :=
  Memory.wf State.reset.buffer = true ∧ PortsWithin State.reset ∧ EmptyCellsZero State.reset ∧
  EpochLaw State.reset ∧ SweepLaw State.reset ∧ BoundsLaw State.reset.table ∧ CountsWithin State.reset ∧
  FaultedQuiet State.reset ∧ TablesByKind State.reset

/-- Every step keeps buffer memory in its canonical form. -/
def Obligations.StepKeepsMemoryCanonical : Prop :=
  ∀ s t : State, Memory.wf s.buffer = true → step s = .next t → Memory.wf t.buffer = true

/-- R169, R171: every step keeps each request queue at most 16 records and each completion queue at most 32, counting
reserved places. -/
def Obligations.StepKeepsPortsWithin : Prop :=
  ∀ s t : State, PortsWithin s → step s = .next t → PortsWithin t

/-- R45: no step writes a FILLED key cell: afterwards it holds the same bits or is EMPTY and holds zeros; and an EMPTY cell
always holds zeros. -/
def Obligations.StepNeverRewritesFilledCell : Prop :=
  (∀ s t : State, EmptyCellsZero s → step s = .next t → EmptyCellsZero t) ∧
  ∀ (s t : State) (c : CellId), step s = .next t → (s.keys.cells.get c).filled = true →
    t.keys.cells.get c = s.keys.cells.get c ∨ t.keys.cells.get c = { filled := false, bits := 0 }

/-- R41: every step keeps the epochs of all live bindings distinct and non-zero. -/
def Obligations.StepKeepsEpochLaw : Prop :=
  ∀ s t : State, EpochLaw s → step s = .next t → EpochLaw t

/-- R24: every step keeps range 0 PRESENT, a previous binding exactly where a mark stands and only beside a current binding,
and an ABSENT range without bindings, its bounds, locks and refusal count zero and clear (log entry 20). -/
def Obligations.StepKeepsSweepLaw : Prop :=
  ∀ s t : State, SweepLaw s → step s = .next t → SweepLaw t

/-- R26: every step keeps the PRESENT bounded ranges within the capacity and pairwise disjoint; and under that law an LBA
inside one resolves to it, and any other LBA to range 0. -/
def Obligations.StepKeepsBoundsLaw : Prop :=
  (∀ s t : State, BoundsLaw s.table → step s = .next t → BoundsLaw t.table) ∧
  ∀ (t : RangeTable) (y : Nat), BoundsLaw t →
    (∀ r : RangeId, r ≠ 0 → (t.entry r).present = true → (t.entry r).first ≤ y → y ≤ (t.entry r).last →
      resolve t y = r) ∧
    ((∀ r : RangeId, r ≠ 0 → (t.entry r).present = true → ¬ ((t.entry r).first ≤ y ∧ y ≤ (t.entry r).last)) →
      resolve t y = 0)

/-- R31, R91, R125, R143: every step keeps the claims, the refusal counts, the arbiter's count and the inactivity remaining
within the values their rules give, and (R98, R99, R103) a FAULTED Buffer Port without an access, a job or a busy lane;
and (R64, R129) READ and WRITE jobs alone in the I-table, RECIPHER and SCREEN jobs alone in the M-table. -/
def Obligations.StepKeepsCountsWithin : Prop :=
  (∀ s t : State, CountsWithin s → FaultedQuiet s → step s = .next t → CountsWithin t ∧ FaultedQuiet t) ∧
  ∀ s t : State, TablesByKind s → step s = .next t → TablesByKind t

/-- R45: no command but the end of a transform reads the bits of a key cell. Run on two states that differ in key bits alone,
any other command answers states that differ in key bits alone: no port, no event and no byte of buffer memory tells. -/
def Obligations.KeyBitsReadByTransformAlone : Prop :=
  ∀ (c : Instr) (s s' t : State), (∀ l, c ≠ .transformEnd l) → SameButKeyBits s s' → exec c s = .next t →
    ∃ t', exec c s' = .next t' ∧ SameButKeyBits t t'
end

