-- ==== Sys2Proof/Laws/Memory.lean ====
section
/-! SUPPORT. The laws of buffer memory: every operation keeps the canonical form, a read after a write gives
what was written, and a write leaves every other address alone. -/

namespace Sys2Proof.Machine

/-! ### One byte -/

@[simp] theorem readByte_nil (a : Nat) : readByte [] a = unlistedByte := rfl

/-- A byte written reads back. -/
theorem readByte_writeByte_self (m : Memory) (a : Nat) (v : Byte) (lo : Nat)
    (h : Memory.wfFrom lo m = true) : readByte (writeByte m a v) a = v := by
  induction m generalizing lo with
  | nil => by_cases hv : v = unlistedByte <;> simp [writeByte, readByte, hv]
  | cons c m ih =>
    obtain ⟨b, w⟩ := c
    simp only [Memory.wfFrom, Bool.and_eq_true, decide_eq_true_eq] at h
    have low : ∀ (m : Memory) (lo : Nat), Memory.wfFrom lo m = true → ∀ x, x < lo → readByte m x = unlistedByte := by
      intro m
      induction m with
      | nil => intros; rfl
      | cons c m ih =>
        intro lo hm x hx
        obtain ⟨b, w⟩ := c
        simp only [Memory.wfFrom, Bool.and_eq_true, decide_eq_true_eq] at hm
        simp only [readByte]
        rw [if_neg (by omega)]
        exact ih _ hm.2 x (by omega)
    simp only [writeByte]
    split
    · simp only [readByte]
      rw [if_neg (by omega)]
      exact ih _ h.2
    · split
      · split
        · next hv => subst hv; exact low _ _ h.2 _ (by omega)
        · simp [readByte]
      · split
        · next hv =>
          subst hv
          simp only [readByte]
          rw [if_neg (by omega)]
          exact low _ _ h.2 _ (by omega)
        · simp [readByte]

/-- A write leaves every other address alone. -/
theorem readByte_writeByte_ne (m : Memory) (a x : Nat) (v : Byte) (hx : x ≠ a) :
    readByte (writeByte m a v) x = readByte m x := by
  induction m with
  | nil => by_cases hv : v = unlistedByte <;> simp [writeByte, readByte, hv, Ne.symm hx]
  | cons c m ih =>
    obtain ⟨b, w⟩ := c
    simp only [writeByte]
    split
    · simp only [readByte, ih]
    · split
      · split
        · simp only [readByte]; rw [if_neg (by omega)]
        · simp only [readByte]; rw [if_neg (by omega), if_neg (by omega)]
      · split
        · rfl
        · simp only [readByte]; rw [if_neg (by omega)]

theorem wfFrom_writeByte (m : Memory) (a : Nat) (v : Byte) (lo : Nat) (hlo : lo ≤ a)
    (h : Memory.wfFrom lo m = true) : Memory.wfFrom lo (writeByte m a v) = true := by
  induction m generalizing lo with
  | nil =>
    by_cases hv : v = unlistedByte
    · simp [writeByte, hv, Memory.wfFrom]
    · simp [writeByte, hv, Memory.wfFrom, hlo]
  | cons c m ih =>
    obtain ⟨b, w⟩ := c
    have up : ∀ (m : Memory) (lo lo' : Nat), lo' ≤ lo → Memory.wfFrom lo m = true → Memory.wfFrom lo' m = true := by
      intro m lo lo' hl hm
      cases m with
      | nil => rfl
      | cons c m =>
        obtain ⟨b, w⟩ := c
        simp only [Memory.wfFrom, Bool.and_eq_true, decide_eq_true_eq] at hm ⊢
        exact ⟨⟨by omega, hm.1.2⟩, hm.2⟩
    simp only [Memory.wfFrom, Bool.and_eq_true, decide_eq_true_eq] at h
    simp only [writeByte]
    split
    · simp only [Memory.wfFrom, Bool.and_eq_true, decide_eq_true_eq]
      exact ⟨h.1, ih _ (by omega) h.2⟩
    · split
      · split
        · exact up _ _ _ (by omega) h.2
        · next hv =>
          simp only [Memory.wfFrom, Bool.and_eq_true, decide_eq_true_eq]
          refine ⟨⟨hlo, by simpa using hv⟩, ?_⟩
          exact up _ _ _ (by omega) h.2
      · split
        · simp only [Memory.wfFrom, Bool.and_eq_true, decide_eq_true_eq]
          exact h
        · next hv =>
          simp only [Memory.wfFrom, Bool.and_eq_true, decide_eq_true_eq]
          exact ⟨⟨hlo, by simpa using hv⟩, ⟨by omega, h.1.2⟩, h.2⟩

/-- Writing one byte keeps the canonical form. -/
theorem wf_writeByte (m : Memory) (a : Nat) (v : Byte) (h : m.wf = true) : (writeByte m a v).wf = true :=
  wfFrom_writeByte m a v 0 (Nat.zero_le _) h

/-! ### Several bytes -/

/-- Writing bytes keeps the canonical form. -/
theorem wf_writeBytes (bs : List Byte) (m : Memory) (a : Nat) (h : m.wf = true) :
    (writeBytes m a bs).wf = true := by
  induction bs generalizing m a with
  | nil => exact h
  | cons v vs ih => exact ih _ _ (wf_writeByte m a v h)

/-- A write that is cut off keeps the canonical form, whatever lands. -/
theorem wf_cutBytes (n : Nat) (bs : List Byte) (i : Nat) (m : Memory) (a : Nat) (h : m.wf = true) :
    (cutBytes n i m a bs).wf = true := by
  induction bs generalizing i m a with
  | nil => exact h
  | cons v vs ih =>
    simp only [cutBytes]
    apply ih
    split
    · exact wf_writeByte m a v h
    · exact h

/-- Bytes outside a write are unchanged. -/
theorem readByte_writeBytes_outside (bs : List Byte) (m : Memory) (a x : Nat)
    (hx : x < a ∨ a + bs.length ≤ x) : readByte (writeBytes m a bs) x = readByte m x := by
  induction bs generalizing m a with
  | nil => rfl
  | cons v vs ih =>
    simp only [List.length_cons] at hx
    simp only [writeBytes]
    rw [ih _ _ (by omega), readByte_writeByte_ne _ _ _ _ (by omega)]

/-- Each byte of a write reads back. -/
theorem readByte_writeBytes (bs : List Byte) (m : Memory) (a k : Nat) (v : Byte) (h : m.wf = true)
    (hk : bs[k]? = some v) : readByte (writeBytes m a bs) (a + k) = v := by
  induction bs generalizing m a k with
  | nil => simp at hk
  | cons w ws ih =>
    simp only [writeBytes]
    cases k with
    | zero =>
      simp only [List.getElem?_cons_zero, Option.some.injEq] at hk
      subst hk
      rw [readByte_writeBytes_outside _ _ _ _ (by omega)]
      exact readByte_writeByte_self m a w 0 h
    | succ k =>
      have := ih (writeByte m a w) (a + 1) k (wf_writeByte m a w h) (by simpa using hk)
      rwa [show a + (k + 1) = a + 1 + k by omega]

/-- Bytes outside a cut write are unchanged. -/
theorem readByte_cutBytes_outside (n : Nat) (bs : List Byte) (i : Nat) (m : Memory) (a x : Nat)
    (hx : x < a ∨ a + bs.length ≤ x) : readByte (cutBytes n i m a bs) x = readByte m x := by
  induction bs generalizing i m a with
  | nil => rfl
  | cons v vs ih =>
    simp only [List.length_cons] at hx
    simp only [cutBytes]
    rw [ih _ _ _ (by omega)]
    split
    · rw [readByte_writeByte_ne _ _ _ _ (by omega)]
    · rfl

/-- The memory after a power-on reset has the canonical form. -/
theorem wf_reset : Memory.wf State.reset.buffer = true := rfl

end Sys2Proof.Machine
end

