-- ==== Sys2Proof/Laws/State.lean ====
section
/-! SUPPORT. One lemma for each field of `State` under each named update, so that no proof unfolds a record
update; and the fields of the Port Block under the updates of one port. -/

namespace Sys2Proof.Machine

variable (s : State)

/-! ### `State.setEvents` -/

@[simp] theorem State.setEvents_ports (e : EventSet) : (s.setEvents e).ports = { s.ports with events := e } := rfl
@[simp] theorem State.setEvents_table (e : EventSet) : (s.setEvents e).table = s.table := rfl
@[simp] theorem State.setEvents_keys (e : EventSet) : (s.setEvents e).keys = s.keys := rfl
@[simp] theorem State.setEvents_jobs (e : EventSet) : (s.setEvents e).jobs = s.jobs := rfl
@[simp] theorem State.setEvents_arbiter (e : EventSet) : (s.setEvents e).arbiter = s.arbiter := rfl
@[simp] theorem State.setEvents_lanes (e : EventSet) : (s.setEvents e).lanes = s.lanes := rfl
@[simp] theorem State.setEvents_bufferPort (e : EventSet) : (s.setEvents e).bufferPort = s.bufferPort := rfl
@[simp] theorem State.setEvents_sweep (e : EventSet) : (s.setEvents e).sweep = s.sweep := rfl
@[simp] theorem State.setEvents_stage (e : EventSet) : (s.setEvents e).stage = s.stage := rfl
@[simp] theorem State.setEvents_buffer (e : EventSet) : (s.setEvents e).buffer = s.buffer := rfl
@[simp] theorem State.setEvents_answer (e : EventSet) : (s.setEvents e).answer = s.answer := rfl
@[simp] theorem State.setEvents_draws (e : EventSet) : (s.setEvents e).draws = s.draws := rfl
@[simp] theorem State.setEvents_pending (e : EventSet) : (s.setEvents e).pending = s.pending := rfl

/-! ### `State.setRange` -/

@[simp] theorem State.setRange_ports (r : RangeId) (e : RangeRec) : (s.setRange r e).ports = s.ports := rfl
@[simp] theorem State.setRange_table (r : RangeId) (e : RangeRec) : (s.setRange r e).table = s.table.setEntry r e := rfl
@[simp] theorem State.setRange_keys (r : RangeId) (e : RangeRec) : (s.setRange r e).keys = s.keys := rfl
@[simp] theorem State.setRange_jobs (r : RangeId) (e : RangeRec) : (s.setRange r e).jobs = s.jobs := rfl
@[simp] theorem State.setRange_arbiter (r : RangeId) (e : RangeRec) : (s.setRange r e).arbiter = s.arbiter := rfl
@[simp] theorem State.setRange_lanes (r : RangeId) (e : RangeRec) : (s.setRange r e).lanes = s.lanes := rfl
@[simp] theorem State.setRange_bufferPort (r : RangeId) (e : RangeRec) : (s.setRange r e).bufferPort = s.bufferPort := rfl
@[simp] theorem State.setRange_sweep (r : RangeId) (e : RangeRec) : (s.setRange r e).sweep = s.sweep := rfl
@[simp] theorem State.setRange_stage (r : RangeId) (e : RangeRec) : (s.setRange r e).stage = s.stage := rfl
@[simp] theorem State.setRange_buffer (r : RangeId) (e : RangeRec) : (s.setRange r e).buffer = s.buffer := rfl
@[simp] theorem State.setRange_answer (r : RangeId) (e : RangeRec) : (s.setRange r e).answer = s.answer := rfl
@[simp] theorem State.setRange_draws (r : RangeId) (e : RangeRec) : (s.setRange r e).draws = s.draws := rfl
@[simp] theorem State.setRange_pending (r : RangeId) (e : RangeRec) : (s.setRange r e).pending = s.pending := rfl

/-! ### `State.setKeys` -/

@[simp] theorem State.setKeys_ports (k : KeyStore) : (s.setKeys k).ports = s.ports := rfl
@[simp] theorem State.setKeys_table (k : KeyStore) : (s.setKeys k).table = s.table := rfl
@[simp] theorem State.setKeys_keys (k : KeyStore) : (s.setKeys k).keys = k := rfl
@[simp] theorem State.setKeys_jobs (k : KeyStore) : (s.setKeys k).jobs = s.jobs := rfl
@[simp] theorem State.setKeys_arbiter (k : KeyStore) : (s.setKeys k).arbiter = s.arbiter := rfl
@[simp] theorem State.setKeys_lanes (k : KeyStore) : (s.setKeys k).lanes = s.lanes := rfl
@[simp] theorem State.setKeys_bufferPort (k : KeyStore) : (s.setKeys k).bufferPort = s.bufferPort := rfl
@[simp] theorem State.setKeys_sweep (k : KeyStore) : (s.setKeys k).sweep = s.sweep := rfl
@[simp] theorem State.setKeys_stage (k : KeyStore) : (s.setKeys k).stage = s.stage := rfl
@[simp] theorem State.setKeys_buffer (k : KeyStore) : (s.setKeys k).buffer = s.buffer := rfl
@[simp] theorem State.setKeys_answer (k : KeyStore) : (s.setKeys k).answer = s.answer := rfl
@[simp] theorem State.setKeys_draws (k : KeyStore) : (s.setKeys k).draws = s.draws := rfl
@[simp] theorem State.setKeys_pending (k : KeyStore) : (s.setKeys k).pending = s.pending := rfl

/-! ### `State.setSweep` -/

@[simp] theorem State.setSweep_ports (w : SweepUnit) : (s.setSweep w).ports = s.ports := rfl
@[simp] theorem State.setSweep_table (w : SweepUnit) : (s.setSweep w).table = s.table := rfl
@[simp] theorem State.setSweep_keys (w : SweepUnit) : (s.setSweep w).keys = s.keys := rfl
@[simp] theorem State.setSweep_jobs (w : SweepUnit) : (s.setSweep w).jobs = s.jobs := rfl
@[simp] theorem State.setSweep_arbiter (w : SweepUnit) : (s.setSweep w).arbiter = s.arbiter := rfl
@[simp] theorem State.setSweep_lanes (w : SweepUnit) : (s.setSweep w).lanes = s.lanes := rfl
@[simp] theorem State.setSweep_bufferPort (w : SweepUnit) : (s.setSweep w).bufferPort = s.bufferPort := rfl
@[simp] theorem State.setSweep_sweep (w : SweepUnit) : (s.setSweep w).sweep = w := rfl
@[simp] theorem State.setSweep_stage (w : SweepUnit) : (s.setSweep w).stage = s.stage := rfl
@[simp] theorem State.setSweep_buffer (w : SweepUnit) : (s.setSweep w).buffer = s.buffer := rfl
@[simp] theorem State.setSweep_answer (w : SweepUnit) : (s.setSweep w).answer = s.answer := rfl
@[simp] theorem State.setSweep_draws (w : SweepUnit) : (s.setSweep w).draws = s.draws := rfl
@[simp] theorem State.setSweep_pending (w : SweepUnit) : (s.setSweep w).pending = s.pending := rfl

/-! ### `State.setBufferPort` -/

@[simp] theorem State.setBufferPort_ports (b : BufferPort) : (s.setBufferPort b).ports = s.ports := rfl
@[simp] theorem State.setBufferPort_table (b : BufferPort) : (s.setBufferPort b).table = s.table := rfl
@[simp] theorem State.setBufferPort_keys (b : BufferPort) : (s.setBufferPort b).keys = s.keys := rfl
@[simp] theorem State.setBufferPort_jobs (b : BufferPort) : (s.setBufferPort b).jobs = s.jobs := rfl
@[simp] theorem State.setBufferPort_arbiter (b : BufferPort) : (s.setBufferPort b).arbiter = s.arbiter := rfl
@[simp] theorem State.setBufferPort_lanes (b : BufferPort) : (s.setBufferPort b).lanes = s.lanes := rfl
@[simp] theorem State.setBufferPort_bufferPort (b : BufferPort) : (s.setBufferPort b).bufferPort = b := rfl
@[simp] theorem State.setBufferPort_sweep (b : BufferPort) : (s.setBufferPort b).sweep = s.sweep := rfl
@[simp] theorem State.setBufferPort_stage (b : BufferPort) : (s.setBufferPort b).stage = s.stage := rfl
@[simp] theorem State.setBufferPort_buffer (b : BufferPort) : (s.setBufferPort b).buffer = s.buffer := rfl
@[simp] theorem State.setBufferPort_answer (b : BufferPort) : (s.setBufferPort b).answer = s.answer := rfl
@[simp] theorem State.setBufferPort_draws (b : BufferPort) : (s.setBufferPort b).draws = s.draws := rfl
@[simp] theorem State.setBufferPort_pending (b : BufferPort) : (s.setBufferPort b).pending = s.pending := rfl

/-! ### `State.setLane` -/

@[simp] theorem State.setLane_ports (l : LaneId) (x : Lane) : (s.setLane l x).ports = s.ports := rfl
@[simp] theorem State.setLane_table (l : LaneId) (x : Lane) : (s.setLane l x).table = s.table := rfl
@[simp] theorem State.setLane_keys (l : LaneId) (x : Lane) : (s.setLane l x).keys = s.keys := rfl
@[simp] theorem State.setLane_jobs (l : LaneId) (x : Lane) : (s.setLane l x).jobs = s.jobs := rfl
@[simp] theorem State.setLane_arbiter (l : LaneId) (x : Lane) : (s.setLane l x).arbiter = s.arbiter := rfl
@[simp] theorem State.setLane_lanes (l : LaneId) (x : Lane) : (s.setLane l x).lanes = put s.lanes l x := rfl
@[simp] theorem State.setLane_bufferPort (l : LaneId) (x : Lane) : (s.setLane l x).bufferPort = s.bufferPort := rfl
@[simp] theorem State.setLane_sweep (l : LaneId) (x : Lane) : (s.setLane l x).sweep = s.sweep := rfl
@[simp] theorem State.setLane_stage (l : LaneId) (x : Lane) : (s.setLane l x).stage = s.stage := rfl
@[simp] theorem State.setLane_buffer (l : LaneId) (x : Lane) : (s.setLane l x).buffer = s.buffer := rfl
@[simp] theorem State.setLane_answer (l : LaneId) (x : Lane) : (s.setLane l x).answer = s.answer := rfl
@[simp] theorem State.setLane_draws (l : LaneId) (x : Lane) : (s.setLane l x).draws = s.draws := rfl
@[simp] theorem State.setLane_pending (l : LaneId) (x : Lane) : (s.setLane l x).pending = s.pending := rfl

/-! ### `State.setStage` -/

@[simp] theorem State.setStage_ports (c : StageController) : (s.setStage c).ports = s.ports := rfl
@[simp] theorem State.setStage_table (c : StageController) : (s.setStage c).table = s.table := rfl
@[simp] theorem State.setStage_keys (c : StageController) : (s.setStage c).keys = s.keys := rfl
@[simp] theorem State.setStage_jobs (c : StageController) : (s.setStage c).jobs = s.jobs := rfl
@[simp] theorem State.setStage_arbiter (c : StageController) : (s.setStage c).arbiter = s.arbiter := rfl
@[simp] theorem State.setStage_lanes (c : StageController) : (s.setStage c).lanes = s.lanes := rfl
@[simp] theorem State.setStage_bufferPort (c : StageController) : (s.setStage c).bufferPort = s.bufferPort := rfl
@[simp] theorem State.setStage_sweep (c : StageController) : (s.setStage c).sweep = s.sweep := rfl
@[simp] theorem State.setStage_stage (c : StageController) : (s.setStage c).stage = c := rfl
@[simp] theorem State.setStage_buffer (c : StageController) : (s.setStage c).buffer = s.buffer := rfl
@[simp] theorem State.setStage_answer (c : StageController) : (s.setStage c).answer = s.answer := rfl
@[simp] theorem State.setStage_draws (c : StageController) : (s.setStage c).draws = s.draws := rfl
@[simp] theorem State.setStage_pending (c : StageController) : (s.setStage c).pending = s.pending := rfl

/-! ### `State.setAnswer` -/

@[simp] theorem State.setAnswer_ports (a : Answer) : (s.setAnswer a).ports = s.ports := rfl
@[simp] theorem State.setAnswer_table (a : Answer) : (s.setAnswer a).table = s.table := rfl
@[simp] theorem State.setAnswer_keys (a : Answer) : (s.setAnswer a).keys = s.keys := rfl
@[simp] theorem State.setAnswer_jobs (a : Answer) : (s.setAnswer a).jobs = s.jobs := rfl
@[simp] theorem State.setAnswer_arbiter (a : Answer) : (s.setAnswer a).arbiter = s.arbiter := rfl
@[simp] theorem State.setAnswer_lanes (a : Answer) : (s.setAnswer a).lanes = s.lanes := rfl
@[simp] theorem State.setAnswer_bufferPort (a : Answer) : (s.setAnswer a).bufferPort = s.bufferPort := rfl
@[simp] theorem State.setAnswer_sweep (a : Answer) : (s.setAnswer a).sweep = s.sweep := rfl
@[simp] theorem State.setAnswer_stage (a : Answer) : (s.setAnswer a).stage = s.stage := rfl
@[simp] theorem State.setAnswer_buffer (a : Answer) : (s.setAnswer a).buffer = s.buffer := rfl
@[simp] theorem State.setAnswer_answer (a : Answer) : (s.setAnswer a).answer = a := rfl
@[simp] theorem State.setAnswer_draws (a : Answer) : (s.setAnswer a).draws = s.draws := rfl
@[simp] theorem State.setAnswer_pending (a : Answer) : (s.setAnswer a).pending = s.pending := rfl

/-! ### `State.setPort` -/

@[simp] theorem State.setPort_table (p : Port) (q : PortQueues) : (s.setPort p q).table = s.table := by cases p <;> rfl
@[simp] theorem State.setPort_keys (p : Port) (q : PortQueues) : (s.setPort p q).keys = s.keys := by cases p <;> rfl
@[simp] theorem State.setPort_jobs (p : Port) (q : PortQueues) : (s.setPort p q).jobs = s.jobs := by cases p <;> rfl
@[simp] theorem State.setPort_arbiter (p : Port) (q : PortQueues) : (s.setPort p q).arbiter = s.arbiter := by cases p <;> rfl
@[simp] theorem State.setPort_lanes (p : Port) (q : PortQueues) : (s.setPort p q).lanes = s.lanes := by cases p <;> rfl
@[simp] theorem State.setPort_bufferPort (p : Port) (q : PortQueues) : (s.setPort p q).bufferPort = s.bufferPort := by cases p <;> rfl
@[simp] theorem State.setPort_sweep (p : Port) (q : PortQueues) : (s.setPort p q).sweep = s.sweep := by cases p <;> rfl
@[simp] theorem State.setPort_stage (p : Port) (q : PortQueues) : (s.setPort p q).stage = s.stage := by cases p <;> rfl
@[simp] theorem State.setPort_buffer (p : Port) (q : PortQueues) : (s.setPort p q).buffer = s.buffer := by cases p <;> rfl
@[simp] theorem State.setPort_answer (p : Port) (q : PortQueues) : (s.setPort p q).answer = s.answer := by cases p <;> rfl
@[simp] theorem State.setPort_draws (p : Port) (q : PortQueues) : (s.setPort p q).draws = s.draws := by cases p <;> rfl
@[simp] theorem State.setPort_pending (p : Port) (q : PortQueues) : (s.setPort p q).pending = s.pending := by cases p <;> rfl

/-! ### `setJob` -/

@[simp] theorem setJob_ports (side : Side) (k : Nat) (j : Option Job) : (setJob s side k j).ports = s.ports := by cases side <;> rfl
@[simp] theorem setJob_table (side : Side) (k : Nat) (j : Option Job) : (setJob s side k j).table = s.table := by cases side <;> rfl
@[simp] theorem setJob_keys (side : Side) (k : Nat) (j : Option Job) : (setJob s side k j).keys = s.keys := by cases side <;> rfl
@[simp] theorem setJob_arbiter (side : Side) (k : Nat) (j : Option Job) : (setJob s side k j).arbiter = s.arbiter := by cases side <;> rfl
@[simp] theorem setJob_lanes (side : Side) (k : Nat) (j : Option Job) : (setJob s side k j).lanes = s.lanes := by cases side <;> rfl
@[simp] theorem setJob_bufferPort (side : Side) (k : Nat) (j : Option Job) : (setJob s side k j).bufferPort = s.bufferPort := by cases side <;> rfl
@[simp] theorem setJob_sweep (side : Side) (k : Nat) (j : Option Job) : (setJob s side k j).sweep = s.sweep := by cases side <;> rfl
@[simp] theorem setJob_stage (side : Side) (k : Nat) (j : Option Job) : (setJob s side k j).stage = s.stage := by cases side <;> rfl
@[simp] theorem setJob_buffer (side : Side) (k : Nat) (j : Option Job) : (setJob s side k j).buffer = s.buffer := by cases side <;> rfl
@[simp] theorem setJob_answer (side : Side) (k : Nat) (j : Option Job) : (setJob s side k j).answer = s.answer := by cases side <;> rfl
@[simp] theorem setJob_draws (side : Side) (k : Nat) (j : Option Job) : (setJob s side k j).draws = s.draws := by cases side <;> rfl
@[simp] theorem setJob_pending (side : Side) (k : Nat) (j : Option Job) : (setJob s side k j).pending = s.pending := by cases side <;> rfl

/-! ### `mapJobs` -/

@[simp] theorem mapJobs_ports (side : Side) (f : Job → Job) : (mapJobs s side f).ports = s.ports := by cases side <;> rfl
@[simp] theorem mapJobs_table (side : Side) (f : Job → Job) : (mapJobs s side f).table = s.table := by cases side <;> rfl
@[simp] theorem mapJobs_keys (side : Side) (f : Job → Job) : (mapJobs s side f).keys = s.keys := by cases side <;> rfl
@[simp] theorem mapJobs_arbiter (side : Side) (f : Job → Job) : (mapJobs s side f).arbiter = s.arbiter := by cases side <;> rfl
@[simp] theorem mapJobs_lanes (side : Side) (f : Job → Job) : (mapJobs s side f).lanes = s.lanes := by cases side <;> rfl
@[simp] theorem mapJobs_bufferPort (side : Side) (f : Job → Job) : (mapJobs s side f).bufferPort = s.bufferPort := by cases side <;> rfl
@[simp] theorem mapJobs_sweep (side : Side) (f : Job → Job) : (mapJobs s side f).sweep = s.sweep := by cases side <;> rfl
@[simp] theorem mapJobs_stage (side : Side) (f : Job → Job) : (mapJobs s side f).stage = s.stage := by cases side <;> rfl
@[simp] theorem mapJobs_buffer (side : Side) (f : Job → Job) : (mapJobs s side f).buffer = s.buffer := by cases side <;> rfl
@[simp] theorem mapJobs_answer (side : Side) (f : Job → Job) : (mapJobs s side f).answer = s.answer := by cases side <;> rfl
@[simp] theorem mapJobs_draws (side : Side) (f : Job → Job) : (mapJobs s side f).draws = s.draws := by cases side <;> rfl
@[simp] theorem mapJobs_pending (side : Side) (f : Job → Job) : (mapJobs s side f).pending = s.pending := by cases side <;> rfl

/-! ### `takeRecord` -/

@[simp] theorem takeRecord_table (p : Port) : (takeRecord s p).table = s.table := by cases p <;> rfl
@[simp] theorem takeRecord_keys (p : Port) : (takeRecord s p).keys = s.keys := by cases p <;> rfl
@[simp] theorem takeRecord_jobs (p : Port) : (takeRecord s p).jobs = s.jobs := by cases p <;> rfl
@[simp] theorem takeRecord_arbiter (p : Port) : (takeRecord s p).arbiter = s.arbiter := by cases p <;> rfl
@[simp] theorem takeRecord_lanes (p : Port) : (takeRecord s p).lanes = s.lanes := by cases p <;> rfl
@[simp] theorem takeRecord_bufferPort (p : Port) : (takeRecord s p).bufferPort = s.bufferPort := by cases p <;> rfl
@[simp] theorem takeRecord_sweep (p : Port) : (takeRecord s p).sweep = s.sweep := by cases p <;> rfl
@[simp] theorem takeRecord_stage (p : Port) : (takeRecord s p).stage = s.stage := by cases p <;> rfl
@[simp] theorem takeRecord_buffer (p : Port) : (takeRecord s p).buffer = s.buffer := by cases p <;> rfl
@[simp] theorem takeRecord_answer (p : Port) : (takeRecord s p).answer = s.answer := by cases p <;> rfl
@[simp] theorem takeRecord_draws (p : Port) : (takeRecord s p).draws = s.draws := by cases p <;> rfl
@[simp] theorem takeRecord_pending (p : Port) : (takeRecord s p).pending = s.pending := by cases p <;> rfl

/-! ### `post` -/

@[simp] theorem post_table (p : Port) (c : Completion) : (post s p c).table = s.table := by cases p <;> rfl
@[simp] theorem post_keys (p : Port) (c : Completion) : (post s p c).keys = s.keys := by cases p <;> rfl
@[simp] theorem post_jobs (p : Port) (c : Completion) : (post s p c).jobs = s.jobs := by cases p <;> rfl
@[simp] theorem post_arbiter (p : Port) (c : Completion) : (post s p c).arbiter = s.arbiter := by cases p <;> rfl
@[simp] theorem post_lanes (p : Port) (c : Completion) : (post s p c).lanes = s.lanes := by cases p <;> rfl
@[simp] theorem post_bufferPort (p : Port) (c : Completion) : (post s p c).bufferPort = s.bufferPort := by cases p <;> rfl
@[simp] theorem post_sweep (p : Port) (c : Completion) : (post s p c).sweep = s.sweep := by cases p <;> rfl
@[simp] theorem post_stage (p : Port) (c : Completion) : (post s p c).stage = s.stage := by cases p <;> rfl
@[simp] theorem post_buffer (p : Port) (c : Completion) : (post s p c).buffer = s.buffer := by cases p <;> rfl
@[simp] theorem post_answer (p : Port) (c : Completion) : (post s p c).answer = s.answer := by cases p <;> rfl
@[simp] theorem post_draws (p : Port) (c : Completion) : (post s p c).draws = s.draws := by cases p <;> rfl
@[simp] theorem post_pending (p : Port) (c : Completion) : (post s p c).pending = s.pending := by cases p <;> rfl

/-! ### `postFree` -/

@[simp] theorem postFree_table (p : Port) (c : Completion) : (postFree s p c).table = s.table := by cases p <;> rfl
@[simp] theorem postFree_keys (p : Port) (c : Completion) : (postFree s p c).keys = s.keys := by cases p <;> rfl
@[simp] theorem postFree_jobs (p : Port) (c : Completion) : (postFree s p c).jobs = s.jobs := by cases p <;> rfl
@[simp] theorem postFree_arbiter (p : Port) (c : Completion) : (postFree s p c).arbiter = s.arbiter := by cases p <;> rfl
@[simp] theorem postFree_lanes (p : Port) (c : Completion) : (postFree s p c).lanes = s.lanes := by cases p <;> rfl
@[simp] theorem postFree_bufferPort (p : Port) (c : Completion) : (postFree s p c).bufferPort = s.bufferPort := by cases p <;> rfl
@[simp] theorem postFree_sweep (p : Port) (c : Completion) : (postFree s p c).sweep = s.sweep := by cases p <;> rfl
@[simp] theorem postFree_stage (p : Port) (c : Completion) : (postFree s p c).stage = s.stage := by cases p <;> rfl
@[simp] theorem postFree_buffer (p : Port) (c : Completion) : (postFree s p c).buffer = s.buffer := by cases p <;> rfl
@[simp] theorem postFree_answer (p : Port) (c : Completion) : (postFree s p c).answer = s.answer := by cases p <;> rfl
@[simp] theorem postFree_draws (p : Port) (c : Completion) : (postFree s p c).draws = s.draws := by cases p <;> rfl
@[simp] theorem postFree_pending (p : Port) (c : Completion) : (postFree s p c).pending = s.pending := by cases p <;> rfl

/-! ### `answerRecord` -/

@[simp] theorem answerRecord_table (p : Port) (r : Record) (st : Status) (b : Body) : (answerRecord s p r st b).table = s.table := by cases p <;> rfl
@[simp] theorem answerRecord_keys (p : Port) (r : Record) (st : Status) (b : Body) : (answerRecord s p r st b).keys = s.keys := by cases p <;> rfl
@[simp] theorem answerRecord_jobs (p : Port) (r : Record) (st : Status) (b : Body) : (answerRecord s p r st b).jobs = s.jobs := by cases p <;> rfl
@[simp] theorem answerRecord_arbiter (p : Port) (r : Record) (st : Status) (b : Body) : (answerRecord s p r st b).arbiter = s.arbiter := by cases p <;> rfl
@[simp] theorem answerRecord_lanes (p : Port) (r : Record) (st : Status) (b : Body) : (answerRecord s p r st b).lanes = s.lanes := by cases p <;> rfl
@[simp] theorem answerRecord_bufferPort (p : Port) (r : Record) (st : Status) (b : Body) : (answerRecord s p r st b).bufferPort = s.bufferPort := by cases p <;> rfl
@[simp] theorem answerRecord_sweep (p : Port) (r : Record) (st : Status) (b : Body) : (answerRecord s p r st b).sweep = s.sweep := by cases p <;> rfl
@[simp] theorem answerRecord_stage (p : Port) (r : Record) (st : Status) (b : Body) : (answerRecord s p r st b).stage = s.stage := by cases p <;> rfl
@[simp] theorem answerRecord_buffer (p : Port) (r : Record) (st : Status) (b : Body) : (answerRecord s p r st b).buffer = s.buffer := by cases p <;> rfl
@[simp] theorem answerRecord_answer (p : Port) (r : Record) (st : Status) (b : Body) : (answerRecord s p r st b).answer = s.answer := by cases p <;> rfl
@[simp] theorem answerRecord_draws (p : Port) (r : Record) (st : Status) (b : Body) : (answerRecord s p r st b).draws = s.draws := by cases p <;> rfl
@[simp] theorem answerRecord_pending (p : Port) (r : Record) (st : Status) (b : Body) : (answerRecord s p r st b).pending = s.pending := by cases p <;> rfl

/-! ### The ports -/

theorem State.port_setPort (p p' : Port) (q : PortQueues) :
    (s.setPort p q).port p' = if p' = p then q else s.port p' := by cases p <;> cases p' <;> rfl

@[simp] theorem State.port_setPort_self (p : Port) (q : PortQueues) : (s.setPort p q).port p = q := by
  cases p <;> rfl

@[simp] theorem State.setPort_events (p : Port) (q : PortQueues) :
    (s.setPort p q).ports.events = s.ports.events := by cases p <;> rfl

@[simp] theorem State.setPort_reset (p : Port) (q : PortQueues) :
    (s.setPort p q).ports.reset = s.ports.reset := by cases p <;> rfl

@[simp] theorem State.port_setEvents (e : EventSet) (p : Port) : (s.setEvents e).port p = s.port p := by
  cases p <;> rfl

@[simp] theorem State.port_setRange (r : RangeId) (e : RangeRec) (p : Port) :
    (s.setRange r e).port p = s.port p := by cases p <;> rfl

@[simp] theorem State.port_setKeys (k : KeyStore) (p : Port) : (s.setKeys k).port p = s.port p := by
  cases p <;> rfl

@[simp] theorem State.port_setSweep (w : SweepUnit) (p : Port) : (s.setSweep w).port p = s.port p := by
  cases p <;> rfl

@[simp] theorem State.port_setBufferPort (b : BufferPort) (p : Port) :
    (s.setBufferPort b).port p = s.port p := by cases p <;> rfl

@[simp] theorem State.port_setLane (l : LaneId) (x : Lane) (p : Port) :
    (s.setLane l x).port p = s.port p := by cases p <;> rfl

@[simp] theorem State.port_setStage (c : StageController) (p : Port) :
    (s.setStage c).port p = s.port p := by cases p <;> rfl

@[simp] theorem State.port_setAnswer (a : Answer) (p : Port) : (s.setAnswer a).port p = s.port p := by
  cases p <;> rfl

@[simp] theorem port_setJob (side : Side) (k : Nat) (j : Option Job) (p : Port) :
    (setJob s side k j).port p = s.port p := by cases side <;> cases p <;> rfl

@[simp] theorem port_mapJobs (side : Side) (f : Job → Job) (p : Port) :
    (mapJobs s side f).port p = s.port p := by cases side <;> cases p <;> rfl

@[simp] theorem post_events (p : Port) (c : Completion) : (post s p c).ports.events = s.ports.events := by
  cases p <;> rfl

@[simp] theorem post_reset (p : Port) (c : Completion) : (post s p c).ports.reset = s.ports.reset := by
  cases p <;> rfl

@[simp] theorem takeRecord_events (p : Port) : (takeRecord s p).ports.events = s.ports.events := by
  cases p <;> rfl

@[simp] theorem takeRecord_reset (p : Port) : (takeRecord s p).ports.reset = s.ports.reset := by
  cases p <;> rfl

end Sys2Proof.Machine
end

