-- ==== Sys2Proof/Laws/Ops.lean ====
section
/-! SUPPORT. For each shared operation, once, what it can do: the provers cite these instead of unfolding. -/

namespace Sys2Proof.Machine

/-! ### Vectors -/

@[simp] theorem get_put_self {α : Type} {n : Nat} (v : Vector α n) (i : Fin n) (x : α) :
    (put v i x).get i = x := by
  show (v.set i.1 x i.2)[i.1] = x
  simp

theorem get_put_ne {α : Type} {n : Nat} (v : Vector α n) (i j : Fin n) (x : α) (h : j ≠ i) :
    (put v i x).get j = v.get j := by
  have : i.1 ≠ j.1 := fun e => h (Fin.ext e.symm)
  show (v.set i.1 x i.2)[j.1] = v[j.1]
  simp [this]

theorem get_put {α : Type} {n : Nat} (v : Vector α n) (i j : Fin n) (x : α) :
    (put v i x).get j = if j = i then x else v.get j := by
  split
  · next h => subst h; exact get_put_self v j x
  · next h => exact get_put_ne v i j x h

theorem vector_ext_get {α : Type} {n : Nat} {v w : Vector α n} (h : ∀ i, v.get i = w.get i) : v = w := by
  apply Vector.ext
  intro i hi
  exact h ⟨i, hi⟩

@[simp] theorem get_map {α β : Type} {n : Nat} (v : Vector α n) (f : α → β) (i : Fin n) :
    (v.map f).get i = f (v.get i) := by simp [Vector.get]

/-! ### Taking, answering and completing -/

theorem offered_of_taken {s : State} {p : Port} {r : Record} {k : Kind} (h : Taken s p r k) :
    offered s p = some r := by
  obtain ⟨h1, h2, h3, -⟩ := h
  simp [offered, h1, hasPlace, Config.completionPlaces, h2, h3]

theorem taken_of_offered {s : State} {p : Port} {r : Record} {k : Kind} (h : offered s p = some r)
    (hk : kindCode r = k.code) : Taken s p r k := by
  simp only [offered] at h
  split at h
  · next hp =>
    simp only [Bool.and_eq_true, hasPlace, Config.completionPlaces] at hp
    exact ⟨hp.1, of_decide_eq_true hp.2, h, hk⟩
  · cases h

/-- A record taken is handed to its block. -/
theorem onRecord_taken {s : State} {p : Port} {r : Record} {k : Kind} (f : Record → State → State)
    (h : Taken s p r k) : onRecord p k s f = .next (f r (takeRecord s p)) := by
  simp [onRecord, offered_of_taken h, h.2.2.2]

/-- All that a record's step can do. -/
theorem onRecord_cases {s t : State} {p : Port} {k : Kind} {f : Record → State → State}
    (h : onRecord p k s f = .next t) : t = s ∨ ∃ r, Taken s p r k ∧ t = f r (takeRecord s p) := by
  simp only [onRecord] at h
  split at h
  · next r hr =>
    split at h
    · next hk => cases h; exact .inr ⟨r, taken_of_offered hr hk, rfl⟩
    · cases h; exact .inl rfl
  · cases h; exact .inl rfl

/-- A completion posted into a reserved place. -/
theorem post_eq (s : State) (p : Port) (c : Completion) (h : (s.port p).reserved ≠ 0) :
    post s p c = s.setPort p { s.port p with filled := (s.port p).filled ++ [c],
                                             reserved := (s.port p).reserved - 1 } := by
  simp [post, fillReserved, h]

/-- A record taken and answered, nothing else done. -/
theorem answerRecord_takeRecord (s : State) (p : Port) (r : Record) (st : Status) (b : Body) :
    answerRecord (takeRecord s p) p r st b = completed s p (answerOf r st b) := by
  cases p <;> simp [answerRecord, post, fillReserved, takeRecord, State.port, State.setPort, completed, answerOf,
    completionOf]

/-- Answering after a change that does not touch the queues. -/
theorem answerRecord_of_ports (s s' : State) (p : Port) (r : Record) (st : Status) (b : Body)
    (h : s'.port p = (takeRecord s p).port p) :
    answerRecord s' p r st b = s'.setPort p
      { requests := (s.port p).requests.tail, filled := (s.port p).filled ++ [answerOf r st b],
        reserved := (s.port p).reserved } := by
  rw [answerRecord, post, h]
  simp [fillReserved, takeRecord, answerOf, completionOf]

@[simp] theorem firstRefusal_nil : firstRefusal [] = none := rfl

/-- The first check that applies gives the status. -/
theorem firstRefusal_cons (b : Bool) (st : Status) (l : List (Bool × Status)) :
    firstRefusal ((b, st) :: l) = if b then some st else firstRefusal l := rfl

/-- No check applies exactly when every one fails to. -/
theorem firstRefusal_eq_none (l : List (Bool × Status)) :
    firstRefusal l = none ↔ ∀ c ∈ l, c.1 = false := by
  induction l with
  | nil => simp
  | cons c l ih =>
    obtain ⟨b, st⟩ := c
    cases b <;> simp [firstRefusal_cons, ih]

theorem decideRecord_accept {p : Port} {r : Record} {checks : List (Bool × Status)} {s accept : State}
    (h : firstRefusal checks = none) : decideRecord p r checks s accept = accept := by
  simp [decideRecord, h]

/-- All that a record decided by checks can do. -/
theorem decideRecord_cases (p : Port) (r : Record) (checks : List (Bool × Status)) (s accept : State) :
    decideRecord p r checks s accept = accept ∨
      ∃ st, firstRefusal checks = some st ∧ decideRecord p r checks s accept = answerRecord s p r st .empty := by
  simp only [decideRecord]
  split
  · next st h => exact .inr ⟨st, h, rfl⟩
  · exact .inl rfl

theorem withRange_some {p : Port} {r : Record} {as : List Nat} {s : State} {f : RangeId → State} {x : RangeId}
    (hx : rangeOf r = some x) (hr : reservedZero r as = true) : withRange p r as s f = f x := by
  simp [withRange, hx, hr]

theorem withCell_some {r : Record} {as : List Nat} {s : State} {f : CellId → State} {c : CellId}
    (hc : cellOf (recordField r 4 1) = some c) (hr : reservedZero r as = true) : withCell r as s f = f c := by
  simp [withCell, hc, hr]

theorem withGroup_some {r : Record} {s : State} {f : CellId → State} {g : CellId}
    (hg : cellOf (groupByte r) = some g) : withGroup r s f = f g := by
  simp [withGroup, hg]

/-! ### Slots -/

theorem jobAt_setJob (s : State) (side side' : Side) (k k' : Nat) (j : Option Job) :
    jobAt (setJob s side k j) side' k' =
      if side' = side ∧ k' = k ∧ k < side.slots then j else jobAt s side' k' := by
  cases side <;> cases side' <;> simp [jobAt, setJob, Side.slots, Vector.getElem?_setIfInBounds]
  all_goals
    by_cases h : k = k'
    · subst h
      simp only [true_and, if_true]
      split <;> simp_all
    · simp [h, Ne.symm h]

/-- A table is empty exactly when no slot holds a job. -/
theorem tableEmpty_iff (s : State) (side : Side) : tableEmpty s side = true ↔ ∀ k, jobAt s side k = none := by
  simp only [tableEmpty, List.all_eq_true, List.mem_range, Option.isNone_iff_eq_none]
  constructor
  · intro h k
    by_cases hk : k < side.slots
    · exact h k hk
    · cases side <;> simp_all [jobAt, Side.slots]
  · intro h k _
    exact h k

/-- The free slot found is the lowest one (R64, R129). -/
theorem freeSlot_iff {s : State} {side : Side} {k : Nat} : freeSlot s side = some k ↔ LowestFree s side k := by
  have hn : side.slots = slotCount side := by cases side <;> rfl
  have free : ∀ o : Option Job, o.isNone = true ↔ o = none := fun o => Option.isNone_iff_eq_none
  rw [freeSlot, List.find?_range_eq_some]
  simp only [LowestFree, hn, List.mem_range, free, Bool.not_eq_true']
  constructor
  · rintro ⟨h1, h2, h3⟩
    exact ⟨h2, h1, fun k' hk' hj => by simpa [hj] using h3 k' hk'⟩
  · rintro ⟨h1, h2, h3⟩
    exact ⟨h2, h1, fun k' hk' => by simpa [← Option.ne_none_iff_isSome] using h3 k' hk'⟩

theorem freeSlot_none {s : State} {side : Side} : freeSlot s side = none ↔ TableFull s side := by
  have hn : side.slots = slotCount side := by cases side <;> rfl
  simp [freeSlot, TableFull, hn]

/-! ### Groups and their cells (R45 to R47) -/

theorem inGroup_iff (b : CellId) (st : Strength) (c : CellId) : inGroup b st c = true ↔ CellsOf b st c := by
  cases st <;> simp only [inGroup, CellsOf, Strength.size, Bool.and_eq_true, decide_eq_true_eq] <;>
    exact and_congr_right fun _ => decide_eq_true_iff

/-- Emptying a group empties its cells and no other (R45). -/
theorem emptyCells_get (cells : Vector KeyCell 64) (base : CellId) (st : Strength) (c : CellId) :
    (CellsOf base st c → (emptyCells cells base st).get c = { filled := false, bits := 0 }) ∧
    (¬ CellsOf base st c → (emptyCells cells base st).get c = cells.get c) := by
  have h : (emptyCells cells base st).get c =
      if inGroup base st c = true then { filled := false, bits := 0 } else cells.get c := by
    simp [emptyCells]
  rw [h]
  exact ⟨fun hc => if_pos ((inGroup_iff _ _ _).mpr hc), fun hc => if_neg (fun h' => hc ((inGroup_iff _ _ _).mp h'))⟩

/-- The first find of a rising list is the one at the lowest index that has one. -/
theorem findSome_rising {n : Nat} {α : Type} (f : Fin n → Option α) (L : List (Fin n)) (h : L.Pairwise (· < ·)) (x : α) :
    L.findSome? f = some x ↔ ∃ a ∈ L, f a = some x ∧ ∀ b ∈ L, b < a → f b = none := by
  induction L with
  | nil => simp
  | cons c L ih =>
    obtain ⟨hc, hL⟩ := List.pairwise_cons.mp h
    rcases hf : f c with _ | y
    · rw [List.findSome?_cons_of_isNone (by simp [hf]), ih hL]
      constructor
      · rintro ⟨a, ha, h1, h2⟩
        refine ⟨a, List.mem_cons_of_mem _ ha, h1, fun b hb hlt => ?_⟩
        rcases List.mem_cons.mp hb with rfl | hb
        · exact hf
        · exact h2 b hb hlt
      · rintro ⟨a, ha, h1, h2⟩
        rcases List.mem_cons.mp ha with rfl | ha
        · rw [hf] at h1
          cases h1
        · exact ⟨a, ha, h1, fun b hb => h2 b (List.mem_cons_of_mem _ hb)⟩
    · rw [List.findSome?_cons_of_isSome (by simp [hf]), hf]
      constructor
      · rintro ⟨⟩
        refine ⟨c, List.mem_cons_self, hf, fun b hb hlt => ?_⟩
        rcases List.mem_cons.mp hb with rfl | hb
        · exact absurd hlt (lt_irrefl _)
        · exact absurd hlt (lt_asymm (hc b hb))
      · rintro ⟨a, ha, h1, h2⟩
        rcases List.mem_cons.mp ha with rfl | ha
        · rw [← hf, h1]
        · have := h2 c List.mem_cons_self (hc a ha)
          rw [hf] at this
          cases this

/-- The record found for a cell is the one at the lowest base whose cells contain it (R47, R60). -/
theorem groupHolding_iff {k : KeyStore} {c b : CellId} {e : GroupRec} :
    groupHolding k c = some (b, e) ↔ (k.groups.get b = some e ∧ CellsOf b e.strength c) ∧
      ∀ b', b' < b → ∀ e', ¬ (k.groups.get b' = some e' ∧ CellsOf b' e'.strength c) := by
  let f (b : CellId) : Option (CellId × GroupRec) :=
    match k.groups.get b with
    | some g => if inGroup b g.strength c then some (b, g) else none
    | none => none
  have hf : ∀ b' x, f b' = some x ↔ ∃ e', x = (b', e') ∧ k.groups.get b' = some e' ∧ CellsOf b' e'.strength c := by
    intro b' x
    simp only [f]
    rcases hg : k.groups.get b' with _ | g
    · simp
    · simp only [← inGroup_iff, Option.ite_none_right_eq_some, Option.some.injEq]
      constructor
      · rintro ⟨h1, rfl⟩
        exact ⟨g, rfl, rfl, h1⟩
      · rintro ⟨e', rfl, rfl, h1⟩
        exact ⟨h1, rfl⟩
  have none_iff : ∀ b', f b' = none ↔ ∀ e', ¬ (k.groups.get b' = some e' ∧ CellsOf b' e'.strength c) := by
    intro b'
    rw [Option.eq_none_iff_forall_ne_some]
    constructor
    · intro h e' he
      exact h _ ((hf b' (b', e')).mpr ⟨e', rfl, he⟩)
    · intro h x hx
      obtain ⟨e', -, he⟩ := (hf b' x).mp hx
      exact h e' he
  show (List.finRange 64).findSome? f = some (b, e) ↔ _
  rw [findSome_rising f _ (List.pairwise_lt_finRange 64)]
  constructor
  · rintro ⟨a, -, ha, hn⟩
    obtain ⟨e', he, h1⟩ := (hf a _).mp ha
    cases he
    exact ⟨h1, fun b' hb' => (none_iff b').mp (hn b' (List.mem_finRange _) hb')⟩
  · rintro ⟨h1, h2⟩
    exact ⟨b, List.mem_finRange _, (hf b _).mpr ⟨e, rfl, h1⟩, fun b' _ hb' => (none_iff b').mpr (h2 b' hb')⟩

theorem groupHolding_none {k : KeyStore} {c : CellId} :
    groupHolding k c = none ↔ ∀ b e, ¬ (k.groups.get b = some e ∧ CellsOf b e.strength c) := by
  simp only [groupHolding, List.findSome?_eq_none_iff, List.mem_finRange, true_implies]
  apply forall_congr'
  intro b
  rcases hg : k.groups.get b with _ | g
  · simp
  · simp [← inGroup_iff]

/-! ### What follows a job's end (log entry 3) -/

theorem finishKeyClear_quiet {s : State} {g : CellId}
    (h : ∀ e ∈ (s.keys.groups.get g).toList, e.state = .retiring → e.pins ≠ 0) : finishKeyClear s g = s := by
  simp only [finishKeyClear]
  split
  · next e he =>
    rw [if_neg]
    rintro ⟨h1, h2⟩
    exact h e (by simp [he]) h1 h2
  · rfl

/-- With no Key Clear released none completes. -/
theorem finishKeyClears_quiet {s : State} (h : NoReleasedClear s) : finishKeyClears s = s := by
  simp only [finishKeyClears]
  induction List.finRange 64 with
  | nil => rfl
  | cons g l ih => rw [List.foldl_cons, finishKeyClear_quiet (h g)]; exact ih

theorem endDrain_quiet {s : State} (h : s.stage.stage ≠ .draining ∨ ¬ NoJobs s) : endDrain s = s := by
  simp only [endDrain]
  rw [if_neg]
  rintro ⟨h1, h2⟩
  rcases h with h | h
  · exact h h1
  · exact h (by simpa using h2)

theorem endEngineReset_quiet {s : State} (h : s.ports.reset = none ∨ ¬ NoJobs s) : endEngineReset s = s := by
  simp only [endEngineReset]
  split
  · next r hr =>
    rw [if_neg]
    rintro ⟨-, h2⟩
    rcases h with h | h
    · simp [h] at hr
    · simp only [resetClear, Bool.and_eq_true] at h2
      exact h ⟨h2.1.1.1.1.1, h2.1.1.1.1.2⟩
  · rfl

theorem endZeroize_quiet {s : State} (h : s.ports.reset = none ∨ ¬ NoJobs s) : endZeroize s = s := by
  simp only [endZeroize]
  split
  · next r hr =>
    rw [if_neg]
    rintro ⟨-, h2⟩
    rcases h with h | h
    · simp [h] at hr
    · simp only [resetClear, Bool.and_eq_true] at h2
      exact h ⟨h2.1.1.1.1.1, h2.1.1.1.1.2⟩
  · rfl

/-- Nothing follows while no Key Clear is released, no drain can end and no reset can. -/
theorem settle_quiet {s : State} (h1 : NoReleasedClear s) (h2 : s.stage.stage ≠ .draining ∨ ¬ NoJobs s)
    (h3 : s.ports.reset = none ∨ ¬ NoJobs s) : settle s = s := by
  rw [settle, finishKeyClears_quiet h1, endDrain_quiet h2, endEngineReset_quiet h3, endZeroize_quiet h3]

/-! ### When a port takes no record -/

/-- A queue's oldest record is an Engine Reset exactly when it has one of that kind. -/
theorem engineResetFirst_iff (q : PortQueues) :
    engineResetFirst q = true ↔ ∃ r, q.requests.head? = some r ∧ kindCode r = Kind.engineReset.code := by
  unfold engineResetFirst
  split <;> simp_all

/-- A port's treatment of records permits taking exactly when nothing holds it (R144, R162, R174). -/
theorem portPermits_iff (s : State) (p : Port) : portPermits s p = true ↔ ¬ PortHeld s p := by
  cases p <;> simp only [portPermits, PortHeld]
  · cases s.ports.reset <;> cases s.stage.stage <;> simp [stageTakes]
  · cases s.ports.reset <;> cases s.stage.stage <;> simp [stageTakes]
  · simp only [Bool.and_eq_true, Bool.or_eq_true, engineResetFirst_iff]
    cases s.ports.reset <;> cases s.stage.waitingRetain <;> cases s.stage.waitingLaneTest <;> simp

theorem offered_of_takesNothing {s : State} {p : Port} (h : TakesNothing s p) : offered s p = none := by
  simp only [offered]
  rcases h with h | h | h
  · rw [if_neg]
    simp [portPermits_iff, h]
  · have full : hasPlace (s.port p) = false := decide_eq_false (Nat.not_lt.mpr h)
    simp [full]
  · simp [h]

/-- A port that takes nothing leaves the state to every record's step. -/
theorem onRecord_nothing {s : State} {p : Port} (k : Kind) (f : Record → State → State) (h : TakesNothing s p) :
    onRecord p k s f = .next s := by
  simp [onRecord, offered_of_takesNothing h]

/-- A record of one kind is no step of another's. -/
theorem onRecord_other {s : State} {p : Port} {r : Record} {k : Kind} (f : Record → State → State)
    (h : (s.port p).requests.head? = some r) (hk : kindCode r ≠ k.code) : onRecord p k s f = .next s := by
  simp only [onRecord, offered]
  split
  · next r' hr =>
    split at hr
    · rw [h] at hr
      cases hr
      rw [if_neg hk]
    · cases hr
  · rfl

end Sys2Proof.Machine
end

