-- ==== Sys2Proof/Laws/Jobs.lean ====
section
/-! SUPPORT. For the checks of the records, the pins, the segments, the offers and the end of a sector, once, what
each can do. -/

namespace Sys2Proof.Machine

/-! ### Buffer memory untouched -/

theorem sameMemory_of_buffer {s t : State} (h : t.buffer = s.buffer) : SameMemory s t := fun _ => by rw [h]

@[simp] theorem completed_buffer (s : State) (p : Port) (c : Completion) : (completed s p c).buffer = s.buffer := by
  cases p <;> rfl

@[simp] theorem takenOnly_buffer (s : State) (p : Port) : (takenOnly s p).buffer = s.buffer := by cases p <;> rfl

/-! ### Checks in order -/

/-- Checks that all pass before others leave the others to decide. -/
theorem firstRefusal_append {l m : List (Bool × Status)} (h : firstRefusal l = none) :
    firstRefusal (l ++ m) = firstRefusal m := by
  induction l with
  | nil => rfl
  | cons c l ih =>
    obtain ⟨b, st⟩ := c
    cases b <;> simp [firstRefusal] at h ⊢
    exact ih h

/-- A new binding that is ready passes its three checks (R39). -/
theorem bindingChecks_pass {s : State} {r : Record} {g : CellId} {ge : GroupRec} (h : NewBinding s r g ge) :
    firstRefusal (bindingChecks s g (epochOf r)) = none := by
  obtain ⟨-, h2, h3, h4, h5, h6⟩ := h
  have : epochClashes s.table (epochOf r) = false := by
    simp [epochClashes, liveEpochs]
    exact ⟨h5, h6⟩
  simp [bindingChecks, firstRefusal, groupFilled, groupBound, h2, h3, h4, this]

/-- Good regions pass checks 3 to 5 of R68. -/
theorem regionChecks_pass {rs : List Region} (h : RegionsGood rs) :
    misalignedIn rs = false ∧ pastBuffer rs = false ∧ overlapIn rs = false := by
  obtain ⟨h1, h2⟩ := h
  refine ⟨?_, ?_, ?_⟩
  · simp [misalignedIn]
    intro a ha
    exact (h1 a ha).1
  · simp [pastBuffer, Config.bufferBytes]
    intro a ha
    exact (h1 a ha).2
  · clear h1
    induction rs with
    | nil => rfl
    | cons a rs ih =>
      rw [List.pairwise_cons] at h2
      simp [overlapIn, ih h2.2]
      intro b hb
      have := h2.1 b hb
      simp [regionsShare]
      omega

theorem listRegion_eq (r : Record) : listRegion r = listRegions r := by
  simp only [listRegion, listRegions, listAddr]
  by_cases h : listFlag r = true <;> simp [h]

/-- A good record in a stage that lets it through passes checks 2 to 8 of R68. -/
theorem earlyChecks_pass {s : State} {r : Record} {rs : List Region} (h1 : JobFieldsGood r) (h2 : RegionsGood rs)
    (h3 : PathOpen s) : firstRefusal (earlyChecks s (jobFieldBad r) rs) = none := by
  have := regionChecks_pass h2
  obtain ⟨a, b, c⟩ := h3
  obtain ⟨d, e, f, g⟩ := h1
  have : jobFieldBad r = false := by
    simp [jobFieldBad, countBad, Config.maxCount, f, g]
    omega
  simp [earlyChecks, firstRefusal, *]

/-- Checks 9 to 11 of R68. -/
theorem tableChecks_pass {s : State} {r : Record} (h : TableGood s r) :
    firstRefusal (tableChecks s r) = none := by
  obtain ⟨a, b, c⟩ := h
  have b' : ¬ (startOf r + countOf r - 1 ≥ s.table.capacity) := by omega
  simp only [tableChecks, firstRefusal, a, Config.maxSegments, decide_eq_false b',
    show ((requestSegments s r).length > 8) = False by simpa using c]
  simp

/-- All thirteen checks of a READ or WRITE (R68). -/
theorem ioChecks_pass {s : State} {k : JobKind} {r : Record} {slot : Nat} (h1 : JobFieldsGood r)
    (h2 : RegionsGood (jobRegions s.table.dataUnit k r)) (h3 : PathOpen s) (h4 : TableGood s r)
    (h5 : ∀ g ∈ requestSegments s r,
      directionLock k (s.table.entry g.range) = false ∧ g.current.isSome = true)
    (h6 : LowestFree s .i slot) : firstRefusal (ioChecks s k r) = none := by
  rw [ioChecks, List.append_assoc, firstRefusal_append (earlyChecks_pass h1 h2 h3),
    firstRefusal_append (tableChecks_pass h4)]
  have : lockedSegment s k r = none := by
    simp [lockedSegment]
    intro g hg
    exact (h5 g hg).1
  simp [firstRefusal, this, tableFull, freeSlot_iff.mpr h6]
  intro g hg hn
  have := (h5 g hg).2
  simp [hn] at this

/-! ### Refusals by the first check that applies (R32, R49, R67, R108) -/

/-- The checks a command makes and the conditions of a table are the same, in the same order. -/
def ChecksAgree (l : List (Bool × Status)) (t : List (Prop × Status)) : Prop :=
  List.Forall₂ (fun c p => (c.1 = true ↔ p.1) ∧ c.2 = p.2) l t

/-- Checks that agree with a table refuse as the table says. -/
theorem firstRefusal_of_refuses {l : List (Bool × Status)} {t : List (Prop × Status)} {st : Status}
    (h : ChecksAgree l t) (hr : Refuses t st) : firstRefusal l = some st := by
  induction h with
  | nil => cases hr
  | cons hc _ ih =>
    obtain ⟨h1, h2⟩ := hc
    simp only [Refuses] at hr
    rcases hr with ⟨hp, rfl⟩ | ⟨hp, hr⟩
    · simp [firstRefusal, h1.mpr hp, h2]
    · simp only [firstRefusal]
      rw [if_neg (fun h => hp (h1.mp h)), ih hr]

/-- Checks that refuse with a status refuse as a table says that agrees with them. -/
theorem refuses_of_firstRefusal {l : List (Bool × Status)} {t : List (Prop × Status)} {st : Status}
    (h : ChecksAgree l t) (hr : firstRefusal l = some st) : Refuses t st := by
  induction h with
  | nil => cases hr
  | @cons c p l t hc _ ih =>
    obtain ⟨h1, h2⟩ := hc
    by_cases hp : p.1
    · simp [firstRefusal, h1.mpr hp, h2] at hr
      exact .inl ⟨hp, hr.symm⟩
    · simp only [firstRefusal] at hr
      rw [if_neg (fun h => hp (h1.mp h))] at hr
      exact .inr ⟨hp, ih hr⟩

theorem ChecksAgree.append {l l' : List (Bool × Status)} {t t' : List (Prop × Status)}
    (h : ChecksAgree l t) (h' : ChecksAgree l' t') : ChecksAgree (l ++ l') (t ++ t') :=
  List.rel_append h h'

/-- A command that answers the taken record at once does nothing else. -/
theorem answeredOnly_of_exec {c : Instr} {s : State} {p : Port} {r : Record} {st : Status} {b : Body}
    (h : exec c s = .next (answerRecord (takeRecord s p) p r st b)) : AnsweredOnly c s p r st b :=
  ⟨_, h, sameMemory_of_buffer (by rw [answerRecord_takeRecord]; simp), answerRecord_takeRecord ..⟩

theorem withRange_bad {p : Port} {r : Record} {as : List Nat} {s : State} {f : RangeId → State}
    (h : rangeOf r = none ∨ reservedZero r as = false) :
    withRange p r as s f = answerRecord s p r .badField .empty := by
  simp only [withRange]
  rcases h with h | h
  · rw [h]
  · rw [h]; split <;> simp

theorem withCell_bad {r : Record} {as : List Nat} {s : State} {f : CellId → State}
    (h : cellOf (recordField r 4 1) = none ∨ reservedZero r as = false) :
    withCell r as s f = answerRecord s .s r .badField .empty := by
  simp only [withCell]
  rcases h with h | h
  · rw [h]
  · rw [h]; split <;> simp

theorem anySweeping_iff (t : RangeTable) :
    anySweeping t = true ↔ ¬ ∀ q : RangeId, (t.entry q).previous = none := by
  simp [anySweeping, isSweeping, Option.isSome_iff_ne_none]

theorem bindingChecks_agree (s : State) (r : Record) (g : CellId) :
    ChecksAgree (bindingChecks s g (epochOf r)) (bindingTable s r g) := by
  refine .cons ⟨?_, rfl⟩ (.cons ⟨?_, rfl⟩ (.cons ⟨?_, rfl⟩ .nil))
  · simp only [groupFilled]; cases s.keys.groups.get g <;> simp
  · simp only [groupBound]; cases s.keys.groups.get g <;> simp [Option.isSome_iff_ne_none]
  · simp [epochClashes, liveEpochs]

theorem jobFieldBad_iff (r : Record) : jobFieldBad r = true ↔ ¬ JobFieldsGood r := by
  simp only [jobFieldBad, countBad, Config.maxCount, JobFieldsGood]
  simp
  cases flagsOk r <;> cases reservedZero r (jobBytes r) <;> simp <;> omega

theorem overlapIn_iff (rs : List Region) : overlapIn rs = true ↔
    ¬ rs.Pairwise (fun a b => a.base + a.len ≤ b.base ∨ b.base + b.len ≤ a.base) := by
  induction rs with
  | nil => simp [overlapIn]
  | cons a rs ih =>
    rw [List.pairwise_cons]
    simp only [overlapIn, Bool.or_eq_true, ih]
    rw [not_and_or]
    apply or_congr_left
    simp [regionsShare]
    apply exists_congr
    intro b
    apply and_congr_right
    intro _
    omega

/-- Checks 2 to 8 of R68, R130 and R137. -/
theorem earlyChecks_agree {s : State} {f : Bool} {p : Prop} (hf : f = true ↔ ¬ p) (rs : List Region) :
    ChecksAgree (earlyChecks s f rs) (earlyTable s p rs) := by
  refine .cons ⟨hf, rfl⟩ (.cons ⟨?_, rfl⟩ (.cons ⟨?_, rfl⟩ (.cons ⟨overlapIn_iff rs, rfl⟩ (.cons ⟨?_, rfl⟩
    (.cons ⟨?_, rfl⟩ (.cons ⟨.rfl, rfl⟩ .nil))))))
  · simp [misalignedIn]
  · simp [pastBuffer, Config.bufferBytes]
  · simp
  · simp

/-- Checks 9 to 11 of R68. -/
theorem tableChecks_agree (s : State) (r : Record) : ChecksAgree (tableChecks s r) (lookupTable s r) := by
  refine .cons ⟨?_, rfl⟩ (.cons ⟨?_, rfl⟩ (.cons ⟨?_, rfl⟩ .nil))
  · simp
  · simp
  · simp [Config.maxSegments]

/-- All the checks of a READ or WRITE (R68). -/
theorem ioChecks_agree (s : State) (k : JobKind) (hk : k = .read ∨ k = .write) (r : Record) :
    ChecksAgree (ioChecks s k r) (ioTable s k r) := by
  refine .append (.append ?_ (tableChecks_agree s r)) (.cons ⟨?_, rfl⟩ (.cons ⟨?_, rfl⟩ (.cons ⟨?_, rfl⟩ .nil)))
  · have := earlyChecks_agree (s := s) (jobFieldBad_iff r) (jobRegions s.table.dataUnit k r)
    rw [jobRegions, listRegion_eq] at this ⊢
    rcases hk with rfl | rfl <;>
      simpa [JobKind.sourceStride, JobKind.destStride, DataUnit.cipherStride, DataUnit.plainStride, plainBytes,
        cipherBytes] using this
  · simp [lockedSegment]
  · simp
  · simp only [tableFull, Option.isNone_iff_eq_none, freeSlot_none]

/-! ### Pins (R55, R56) -/

theorem groupsOf_nodup (bs : List Binding) : (groupsOf bs).Nodup := by
  simp only [groupsOf]
  induction bs.map Binding.group with
  | nil => simp
  | cons a l ih => exact ih.insert

theorem mem_groupsOf (bs : List Binding) (g : CellId) : g ∈ groupsOf bs ↔ g ∈ bs.map Binding.group := by
  simp only [groupsOf]
  induction bs.map Binding.group with
  | nil => simp
  | cons a l ih => simp [List.mem_insert_iff, ih]

/-- Pinning a set of groups pins each once and changes nothing else. -/
theorem pin_pinnedOnce (gs : List CellId) (hn : gs.Nodup) (k : KeyStore) : PinnedOnce k (k.pin gs) gs := by
  refine ⟨hn, ?_, ?_, ?_⟩
  · simp only [KeyStore.pin]
    clear hn
    induction gs generalizing k with
    | nil => rfl
    | cons a l ih => rw [List.foldl_cons, ih]; rfl
  · simp only [KeyStore.pin]
    clear hn
    induction gs generalizing k with
    | nil => rfl
    | cons a l ih => rw [List.foldl_cons, ih]; rfl
  · simp only [KeyStore.pin]
    induction gs generalizing k with
    | nil => intro g; simp
    | cons a l ih =>
      intro g
      rw [List.foldl_cons, ih (List.nodup_cons.mp hn).2]
      have := (List.nodup_cons.mp hn).1
      simp only [KeyStore.changeGroup, get_put, List.mem_cons]
      by_cases h : g = a
      · subst h; simp [this]; rfl
      · simp [h]

/-- Releasing the pins of a set of groups releases each once and changes nothing else. -/
theorem unpin_groups (gs : List CellId) (hn : gs.Nodup) (k : KeyStore) :
    (k.unpin gs).cells = k.cells ∧ (k.unpin gs).load = k.load ∧
    ∀ g, (k.unpin gs).groups.get g =
      (k.groups.get g).map (fun e => if g ∈ gs then { e with pins := e.pins - 1 } else e) := by
  refine ⟨?_, ?_, ?_⟩
  · simp only [KeyStore.unpin]
    clear hn
    induction gs generalizing k with
    | nil => rfl
    | cons a l ih => rw [List.foldl_cons, ih]; rfl
  · simp only [KeyStore.unpin]
    clear hn
    induction gs generalizing k with
    | nil => rfl
    | cons a l ih => rw [List.foldl_cons, ih]; rfl
  · simp only [KeyStore.unpin]
    induction gs generalizing k with
    | nil => intro g; simp
    | cons a l ih =>
      intro g
      rw [List.foldl_cons, ih (List.nodup_cons.mp hn).2]
      have := (List.nodup_cons.mp hn).1
      simp only [KeyStore.changeGroup, get_put, List.mem_cons]
      by_cases h : g = a
      · subst h; simp [this]; rfl
      · simp [h]

/-! ### Segments (R28) -/

/-- The segments stand in ascending order of first LBA, none below the first LBA asked for. -/
theorem segmentsOf_sorted (t : RangeTable) : ∀ n x, (∀ g ∈ segmentsOf t n x, x ≤ g.first) ∧
    (segmentsOf t n x).Pairwise (fun a b => a.first ≤ b.first) := by
  intro n
  induction n with
  | zero => intro x; simp [segmentsOf]
  | succ n ih =>
    intro x
    have := ih (x + 1)
    simp only [segmentsOf]
    split
    · next seg rest heq =>
      rw [heq] at this
      simp only [List.pairwise_cons, List.mem_cons, forall_eq_or_imp] at this
      obtain ⟨⟨h1, h2⟩, h3, h4⟩ := this
      split
      · simp only [List.mem_cons, List.pairwise_cons, forall_eq_or_imp]
        exact ⟨⟨Nat.le_refl _, fun g hg => by have := h2 g hg; omega⟩,
          fun g hg => by have := h2 g hg; omega, h4⟩
      · simp only [List.mem_cons, List.pairwise_cons, forall_eq_or_imp]
        exact ⟨⟨Nat.le_refl _, by omega, fun g hg => by have := h2 g hg; omega⟩,
          ⟨by omega, fun g hg => by have := h2 g hg; omega⟩, h3, h4⟩
    · simp

/-! ### The end of a sector (R15, R77) -/

/-- A slot that holds a job lies in its table. -/
theorem slot_lt_of_jobAt {s : State} {side : Side} {k : Nat} {j : Job} (h : jobAt s side k = some j) :
    k < side.slots := by
  by_contra hge
  cases side <;> simp [jobAt, Side.slots] at h hge <;> rw [Vector.getElem?_eq_none (by omega)] at h <;>
    simp at h

/-- A sector's end that is not its job's last is reported and ends no job. -/
theorem reportSector_open {s : State} {l : LaneId} {w : Work} {j : Job} {v : Verdict}
    (h1 : (s.lanes.get l).work = some w) (hj : jobAt s w.side w.slot = some j) (ho : OthersOpen j w.lba) :
    reportSector s l v = sectorReported s l w j v := by
  have hlt := slot_lt_of_jobAt hj
  have hj' : jobAt (freeLane s l) w.side w.slot = some j := by rw [← hj]; cases w.side <;> rfl
  have e : endSector (freeLane s l) w.side w.slot w.lba v = sectorReported s l w j v := by
    simp only [endSector, hj']
    rfl
  have hjr : jobAt (sectorReported s l w j v) w.side w.slot = some (j.endSector w.lba v) := by
    simp [sectorReported, jobAt_setJob, hlt]
  simp only [reportSector, h1, e, closeJob, hjr]
  rw [if_neg]
  rintro ⟨-, ha⟩
  obtain ⟨-, i, hi, hne, hx⟩ := ho
  simp only [Job.allEnded, Job.endSector, List.all_eq_true] at ha
  have hm : j.sectors[i] ∈ j.sectors.set (w.lba - j.start) (.ended v) := by
    rw [List.mem_iff_getElem]
    exact ⟨i, by simpa using hi, by simp [Ne.symm hne]⟩
  have := ha _ hm
  simp [hi, this] at hx

/-- With no Key Clear released nothing follows such a report. -/
theorem settle_reportSector {s : State} {l : LaneId} {w : Work} {j : Job} {v : Verdict}
    (h1 : (s.lanes.get l).work = some w) (hj : jobAt s w.side w.slot = some j) (ho : OthersOpen j w.lba)
    (hn : NoReleasedClear s) : settle (reportSector s l v) = sectorReported s l w j v := by
  have hlt := slot_lt_of_jobAt hj
  have hjr : jobAt (sectorReported s l w j v) w.side w.slot = some (j.endSector w.lba v) := by
    simp [sectorReported, jobAt_setJob, hlt]
  rw [reportSector_open h1 hj ho]
  have hnj : ¬ NoJobs (sectorReported s l w j v) := by
    rintro ⟨h1, h2⟩
    rw [tableEmpty_iff] at h1 h2
    cases hs : w.side
    · rw [hs, h1] at hjr; cases hjr
    · rw [hs, h2] at hjr; cases hjr
  apply settle_quiet
  · intro g e he
    apply hn g e
    have : (sectorReported s l w j v).keys = s.keys := by simp only [sectorReported]; cases w.side <;> rfl
    rwa [this] at he
  · exact .inr hnj
  · exact .inr hnj

/-- Reporting a sector commutes with a change of buffer memory and of the Buffer Port. -/
theorem sectorReported_buffer (s : State) (l : LaneId) (w : Work) (j : Job) (v : Verdict) (b : Memory)
    (p : BufferPort) : sectorReported { s with buffer := b, bufferPort := p } l w j v =
      { sectorReported s l w j v with buffer := b, bufferPort := p } := by
  simp only [sectorReported]
  cases w.side <;> rfl

/-! ### The end of a table's offers (R76) -/

theorem offering_slot {s : State} {side : Side} {k : Nat} {y : Nat × Job}
    (h : offering s side k = some y) : y.1 = k := by
  simp only [offering] at h
  split at h
  · split at h
    · cases h; rfl
    · cases h
  · cases h

/-- The offer found is one, and no slot's offer was accepted before it. -/
theorem offerOf_lowest {s : State} {side : Side} {x : Nat × Job} (h : offerOf s side = some x) :
    offering s side x.1 = some x ∧
    ∀ k y, k < side.slots → offering s side k = some y → x.2.acceptance ≤ y.2.acceptance := by
  have key : ∀ (L : List Nat) (b : Option (Nat × Job)), (∀ x, b = some x → offering s side x.1 = some x) →
      ∀ x, L.foldl (fun best k => earlierJob best (offering s side k)) b = some x →
      offering s side x.1 = some x ∧ (∀ y, b = some y → x.2.acceptance ≤ y.2.acceptance) ∧
      ∀ k ∈ L, ∀ y, offering s side k = some y → x.2.acceptance ≤ y.2.acceptance := by
    intro L
    induction L with
    | nil =>
      intro b hb x hx
      simp at hx
      subst hx
      exact ⟨hb x rfl, by simp, by simp⟩
    | cons a L ih =>
      intro b hb x hx
      rw [List.foldl_cons] at hx
      have hb' : ∀ x, earlierJob b (offering s side a) = some x → offering s side x.1 = some x := by
        intro x hx
        rcases hbb : b with _ | y <;> rcases ho : offering s side a with _ | z <;>
          simp [hbb, ho, earlierJob] at hx
        · subst hx; rw [offering_slot ho, ho]
        · subst hx; exact hb _ hbb
        · split at hx
          · cases hx; rw [offering_slot ho, ho]
          · cases hx; exact hb _ hbb
      obtain ⟨g1, g2, g3⟩ := ih _ hb' x hx
      refine ⟨g1, ?_, ?_⟩
      · rintro y rfl
        rcases ho : offering s side a with _ | z
        · exact g2 y (by simp [earlierJob, ho])
        · by_cases hlt : z.2.acceptance < y.2.acceptance
          · have := g2 z (by simp [earlierJob, ho, hlt])
            omega
          · exact g2 y (by simp [earlierJob, ho, hlt])
      · intro k hk y hy
        rcases List.mem_cons.mp hk with rfl | hk
        · rcases hbb : b with _ | z
          · exact g2 y (by simp [earlierJob, hy, hbb])
          · by_cases hlt : y.2.acceptance < z.2.acceptance
            · exact g2 y (by simp [earlierJob, hy, hbb, hlt])
            · have := g2 z (by simp [earlierJob, hy, hbb, hlt])
              omega
        · exact g3 k hk y hy
  obtain ⟨g1, -, g3⟩ := key _ none (by simp) _ h
  exact ⟨g1, fun k y hk hy => g3 k (by simpa using hk) y hy⟩

/-- A table offers a sector exactly when a job without an end cause has one to offer (R76). -/
theorem offerOf_isSome (s : State) (side : Side) : (offerOf s side).isSome = true ↔
    ∃ k j, jobAt s side k = some j ∧ j.cause = none ∧ j.next.isSome = true := by
  have off : ∀ k, (offering s side k).isSome = true ↔
      ∃ j, jobAt s side k = some j ∧ j.cause = none ∧ j.next.isSome = true := by
    intro k
    simp only [offering]
    cases jobAt s side k with
    | none => simp
    | some j => by_cases h : j.cause = none ∧ j.next.isSome = true <;> simp [h]
  have earlier : ∀ a b, (earlierJob a b).isSome = (a.isSome || b.isSome) := by
    intro a b
    cases a <;> cases b <;> simp only [earlierJob]
    · rfl
    · rfl
    · rfl
    · split <;> rfl
  have fold : ∀ (L : List Nat) (b : Option (Nat × Job)),
      (L.foldl (fun best k => earlierJob best (offering s side k)) b).isSome = true ↔
        b.isSome = true ∨ ∃ k ∈ L, (offering s side k).isSome = true := by
    intro L
    induction L with
    | nil => simp
    | cons a L ih =>
      intro b
      rw [List.foldl_cons, ih, earlier]
      simp [or_assoc]
  rw [offerOf, fold]
  constructor
  · rintro (h | ⟨k, -, h⟩)
    · cases h
    · obtain ⟨j, hj⟩ := (off k).mp h
      exact ⟨k, j, hj⟩
  · rintro ⟨k, j, hj⟩
    exact .inr ⟨k, List.mem_range.mpr (slot_lt_of_jobAt hj.1), (off k).mpr ⟨j, hj⟩⟩

end Sys2Proof.Machine
end

