-- ==== Sys2Proof/Laws/Ends.lean ====
section
/-! SUPPORT. For the posting of a completion, the mark advance, the end of a job and what follows in the same step,
once, what each can do. -/

namespace Sys2Proof.Machine

/-! ### Slots and claims -/

/-- The next acceptance number of a table (R64, R86). -/
theorem nextAcceptance_above (s : State) (side : Side) : AcceptanceAbove s side := by
  let next (n k : Nat) : Nat := match jobAt s side k with | some j => max n (j.acceptance + 1) | none => n
  have key : ∀ (L : List Nat) (n : Nat), n ≤ L.foldl next n ∧
      ∀ k ∈ L, ∀ j, jobAt s side k = some j → j.acceptance < L.foldl next n := by
    intro L
    induction L with
    | nil => intro n; simp
    | cons a L ih =>
      intro n
      obtain ⟨h1, h2⟩ := ih (next n a)
      refine ⟨le_trans ?_ h1, fun k hk j hj => ?_⟩
      · simp only [next]
        split <;> omega
      · rcases List.mem_cons.mp hk with rfl | hk
        · refine lt_of_lt_of_le ?_ h1
          simp [next, hj]
        · exact h2 k hk j hj
  refine ⟨fun k j hj => (key _ 0).2 k (by simpa using slot_lt_of_jobAt hj) j hj, fun h => ?_⟩
  rw [tableEmpty_iff] at h
  simp only [nextAcceptance]
  simp [h]

/-- The next claim start in the terms of R126. -/
theorem nextClaimStart_eq {s : State} {x : RangeId} (h : ∀ c ∈ s.sweep.claims.get x, 1 ≤ c.count) :
    nextClaimStart s x = startAfter s x (s.sweep.claims.get x) := by
  simp only [nextClaimStart, startAfter]
  rcases s.sweep.marks.get x with _ | m
  · rfl
  · rcases hg : (s.sweep.claims.get x).getLast? with _ | y
    · rfl
    · have := h y (List.mem_of_getLast? hg)
      simp only [Claim.last]
      congr 1
      omega

/-! ### Pins -/

/-- Releasing a job's pins takes one from a group for each time the job lists it. -/
theorem unpin_pinsReleased (gs : List CellId) (k : KeyStore) : PinsReleased k (k.unpin gs) gs := by
  induction gs generalizing k with
  | nil =>
    refine ⟨rfl, rfl, fun g => ?_⟩
    simp [KeyStore.unpin]
  | cons a gs ih =>
    obtain ⟨h1, h2, h3⟩ := ih (k.changeGroup a (fun e => { e with pins := e.pins - 1 }))
    refine ⟨h1, h2, fun g => (h3 g).trans ?_⟩
    simp only [KeyStore.changeGroup, get_put, List.count_cons]
    by_cases h : g = a
    · subst h
      simp only [if_true, Option.map_map, beq_self_eq_true]
      congr 1
      funext e
      simp [Nat.sub_sub, Nat.add_comm]
    · rw [if_neg h]
      simp [Ne.symm h]

/-! ### Posting -/

theorem setJob_setJob (s : State) (side : Side) (k : Nat) (a b : Option Job) :
    setJob (setJob s side k a) side k b = setJob s side k b := by
  cases side <;> simp [setJob]

/-- With its place reserved a job's completion is posted (R78). -/
theorem postJob_posted (s : State) (side : Side) (k : Nat) (j : Job)
    (h : (s.port (sidePort side)).reserved ≠ 0) : JobPosted s side k j (postJob s side k j) := by
  have hu := unpin_pinsReleased j.pinned s.keys
  cases side <;> simp only [sidePort, State.port] at h <;> cases hk : j.kind <;>
    simp [JobPosted, postJob, hk, post, fillReserved, sidePort, State.port, h, State.setPort, State.setKeys, setJob,
      State.setSweep, SweepUnit.filterClaims, hu]

/-- A job whose end cause is no bus fault goes on to its list or its completion (R65, R78). -/
theorem listOrPost_listedOrPosted (s : State) (side : Side) (k : Nat) (j : Job)
    (h : (s.port (sidePort side)).reserved ≠ 0) (hf : s.bufferPort.faulted = false)
    (hc : j.cause ≠ some .busFault) : ListedOrPosted s side k j (listOrPost s side k j) := by
  refine ⟨fun addr ha => ?_, fun hn => ?_⟩
  · simp only [listOrPost, ha]
    rw [if_neg hc, askAccess]
    cases side <;> simp [setJob, hf, State.setBufferPort]
  · simp only [listOrPost, hn]
    exact postJob_posted s side k j h

/-! ### The mark advance -/

/-- The claims an advance passes are DONE, and it stops at the first that is not, or where no LBA is left (R134). -/
theorem advanceOver_passed (low : Nat → Option Nat) (cs : List Claim) (mark : Nat) :
    ∃ passed, cs = passed ++ (advanceOver low cs mark).1 ∧ (∀ c ∈ passed, c.state = .done) ∧
      (∀ c ∈ passed.dropLast, low (c.last + 1) ≠ none) ∧
      (advanceOver low cs mark).2.1 = (match passed.getLast? with | some c => c.last + 1 | none => mark) ∧
      ((advanceOver low cs mark).2.2 = false →
        (∀ c, (advanceOver low cs mark).1.head? = some c → c.state ≠ .done) ∧
        ∀ c, passed.getLast? = some c → low (c.last + 1) ≠ none) ∧
      ((advanceOver low cs mark).2.2 = true →
        ∃ c, passed.getLast? = some c ∧ low (c.last + 1) = none) := by
  induction cs generalizing mark with
  | nil => exact ⟨[], by simp [advanceOver]⟩
  | cons c cs ih =>
    by_cases hd : c.state = .done
    · rcases hl : low (c.last + 1) with _ | y
      · exact ⟨[c], by simp [advanceOver, hd, hl]⟩
      · obtain ⟨passed, h1, h2, h3, h4, h5, h6⟩ := ih (c.last + 1)
        have e : advanceOver low (c :: cs) mark = advanceOver low cs (c.last + 1) := by
          simp [advanceOver, hd, hl]
        rw [e]
        rcases passed with _ | ⟨d, passed⟩
        · refine ⟨[c], by simpa using h1, by simpa using hd, by simp, by simpa using h4, ?_, ?_⟩
          · intro h
            refine ⟨(h5 h).1, ?_⟩
            intro c' hc'
            simp at hc'
            subst hc'
            simp [hl]
          · intro h
            obtain ⟨c', hc', -⟩ := h6 h
            simp at hc'
        · refine ⟨c :: d :: passed, by simpa using h1, ?_, ?_, ?_, ?_, ?_⟩
          · intro c' hc'
            rcases List.mem_cons.mp hc' with rfl | hc'
            · exact hd
            · exact h2 c' hc'
          · intro c' hc'
            rw [List.dropLast_cons_of_ne_nil (by simp)] at hc'
            rcases List.mem_cons.mp hc' with rfl | hc'
            · simp [hl]
            · exact h3 c' hc'
          · rw [h4, List.getLast?_cons_cons]
            rcases hg : (d :: passed).getLast? with _ | y
            · simp at hg
            · rfl
          · intro h
            simpa using h5 h
          · intro h
            simpa using h6 h
    · exact ⟨[], by simp [advanceOver, hd]⟩

theorem advanceMark_advanced (s : State) (x : RangeId) : MarkAdvanced s x (advanceMark s x) := by
  intro mark hm
  obtain ⟨passed, h1, h2, h3, h4, h5, h6⟩ := advanceOver_passed (lowestAt s.table x) (s.sweep.claims.get x) mark
  refine ⟨passed, _, h1, h2, h3, ?_⟩
  simp only [advanceMark, hm]
  rcases hb : (advanceOver (lowestAt s.table x) (s.sweep.claims.get x) mark).2.2 with _ | _
  · left
    obtain ⟨a, b⟩ := h5 hb
    refine ⟨a, b, ?_⟩
    rw [h4]
    rfl
  · right
    obtain ⟨c, a, b⟩ := h6 hb
    refine ⟨c, a, b, ?_⟩
    have hp : ((s.table.entry x).previous.toList.foldl (fun gs b => boundTo gs b.group none) s.keys.groups) =
        (s.keys.unbind (s.table.entry x).previous).groups := by
      rcases (s.table.entry x).previous with _ | p <;> rfl
    have hp' : ({ s.keys with groups := (s.keys.unbind (s.table.entry x).previous).groups } : KeyStore) =
        s.keys.unbind (s.table.entry x).previous := by
      rcases (s.table.entry x).previous with _ | p <;> rfl
    simp only [if_true, unboundAll, hp, hp']
    simp only [endSweep, State.setSweep, State.setKeys, State.setRange, raiseSweepDone, State.setEvents,
      SweepUnit.setMark, SweepUnit.setClaims]
    have : ∀ (v : Vector (Option Nat) 16) a b, put (put v x a) x b = put v x b := by
      intro v a b
      apply vector_ext_get
      intro i
      simp only [get_put]
      split <;> rfl
    rw [this]

/-! ### The end of a job -/

theorem claimOfJob_of_holds {s : State} {k : Nat} {c : Claim} (h : HoldsClaim s k c) : claimOfJob s k = some c := by
  obtain ⟨h1, h2, h3, h4⟩ := h
  have mem : ∀ d, d ∈ s.sweep.allClaims ↔ (∃ x, d ∈ s.sweep.claims.get x) ∨ d ∈ s.sweep.cancelled := by
    intro d
    simp only [SweepUnit.allClaims, List.mem_append, List.mem_flatten]
    apply or_congr_left
    constructor
    · rintro ⟨l, hl, hd⟩
      obtain ⟨i, hi, rfl⟩ := List.mem_iff_getElem.mp hl
      exact ⟨⟨i, by simpa using hi⟩, by simpa [Vector.get] using hd⟩
    · rintro ⟨x, hd⟩
      exact ⟨_, List.mem_iff_getElem.mpr ⟨x.1, by simp, rfl⟩, by simpa [Vector.get] using hd⟩
  simp only [claimOfJob]
  rcases hf : s.sweep.allClaims.find? (fun c => c.job == some k) with _ | d
  · rw [List.find?_eq_none] at hf
    exact absurd (hf c ((mem c).mpr h1)) (by simp [h2])
  · have hd := List.find?_some hf
    have hm := (mem d).mp (List.mem_of_find?_eq_some hf)
    simp at hd
    rcases hm with ⟨x, hm⟩ | hm
    · exact hf.trans (congrArg some (h3 x d hm hd))
    · exact hf.trans (congrArg some (h4 d hm hd))

theorem settleClaim_settled {s : State} {k : Nat} {c : Claim} (h : HoldsClaim s k c) (cause : Option EndCause) :
    ClaimSettled s k c cause (settleClaim s k cause) := by
  have hc := claimOfJob_of_holds h
  refine ⟨?_, ?_⟩
  · rintro rfl
    simp only [settleClaim, hc]
    exact advanceMark_advanced _ _
  · rintro (rfl | rfl | rfl) <;> simp only [settleClaim, hc] <;> rfl

/-- Settling a claim leaves the ports' queues, the Buffer Port and the job tables. -/
theorem settleClaim_frame (s : State) (k : Nat) (cause : Option EndCause) :
    (∀ p, (settleClaim s k cause).port p = s.port p) ∧ (settleClaim s k cause).bufferPort = s.bufferPort ∧
    (settleClaim s k cause).jobs = s.jobs := by
  have adv : ∀ (u : State) x, (∀ p, (advanceMark u x).port p = u.port p) ∧
      (advanceMark u x).bufferPort = u.bufferPort ∧ (advanceMark u x).jobs = u.jobs := by
    intro u x
    simp only [advanceMark]
    split
    · exact ⟨fun _ => rfl, rfl, rfl⟩
    · split
      · exact ⟨fun p => by cases p <;> rfl, rfl, rfl⟩
      · exact ⟨fun p => by cases p <;> rfl, rfl, rfl⟩
  have chg : ∀ f, (∀ p, (changeClaimOfJob s k f).port p = s.port p) ∧
      (changeClaimOfJob s k f).bufferPort = s.bufferPort ∧ (changeClaimOfJob s k f).jobs = s.jobs :=
    fun f => ⟨fun p => by cases p <;> rfl, rfl, rfl⟩
  simp only [settleClaim]
  split
  · exact ⟨fun _ => rfl, rfl, rfl⟩
  · split
    · obtain ⟨a, b, c⟩ := adv (changeClaimOfJob s k (fun c => { c with state := .done, frozen := true, job := none }))
        (by assumption : Claim).range
      exact ⟨fun p => (a p).trans ((chg _).1 p), b, c⟩
    · split
      · exact ⟨fun _ => rfl, rfl, rfl⟩
      · exact chg _
    · exact chg _
    · exact chg _
    · exact chg _

/-- The end of a job whose sectors have all ended, but for a bus fault's (R78, R132, R139). -/
theorem endJob_ended (s : State) (side : Side) (k : Nat) (j : Job) (h : (s.port (sidePort side)).reserved ≠ 0)
    (hf : s.bufferPort.faulted = false) (hc : j.cause ≠ some .busFault) :
    JobEnded s side k j (endJob s side k j) := by
  refine ⟨fun hk => ?_, fun hk c hold hmark => ?_⟩
  · have e : endJob s side k j = listOrPost s side k j := by
      rcases hj : j.kind <;> simp_all [endJob]
    rw [e]
    exact listOrPost_listedOrPosted s side k j h hf hc
  · let j' : Job := { j with finals := j.finalVerdicts c.overtaken }
    have hold' : HoldsClaim (setJob s side k (some j')) k c := by
      cases side <;> exact hold
    have e : endJob s side k j =
        listOrPost (settleClaim (setJob s side k (some j')) k j.cause) side k j' := by
      simp only [endJob, hk, claimOfJob_of_holds hold, j']
    obtain ⟨a, b, -⟩ := settleClaim_frame (setJob s side k (some j')) k j.cause
    rw [e]
    refine ⟨_, settleClaim_settled hold' j.cause, listOrPost_listedOrPosted _ _ _ _ ?_ ?_ hc⟩
    · rw [a]
      cases side <;> exact h
    · rw [b]
      cases side <;> exact hf

/-- The end of its job's last sector ends the job. -/
theorem reportSector_last {s : State} {l : LaneId} {w : Work} {j : Job} {v : Verdict}
    (h1 : (s.lanes.get l).work = some w) (hj : jobAt s w.side w.slot = some j) (ho : LastOpen j w.lba)
    (hr : (s.port (sidePort w.side)).reserved ≠ 0) (hf : s.bufferPort.faulted = false) :
    JobEnded (sectorReported s l w j v) w.side w.slot (j.endSector w.lba v) (reportSector s l v) := by
  have hlt := slot_lt_of_jobAt hj
  have hj' : jobAt (freeLane s l) w.side w.slot = some j := by rw [← hj]; cases w.side <;> rfl
  have e : endSector (freeLane s l) w.side w.slot w.lba v = sectorReported s l w j v := by
    simp only [endSector, hj']
    rfl
  have hjr : jobAt (sectorReported s l w j v) w.side w.slot = some (j.endSector w.lba v) := by
    simp [sectorReported, jobAt_setJob, hlt]
  obtain ⟨ho1, ho2, ho3⟩ := ho
  have hall : (j.endSector w.lba v).allEnded = true := by
    simp only [Job.allEnded, Job.endSector, List.all_eq_true]
    intro x hx
    obtain ⟨i, hi, rfl⟩ := List.mem_iff_getElem.mp hx
    rw [List.getElem_set]
    split
    · rfl
    · next hne =>
      have hi' : i < j.sectors.length := by simpa using hi
      have := ho3 i hi' (Ne.symm hne)
      simpa [hi'] using this
  have hrep : reportSector s l v =
      endJob (sectorReported s l w j v) w.side w.slot (j.endSector w.lba v) := by
    simp only [reportSector, h1, e, closeJob, hjr]
    rw [if_pos ⟨ho1, hall⟩]
  have hports : (sectorReported s l w j v).ports = s.ports := by
    simp only [sectorReported]
    cases w.side <;> rfl
  have hbus : (sectorReported s l w j v).bufferPort = s.bufferPort := by
    simp only [sectorReported]
    cases w.side <;> rfl
  rw [hrep]
  apply endJob_ended
  · simp only [State.port, hports]
    exact hr
  · rw [hbus]
    exact hf
  · exact ho2

/-! ### What follows in the same step (log entry 3) -/

theorem post_held (s : State) (c : Completion) : post s .s c = heldPosted s [c] := by
  by_cases h : s.ports.s.reserved = 0
  · have hq : s.ports.s = { s.ports.s with filled := s.ports.s.filled ++ [c].take 0, reserved := 0 } := by
      rcases hs : s.ports.s with ⟨a, b, r⟩
      simp_all
    simp only [post, heldPosted, fillReserved, State.port, h, if_true]
    exact congrArg (s.setPort .s) hq
  · simp [post, heldPosted, fillReserved, State.port, h, List.take_of_length_le, Nat.one_le_iff_ne_zero.mpr h]

@[simp] theorem heldPosted_nil (s : State) : heldPosted s [] = s := by simp [heldPosted, State.setPort]

theorem heldPosted_append (s : State) (as bs : List Completion) :
    heldPosted (heldPosted s as) bs = heldPosted s (as ++ bs) := by
  simp [heldPosted, State.setPort, List.take_append, Nat.sub_sub]

@[simp] theorem heldPosted_buffer (s : State) (cs : List Completion) : (heldPosted s cs).buffer = s.buffer := rfl
@[simp] theorem heldPosted_keys (s : State) (cs : List Completion) : (heldPosted s cs).keys = s.keys := rfl

/-- The Key Store with one waiting Key Clear done, where its group is released. -/
def KeyStore.clearOne (k : KeyStore) (g : CellId) : KeyStore :=
  match k.groups.get g with
  | some e => if released e = true then k.removeGroup g e.strength else k
  | none => k

/-- The completion of one waiting Key Clear, where its group is released. -/
def clearPost (k : KeyStore) (g : CellId) : Option Completion :=
  (k.groups.get g).bind (fun e =>
    if released e = true then
      e.waitingClear.map (fun tag => { kind := 0x42, status := .ok, tag := tag, body := .empty })
    else none)

theorem released_iff (e : GroupRec) : released e = true ↔ e.state = .retiring ∧ e.pins = 0 := by
  simp [released]

theorem finishKeyClear_eq (s : State) (g : CellId) :
    finishKeyClear s g = heldPosted (s.setKeys (s.keys.clearOne g)) (clearPost s.keys g).toList := by
  simp only [finishKeyClear, KeyStore.clearOne, clearPost]
  split
  · next e he =>
    simp only [he, Option.bind_some]
    by_cases hr : e.state = .retiring ∧ e.pins = 0
    · rw [if_pos hr, if_pos ((released_iff e).mpr hr), if_pos ((released_iff e).mpr hr)]
      cases e.waitingClear with
      | none => simp
      | some tag => exact post_held _ _
    · rw [if_neg hr, if_neg (by rwa [released_iff]), if_neg (by rwa [released_iff])]
      simp [State.setKeys]
  · next he => simp [he, State.setKeys]

theorem clearOne_groups (k : KeyStore) (a g : CellId) :
    (k.clearOne a).groups.get g =
      if g = a then (k.groups.get g).filter (fun e => !released e) else k.groups.get g := by
  simp only [KeyStore.clearOne]
  split
  · next e he =>
    split
    · next hr =>
      simp only [KeyStore.removeGroup, get_put]
      split
      · next h => subst h; simp [he, hr, Option.filter]
      · rfl
    · next hr =>
      split
      · next h => subst h; simp [he, hr, Option.filter]
      · rfl
  · next he =>
    split
    · next h => subst h; simp [he]
    · rfl

theorem clearOne_cells (k : KeyStore) (a c : CellId) :
    let emptied := ∃ e, k.groups.get a = some e ∧ released e = true ∧ a.1 ≤ c.1 ∧ c.1 < a.1 + e.strength.size
    (emptied → (k.clearOne a).cells.get c = { filled := false, bits := 0 }) ∧
    (¬ emptied → (k.clearOne a).cells.get c = k.cells.get c) := by
  simp only [KeyStore.clearOne]
  rcases he : k.groups.get a with _ | e
  · simp
  · by_cases hr : released e = true
    · have hin : inGroup a e.strength c = true ↔ a.1 ≤ c.1 ∧ c.1 < a.1 + e.strength.size := by simp [inGroup]
      have hcell : (k.removeGroup a e.strength).cells.get c =
          if inGroup a e.strength c = true then { filled := false, bits := 0 } else k.cells.get c := by
        simp [KeyStore.removeGroup, emptyCells]
      simp only [hr, if_true, hcell, hin]
      constructor
      · rintro ⟨e', h1, -, h3⟩
        cases h1
        rw [if_pos h3]
      · intro h
        rw [if_neg (fun h' => h ⟨e, rfl, hr, h'⟩)]
    · simp [hr]

@[simp] theorem clearOne_load (k : KeyStore) (a : CellId) : (k.clearOne a).load = k.load := by
  have h : ∀ st, (k.removeGroup a st).load = k.load := fun _ => by simp only [KeyStore.removeGroup]
  simp only [KeyStore.clearOne]
  split
  · split
    · exact h _
    · rfl
  · rfl

/-- The waiting Key Clears of a list of cells done one after the other. -/
theorem foldl_clearOne (L : List CellId) (hL : L.Nodup) (k : KeyStore) :
    (L.foldl KeyStore.clearOne k).load = k.load ∧
    (∀ g, (L.foldl KeyStore.clearOne k).groups.get g =
      if g ∈ L then (k.groups.get g).filter (fun e => !released e) else k.groups.get g) ∧
    ∀ c : CellId,
      let emptied := ∃ g ∈ L, ∃ e, k.groups.get g = some e ∧ released e = true ∧ g.1 ≤ c.1 ∧ c.1 < g.1 + e.strength.size
      (emptied → (L.foldl KeyStore.clearOne k).cells.get c = { filled := false, bits := 0 }) ∧
      (¬ emptied → (L.foldl KeyStore.clearOne k).cells.get c = k.cells.get c) := by
  induction L generalizing k with
  | nil => simp
  | cons a L ih =>
    obtain ⟨ha, hL⟩ := List.nodup_cons.mp hL
    obtain ⟨h1, h2, h3⟩ := ih hL (k.clearOne a)
    have hg : ∀ g ∈ L, (k.clearOne a).groups.get g = k.groups.get g := by
      intro g hg
      rw [clearOne_groups, if_neg (by rintro rfl; exact ha hg)]
    refine ⟨h1.trans (clearOne_load k a), fun g => ?_, fun c => ?_⟩
    · rw [List.foldl_cons, h2, clearOne_groups]
      by_cases e : g = a
      · subst e; simp [ha]
      · simp [e]
    · rw [List.foldl_cons]
      obtain ⟨c1, c2⟩ := h3 c
      obtain ⟨d1, d2⟩ := clearOne_cells k a c
      by_cases hx : ∃ g ∈ L, ∃ e, k.groups.get g = some e ∧ released e = true ∧ g.1 ≤ c.1 ∧ c.1 < g.1 + e.strength.size
      · obtain ⟨g, hg', rest⟩ := hx
        refine ⟨fun _ => c1 ⟨g, hg', by rwa [hg g hg']⟩, fun hn => absurd ⟨g, List.mem_cons_of_mem _ hg', rest⟩ hn⟩
      · have hx' : ¬ ∃ g ∈ L, ∃ e, (k.clearOne a).groups.get g = some e ∧ released e = true ∧ g.1 ≤ c.1 ∧
            c.1 < g.1 + e.strength.size := by
          rintro ⟨g, hg', rest⟩
          exact hx ⟨g, hg', by rwa [hg g hg'] at rest⟩
        rw [c2 hx']
        refine ⟨?_, fun hn => d2 fun hy => hn ⟨a, List.mem_cons_self, hy⟩⟩
        rintro ⟨g, hg', rest⟩
        rcases List.mem_cons.mp hg' with rfl | hg'
        · exact d1 rest
        · exact absurd ⟨g, hg', rest⟩ hx

theorem foldl_finishKeyClear (L : List CellId) (hL : L.Nodup) (p : State) :
    L.foldl finishKeyClear p =
      heldPosted (p.setKeys (L.foldl KeyStore.clearOne p.keys)) (L.filterMap (clearPost p.keys)) := by
  induction L generalizing p with
  | nil => simp [State.setKeys]
  | cons a L ih =>
    obtain ⟨ha, hL⟩ := List.nodup_cons.mp hL
    rw [List.foldl_cons, ih hL, finishKeyClear_eq]
    have hk : (heldPosted (p.setKeys (p.keys.clearOne a)) (clearPost p.keys a).toList).keys = p.keys.clearOne a := by
      rw [heldPosted_keys, State.setKeys_keys]
    rw [hk]
    have hp : L.filterMap (clearPost (p.keys.clearOne a)) = L.filterMap (clearPost p.keys) := by
      apply List.filterMap_congr
      intro g hg
      simp only [clearPost]
      rw [clearOne_groups, if_neg (by rintro rfl; exact ha hg)]
    rw [hp]
    have hs : ∀ (k k' : KeyStore) (cs : List Completion),
        (heldPosted (p.setKeys k) cs).setKeys k' = heldPosted (p.setKeys k') cs := fun _ _ _ => rfl
    rw [hs, heldPosted_append, List.filterMap_cons, List.foldl_cons]
    cases clearPost p.keys a <;> rfl

/-- The Key Clears whose groups have lost their last pin complete in ascending order of base cell (R58). -/
theorem finishKeyClears_done (p : State) : ClearsDone p (finishKeyClears p) := by
  have hn := List.nodup_finRange 64
  have e : finishKeyClears p =
      heldPosted (p.setKeys ((List.finRange 64).foldl KeyStore.clearOne p.keys)) (clearPosts p.keys) :=
    foldl_finishKeyClear _ hn p
  obtain ⟨h1, h2, h3⟩ := foldl_clearOne _ hn p.keys
  have hk : (finishKeyClears p).keys = (List.finRange 64).foldl KeyStore.clearOne p.keys := by
    rw [e, heldPosted_keys, State.setKeys_keys]
  refine ⟨by rw [hk]; exact e, by rw [hk]; exact h1, fun g => by rw [hk, h2]; simp, fun c => ?_⟩
  rw [hk]
  simpa using h3 c

/-- With no Key Clear released none is done. -/
theorem clearsDone_quiet {p q : State} (hp : NoReleasedClear p) (h : ClearsDone p q) : q = p := by
  have hr : ∀ g e, p.keys.groups.get g = some e → released e = false := by
    intro g e he
    by_contra hc
    have hc := (released_iff e).mp (by simpa using hc)
    exact hp g e (by simp [he]) hc.1 hc.2
  obtain ⟨h1, h2, h3, h4⟩ := h
  have hposts : clearPosts p.keys = [] := by
    simp only [clearPosts, List.filterMap_eq_nil_iff]
    intro g _
    rcases he : p.keys.groups.get g with _ | e
    · rfl
    · simp [hr g e he]
  have hk : q.keys = p.keys := by
    have hg : q.keys.groups = p.keys.groups := by
      apply vector_ext_get
      intro g
      rw [h3]
      rcases he : p.keys.groups.get g with _ | e
      · rfl
      · simp [hr g e he]
    have hc : q.keys.cells = p.keys.cells := by
      apply vector_ext_get
      intro c
      refine (h4 c).2 ?_
      rintro ⟨g, e, he, hre, -⟩
      rw [hr g e he] at hre
      cases hre
    have ext : ∀ k k' : KeyStore, k.cells = k'.cells → k.groups = k'.groups → k.load = k'.load → k = k' := by
      rintro ⟨a, b, c⟩ ⟨a', b', c'⟩ h h' h''
      cases h
      cases h'
      cases h''
      rfl
    exact ext _ _ hc hg h2
  rw [h1, hposts, hk]
  simp [State.setKeys]

theorem resetClear_iff (p : State) (run : ResetRun) : resetClear p run = true ↔ NothingInFlight p run := by
  simp [resetClear, NothingInFlight, NoJobs, anyLaneBusy]
  tauto

theorem recordHeld_iff (s : State) : (recordWaits s .i || recordWaits s .m) = true ↔ RecordHeld s := by
  have h : ∀ side, quotaOf s side = s.ports.reset.elim 0 (match side with | .i => ResetRun.iQuota | .m => ResetRun.mQuota) := by
    intro side
    rcases hr : s.ports.reset with _ | run <;> cases side <;> simp only [quotaOf, hr] <;> rfl
  simp [recordWaits, h, RecordHeld, sidePort, State.port]

/-- In RETAIN a held record wakes the part, and nothing else does (R147). -/
theorem wakeByRecord_retain {s : State} (h : s.stage.stage = .retain) :
    (RecordHeld s → wakeByRecord s = woken s .wake none) ∧ (¬ RecordHeld s → wakeByRecord s = s) := by
  refine ⟨fun hr => ?_, fun hr => ?_⟩
  · rw [wakeByRecord, if_pos ⟨h, (recordHeld_iff s).mpr hr⟩]
    rfl
  · rw [wakeByRecord, if_neg (fun h' => hr ((recordHeld_iff s).mp h'.2))]

/-- The end of a drain (R149, R150). -/
theorem endDrain_done (q : State) : DrainDone q (endDrain q) := by
  refine ⟨fun h => endDrain_quiet h, fun cause h1 h2 h3 => ?_⟩
  have ht : (tableEmpty q .i && tableEmpty q .m) = true := by simp [h2.1, h2.2]
  intro entered
  have he : endDrain q = wakeByRecord entered := by
    simp only [endDrain]
    rw [if_pos ⟨h1, ht⟩, h3]
    simp only [entered]
    cases q.stage.waitingRetain with
    | none => simp; rfl
    | some tag => exact congrArg wakeByRecord (post_held _ _)
  have hw : RecordHeld entered ↔ RecordHeld q := Iff.rfl
  have hst : entered.stage.stage = .retain := rfl
  rw [he, ← hw]
  exact wakeByRecord_retain hst

/-- The end of a reset (R163, R166). -/
theorem endReset_done (u : State) : ResetDone u (endZeroize (endEngineReset u)) := by
  have key : ∀ run, u.ports.reset = some run →
      endZeroize (endEngineReset u) = if NothingInFlight u run then
        (match run.kind with | .engine => resetEnded u run | .zeroize => resetEnded (zeroized u) run) else u := by
    intro run hrun
    by_cases hc : NothingInFlight u run
    · rw [if_pos hc]
      have hc' := (resetClear_iff u run).mpr hc
      rcases hk : run.kind
      · simp only [endEngineReset, hrun]
        rw [if_pos ⟨hk, hc'⟩, completeReset, post_held, endZeroize_quiet (.inl rfl)]
        simp [resetEnded, resetPortAndArbiter, heldCompletion, ResetKind.kind, Kind.code, hk]
      · have : endEngineReset u = u := by
          simp only [endEngineReset, hrun]
          rw [if_neg (by simp [hk])]
        rw [this]
        simp only [endZeroize, hrun]
        rw [if_pos ⟨hk, hc'⟩, completeReset, post_held]
        simp [resetEnded, resetPortAndArbiter, heldCompletion, ResetKind.kind, Kind.code, hk]
        rfl
    · rw [if_neg hc]
      have hc' : ¬ resetClear u run = true := by rwa [resetClear_iff]
      have : endEngineReset u = u := by
        simp only [endEngineReset, hrun]
        rw [if_neg (fun h => hc' h.2)]
      rw [this]
      simp only [endZeroize, hrun]
      rw [if_neg (fun h => hc' h.2)]
  refine ⟨fun h => ?_, fun run hrun hn => ?_⟩
  · rcases hrun : u.ports.reset with _ | run
    · rw [endEngineReset_quiet (.inl hrun), endZeroize_quiet (.inl hrun)]
    · rw [key run hrun, if_neg (h run hrun)]
  · exact (key run hrun).trans ((if_pos hn).trans (by cases run.kind <;> rfl))

/-- What follows a job's end in the same step (R58, R149, R163). -/
theorem settle_follows (p : State) : Follows p (settle p) :=
  ⟨_, _, finishKeyClears_done p, endDrain_done _, endReset_done _⟩

/-- What follows where no Key Clear is released and no drain ends: the end of a reset alone. -/
theorem follows_reset {p t : State} (h : Follows p t) (hp : NoReleasedClear p)
    (hd : p.stage.stage ≠ .draining ∨ ¬ NoJobs p) : ResetDone p t := by
  obtain ⟨q, u, h1, h2, h3⟩ := h
  have hq := clearsDone_quiet hp h1
  subst hq
  have hu := h2.1 hd
  subst hu
  exact h3

/-! ### Buffer memory and the end of a job -/

@[simp] theorem askAccess_buffer (s : State) (a : Access) : (askAccess s a).buffer = s.buffer := by
  simp only [askAccess]
  split <;> rfl

@[simp] theorem postJob_buffer (s : State) (side : Side) (k : Nat) (j : Job) :
    (postJob s side k j).buffer = s.buffer := by
  have : ∀ (u : State) (keys : KeyStore), (setJob (u.setKeys keys) side k none).buffer = u.buffer :=
    fun u keys => setJob_buffer _ _ _ _
  simp only [postJob]
  split
  · exact (this _ _).trans (post_buffer _ _ _)
  · exact (this _ _).trans (post_buffer _ _ _)
  · exact (this _ _).trans (post_buffer _ _ _)
  · exact (this _ _).trans (post_buffer _ _ _)

@[simp] theorem settleClaim_buffer (s : State) (k : Nat) (cause : Option EndCause) :
    (settleClaim s k cause).buffer = s.buffer := by
  have adv : ∀ (u : State) x, (advanceMark u x).buffer = u.buffer := by
    intro u x
    simp only [advanceMark]
    split
    · rfl
    · split <;> rfl
  simp only [settleClaim]
  split
  · rfl
  · split
    · exact adv _ _
    · split <;> rfl
    · rfl
    · rfl
    · rfl

@[simp] theorem listOrPost_buffer (s : State) (side : Side) (k : Nat) (j : Job) :
    (listOrPost s side k j).buffer = s.buffer := by
  simp only [listOrPost]
  split
  · split <;> simp
  · simp

@[simp] theorem endJob_buffer (s : State) (side : Side) (k : Nat) (j : Job) :
    (endJob s side k j).buffer = s.buffer := by
  simp only [endJob]
  split <;> simp

@[simp] theorem closeJob_buffer (s : State) (side : Side) (k : Nat) : (closeJob s side k).buffer = s.buffer := by
  simp only [closeJob]
  split
  · split <;> simp
  · rfl

@[simp] theorem reportSector_buffer (s : State) (l : LaneId) (v : Verdict) :
    (reportSector s l v).buffer = s.buffer := by
  simp only [reportSector]
  split
  · rw [closeJob_buffer, endSector]
    split
    · rw [setJob_buffer]
      rfl
    · rfl
  · rfl

@[simp] theorem settle_buffer (s : State) : (settle s).buffer = s.buffer := by
  have h1 : ∀ (L : List CellId) (u : State), (L.foldl finishKeyClear u).buffer = u.buffer := by
    intro L
    induction L with
    | nil => intro u; rfl
    | cons g L ih =>
      intro u
      rw [List.foldl_cons, ih, finishKeyClear]
      split
      · split
        · split
          · rw [post_buffer, State.setKeys_buffer]
          · rw [State.setKeys_buffer]
        · rfl
      · rfl
  have hw : ∀ u : State, (wakeByRecord u).buffer = u.buffer := by
    intro u
    simp only [wakeByRecord]
    split <;> rfl
  have hr : ∀ (u : State) c, (retainEntry u c).buffer = u.buffer := fun _ _ => rfl
  have h2 : ∀ u : State, (endDrain u).buffer = u.buffer := by
    intro u
    simp only [endDrain]
    split
    · rw [hw]
      split
      · rw [post_buffer, hr]
      · rw [hr]
    · rfl
  have hc : ∀ (u : State) (r : ResetRun), (completeReset u r).buffer = u.buffer := by
    intro u r
    rw [completeReset, post_buffer]
  have h3 : ∀ u : State, (endEngineReset u).buffer = u.buffer := by
    intro u
    simp only [endEngineReset]
    split
    · split
      · rw [hc, resetPortAndArbiter]
      · rfl
    · rfl
  have h4 : ∀ u : State, (endZeroize u).buffer = u.buffer := by
    intro u
    simp only [endZeroize]
    split
    · split
      · rw [hc, resetPortAndArbiter, zeroizeClear]
      · rfl
    · rfl
  rw [settle, h4, h3, h2, finishKeyClears, h1]

end Sys2Proof.Machine
end

