-- ==== Sys2Proof/Laws/Closing.lean ====
section
/-! SUPPORT. The ends of many jobs in one step, in ascending order of slot: those the taking of a reset brings about (R78,
R135, R161) and those of a bus fault (R99), what one end does and what all of them do together. -/

namespace Sys2Proof.Machine

/-! ### The claim of a job -/

theorem overtakenOf_eq (s : State) (k : Nat) :
    overtakenOf s k = match claimOfJob s k with | some c => c.overtaken | none => [] := rfl

theorem find_map_other {f : Claim → Claim} {k' : Nat} (hf : ∀ c, (f c).job = c.job ∧ (f c).overtaken = c.overtaken)
    (L : List Claim) :
    ((L.map f).find? (fun c => c.job == some k')).map Claim.overtaken =
      (L.find? (fun c => c.job == some k')).map Claim.overtaken := by
  induction L with
  | nil => rfl
  | cons c L ih =>
    simp only [List.map_cons, List.find?_cons, (hf c).1]
    split
    · simp [(hf c).2]
    · exact ih

theorem find_filter_other {k k' : Nat} (hk : k' ≠ k) (L : List Claim) :
    (L.filter (fun c => c.job != some k)).find? (fun c => c.job == some k') = L.find? (fun c => c.job == some k') := by
  rw [List.find?_filter]
  congr 1
  funext c
  by_cases h : c.job = some k'
  · simp [h, hk]
  · simp [h]

theorem allClaims_map (w : SweepUnit) (f : Claim → Claim) : (w.mapClaims f).allClaims = w.allClaims.map f := by
  have h : (w.claims.map (List.map f)).toList = w.claims.toList.map (List.map f) := Vector.toList_map
  simp only [SweepUnit.mapClaims, SweepUnit.allClaims, List.map_append, List.map_flatten, h]

theorem allClaims_filter (w : SweepUnit) (f : Claim → Bool) : (w.filterClaims f).allClaims = w.allClaims.filter f := by
  have h : (w.claims.map (List.filter f)).toList = w.claims.toList.map (List.filter f) := Vector.toList_map
  simp only [SweepUnit.filterClaims, SweepUnit.allClaims, List.filter_append, List.filter_flatten, h]

theorem overtakenOf_map (s : State) (k : Nat) :
    overtakenOf s k = ((s.sweep.allClaims.find? (fun c => c.job == some k)).map Claim.overtaken).getD [] := by
  simp only [overtakenOf]
  cases s.sweep.allClaims.find? (fun c => c.job == some k) <;> rfl

/-! ### One end -/

/-- What the end of slot `k` leaves in it. -/
def slotAfter (s : State) (side : Side) (k : Nat) : Option Job :=
  (jobAt s side k).bind (fun j =>
    if j.AtEnd then
      if j.PostsAtOnce then none else some { withFinals s k j with phase := .listing }
    else some j)

/-- The completion the end of slot `k` posts, if any. -/
def slotPost (s : State) (side : Side) (k : Nat) : Option Completion :=
  (jobAt s side k).bind (fun j =>
    if j.AtEnd ∧ j.PostsAtOnce then some (withFinals s k j).completion else none)

/-- The list write the end of slot `k` asks for, if any. -/
def slotAsk (s : State) (side : Side) (k : Nat) : Option Access :=
  (jobAt s side k).bind (fun j =>
    if j.AtEnd ∧ ¬ j.PostsAtOnce then
      j.list.map (fun addr => { who := .list side k, kind := .listWrite, addr := addr, len := (withFinals s k j).count,
                                bytes := (withFinals s k j).listBytes })
    else none)

/-- The pins on group `g` the end of slot `k` releases. -/
def slotUnpin (s : State) (side : Side) (g : CellId) (k : Nat) : Nat :=
  (jobAt s side k).elim 0 (fun j => if j.AtEnd ∧ j.PostsAtOnce then j.pinned.count g else 0)

/-- Queues with completions filled into their reserved places (R172). -/
def filledWith (q : PortQueues) (cs : List Completion) : PortQueues :=
  { q with filled := q.filled ++ cs.take q.reserved, reserved := q.reserved - cs.length }

theorem filledWith_append (q : PortQueues) (as bs : List Completion) :
    filledWith (filledWith q as) bs = filledWith q (as ++ bs) := by
  simp [filledWith, List.take_append, Nat.sub_sub]

theorem fillReserved_eq (q : PortQueues) (c : Completion) : fillReserved q c = filledWith q [c] := by
  rcases q with ⟨a, b, r⟩
  simp only [fillReserved, filledWith]
  cases r <;> simp

/-- `v` is `u` with the jobs of the slots `L` of a table ended, in that order. -/
structure Closes (u v : State) (side : Side) (L : List Nat) : Prop where
  job : ∀ side' k', jobAt v side' k' = if side' = side ∧ k' ∈ L then slotAfter u side k' else jobAt u side' k'
  port : ∀ p, v.port p =
    if p = sidePort side then filledWith (u.port p) (L.filterMap (slotPost u side)) else u.port p
  reset : v.ports.reset = u.ports.reset
  events : v.ports.events = u.ports.events
  cells : v.keys.cells = u.keys.cells
  load : v.keys.load = u.keys.load
  groups : ∀ g, v.keys.groups.get g =
    (u.keys.groups.get g).map (fun e => { e with pins := e.pins - (L.map (slotUnpin u side g)).sum })
  faulted : v.bufferPort.faulted = u.bufferPort.faulted
  outstanding : v.bufferPort.outstanding = u.bufferPort.outstanding ++
    (if u.bufferPort.faulted = true then [] else L.filterMap (slotAsk u side))
  stage : v.stage = u.stage
  table : v.table = u.table
  arbiter : v.arbiter = u.arbiter
  lanes : v.lanes = u.lanes
  overtaken : ∀ k', (side = .m → k' ∉ L) → overtakenOf v k' = overtakenOf u k'

/-- Every job of the table has an end cause, a reset runs, and the I-table holds no RECIPHER. -/
structure Stopped (u : State) (side : Side) : Prop where
  cause : ∀ k j, jobAt u side k = some j → j.cause ≠ none ∧ (side = .i → j.kind ≠ .recipher)
  reset : u.ports.reset ≠ none

/-- Settling the claim of a job cut short changes no claim's overtaken set and nothing but claims. -/
theorem settleClaim_stopped {u : State} {k : Nat} {c : EndCause} (hr : u.ports.reset ≠ none) :
    ∃ f : Claim → Claim, (∀ d, (f d).job = d.job ∧ (f d).overtaken = d.overtaken) ∧
      settleClaim u k (some c) = u.setSweep (u.sweep.mapClaims f) := by
  have same : ∃ f : Claim → Claim, (∀ d, (f d).job = d.job ∧ (f d).overtaken = d.overtaken) ∧
      u = u.setSweep (u.sweep.mapClaims f) := by
    refine ⟨id, fun _ => ⟨rfl, rfl⟩, ?_⟩
    rcases u with ⟨_, _, _, _, _, _, _, ⟨_, _, _⟩, _, _, _, _, _⟩
    simp [State.setSweep, SweepUnit.mapClaims, List.map_id_fun, Vector.map_id_fun]
  have froze : ∃ f : Claim → Claim, (∀ d, (f d).job = d.job ∧ (f d).overtaken = d.overtaken) ∧
      changeClaimOfJob u k (fun c => { c with frozen := true }) = u.setSweep (u.sweep.mapClaims f) :=
    ⟨_, fun d => by split <;> exact ⟨rfl, rfl⟩, rfl⟩
  have hs : u.ports.reset.isSome = true := Option.isSome_iff_ne_none.mpr hr
  simp only [settleClaim]
  split
  · exact same
  · cases c with
    | busFault => simpa [hs] using same
    | aborted => exact froze
    | zeroized => exact froze
    | sweepCancelled => exact froze

/-- The state an end starts from once the claim is settled: it differs from `u` in the slot and in claims alone. -/
structure Settled (u b : State) (side : Side) (k : Nat) : Prop where
  job : ∀ side' k', ¬ (side' = side ∧ k' = k) → jobAt b side' k' = jobAt u side' k'
  ports : b.ports = u.ports
  keys : b.keys = u.keys
  bufferPort : b.bufferPort = u.bufferPort
  stage : b.stage = u.stage
  table : b.table = u.table
  arbiter : b.arbiter = u.arbiter
  lanes : b.lanes = u.lanes
  overtaken : ∀ k', overtakenOf b k' = overtakenOf u k'

theorem endJob_settled {u : State} {side : Side} (h : Stopped u side) {k : Nat} {j : Job} (hj : jobAt u side k = some j) :
    ∃ b, Settled u b side k ∧ endJob u side k j = listOrPost b side k (withFinals u k j) := by
  obtain ⟨hc, hk⟩ := h.cause k j hj
  by_cases hr : j.kind = .recipher
  · obtain ⟨c, hc⟩ := Option.ne_none_iff_exists'.mp hc
    obtain ⟨f, hf, hs⟩ := settleClaim_stopped (u := setJob u side k (some (withFinals u k j))) (k := k) (c := c)
      (by rw [setJob_ports]; exact h.reset)
    refine ⟨(setJob u side k (some (withFinals u k j))).setSweep
      ((setJob u side k (some (withFinals u k j))).sweep.mapClaims f), ?_, ?_⟩
    · constructor
      · intro side' k' hn
        have : ∀ (v : State) w, jobAt (v.setSweep w) side' k' = jobAt v side' k' := fun v w => by cases side' <;> rfl
        rw [this, jobAt_setJob, if_neg (fun h => hn ⟨h.1, h.2.1⟩)]
      · rw [State.setSweep_ports, setJob_ports]
      · rw [State.setSweep_keys, setJob_keys]
      · rw [State.setSweep_bufferPort, setJob_bufferPort]
      · rw [State.setSweep_stage, setJob_stage]
      · rw [State.setSweep_table, setJob_table]
      · rw [State.setSweep_arbiter, setJob_arbiter]
      · rw [State.setSweep_lanes, setJob_lanes]
      · intro k'
        rw [overtakenOf_map, overtakenOf_map, State.setSweep_sweep, setJob_sweep, allClaims_map, find_map_other hf]
    · have hw : withFinals u k j = { j with finals := j.finalVerdicts (overtakenOf u k) } := if_pos hr
      rw [← hs, ← hc, hw, overtakenOf_eq]
      simp only [endJob, hr] <;> rfl
  · refine ⟨u, ⟨fun _ _ _ => rfl, rfl, rfl, rfl, rfl, rfl, rfl, rfl, fun _ => rfl⟩, ?_⟩
    have hw : withFinals u k j = j := if_neg hr
    rw [hw]
    rcases hj : j.kind <;> simp_all [endJob]

/-- Where a slot holds no job at its end nothing comes of it. -/
theorem Closes.quiet {u : State} {side : Side} {k : Nat} (h : ∀ j, jobAt u side k = some j → ¬ j.AtEnd) :
    Closes u u side [k] := by
  have h1 : slotAfter u side k = jobAt u side k := by
    simp only [slotAfter]
    rcases hj : jobAt u side k with _ | j
    · rfl
    · simp [h j hj]
  have h2 : slotPost u side k = none := by
    simp only [slotPost]
    rcases hj : jobAt u side k with _ | j
    · rfl
    · simp [h j hj]
  have h3 : slotAsk u side k = none := by
    simp only [slotAsk]
    rcases hj : jobAt u side k with _ | j
    · rfl
    · simp [h j hj]
  have h4 : ∀ g, slotUnpin u side g k = 0 := by
    intro g
    simp only [slotUnpin]
    rcases hj : jobAt u side k with _ | j
    · rfl
    · simp [h j hj]
  constructor <;> simp [h2, h3, h4, filledWith]
  exact h1.symm

theorem withFinals_frame (u : State) (k : Nat) (j : Job) :
    (withFinals u k j).kind = j.kind ∧ (withFinals u k j).cause = j.cause ∧ (withFinals u k j).list = j.list ∧
    (withFinals u k j).pinned = j.pinned := by
  simp only [withFinals]
  split <;> exact ⟨rfl, rfl, rfl, rfl⟩

theorem postJob_keys (b : State) (side : Side) (k : Nat) (j : Job) :
    (postJob b side k j).keys = b.keys.unpin j.pinned := by
  simp only [postJob]
  split <;> simp

/-- The end of one job that has an end cause while a reset runs. -/
theorem closeJob_closes {u : State} {side : Side} (h : Stopped u side) (k : Nat) :
    Closes u (closeJob u side k) side [k] := by
  rcases hj : jobAt u side k with _ | j
  · have e : closeJob u side k = u := by simp only [closeJob, hj]
    rw [e]
    exact Closes.quiet (by simp [hj])
  · by_cases he : j.AtEnd
    · have hall : j.allEnded = true := List.all_eq_true.mpr he.2
      have e : closeJob u side k = endJob u side k j := by
        simp only [closeJob, hj]
        rw [if_pos ⟨he.1, hall⟩]
      have hlt := slot_lt_of_jobAt hj
      obtain ⟨b, hb, e'⟩ := endJob_settled h hj
      obtain ⟨f1, f2, f3, f4⟩ := withFinals_frame u k j
      rw [e, e']
      by_cases hp : j.PostsAtOnce
      · have e2 : listOrPost b side k (withFinals u k j) = postJob b side k (withFinals u k j) := by
          simp only [listOrPost, f3, f2]
          split
          · next addr ha => rw [if_pos (hp.resolve_left (by simp [ha]))]
          · rfl
        have s1 : slotAfter u side k = none := by
          simp only [slotAfter, hj, Option.bind_some]
          rw [if_pos he, if_pos hp]
        have s2 : slotPost u side k = some (withFinals u k j).completion := by
          simp only [slotPost, hj, Option.bind_some]
          rw [if_pos ⟨he, hp⟩]
        have s3 : slotAsk u side k = none := by
          simp only [slotAsk, hj, Option.bind_some]
          rw [if_neg (fun h => h.2 hp)]
        have s4 : ∀ g, slotUnpin u side g k = j.pinned.count g := by
          intro g
          simp only [slotUnpin, hj, Option.elim_some]
          rw [if_pos ⟨he, hp⟩]
        rw [e2]
        have hun := unpin_pinsReleased j.pinned u.keys
        generalize hF : withFinals u k j = F at *
        have hsweep : (postJob b side k F).sweep = b.sweep ∨
            (side = .m ∧ (postJob b side k F).sweep = b.sweep.filterClaims (fun c => c.job != some k)) := by
          simp only [postJob]
          rcases hkind : F.kind
          · exact .inl (by simp)
          · exact .inl (by simp)
          · refine .inr ⟨?_, by simp⟩
            cases side
            · exact absurd (f1 ▸ hkind) ((h.cause k j hj).2 rfl)
            · rfl
          · exact .inl (by simp)
        constructor
        · intro side' k'
          have : jobAt (postJob b side k F) side' k' = jobAt (setJob b side k none) side' k' := by
            simp only [postJob]
            split <;> cases side <;> cases side' <;> rfl
          rw [this, jobAt_setJob]
          by_cases hx : side' = side ∧ k' = k
          · obtain ⟨rfl, rfl⟩ := hx
            simp [hlt, s1]
          · rw [if_neg (fun h => hx ⟨h.1, h.2.1⟩), if_neg (by simpa using hx), hb.job _ _ hx]
        · intro p
          have : (postJob b side k F).port p = (post b (sidePort side) F.completion).port p := by
            simp only [postJob]
            split <;> simp
          rw [this, post, State.port_setPort, fillReserved_eq]
          have hbp : ∀ p, b.port p = u.port p := fun p => by cases p <;> simp [State.port, hb.ports]
          simp [hbp, s2]
          split <;> simp_all
        · have : (postJob b side k F).ports.reset = b.ports.reset := by
            simp only [postJob]
            split <;> simp
          rw [this, hb.ports]
        · have : (postJob b side k F).ports.events = b.ports.events := by
            simp only [postJob]
            split <;> simp
          rw [this, hb.ports]
        · rw [postJob_keys, f4, hb.keys, hun.1]
        · rw [postJob_keys, f4, hb.keys, hun.2.1]
        · intro g
          rw [postJob_keys, f4, hb.keys, hun.2.2]
          simp [s4]
        · have : (postJob b side k F).bufferPort = b.bufferPort := by
            simp only [postJob]
            split <;> simp
          rw [this, hb.bufferPort]
        · have : (postJob b side k F).bufferPort = b.bufferPort := by
            simp only [postJob]
            split <;> simp
          rw [this, hb.bufferPort]
          simp [s3]
        · have : (postJob b side k F).stage = b.stage := by
            simp only [postJob]
            split <;> simp
          rw [this, hb.stage]
        · have : (postJob b side k F).table = b.table := by
            simp only [postJob]
            split <;> simp
          rw [this, hb.table]
        · have : (postJob b side k F).arbiter = b.arbiter := by
            simp only [postJob]
            split <;> simp
          rw [this, hb.arbiter]
        · have : (postJob b side k F).lanes = b.lanes := by
            simp only [postJob]
            split <;> simp
          rw [this, hb.lanes]
        · intro k' hk'
          rw [← hb.overtaken k', overtakenOf_map, overtakenOf_map]
          rcases hsweep with hs | ⟨rfl, hs⟩
          · rw [hs]
          · rw [hs, allClaims_filter, find_filter_other (by simpa using hk' rfl)]
      · obtain ⟨hl, hcause⟩ := not_or.mp hp
        obtain ⟨addr, ha⟩ := Option.ne_none_iff_exists'.mp hl
        have e2 : listOrPost b side k (withFinals u k j) =
            askAccess (setJob b side k (some { withFinals u k j with phase := .listing }))
              { who := .list side k, kind := .listWrite, addr := addr, len := (withFinals u k j).count,
                bytes := (withFinals u k j).listBytes } := by
          simp only [listOrPost, f3, ha, f2]
          rw [if_neg hcause]
        have s1 : slotAfter u side k = some { withFinals u k j with phase := .listing } := by
          simp only [slotAfter, hj, Option.bind_some]
          rw [if_pos he, if_neg hp]
        have s2 : slotPost u side k = none := by
          simp only [slotPost, hj, Option.bind_some]
          rw [if_neg (fun h => hp h.2)]
        have s3 : slotAsk u side k =
            some ⟨.list side k, .listWrite, addr, (withFinals u k j).count, (withFinals u k j).listBytes⟩ := by
          simp only [slotAsk, hj, Option.bind_some]
          rw [if_pos ⟨he, hp⟩, ha]
          rfl
        have s4 : ∀ g, slotUnpin u side g k = 0 := by
          intro g
          simp only [slotUnpin, hj, Option.elim_some]
          rw [if_neg (fun h => hp h.2)]
        rw [e2]
        generalize hF : ({ withFinals u k j with phase := .listing } : Job) = F at *
        generalize hA : Access.mk (.list side k) .listWrite addr _ _ = A at *
        have ask : ∀ v : State, (askAccess v A).ports = v.ports ∧ (askAccess v A).keys = v.keys ∧
            (askAccess v A).jobs = v.jobs ∧ (askAccess v A).stage = v.stage ∧ (askAccess v A).table = v.table ∧
            (askAccess v A).arbiter = v.arbiter ∧ (askAccess v A).lanes = v.lanes ∧
            (askAccess v A).sweep = v.sweep ∧ (askAccess v A).bufferPort.faulted = v.bufferPort.faulted ∧
            (askAccess v A).bufferPort.outstanding =
              v.bufferPort.outstanding ++ (if v.bufferPort.faulted = true then [] else [A]) := by
          intro v
          simp only [askAccess]
          split
          · next hf => simp [hf]
          · next hf => simp [State.setBufferPort, hf]
        obtain ⟨a1, a2, a3, a4, a5, a6, a7, a8, a9, a10⟩ := ask (setJob b side k (some F))
        constructor
        · intro side' k'
          have : jobAt (askAccess (setJob b side k (some F)) A) side' k' = jobAt (setJob b side k (some F)) side' k' := by
            cases side' <;> simp only [jobAt, a3]
          rw [this, jobAt_setJob]
          by_cases hx : side' = side ∧ k' = k
          · obtain ⟨rfl, rfl⟩ := hx
            simp [hlt, s1]
          · rw [if_neg (fun h => hx ⟨h.1, h.2.1⟩), if_neg (by simpa using hx), hb.job _ _ hx]
        · intro p
          have : (askAccess (setJob b side k (some F)) A).port p = u.port p := by
            cases p <;> simp only [State.port, a1, setJob_ports, hb.ports]
          rw [this]
          simp [s2, filledWith]
        · rw [a1, setJob_ports, hb.ports]
        · rw [a1, setJob_ports, hb.ports]
        · rw [a2, setJob_keys, hb.keys]
        · rw [a2, setJob_keys, hb.keys]
        · intro g
          rw [a2, setJob_keys, hb.keys]
          simp [s4]
        · rw [a9, setJob_bufferPort, hb.bufferPort]
        · rw [a10, setJob_bufferPort, hb.bufferPort]
          simp [s3]
        · rw [a4, setJob_stage, hb.stage]
        · rw [a5, setJob_table, hb.table]
        · rw [a6, setJob_arbiter, hb.arbiter]
        · rw [a7, setJob_lanes, hb.lanes]
        · intro k' _
          rw [← hb.overtaken k', overtakenOf_map, overtakenOf_map, a8, setJob_sweep]
    · have e : closeJob u side k = u := by
        simp only [closeJob, hj]
        rw [if_neg]
        rintro ⟨h1, h2⟩
        exact he ⟨h1, List.all_eq_true.mp h2⟩
      rw [e]
      exact Closes.quiet (by rw [hj]; rintro _ ⟨⟩; exact he)

theorem Closes.refl (u : State) (side : Side) : Closes u u side [] := by
  constructor <;> simp [filledWith]

theorem Closes.slots {u v : State} {side : Side} {L : List Nat} (h : Closes u v side L) {k : Nat} (hk : k ∉ L) :
    jobAt v side k = jobAt u side k ∧ ∀ j, withFinals v k j = withFinals u k j := by
  refine ⟨by rw [h.job, if_neg (fun h => hk h.2)], fun j => ?_⟩
  simp only [withFinals, h.overtaken k (fun _ => hk)]

/-- Ends after ends. -/
theorem Closes.cons {u v w : State} {side : Side} {k : Nat} {L : List Nat} (hk : k ∉ L) (h1 : Closes u v side [k])
    (h2 : Closes v w side L) : Closes u w side (k :: L) := by
  have slot : ∀ k' ∈ L, jobAt v side k' = jobAt u side k' ∧ ∀ j, withFinals v k' j = withFinals u k' j :=
    fun k' hk' => h1.slots (by rintro h; rw [List.mem_singleton] at h; exact hk (h ▸ hk'))
  have hpost : L.filterMap (slotPost v side) = L.filterMap (slotPost u side) :=
    List.filterMap_congr fun k' hk' => by simp only [slotPost, (slot k' hk').1, (slot k' hk').2]
  have hask : L.filterMap (slotAsk v side) = L.filterMap (slotAsk u side) :=
    List.filterMap_congr fun k' hk' => by simp only [slotAsk, (slot k' hk').1, (slot k' hk').2]
  have hpin : ∀ g, L.map (slotUnpin v side g) = L.map (slotUnpin u side g) := fun g =>
    List.map_congr_left fun k' hk' => by simp only [slotUnpin, (slot k' hk').1]
  constructor
  · intro side' k'
    rw [h2.job, h1.job]
    by_cases hs : side' = side
    · subst hs
      by_cases hL : k' ∈ L
      · simp [hL, slotAfter, (slot k' hL).1, (slot k' hL).2]
      · simp [hL]
    · simp [hs]
  · intro p
    rw [h2.port, h1.port, hpost]
    split
    · rw [filledWith_append]
      congr 1
      cases hx : slotPost u side k <;> simp [hx]
    · rfl
  · rw [h2.reset, h1.reset]
  · rw [h2.events, h1.events]
  · rw [h2.cells, h1.cells]
  · rw [h2.load, h1.load]
  · intro g
    rw [h2.groups, h1.groups, hpin]
    simp [Function.comp_def, Nat.sub_sub]
  · rw [h2.faulted, h1.faulted]
  · rw [h2.outstanding, h1.outstanding, h1.faulted, hask]
    split
    · simp
    · cases hx : slotAsk u side k <;> simp [hx]
  · rw [h2.stage, h1.stage]
  · rw [h2.table, h1.table]
  · rw [h2.arbiter, h1.arbiter]
  · rw [h2.lanes, h1.lanes]
  · intro k' hk'
    rw [h2.overtaken k' (fun hm hL => hk' hm (List.mem_cons_of_mem _ hL)),
      h1.overtaken k' (fun hm hL => hk' hm (by rw [List.mem_singleton] at hL; rw [hL]; exact List.mem_cons_self))]

theorem Closes.stopped {u v : State} {side : Side} {L : List Nat} (h : Closes u v side L) (hu : Stopped u side) :
    Stopped v side := by
  refine ⟨fun k j hj => ?_, by rw [h.reset]; exact hu.reset⟩
  rw [h.job] at hj
  split at hj
  · simp only [slotAfter, Option.bind_eq_some_iff] at hj
    obtain ⟨j0, hj0, hj⟩ := hj
    have := hu.cause k j0 hj0
    split at hj
    · split at hj
      · cases hj
      · cases hj
        simp only [withFinals]
        split <;> exact this
    · cases hj
      exact this
  · exact hu.cause k j hj

/-- The ends of the jobs of a list of slots. -/
theorem foldl_closeJob {side : Side} (L : List Nat) (hL : L.Nodup) {u : State} (h : Stopped u side) :
    Closes u (L.foldl (fun s k => closeJob s side k) u) side L := by
  induction L generalizing u with
  | nil => exact Closes.refl u side
  | cons a L ih =>
    obtain ⟨ha, hL⟩ := List.nodup_cons.mp hL
    have h1 := closeJob_closes h a
    exact h1.cons ha (ih hL (h1.stopped h))

/-! ### The taking of a reset -/

/-- Whether the lane `l` abandons sector `i` of the job `j` in slot `k` (R16, R161). -/
def abandons (s : State) (l : LaneId) (side : Side) (k : Nat) (j : Job) (i : Nat) : Bool :=
  (s.lanes.get l).work.any (fun w =>
    w.phase != .writing && (w.side == side && w.slot == k && w.lba - j.start == i))

/-- A job with the sectors NOT_DONE that a test names. -/
def Job.notDoneAt (j : Job) (f : Nat → Bool) : Job :=
  { j with sectors := j.sectors.mapIdx (fun i (st : SectorState) => if f i = true then .ended .notDone else st) }

theorem Job.notDoneAt_notDoneAt (j : Job) (f g : Nat → Bool) :
    (j.notDoneAt f).notDoneAt g = j.notDoneAt (fun i => f i || g i) := by
  simp only [Job.notDoneAt]
  congr 1
  apply List.ext_getElem?
  intro i
  simp only [List.getElem?_mapIdx]
  cases j.sectors[i]? <;> by_cases hf : f i = true <;> by_cases hg : g i = true <;> simp [hf, hg]

theorem Job.notDoneAt_none (j : Job) : j.notDoneAt (fun _ => false) = j := by
  rcases j with ⟨_, _, _, _, _, _, _, _, _, _, sectors, _, _, _, _, _, _, _, _, _⟩
  simp only [Job.notDoneAt]
  congr 1
  apply List.ext_getElem?
  intro i
  simp [List.getElem?_mapIdx]

theorem Job.endSector_notDone (j : Job) (lba : Nat) :
    j.endSector lba .notDone = j.notDoneAt (fun i => lba - j.start == i) := by
  simp only [Job.endSector, Job.notDoneAt, Verdict.isFault]
  congr 1
  apply List.ext_getElem?
  intro i
  rw [List.getElem?_mapIdx, List.getElem?_set]
  by_cases h : lba - j.start = i
  · subst h
    by_cases hi : lba - j.start < j.sectors.length
    · simp [hi]
    · simp [hi]
  · simp [h]

/-- `v` is `u` after the lanes `L` have abandoned their sectors, but for one in WRITING. -/
structure Abandoned (u v : State) (L : List LaneId) : Prop where
  job : ∀ side k, jobAt v side k =
    (jobAt u side k).map (fun j => j.notDoneAt (fun i => L.any (fun l => abandons u l side k j i)))
  ports : v.ports = u.ports
  keys : v.keys = u.keys
  stage : v.stage = u.stage
  table : v.table = u.table
  arbiter : v.arbiter = u.arbiter
  sweep : v.sweep = u.sweep
  faulted : v.bufferPort.faulted = u.bufferPort.faulted
  list : ∀ side k, accessOf v (.list side k) = accessOf u (.list side k)
  lane : ∀ l, v.lanes.get l = if l ∈ L then laneLeft u l else u.lanes.get l

theorem accessOf_clear (u : State) {a b : Requester} (h : b ≠ a) : accessOf (clearAccess u a) b = accessOf u b := by
  simp only [accessOf, clearAccess, State.setBufferPort, List.find?_filter]
  congr 1
  funext x
  by_cases hx : x.who = b
  · simp [hx, h]
  · simp [hx]

theorem abandonUnlessWriting_abandoned (u : State) (l : LaneId) : Abandoned u (abandonUnlessWriting u l) [l] := by
  have quiet : (∀ w, (u.lanes.get l).work = some w → w.phase = .writing) → Abandoned u u [l] := by
    intro h
    refine ⟨fun side k => ?_, rfl, rfl, rfl, rfl, rfl, rfl, rfl, fun _ _ => rfl, fun l' => ?_⟩
    case refine_2 =>
      split
      · next hl =>
        rw [List.mem_singleton] at hl
        subst hl
        simp only [laneLeft]
        split
        · next w hw => rw [if_pos (h w hw)]
        · rfl
      · rfl
    have : ∀ j i, abandons u l side k j i = false := by
      intro j i
      simp only [abandons]
      rcases hw : (u.lanes.get l).work with _ | w
      · rfl
      · simp [h w hw]
    simp [this, Job.notDoneAt_none]
  simp only [abandonUnlessWriting]
  rcases hw : (u.lanes.get l).work with _ | w
  · exact quiet (by simp [hw])
  · simp only
    split
    · next hp => exact quiet (by rw [hw]; rintro _ ⟨⟩; exact hp)
    · next hp =>
      simp only [abandonSector, hw]
      have hb : ∀ side k, jobAt (clearAccess (freeLane u l) (.lane l)) side k = jobAt u side k := by
        intro side k; cases side <;> rfl
      have left : ∀ v : State, v.lanes = (clearAccess (freeLane u l) (.lane l)).lanes →
          ∀ l', v.lanes.get l' = if l' ∈ [l] then laneLeft u l' else u.lanes.get l' := by
        intro v hv l'
        rw [hv]
        simp only [clearAccess, State.setBufferPort, freeLane, State.setLane, List.mem_singleton]
        by_cases h : l' = l
        · subst h
          rw [get_put_self, if_pos rfl]
          simp only [laneLeft, hw, laneFreed]
          rw [if_neg hp]
        · rw [get_put_ne _ _ _ _ h, if_neg h]
      rcases hj : jobAt u w.side w.slot with _ | j0
      · have e : endSector (clearAccess (freeLane u l) (.lane l)) w.side w.slot w.lba .notDone =
            clearAccess (freeLane u l) (.lane l) := by simp only [endSector, hb, hj]
        rw [e]
        refine ⟨fun side k => ?_, rfl, rfl, rfl, rfl, rfl, rfl, rfl, fun side k => accessOf_clear _ (by simp), ?_⟩
        · rw [hb]
          rcases hjk : jobAt u side k with _ | j
          · rfl
          · have : ∀ i, abandons u l side k j i = false := by
              intro i
              simp only [abandons, hw, Option.any_some]
              by_cases h : w.side = side ∧ w.slot = k
              · obtain ⟨rfl, rfl⟩ := h
                rw [hj] at hjk
                cases hjk
              · have : (w.side == side && w.slot == k) = false := by simpa using h
                simp [this]
            simp [this, Job.notDoneAt_none]
        · exact left _ rfl
      · have e : endSector (clearAccess (freeLane u l) (.lane l)) w.side w.slot w.lba .notDone =
            setJob (clearAccess (freeLane u l) (.lane l)) w.side w.slot (some (j0.endSector w.lba .notDone)) := by
          simp only [endSector, hb, hj]
        have hlt := slot_lt_of_jobAt hj
        rw [e]
        refine ⟨fun side k => ?_, ?_, ?_, ?_, ?_, ?_, ?_, ?_, fun side k => ?_, ?_⟩
        · rw [jobAt_setJob, hb]
          by_cases h : side = w.side ∧ k = w.slot
          · obtain ⟨rfl, rfl⟩ := h
            rw [if_pos ⟨rfl, rfl, hlt⟩, hj, Job.endSector_notDone]
            simp only [Option.map_some]
            congr 2
            funext i
            simp [abandons, hw, hp]
          · rw [if_neg (fun h' => h ⟨h'.1, h'.2.1⟩)]
            rcases hjk : jobAt u side k with _ | j
            · rfl
            · have : ∀ i, abandons u l side k j i = false := by
                intro i
                have : (w.side == side && w.slot == k) = false := by
                  rw [Bool.eq_false_iff]
                  intro h'
                  simp at h'
                  exact h ⟨h'.1.symm, h'.2.symm⟩
                simp [abandons, hw, this]
              simp [this, Job.notDoneAt_none]
        · rw [setJob_ports]; rfl
        · rw [setJob_keys]; rfl
        · rw [setJob_stage]; rfl
        · rw [setJob_table]; rfl
        · rw [setJob_arbiter]; rfl
        · rw [setJob_sweep]; rfl
        · rw [setJob_bufferPort]; rfl
        · have : ∀ v : State, v.bufferPort = (clearAccess (freeLane u l) (.lane l)).bufferPort →
              accessOf v (.list side k) = accessOf u (.list side k) := by
            intro v hv
            have := accessOf_clear (freeLane u l) (a := .lane l) (b := .list side k) (by simp)
            simp only [accessOf, hv] at this ⊢
            exact this
          exact this _ (by rw [setJob_bufferPort])
        · exact left _ (by rw [setJob_lanes])

/-- The lanes of a list abandon their sectors. -/
theorem foldl_abandon (L : List LaneId) (hL : L.Nodup) (u : State) :
    Abandoned u (L.foldl abandonUnlessWriting u) L := by
  induction L generalizing u with
  | nil =>
    exact ⟨fun side k => by simp [Job.notDoneAt_none], rfl, rfl, rfl, rfl, rfl, rfl, rfl, fun _ _ => rfl, fun _ => by simp⟩
  | cons a L ih =>
    obtain ⟨ha, hL⟩ := List.nodup_cons.mp hL
    have h1 := abandonUnlessWriting_abandoned u a
    have h2 := ih hL (abandonUnlessWriting u a)
    refine ⟨fun side k => ?_, h2.ports.trans h1.ports, h2.keys.trans h1.keys, h2.stage.trans h1.stage,
      h2.table.trans h1.table, h2.arbiter.trans h1.arbiter, h2.sweep.trans h1.sweep, h2.faulted.trans h1.faulted,
      fun side k => (h2.list side k).trans (h1.list side k), fun l => ?_⟩
    · rw [List.foldl_cons, h2.job, h1.job, Option.map_map]
      congr 1
      funext j
      have same : ∀ l ∈ L, ∀ j' : Job, j'.start = j.start → ∀ i,
          abandons (abandonUnlessWriting u a) l side k j' i = abandons u l side k j i := by
        intro l hl j' hs i
        simp only [abandons, hs]
        rw [h1.lane l, if_neg (by rintro h; rw [List.mem_singleton] at h; exact ha (h ▸ hl))]
      simp only [Function.comp_apply, Job.notDoneAt_notDoneAt]
      congr 1
      funext i
      rw [List.any_cons, List.any_cons, List.any_nil, Bool.or_false]
      congr 1
      rw [Bool.eq_iff_iff, List.any_eq_true, List.any_eq_true]
      exact exists_congr fun l => and_congr_right fun hl => by
        rw [same l hl (j.notDoneAt fun i => [a].any fun l => abandons u l side k j i) rfl i]
    · rw [List.foldl_cons, h2.lane]
      by_cases hl : l ∈ L
      · have hla : l ∉ [a] := by rintro h; rw [List.mem_singleton] at h; exact ha (h ▸ hl)
        have hu : ∀ x, underTest (abandonUnlessWriting u a) x = underTest u x := fun x => by
          simp only [underTest, h1.stage]
        have hl1 := h1.lane l
        rw [if_neg hla] at hl1
        rw [if_pos hl, if_pos (List.mem_cons_of_mem _ hl)]
        simp only [laneLeft, laneFreed, hl1, hu]
      · rw [if_neg hl, h1.lane]
        by_cases he : l = a
        · simp [he]
        · simp [he, hl]

/-! ### The two tables at the taking of a reset -/

/-- The state in which the ends of the jobs are looked at: reset noted, jobs stopped, lanes abandoned, claims removed. -/
def takenState (kind : ResetKind) (tag : Tag) (s : State) : State :=
  let s1 := { s with ports := { s.ports with reset := some (newReset s kind tag) } }
  let s2 := mapJobs (mapJobs s1 .i (Job.stop kind.cause)) .m (Job.stop kind.cause)
  let s3 := (List.finRange 4).foldl abandonUnlessWriting s2
  s3.setSweep (s3.sweep.filterClaims (fun c => c.state == .reciphering))

theorem takeReset_eq (kind : ResetKind) (r : Record) (s : State) :
    takeReset kind r s = settle ((List.range 16).foldl (fun s k => closeJob s .m k)
      ((List.range 32).foldl (fun s k => closeJob s .i k) (takenState kind (recordTag r) s))) := rfl

theorem jobAt_mapJobs (s : State) (f : Job → Job) (side : Side) (k : Nat) :
    jobAt (mapJobs (mapJobs s .i f) .m f) side k = (jobAt s side k).map f := by
  have h : ∀ x : Option (Option Job), (x.map (Option.map f)).join = x.join.map f := by
    rintro (_ | _ | _) <;> rfl
  cases side <;> simp only [jobAt, mapJobs, Vector.getElem?_map] <;> exact h _

theorem stop_eq (c : EndCause) (j : Job) : j.stop c = endedEarly c j := by
  simp only [Job.stop, Job.stopWaiting, endedEarly]
  congr 1
  apply List.map_congr_left
  intro st _
  cases st <;> rfl

theorem takenState_job (kind : ResetKind) (tag : Tag) (s : State) (side : Side) (k : Nat) :
    jobAt (takenState kind tag s) side k = (jobAt s side k).map (stoppedAtTaking s side k kind.cause) := by
  let s1 := { s with ports := { s.ports with reset := some (newReset s kind tag) } }
  let s2 := mapJobs (mapJobs s1 .i (Job.stop kind.cause)) .m (Job.stop kind.cause)
  have h := foldl_abandon _ (List.nodup_finRange 4) s2
  have e : jobAt (takenState kind tag s) side k = jobAt ((List.finRange 4).foldl abandonUnlessWriting s2) side k := by
    cases side <;> rfl
  rw [e, h.job, jobAt_mapJobs, Option.map_map]
  have e1 : jobAt s1 side k = jobAt s side k := by cases side <;> rfl
  rw [e1]
  congr 1
  funext j
  have hl : s2.lanes = s.lanes := by simp only [s2, mapJobs_lanes, s1]
  simp only [Function.comp_apply, stop_eq, Job.notDoneAt, stoppedAtTaking, abandons, hl]
  rfl

theorem takenState_frame (kind : ResetKind) (tag : Tag) (s : State) :
    (takenState kind tag s).ports = { s.ports with reset := some (newReset s kind tag) } ∧
    (takenState kind tag s).keys = s.keys ∧ (takenState kind tag s).stage = s.stage ∧
    (takenState kind tag s).table = s.table ∧ (takenState kind tag s).arbiter = s.arbiter ∧
    (takenState kind tag s).bufferPort.faulted = s.bufferPort.faulted ∧
    (takenState kind tag s).sweep = s.sweep.filterClaims (fun c => c.state == .reciphering) ∧
    (∀ side k, accessOf (takenState kind tag s) (.list side k) = accessOf s (.list side k)) ∧
    ∀ l, (takenState kind tag s).lanes.get l = laneLeft s l := by
  obtain ⟨s1, hs1⟩ : ∃ s1, s1 = { s with ports := { s.ports with reset := some (newReset s kind tag) } } := ⟨_, rfl⟩
  obtain ⟨s2, hs2⟩ : ∃ s2, s2 = mapJobs (mapJobs s1 .i (Job.stop kind.cause)) .m (Job.stop kind.cause) := ⟨_, rfl⟩
  obtain ⟨s3, hs3⟩ : ∃ s3, s3 = (List.finRange 4).foldl abandonUnlessWriting s2 := ⟨_, rfl⟩
  have e : takenState kind tag s = s3.setSweep (s3.sweep.filterClaims (fun c => c.state == .reciphering)) := by
    rw [hs3, hs2, hs1]
    rfl
  have h := foldl_abandon _ (List.nodup_finRange 4) s2
  rw [← hs3] at h
  have e1 : s1.keys = s.keys ∧ s1.stage = s.stage ∧ s1.table = s.table ∧ s1.arbiter = s.arbiter ∧
      s1.bufferPort = s.bufferPort ∧ s1.sweep = s.sweep ∧ s1.lanes = s.lanes ∧
      s1.ports = { s.ports with reset := some (newReset s kind tag) } := by
    rw [hs1]
    exact ⟨rfl, rfl, rfl, rfl, rfl, rfl, rfl, rfl⟩
  obtain ⟨a1, a2, a3, a4, a5, a6, a7, a8⟩ := e1
  have e2 : s2.keys = s.keys ∧ s2.stage = s.stage ∧ s2.table = s.table ∧ s2.arbiter = s.arbiter ∧
      s2.bufferPort = s.bufferPort ∧ s2.sweep = s.sweep ∧ s2.lanes = s.lanes ∧
      s2.ports = { s.ports with reset := some (newReset s kind tag) } := by
    rw [hs2]
    simp only [mapJobs_keys, mapJobs_stage, mapJobs_table, mapJobs_arbiter, mapJobs_bufferPort, mapJobs_sweep,
      mapJobs_lanes, mapJobs_ports, a1, a2, a3, a4, a5, a6, a7, a8, and_self]
  obtain ⟨b1, b2, b3, b4, b5, b6, b7, b8⟩ := e2
  rw [e, State.setSweep_ports, State.setSweep_keys, State.setSweep_stage, State.setSweep_table,
    State.setSweep_arbiter, State.setSweep_bufferPort, State.setSweep_sweep, State.setSweep_lanes, h.ports, h.keys,
    h.stage, h.table, h.arbiter, h.faulted, h.sweep, b1, b2, b3, b4, b5, b6, b8]
  refine ⟨rfl, rfl, rfl, rfl, rfl, rfl, rfl, fun side k => ?_, fun l => ?_⟩
  · refine Eq.trans ?_ ((h.list side k).trans ?_)
    · simp only [accessOf, State.setSweep_bufferPort]
    · simp only [accessOf, b5]
  · rw [h.lane, if_pos (List.mem_finRange l)]
    simp only [laneLeft, laneFreed, underTest, b2, b7]

theorem takenState_overtaken (kind : ResetKind) (tag : Tag) (s : State) (h : JobClaimsReciphering s) (k : Nat) :
    overtakenOf (takenState kind tag s) k = overtakenOf s k := by
  rw [overtakenOf_map, overtakenOf_map, (takenState_frame kind tag s).2.2.2.2.2.2.1, allClaims_filter, List.find?_filter]
  congr 2
  have hall : ∀ c ∈ s.sweep.allClaims, c.job ≠ none → c.state = .reciphering := by
    intro c hc
    rcases List.mem_append.mp hc with hc | hc
    · obtain ⟨l, hl, hd⟩ := List.mem_flatten.mp hc
      obtain ⟨i, hi, rfl⟩ := List.mem_iff_getElem.mp hl
      exact h.1 ⟨i, by simpa using hi⟩ c (by simpa [Vector.get] using hd)
    · exact h.2 c hc
  generalize s.sweep.allClaims = L at hall
  induction L with
  | nil => rfl
  | cons c L ih =>
    have ih := ih fun d hd => hall d (List.mem_cons_of_mem _ hd)
    simp only [List.find?_cons]
    by_cases hc : c.job = some k
    · simp [hc, hall c List.mem_cons_self (by simp [hc])]
    · have : (c.job == some k) = false := beq_eq_false_iff_ne.mpr hc
      simpa [this] using ih

theorem newReset_eq (s : State) (kind : ResetKind) (tag : Tag) : newReset s kind tag =
    { kind := kind, tag := tag, iQuota := s.ports.i.requests.length, mQuota := s.ports.m.requests.length,
      iJobs := unendedJobs s .i, mJobs := unendedJobs s .m, iAnswered := 0, mAnswered := 0 } := by
  have : ∀ side, jobsToEnd s side = unendedJobs s side := by
    intro side
    simp only [jobsToEnd, unendedJobs]
    congr 2
    funext k
    cases jobAt s side k <;> rfl
  simp only [newReset, this]

/-- The ends of both tables' jobs, the I-table's first, told from the state before them. -/
theorem closes_both {u v w : State} (h1 : Closes u v .i (List.range 32)) (h2 : Closes v w .m (List.range 16)) :
    (∀ side k, jobAt w side k = slotAfter u side k) ∧
    (∀ side, w.port (sidePort side) =
      filledWith (u.port (sidePort side)) ((List.range side.slots).filterMap (slotPost u side))) ∧
    w.ports.s = u.ports.s ∧
    (∀ g, w.keys.groups.get g = (u.keys.groups.get g).map (fun e => { e with pins := e.pins -
      (((List.range 32).map (slotUnpin u .i g)).sum + ((List.range 16).map (slotUnpin u .m g)).sum) })) ∧
    w.bufferPort.outstanding = u.bufferPort.outstanding ++ (if u.bufferPort.faulted = true then [] else
      (List.range 32).filterMap (slotAsk u .i) ++ (List.range 16).filterMap (slotAsk u .m)) := by
  have slot : ∀ k, jobAt v .m k = jobAt u .m k ∧ ∀ j, withFinals v k j = withFinals u k j := by
    intro k
    refine ⟨by rw [h1.job, if_neg (by simp)], fun j => ?_⟩
    simp only [withFinals, h1.overtaken k (by simp)]
  have hpost : slotPost v .m = slotPost u .m := by
    funext k; simp only [slotPost, (slot k).1, (slot k).2]
  have hask : slotAsk v .m = slotAsk u .m := by
    funext k; simp only [slotAsk, (slot k).1, (slot k).2]
  have hpin : ∀ g, slotUnpin v .m g = slotUnpin u .m g := by
    intro g; funext k; simp only [slotUnpin, (slot k).1]
  have out : ∀ side k, ¬ k < side.slots → slotAfter u side k = none := by
    intro side k hk
    simp only [slotAfter]
    rcases hj : jobAt u side k with _ | j
    · rfl
    · exact absurd (slot_lt_of_jobAt hj) hk
  refine ⟨fun side k => ?_, fun side => ?_, ?_, fun g => ?_, ?_⟩
  · rw [h2.job]
    cases side with
    | i =>
      rw [if_neg (by simp), h1.job]
      by_cases hk : k < 32
      · rw [if_pos ⟨rfl, by simpa using hk⟩]
      · rw [if_neg (by simpa using hk), out .i k hk]
        rcases hj : jobAt u .i k with _ | j
        · rfl
        · exact absurd (slot_lt_of_jobAt hj) hk
    | m =>
      by_cases hk : k < 16
      · rw [if_pos ⟨rfl, by simpa using hk⟩]
        simp only [slotAfter, (slot k).1, (slot k).2]
      · rw [if_neg (by simpa using hk), out .m k hk, (slot k).1]
        rcases hj : jobAt u .m k with _ | j
        · rfl
        · exact absurd (slot_lt_of_jobAt hj) hk
  · rw [h2.port, h1.port]
    cases side with
    | i => rfl
    | m => simp only [sidePort, if_true, hpost]; rfl
  · have a := h2.port .s
    have b := h1.port .s
    simp only [sidePort, State.port, reduceCtorEq, if_false] at a b
    rw [a, b]
  · rw [h2.groups, h1.groups, hpin]
    simp [Function.comp_def, Nat.sub_sub]
  · rw [h2.outstanding, h1.outstanding, h1.faulted, hask]
    split <;> simp

/-- The taking of a reset in the terms of the state before it: `w` is the state before what follows in the same step. -/
theorem takeReset_taken (kind : ResetKind) (r : Record) (s : State) (hk : TablesByKind s) (hc : JobClaimsReciphering s) :
    ∃ u w, takeReset kind r s = settle w ∧
      (∀ side k, jobAt u side k = (jobAt s side k).map (stoppedAtTaking s side k kind.cause)) ∧
      (∀ k j, withFinals u k j = withFinals s k j) ∧
      (∀ side k, jobAt w side k = slotAfter u side k) ∧
      w.ports = { s.ports with
        i := filledWith s.ports.i (takingPosts s .i kind.cause),
        m := filledWith s.ports.m (takingPosts s .m kind.cause),
        reset := some (newReset s kind (recordTag r)) } ∧
      w.keys.cells = s.keys.cells ∧ w.keys.load = s.keys.load ∧
      (∀ g, w.keys.groups.get g = (s.keys.groups.get g).map (fun e => { e with pins := e.pins -
        (takingUnpins s .i kind.cause g + takingUnpins s .m kind.cause g) })) ∧
      w.bufferPort.faulted = s.bufferPort.faulted ∧
      (∀ side k, accessOf u (.list side k) = accessOf s (.list side k)) ∧
      w.bufferPort.outstanding = u.bufferPort.outstanding ++ (if s.bufferPort.faulted = true then [] else
        (List.range 32).filterMap (slotAsk u .i) ++ (List.range 16).filterMap (slotAsk u .m)) ∧
      w.stage = s.stage ∧ w.table = s.table ∧ w.arbiter = s.arbiter ∧ ∀ l, w.lanes.get l = laneLeft s l := by
  obtain ⟨f1, f2, f3, f4, f5, f6, f7, f8, f9⟩ := takenState_frame kind (recordTag r) s
  have fov := takenState_overtaken kind (recordTag r) s hc
  have fjob := takenState_job kind (recordTag r) s
  rw [takeReset_eq]
  generalize takenState kind (recordTag r) s = u at *
  have stop : ∀ side, Stopped u side := by
    intro side
    refine ⟨fun k j hj => ?_, by rw [f1]; simp⟩
    rw [fjob, Option.map_eq_some_iff] at hj
    obtain ⟨j', hj', rfl⟩ := hj
    refine ⟨by simp [stoppedAtTaking, endedEarly], ?_⟩
    rintro rfl e
    have e' : j'.kind = .recipher := e
    rcases hk.1 k j' hj' with h | h <;> rw [h] at e' <;> cases e'
  have h1 := foldl_closeJob (List.range 32) List.nodup_range (stop .i)
  generalize (List.range 32).foldl (fun s k => closeJob s .i k) u = v at *
  have hsm : Stopped v .m := by
    refine ⟨fun k j hj => ?_, by rw [h1.reset]; exact (stop .i).reset⟩
    rw [h1.job, if_neg (by simp)] at hj
    exact (stop .m).cause k j hj
  have h2 := foldl_closeJob (List.range 16) List.nodup_range hsm
  generalize (List.range 16).foldl (fun s k => closeJob s .m k) v = w at *
  obtain ⟨c1, c2, c3, c4, c5⟩ := closes_both h1 h2
  have wf : ∀ k j, withFinals u k j = withFinals s k j := fun k j => by simp only [withFinals, fov]
  have postEq : ∀ side, (List.range side.slots).filterMap (slotPost u side) = takingPosts s side kind.cause := by
    intro side
    simp only [takingPosts]
    congr 1
    funext k
    simp only [slotPost, fjob, wf]
    cases jobAt s side k <;> rfl
  have pinEq : ∀ side g, ((List.range side.slots).map (slotUnpin u side g)).sum = takingUnpins s side kind.cause g := by
    intro side g
    simp only [takingUnpins]
    congr 2
    funext k
    simp only [slotUnpin, fjob]
    cases jobAt s side k <;> rfl
  refine ⟨u, w, rfl, fjob, wf, c1, ?_, ?_, ?_, fun g => ?_, ?_, f8, ?_, ?_, ?_, ?_, fun l => ?_⟩
  · have a := c2 .i
    have b := c2 .m
    rw [postEq] at a b
    simp only [sidePort, State.port, f1] at a b c3
    have e := h2.events.trans (h1.events.trans (congrArg PortBlock.events f1))
    have e' := h2.reset.trans (h1.reset.trans (congrArg PortBlock.reset f1))
    generalize w.ports = q at *
    rcases q with ⟨qi, qm, qs, qe, qr⟩
    simp only at a b c3 e e'
    rw [a, b, c3, e, e']
  · rw [h2.cells, h1.cells, f2]
  · rw [h2.load, h1.load, f2]
  · rw [c4, f2, ← pinEq .i, ← pinEq .m]
    rfl
  · rw [h2.faulted, h1.faulted, f6]
  · rw [c5, f6]
  · rw [h2.stage, h1.stage, f3]
  · rw [h2.table, h1.table, f4]
  · rw [h2.arbiter, h1.arbiter, f5]
  · rw [h2.lanes, h1.lanes, f9]

/-- What follows in the same step leaves the job tables, the two master ports and the outstanding accesses. -/
theorem settle_frame (p : State) : (settle p).jobs = p.jobs ∧
    (settle p).ports.i = p.ports.i ∧ (settle p).ports.m = p.ports.m ∧ (settle p).bufferPort.outstanding = p.bufferPort.outstanding := by
  have a : ∀ q : State, (endZeroize (endEngineReset q)).jobs = q.jobs ∧ (endZeroize (endEngineReset q)).ports.i = q.ports.i ∧
      (endZeroize (endEngineReset q)).ports.m = q.ports.m ∧ (endZeroize (endEngineReset q)).bufferPort.outstanding = q.bufferPort.outstanding := by
    intro u
    by_cases h : ∃ run, u.ports.reset = some run ∧ NothingInFlight u run
    · obtain ⟨run, h1, h2⟩ := h
      rw [(endReset_done u).2 run h1 h2]
      cases run.kind <;> exact ⟨rfl, rfl, rfl, rfl⟩
    · rw [(endReset_done u).1 (fun run h1 h2 => h ⟨run, h1, h2⟩)]
      exact ⟨rfl, rfl, rfl, rfl⟩
  have b : ∀ q : State, (endDrain q).jobs = q.jobs ∧ (endDrain q).ports.i = q.ports.i ∧
      (endDrain q).ports.m = q.ports.m ∧ (endDrain q).bufferPort.outstanding = q.bufferPort.outstanding := by
    intro q
    have w : ∀ v : State, (wakeByRecord v).jobs = v.jobs ∧ (wakeByRecord v).ports = v.ports ∧ (wakeByRecord v).bufferPort = v.bufferPort := by
      intro v
      simp only [wakeByRecord]
      split <;> exact ⟨rfl, rfl, rfl⟩
    simp only [endDrain]
    split
    · rcases q.stage.waitingRetain with _ | tag
      · rw [(w _).1, (w _).2.1, (w _).2.2]
        exact ⟨rfl, rfl, rfl, rfl⟩
      · rw [(w _).1, (w _).2.1, (w _).2.2]
        exact ⟨rfl, rfl, rfl, rfl⟩
    · exact ⟨rfl, rfl, rfl, rfl⟩
  have c := (finishKeyClears_done p).1
  obtain ⟨a1, a2, a3, a4⟩ := a (endDrain (finishKeyClears p))
  obtain ⟨b1, b2, b3, b4⟩ := b (finishKeyClears p)
  rw [settle, a1, a2, a3, a4, b1, b2, b3, b4, c]
  generalize (finishKeyClears p).keys = k
  generalize clearPosts p.keys = l
  exact ⟨rfl, rfl, rfl, rfl⟩

/-! ### The ends of a bus fault -/

/-- `v` is `u` with the jobs of the slots `L` of a table ended by a bus fault. -/
structure FaultEnds (u v : State) (side : Side) (L : List Nat) : Prop where
  job : ∀ side' k', jobAt v side' k' = if side' = side ∧ k' ∈ L then none else jobAt u side' k'
  requests : ∀ p, (v.port p).requests = (u.port p).requests
  s : v.ports.s = u.ports.s
  reset : v.ports.reset = u.ports.reset
  events : v.ports.events = u.ports.events
  cells : v.keys.cells = u.keys.cells
  load : v.keys.load = u.keys.load
  groups : ∀ g, v.keys.groups.get g = (u.keys.groups.get g).map (fun e =>
    { e with pins := e.pins - (L.map (fun k => (jobAt u side k).elim 0 (fun j => j.pinned.count g))).sum })
  bufferPort : v.bufferPort = u.bufferPort
  stage : v.stage = u.stage
  table : v.table = u.table
  arbiter : v.arbiter = u.arbiter
  lanes : v.lanes = u.lanes

/-- The claim of a job that a bus fault ends is settled among the claims alone. -/
theorem settleClaim_fault (u : State) (k : Nat) :
    ∃ w, settleClaim u k (some .busFault) = u.setSweep w := by
  simp only [settleClaim]
  split
  · exact ⟨u.sweep, rfl⟩
  · split
    · exact ⟨u.sweep, rfl⟩
    · exact ⟨_, rfl⟩

theorem postJob_faultEnds (u : State) {side : Side} {k : Nat} {j F : Job} (hj : jobAt u side k = some j)
    (hp : F.pinned = j.pinned) : FaultEnds u (postJob u side k F) side [k] := by
  have hlt := slot_lt_of_jobAt hj
  have hun := unpin_pinsReleased j.pinned u.keys
  have he : ∃ w, postJob u side k F = (setJob ((post u (sidePort side) F.completion).setKeys
      (u.keys.unpin j.pinned)) side k none).setSweep w := by
    have hkeys : (post u (sidePort side) F.completion).keys = u.keys := by cases side <;> rfl
    simp only [postJob, hp, hkeys]
    rcases F.kind with _ | _ | _ | _
    case recipher => exact ⟨_, rfl⟩
    all_goals exact ⟨u.sweep, by cases side <;> rfl⟩
  obtain ⟨w, he⟩ := he
  rw [he]
  have hport : ∀ p, ((setJob ((post u (sidePort side) F.completion).setKeys
      (u.keys.unpin j.pinned)) side k none).setSweep w).port p =
      if p = sidePort side then fillReserved (u.port p) F.completion else u.port p := by
    intro p
    cases side <;> cases p <;> rfl
  constructor
  · intro side' k'
    have : jobAt ((setJob ((post u (sidePort side) F.completion).setKeys
        (u.keys.unpin j.pinned)) side k none).setSweep w) side' k' = jobAt (setJob u side k none) side' k' := by
      cases side <;> cases side' <;> rfl
    rw [this, jobAt_setJob]
    by_cases hx : side' = side ∧ k' = k
    · obtain ⟨rfl, rfl⟩ := hx
      simp [hlt]
    · rw [if_neg (fun h => hx ⟨h.1, h.2.1⟩), if_neg (by simpa using hx)]
  · intro p
    rw [hport]
    split
    · simp only [fillReserved]
      split <;> rfl
    · rfl
  · have := hport .s
    rw [if_neg (by cases side <;> simp [sidePort])] at this
    exact this
  · cases side <;> rfl
  · cases side <;> rfl
  · rw [State.setSweep_keys, setJob_keys]
    exact hun.1
  · rw [State.setSweep_keys, setJob_keys]
    exact hun.2.1
  · intro g
    rw [State.setSweep_keys, setJob_keys]
    simpa [hj] using hun.2.2 g
  · cases side <;> rfl
  · cases side <;> rfl
  · cases side <;> rfl
  · cases side <;> rfl
  · cases side <;> rfl

theorem FaultEnds.trans {u v w : State} {side : Side} {a : Nat} {L : List Nat} (ha : a ∉ L)
    (h1 : FaultEnds u v side [a]) (h2 : FaultEnds v w side L) : FaultEnds u w side (a :: L) := by
  refine ⟨fun side' k' => ?_, fun p => (h2.requests p).trans (h1.requests p), h2.s.trans h1.s, h2.reset.trans h1.reset,
    h2.events.trans h1.events, h2.cells.trans h1.cells, h2.load.trans h1.load, fun g => ?_,
    h2.bufferPort.trans h1.bufferPort, h2.stage.trans h1.stage, h2.table.trans h1.table, h2.arbiter.trans h1.arbiter,
    h2.lanes.trans h1.lanes⟩
  · rw [h2.job, h1.job]
    by_cases hs : side' = side
    · by_cases hk : k' = a
      · simp [hs, hk]
      · simp [hs, hk]
    · simp [hs]
  · rw [h2.groups, h1.groups, Option.map_map]
    congr 1
    funext e
    have : L.map (fun k => (jobAt v side k).elim 0 (fun j => j.pinned.count g)) =
        L.map (fun k => (jobAt u side k).elim 0 (fun j => j.pinned.count g)) := by
      apply List.map_congr_left
      intro k hk
      rw [h1.job, if_neg (by rintro ⟨-, h⟩; rw [List.mem_singleton] at h; exact ha (h ▸ hk))]
    simp [this, Nat.sub_sub]

theorem endOnFault_faultEnds (u : State) (side : Side) (k : Nat)
    (hc : ∀ j, jobAt u side k = some j → j.cause = some .busFault) :
    FaultEnds u (endOnFault side u k) side [k] := by
  simp only [endOnFault]
  rcases hj : jobAt u side k with _ | j
  · constructor <;> simp [hj]
  · have hc := hc j hj
    have lp : ∀ (b : State) (F : Job), F.cause = some .busFault → listOrPost b side k F = postJob b side k F := by
      intro b F hF
      simp only [listOrPost, hF, if_true]
      split <;> rfl
    simp only
    split
    · rcases hk : j.kind with _ | _ | _ | _
      case recipher =>
        obtain ⟨F, hF⟩ : ∃ F : Job, F = { j with finals := j.finalVerdicts (overtakenOf u k) } := ⟨_, rfl⟩
        have hp : F.pinned = j.pinned := by rw [hF]
        have hFc : F.cause = some .busFault := by rw [hF]; exact hc
        obtain ⟨w, hw⟩ := settleClaim_fault (setJob u side k (some F)) k
        have e : endJob u side k j = postJob ((setJob u side k (some F)).setSweep w) side k F := by
          rw [← hw, ← lp _ _ hFc, ← hc, hF, overtakenOf_eq]
          simp only [endJob, hk] <;> rfl
        rw [e]
        have hlt := slot_lt_of_jobAt hj
        have hj' : ∀ side' k', jobAt ((setJob u side k (some F)).setSweep w) side' k' =
            if side' = side ∧ k' = k then some F else jobAt u side' k' := by
          intro side' k'
          have : ∀ (v : State), jobAt (v.setSweep w) side' k' = jobAt v side' k' := fun v => by cases side' <;> rfl
          rw [this, jobAt_setJob]
          simp [hlt]
        have hF' : jobAt ((setJob u side k (some F)).setSweep w) side k = some F := by rw [hj']; simp
        have h := postJob_faultEnds ((setJob u side k (some F)).setSweep w) hF' (rfl : F.pinned = F.pinned)
        refine ⟨fun side' k' => ?_, fun p => (h.requests p).trans ?_, h.s.trans ?_, h.reset.trans ?_,
          h.events.trans ?_, h.cells.trans ?_, h.load.trans ?_, fun g => (h.groups g).trans ?_,
          h.bufferPort.trans ?_, h.stage.trans ?_, h.table.trans ?_, h.arbiter.trans ?_, h.lanes.trans ?_⟩
        · rw [h.job, hj']
          by_cases hx : side' = side ∧ k' = k
          · rw [if_pos (by simpa using hx), if_pos (by simpa using hx)]
          · rw [if_neg (by simpa using hx), if_neg hx, if_neg (by simpa using hx)]
        · cases side <;> cases p <;> rfl
        · cases side <;> rfl
        · cases side <;> rfl
        · cases side <;> rfl
        · cases side <;> rfl
        · cases side <;> rfl
        · simp only [List.map_cons, List.map_nil, hF', hj, Option.elim_some, hp, State.setSweep_keys, setJob_keys]
        all_goals cases side <;> rfl
      all_goals
        simp only [endJob, hk]
        rw [lp _ _ hc]
        exact postJob_faultEnds u hj rfl
    · exact postJob_faultEnds u hj rfl

theorem foldl_endOnFault (side : Side) (L : List Nat) (hL : L.Nodup) (u : State)
    (hc : ∀ k j, jobAt u side k = some j → j.cause = some .busFault) :
    FaultEnds u (L.foldl (endOnFault side) u) side L := by
  induction L generalizing u with
  | nil => constructor <;> simp
  | cons a L ih =>
    obtain ⟨ha, hL⟩ := List.nodup_cons.mp hL
    have h1 := endOnFault_faultEnds u side a (hc a)
    refine h1.trans ha (ih hL _ fun k j hj => ?_)
    rw [h1.job] at hj
    split at hj
    · cases hj
    · exact hc k j hj

/-- `v` is `u` with some lanes' sectors abandoned: nothing differs but the lanes' work, the sectors of the jobs and the
accesses that are no longer outstanding. -/
structure LanesQuit (u v : State) : Prop where
  pinned : ∀ side k, (jobAt v side k).map Job.pinned = (jobAt u side k).map Job.pinned
  cause : ∀ side k, (jobAt v side k).map Job.cause = (jobAt u side k).map Job.cause
  ports : v.ports = u.ports
  keys : v.keys = u.keys
  bufferPort : ∃ as, v.bufferPort = { u.bufferPort with outstanding := as } ∧ as.length ≤ u.bufferPort.outstanding.length
  stage : v.stage = u.stage
  table : v.table = u.table
  arbiter : v.arbiter = u.arbiter

theorem abandonSector_quit (u : State) (l : LaneId) :
    LanesQuit u (abandonSector u l) ∧
    ∀ l', ((abandonSector u l).lanes.get l').work = if l' = l then none else (u.lanes.get l').work := by
  rcases hw : (u.lanes.get l).work with _ | w <;> simp only [abandonSector, hw]
  · refine ⟨⟨fun _ _ => rfl, fun _ _ => rfl, rfl, rfl, ⟨_, rfl, le_rfl⟩, rfl, rfl, rfl⟩, fun l' => ?_⟩
    split
    · next h => rw [h, hw]
    · rfl
  · obtain ⟨b, hb⟩ : ∃ b, b = clearAccess (freeLane u l) (.lane l) := ⟨_, rfl⟩
    have hj : ∀ side k, jobAt b side k = jobAt u side k := by
      intro side k; rw [hb]; cases side <;> rfl
    have hlanes : ∀ l', (b.lanes.get l').work = if l' = l then none else (u.lanes.get l').work := by
      intro l'
      rw [hb]
      simp only [clearAccess, State.setBufferPort, freeLane, State.setLane]
      by_cases h : l' = l
      · subst h; rw [get_put_self, if_pos rfl]
      · rw [get_put_ne _ _ _ _ h, if_neg h]
    have b1 : b.ports = u.ports ∧ b.keys = u.keys ∧ b.stage = u.stage ∧ b.table = u.table ∧ b.arbiter = u.arbiter := by
      rw [hb]; exact ⟨rfl, rfl, rfl, rfl, rfl⟩
    have b2 : b.bufferPort = { u.bufferPort with
        outstanding := u.bufferPort.outstanding.filter (fun a => a.who != .lane l) } := by rw [hb]; rfl
    rw [← hb]
    obtain ⟨p1, p2, p3, p4, p5⟩ := b1
    have p6 : (u.bufferPort.outstanding.filter (fun a => a.who != .lane l)).length ≤ u.bufferPort.outstanding.length :=
      List.length_filter_le _ _
    simp only [endSector]
    split
    · next j0 hj0 =>
      have hlt := slot_lt_of_jobAt hj0
      refine ⟨⟨fun side k => ?_, fun side k => ?_, by rw [setJob_ports, p1], by rw [setJob_keys, p2],
        ⟨_, by rw [setJob_bufferPort, b2], p6⟩, by rw [setJob_stage, p3], by rw [setJob_table, p4],
        by rw [setJob_arbiter, p5]⟩, by rw [setJob_lanes]; exact hlanes⟩
      all_goals
        rw [jobAt_setJob]
        split
        · next hx => rw [hx.1, hx.2.1, ← hj, hj0]; rfl
        · rw [hj]
    · exact ⟨⟨fun side k => by rw [hj], fun side k => by rw [hj], p1, p2, ⟨_, b2, p6⟩, p3, p4, p5⟩, hlanes⟩

theorem LanesQuit.trans {u v w : State} (h1 : LanesQuit u v) (h2 : LanesQuit v w) : LanesQuit u w := by
  obtain ⟨as, e1, l1⟩ := h1.bufferPort
  obtain ⟨bs, e2, l2⟩ := h2.bufferPort
  refine ⟨fun side k => (h2.pinned side k).trans (h1.pinned side k),
    fun side k => (h2.cause side k).trans (h1.cause side k), h2.ports.trans h1.ports, h2.keys.trans h1.keys,
    ⟨bs, by rw [e2, e1], l2.trans ?_⟩, h2.stage.trans h1.stage, h2.table.trans h1.table, h2.arbiter.trans h1.arbiter⟩
  rw [e1]
  exact l1

theorem foldl_abandonSector (L : List LaneId) (u : State) :
    LanesQuit u (L.foldl abandonSector u) ∧ ∀ l ∈ L, ((L.foldl abandonSector u).lanes.get l).work = none := by
  have keep : ∀ (L : List LaneId) (u : State) l, (u.lanes.get l).work = none →
      ((L.foldl abandonSector u).lanes.get l).work = none := by
    intro L
    induction L with
    | nil => exact fun _ _ h => h
    | cons a L ih =>
      intro u l h
      refine ih _ l ?_
      rw [(abandonSector_quit u a).2, h]
      split <;> rfl
  induction L generalizing u with
  | nil => exact ⟨⟨fun _ _ => rfl, fun _ _ => rfl, rfl, rfl, ⟨_, rfl, le_rfl⟩, rfl, rfl, rfl⟩, by simp⟩
  | cons a L ih =>
    obtain ⟨q, h⟩ := abandonSector_quit u a
    obtain ⟨q', h'⟩ := ih (abandonSector u a)
    refine ⟨q.trans q', fun l hl => ?_⟩
    by_cases hl' : l ∈ L
    · exact h' l hl'
    · obtain rfl := (List.mem_cons.mp hl).resolve_right hl'
      refine keep L _ l ?_
      rw [h, if_pos rfl]

/-- A bus fault in the terms of the state before it: `p` is the state before what follows in the same step. -/
theorem busFault_ended (s : State) (a : Access) :
    ∃ p, busFault s a = settle p ∧ NoJobs p ∧ (∀ l, (p.lanes.get l).work = none) ∧
      p.bufferPort = { faulted := true, faultAddr := a.addr, outstanding := [] } ∧
      p.stage = s.stage ∧ p.table = s.table ∧ p.arbiter = s.arbiter ∧ p.ports.s = s.ports.s ∧
      p.ports.reset = s.ports.reset ∧ p.ports.i.requests = s.ports.i.requests ∧
      p.ports.m.requests = s.ports.m.requests ∧ p.ports.events = { s.ports.events with busFault := true } ∧
      p.keys.cells = s.keys.cells ∧ p.keys.load = s.keys.load ∧
      ∀ g, p.keys.groups.get g = (s.keys.groups.get g).map (fun e => { e with pins := e.pins - pinsHeld s g }) := by
  have drop : ∀ (L : List Access) (u : State), ∃ m d, L.foldl cutWrite u = { u with buffer := m, draws := d } := by
    intro L
    induction L with
    | nil => exact fun u => ⟨u.buffer, u.draws, rfl⟩
    | cons x L ih =>
      intro u
      obtain ⟨m, d, h⟩ := ih (cutWrite u x)
      refine ⟨m, d, ?_⟩
      rw [List.foldl_cons, h]
      simp only [cutWrite]
      split <;> rfl
  obtain ⟨s1, e1⟩ : ∃ s1, s1 = (dropAll s).setBufferPort
      { (dropAll s).bufferPort with faulted := true, faultAddr := a.addr } := ⟨_, rfl⟩
  have h1 : s1.ports = s.ports ∧ s1.keys = s.keys ∧ s1.stage = s.stage ∧ s1.table = s.table ∧ s1.arbiter = s.arbiter ∧
      s1.jobs = s.jobs ∧ s1.bufferPort = { faulted := true, faultAddr := a.addr, outstanding := [] } := by
    obtain ⟨m, d, h⟩ := drop s.bufferPort.outstanding s
    rw [e1]
    simp only [dropAll, h]
    exact ⟨rfl, rfl, rfl, rfl, rfl, rfl, rfl⟩
  obtain ⟨a1, a2, a3, a4, a5, a6, a7⟩ := h1
  obtain ⟨s2, e2⟩ : ∃ s2, s2 = abandonAll s1 := ⟨_, rfl⟩
  obtain ⟨q, ql⟩ := foldl_abandonSector (List.finRange 4) s1
  rw [← abandonAll, ← e2] at q ql
  obtain ⟨s3, e3⟩ : ∃ s3, s3 = mapJobs (mapJobs s2 .i Job.busFault) .m Job.busFault := ⟨_, rfl⟩
  have j3 : ∀ side k, jobAt s3 side k = (jobAt s2 side k).map Job.busFault := fun side k => by rw [e3, jobAt_mapJobs]
  obtain ⟨s4, e4⟩ : ∃ s4, s4 = (List.range 32).foldl (endOnFault .i) s3 := ⟨_, rfl⟩
  have f4 := foldl_endOnFault .i (List.range 32) List.nodup_range s3 (by
    intro k j hj
    rw [j3, Option.map_eq_some_iff] at hj
    obtain ⟨j', -, rfl⟩ := hj
    rfl)
  rw [← e4] at f4
  obtain ⟨s5, e5⟩ : ∃ s5, s5 = (List.range 16).foldl (endOnFault .m) s4 := ⟨_, rfl⟩
  have f5 := foldl_endOnFault .m (List.range 16) List.nodup_range s4 (by
    intro k j hj
    rw [f4.job, if_neg (by simp), j3, Option.map_eq_some_iff] at hj
    obtain ⟨j', -, rfl⟩ := hj
    rfl)
  rw [← e5] at f5
  have e : busFault s a = settle (raiseBusFault s5) := by
    rw [e5, e4, e3, e2, e1]
    rfl
  have b3 : s3.ports = s2.ports ∧ s3.keys = s2.keys ∧ s3.stage = s2.stage ∧ s3.table = s2.table ∧
      s3.arbiter = s2.arbiter ∧ s3.bufferPort = s2.bufferPort ∧ s3.lanes = s2.lanes := by
    rw [e3]
    simp only [mapJobs_keys, mapJobs_stage, mapJobs_table, mapJobs_arbiter, mapJobs_bufferPort,
      mapJobs_lanes, mapJobs_ports, and_self]
  obtain ⟨c1, c2, c3, c4, c5, c6, c7⟩ := b3
  have pin : ∀ side k (g : CellId), (jobAt s3 side k).elim 0 (fun j => j.pinned.count g) =
      (jobAt s side k).elim 0 (fun j => j.pinned.count g) := by
    intro side k g
    have h := q.pinned side k
    have h' : jobAt s1 side k = jobAt s side k := by cases side <;> simp only [jobAt, a6]
    rw [h'] at h
    rw [j3]
    rcases hx : jobAt s2 side k with _ | x <;> rcases hy : jobAt s side k with _ | y <;> rw [hx, hy] at h <;>
      simp_all [Job.busFault]
  have gone : ∀ side k, jobAt s5 side k = none := by
    intro side k
    rw [f5.job]
    split
    · rfl
    · next hn =>
      rw [f4.job]
      split
      · rfl
      · next hn' =>
        rcases hj : jobAt s3 side k with _ | j
        · rfl
        · have hlt := slot_lt_of_jobAt hj
          cases side
          · exact absurd ⟨rfl, List.mem_range.mpr hlt⟩ hn'
          · exact absurd ⟨rfl, List.mem_range.mpr hlt⟩ hn
  refine ⟨raiseBusFault s5, e, ?_, fun l => ?_, ?_, ?_, ?_, ?_, ?_, ?_, ?_, ?_, ?_, ?_, ?_, fun g => ?_⟩
  · exact ⟨(tableEmpty_iff _ _).mpr fun k => gone .i k, (tableEmpty_iff _ _).mpr fun k => gone .m k⟩
  · show (s5.lanes.get l).work = none
    rw [f5.lanes, f4.lanes, c7]
    exact ql l (List.mem_finRange l)
  · show s5.bufferPort = _
    rw [f5.bufferPort, f4.bufferPort, c6]
    obtain ⟨as, h, hle⟩ := q.bufferPort
    rw [h, a7]
    rw [a7] at hle
    rw [List.length_eq_zero_iff.mp (Nat.le_zero.mp hle)]
  · show s5.stage = _
    rw [f5.stage, f4.stage, c3, q.stage, a3]
  · show s5.table = _
    rw [f5.table, f4.table, c4, q.table, a4]
  · show s5.arbiter = _
    rw [f5.arbiter, f4.arbiter, c5, q.arbiter, a5]
  · show s5.ports.s = _
    rw [f5.s, f4.s, c1, q.ports, a1]
  · show s5.ports.reset = _
    rw [f5.reset, f4.reset, c1, q.ports, a1]
  · exact (f5.requests .i).trans ((f4.requests .i).trans (by simp only [State.port, c1, q.ports, a1]))
  · exact (f5.requests .m).trans ((f4.requests .m).trans (by simp only [State.port, c1, q.ports, a1]))
  · show { s5.ports.events with busFault := true } = _
    rw [f5.events, f4.events, c1, q.ports, a1]
  · show s5.keys.cells = _
    rw [f5.cells, f4.cells, c2, q.keys, a2]
  · show s5.keys.load = _
    rw [f5.load, f4.load, c2, q.keys, a2]
  · have m : (List.range 16).map (fun k => (jobAt s4 .m k).elim 0 (fun j => j.pinned.count g)) =
        (List.range 16).map (fun k => (jobAt s .m k).elim 0 (fun j => j.pinned.count g)) := by
      apply List.map_congr_left
      intro k _
      rw [f4.job, if_neg (by simp), pin]
    have i : (List.range 32).map (fun k => (jobAt s3 .i k).elim 0 (fun j => j.pinned.count g)) =
        (List.range 32).map (fun k => (jobAt s .i k).elim 0 (fun j => j.pinned.count g)) := by
      apply List.map_congr_left
      intro k _
      rw [pin]
    have hk : s3.keys = s.keys := by rw [c2, q.keys, a2]
    have h := (f5.groups g).trans (congrArg _ (f4.groups g))
    rw [m, i, hk, Option.map_map] at h
    have hr : (raiseBusFault s5).keys = s5.keys := rfl
    have two : ∀ A B : Nat, ((fun e : GroupRec => { e with pins := e.pins - B }) ∘
        (fun e : GroupRec => { e with pins := e.pins - A })) = fun e => { e with pins := e.pins - (A + B) } := by
      intro A B
      funext x
      simp only [Function.comp_apply, Nat.sub_sub]
    rw [two] at h
    rw [hr, h, pinsHeld]

/-! ### The Stage Controller and the lanes -/

/-- Settling a claim leaves the Stage Controller and the lanes. -/
theorem settleClaim_stage_lanes (s : State) (k : Nat) (cause : Option EndCause) :
    (settleClaim s k cause).stage = s.stage ∧ (settleClaim s k cause).lanes = s.lanes := by
  have adv : ∀ (u : State) x, (advanceMark u x).stage = u.stage ∧ (advanceMark u x).lanes = u.lanes := by
    intro u x
    simp only [advanceMark]
    split
    · exact ⟨rfl, rfl⟩
    · split <;> exact ⟨rfl, rfl⟩
  simp only [settleClaim]
  split
  · exact ⟨rfl, rfl⟩
  · split
    · exact adv _ _
    · split <;> exact ⟨rfl, rfl⟩
    all_goals exact ⟨rfl, rfl⟩

/-- So do asking for a job's list and posting its completion. -/
theorem listOrPost_stage_lanes (s : State) (side : Side) (k : Nat) (j : Job) :
    (listOrPost s side k j).stage = s.stage ∧ (listOrPost s side k j).lanes = s.lanes := by
  have posts : (postJob s side k j).stage = s.stage ∧ (postJob s side k j).lanes = s.lanes := by
    simp only [postJob]
    cases j.kind <;> simp
  simp only [listOrPost]
  split
  · split
    · exact posts
    · simp only [askAccess]
      split <;> simp
  · exact posts

/-- So does the end of a job. -/
theorem closeJob_stage_lanes (s : State) (side : Side) (k : Nat) :
    (closeJob s side k).stage = s.stage ∧ (closeJob s side k).lanes = s.lanes := by
  simp only [closeJob]
  split
  · next j _ =>
    split
    · simp only [endJob]
      have e : ∀ a b, (setJob s side k a).stage = s.stage ∧ (setJob s side k b).lanes = s.lanes := by simp
      cases j.kind with
      | recipher =>
        dsimp only
        rw [(listOrPost_stage_lanes _ _ _ _).1, (listOrPost_stage_lanes _ _ _ _).2,
          (settleClaim_stage_lanes _ _ _).1, (settleClaim_stage_lanes _ _ _).2]
        exact e _ _
      | read => exact listOrPost_stage_lanes _ _ _ _
      | write => exact listOrPost_stage_lanes _ _ _ _
      | screen => exact listOrPost_stage_lanes _ _ _ _
    · exact ⟨rfl, rfl⟩
  · exact ⟨rfl, rfl⟩

/-- Outside a drain, what follows in the same step leaves the Stage Controller and the lanes. -/
theorem settle_stage_lanes {p : State} (h : p.stage.stage ≠ .draining) :
    (settle p).stage = p.stage ∧ (settle p).lanes = p.lanes := by
  obtain ⟨q, u, hq, hu, ht⟩ := settle_follows p
  generalize settle p = t at *
  have eq : q.stage = p.stage ∧ q.lanes = p.lanes := by rw [hq.1]; exact ⟨rfl, rfl⟩
  have eu : u = q := hu.1 (.inl (by rw [eq.1]; exact h))
  subst eu
  by_cases hr : ∃ run, u.ports.reset = some run ∧ NothingInFlight u run
  · obtain ⟨run, h1, h2⟩ := hr
    rw [ht.2 run h1 h2]
    cases run.kind <;> exact eq
  · rw [ht.1 (fun run h1 h2 => hr ⟨run, h1, h2⟩)]
    exact eq

/-- The taking of a reset outside a drain leaves the Stage Controller, a test run in progress with it, and frees each lane
that is not in WRITING (R16, R89, R161, row 7 of R164). -/
theorem takeReset_stage_lanes (kind : ResetKind) (r : Record) {s : State} (h : s.stage.stage ≠ .draining) :
    (takeReset kind r s).stage = s.stage ∧ ∀ l, (takeReset kind r s).lanes.get l = laneLeft s l := by
  have fold : ∀ side (L : List Nat) (u : State), (L.foldl (fun s k => closeJob s side k) u).stage = u.stage ∧
      (L.foldl (fun s k => closeJob s side k) u).lanes = u.lanes := by
    intro side L
    induction L with
    | nil => exact fun _ => ⟨rfl, rfl⟩
    | cons k L ih =>
      intro u
      rw [List.foldl_cons, (ih _).1, (ih _).2]
      exact closeJob_stage_lanes u side k
  obtain ⟨-, -, f3, -, -, -, -, -, f9⟩ := takenState_frame kind (recordTag r) s
  rw [takeReset_eq]
  have e := settle_stage_lanes (p := (List.range 16).foldl (fun s k => closeJob s .m k)
    ((List.range 32).foldl (fun s k => closeJob s .i k) (takenState kind (recordTag r) s)))
    (by rw [(fold _ _ _).1, (fold _ _ _).1, f3]; exact h)
  rw [e.1, e.2, (fold _ _ _).1, (fold _ _ _).2, (fold _ _ _).1, (fold _ _ _).2]
  exact ⟨f3, f9⟩

end Sys2Proof.Machine
end

