-- ==== Sys2Proof/Laws/Erase.lean ====
section
/-! SUPPORT. The jobs a Range Erase ends in its own step (R118, R119), what one end does and what all of them do together, and
the state they leave in the terms of the state before the erase. -/

namespace Sys2Proof.Machine

/-! ### One slot -/

/-- The job an erase leaves in a slot whose job it cancels. -/
def erasedSlot (s : State) (k : Nat) (j : Job) : Option Job :=
  if .inLane ∈ j.sectors then some j
  else if j.list = none then none
  else some { j with finals := j.finalVerdicts (overtakenOf s k), phase := .listing }

/-- The completion an erase posts for slot `k`, if any. -/
def erasePost (s : State) (x : RangeId) (k : Nat) : Option Completion :=
  (erasedJob s x k).bind (fun j =>
    if .inLane ∉ j.sectors ∧ j.list = none then
      some ({ j with finals := j.finalVerdicts (overtakenOf s k) }).completion
    else none)

/-- The list write an erase asks for in slot `k`, if any. -/
def eraseAsk (s : State) (x : RangeId) (k : Nat) : Option Access :=
  (erasedJob s x k).bind (fun j =>
    if .inLane ∉ j.sectors then
      j.list.map (fun addr =>
        { who := .list .m k, kind := .listWrite, addr := addr, len := j.count,
          bytes := ({ j with finals := j.finalVerdicts (overtakenOf s k) }).listBytes })
    else none)

/-- The pins on group `g` an erase releases in slot `k`. -/
def eraseUnpin (s : State) (x : RangeId) (g : CellId) (k : Nat) : Nat :=
  (erasedJob s x k).elim 0 (fun j => if .inLane ∉ j.sectors ∧ j.list = none then j.pinned.count g else 0)

/-- What becomes of a claim once the slots `L` are done. -/
def claimAfter (s : State) (x : RangeId) (L : List Nat) (c : Claim) : Option Claim :=
  match c.job with
  | some k => if k ∈ L then erasedClaim s x c else some c
  | none => some c

theorem claimAfter_other {s : State} {x : RangeId} {L : List Nat} {c : Claim} (h : ∀ k ∈ L, c.job ≠ some k) :
    claimAfter s x L c = some c := by
  simp only [claimAfter]
  split
  · next k hk => rw [if_neg (fun hL => h k hL hk)]
  · rfl

theorem erasedClaim_job {s : State} {x : RangeId} {c d : Claim} (h : erasedClaim s x c = some d) :
    d.job = c.job ∧ d.overtaken = c.overtaken := by
  simp only [erasedClaim] at h
  split at h
  · split at h
    · cases h; exact ⟨rfl, rfl⟩
    · split at h
      · cases h
      · cases h; exact ⟨rfl, rfl⟩
  · cases h; exact ⟨rfl, rfl⟩

theorem claimAfter_cons {s : State} {x : RangeId} {a : Nat} {L : List Nat} (ha : a ∉ L) (c : Claim) :
    (claimAfter s x [a] c).bind (claimAfter s x L) = claimAfter s x (a :: L) c := by
  rcases hj : c.job with _ | k
  · simp [claimAfter, hj]
  · by_cases hk : k = a
    · subst hk
      have h1 : claimAfter s x [k] c = erasedClaim s x c := by simp [claimAfter, hj]
      have h2 : claimAfter s x (k :: L) c = erasedClaim s x c := by simp [claimAfter, hj]
      rw [h1, h2]
      rcases hd : erasedClaim s x c with _ | d
      · rfl
      · refine claimAfter_other (fun k' hk' he => ?_)
        rw [(erasedClaim_job hd).1, hj] at he
        cases he
        exact ha hk'
    · have h1 : claimAfter s x [a] c = some c := by simp [claimAfter, hj, hk]
      rw [h1]
      simp [claimAfter, hj, hk]

theorem find_filterMap_other {f : Claim → Option Claim} {k : Nat} (hs : ∀ c, c.job = some k → f c = some c)
    (hf : ∀ c d, f c = some d → d.job = c.job) (L : List Claim) :
    (L.filterMap f).find? (fun c => c.job == some k) = L.find? (fun c => c.job == some k) := by
  induction L with
  | nil => rfl
  | cons c L ih =>
    by_cases hc : c.job = some k
    · simp [hs c hc, hc]
    · rcases hd : f c with _ | d
      · simp [hd, hc, ih]
      · simp [hd, hc, (hf c d hd), ih]

/-- `v` is `u` with the jobs ended that a Range Erase of `x` from `s` cancels in the slots `L`, in that order. -/
structure EraseEnds (s : State) (x : RangeId) (u v : State) (L : List Nat) : Prop where
  jobsI : v.jobs.i = u.jobs.i
  job : ∀ k, jobAt v .m k =
    if k ∈ L then (match erasedJob s x k with | some j => erasedSlot s k j | none => jobAt u .m k) else jobAt u .m k
  cells : v.keys.cells = u.keys.cells
  load : v.keys.load = u.keys.load
  groups : ∀ g, v.keys.groups.get g =
    (u.keys.groups.get g).map (fun e => { e with pins := e.pins - (L.map (eraseUnpin s x g)).sum })
  marks : v.sweep.marks = u.sweep.marks
  claims : ∀ q, v.sweep.claims.get q = (u.sweep.claims.get q).filterMap (claimAfter s x L)
  cancelled : v.sweep.cancelled = u.sweep.cancelled.filterMap (claimAfter s x L)
  rest : v = { u.setPort .m (filledWith u.ports.m (L.filterMap (erasePost s x))) with
    jobs := v.jobs, keys := v.keys, sweep := v.sweep,
    bufferPort := { u.bufferPort with outstanding := u.bufferPort.outstanding ++ L.filterMap (eraseAsk s x) } }

/-- The slots `L` of `u` hold the jobs that a Range Erase of `x` from `s` cancels, as they stood. -/
structure EraseHolds (s : State) (x : RangeId) (u : State) (L : List Nat) : Prop where
  faulted : u.bufferPort.faulted = false
  job : ∀ k ∈ L, erasesJob s x k = true → ∃ j, jobAt s .m k = some j ∧ jobAt u .m k = some j ∧ j.kind = .recipher ∧
    j.phase = .running ∧ j.cause = none ∧ overtakenOf u k = overtakenOf s k

theorem erasedJob_eq (s : State) (x : RangeId) (k : Nat) :
    erasedJob s x k = if erasesJob s x k = true then (jobAt s .m k).map (endedEarly .sweepCancelled) else none := rfl

theorem endedEarly_allEnded (c : EndCause) (j : Job) :
    (endedEarly c j).allEnded = true ↔ .inLane ∉ (endedEarly c j).sectors := by
  simp only [Job.allEnded, endedEarly, List.all_eq_true, List.mem_map]
  constructor
  · rintro h ⟨st, hst, he⟩
    have := h _ ⟨st, hst, rfl⟩
    rw [he] at this
    cases this
  · rintro h _ ⟨st, hst, rfl⟩
    cases st with
    | waiting => rfl
    | inLane => exact absurd ⟨_, hst, by simp⟩ h
    | ended v => rfl

theorem mem_allClaims (w : SweepUnit) (d : Claim) : d ∈ w.allClaims ↔ (∃ x, d ∈ w.claims.get x) ∨ d ∈ w.cancelled := by
  simp only [SweepUnit.allClaims, List.mem_append, List.mem_flatten]
  apply or_congr_left
  constructor
  · rintro ⟨l, hl, hd⟩
    obtain ⟨i, hi, rfl⟩ := List.mem_iff_getElem.mp hl
    exact ⟨⟨i, by simpa using hi⟩, by simpa [Vector.get] using hd⟩
  · rintro ⟨x, hd⟩
    exact ⟨_, List.mem_iff_getElem.mpr ⟨x.1, by simp, rfl⟩, by simpa [Vector.get] using hd⟩

theorem get_map_vec {α β : Type} {n : Nat} (v : Vector α n) (f : α → β) (i : Fin n) : (v.map f).get i = f (v.get i) := by
  simp [Vector.get]

/-- The end of a RECIPHER job makes its final verdicts and settles its claim first (R132). -/
theorem endJob_recipher (s : State) (side : Side) (k : Nat) (j : Job) (h : j.kind = .recipher) :
    endJob s side k j =
      let F : Job := { j with finals := j.finalVerdicts (overtakenOf s k) }
      listOrPost (settleClaim (setJob s side k (some F)) k j.cause) side k F := by
  rcases j with ⟨t, kd⟩
  simp only at h
  subst h
  rfl

/-- A RECIPHER's claim settled on a cancelled sweep: its set is frozen (R132). -/
theorem settleClaim_cancelled (u : State) (k : Nat) :
    settleClaim u k (some .sweepCancelled) = changeClaimOfJob u k (fun c => { c with frozen := true }) := by
  simp only [settleClaim]
  split
  · next hn =>
    have hj : ∀ d ∈ u.sweep.allClaims, d.job ≠ some k := by
      intro d hd
      simpa using List.find?_eq_none.mp hn d hd
    have same : ∀ l : List Claim, (∀ d ∈ l, d.job ≠ some k) →
        l.map (fun c => if c.job = some k then { c with frozen := true } else c) = l := by
      intro l hl
      exact (List.map_congr_left fun d hd => if_neg (hl d hd)).trans (List.map_id l)
    have hm : u.sweep.mapClaims (fun c => if c.job = some k then { c with frozen := true } else c) = u.sweep := by
      have h1 : u.sweep.claims.map (List.map (fun c => if c.job = some k then { c with frozen := true } else c)) =
          u.sweep.claims := by
        apply vector_ext_get
        intro i
        rw [get_map_vec]
        exact same _ fun d hd => hj d ((mem_allClaims _ _).mpr (.inl ⟨i, hd⟩))
      have h2 := same u.sweep.cancelled fun d hd => hj d ((mem_allClaims _ _).mpr (.inr hd))
      simp only [SweepUnit.mapClaims, h1, h2]
    simp only [changeClaimOfJob, hm]
    rfl
  · rfl

/-- One slot of an erase. -/
theorem eraseOne_ends {s u : State} {x : RangeId} {k : Nat} (h : EraseHolds s x u [k]) :
    EraseEnds s x u (if erasesJob s x k = true then cancelJob u k else u) [k] := by
  by_cases he : erasesJob s x k = true
  · obtain ⟨j, hs, hu, hk, hp, hc, ho⟩ := h.job k (by simp) he
    have hlt := slot_lt_of_jobAt hu
    obtain ⟨cut, hcut⟩ : ∃ cut, cut = endedEarly .sweepCancelled j := ⟨_, rfl⟩
    have ej : erasedJob s x k = some cut := by rw [erasedJob_eq, if_pos he, hs, hcut]; rfl
    have hcutk : cut.kind = .recipher ∧ cut.phase = .running ∧ cut.cause = some .sweepCancelled := by
      rw [hcut]
      exact ⟨hk, hp, by simp [endedEarly, hc]⟩
    obtain ⟨k1, k2, k3⟩ := hcutk
    have e0 : (if erasesJob s x k = true then cancelJob u k else u) = closeJob (setJob u .m k (some cut)) .m k := by
      rw [if_pos he]
      simp only [cancelJob, hu, stop_eq, hcut]
    have hjc : jobAt (setJob u .m k (some cut)) .m k = some cut := by simp [jobAt_setJob, hlt]
    rw [e0]
    by_cases hin : .inLane ∈ cut.sectors
    · have e1 : closeJob (setJob u .m k (some cut)) .m k = setJob u .m k (some cut) := by
        simp only [closeJob, hjc]
        rw [if_neg]
        rintro ⟨-, ha⟩
        rw [hcut] at ha hin
        exact (endedEarly_allEnded _ _).mp ha hin
      have c1 : ∀ c, claimAfter s x [k] c = some c := by
        intro c
        simp only [claimAfter]
        split
        · next k' hk' =>
          split
          · next hm =>
            rw [List.mem_singleton] at hm
            simp [erasedClaim, hk', hm, ej, hin]
          · rfl
        · rfl
      have p1 : erasePost s x k = none := by simp [erasePost, ej, hin]
      have a1 : eraseAsk s x k = none := by simp [eraseAsk, ej, hin]
      have u1 : ∀ g, eraseUnpin s x g k = 0 := by intro g; simp [eraseUnpin, ej, hin]
      rw [e1]
      refine ⟨rfl, fun k' => ?_, rfl, rfl, fun g => ?_, rfl, fun q => ?_, ?_, ?_⟩
      · rw [jobAt_setJob]
        by_cases hkk : k' = k
        · subst hkk
          simp [hlt, ej, erasedSlot, hin]
        · simp [hkk]
      · simp [u1]
      · simp [c1]
      · simp [c1]
      · simp [p1, a1, filledWith]
        rfl
    · have hall : cut.allEnded = true := by rw [hcut] at hin ⊢; exact (endedEarly_allEnded _ _).mpr hin
      obtain ⟨F, hF⟩ : ∃ F : Job, F = { cut with finals := cut.finalVerdicts (overtakenOf s k) } := ⟨_, rfl⟩
      have hov : overtakenOf (setJob u .m k (some cut)) k = overtakenOf s k := ho
      have F1 : F.kind = .recipher := by rw [hF]; exact k1
      have F2 : F.cause = some .sweepCancelled := by rw [hF]; exact k3
      have F3 : F.list = cut.list := by rw [hF]
      have F4 : F.pinned = cut.pinned := by rw [hF]
      obtain ⟨b, hb⟩ : ∃ b, b = changeClaimOfJob (setJob u .m k (some F)) k (fun c => { c with frozen := true }) := ⟨_, rfl⟩
      have e1 : closeJob (setJob u .m k (some cut)) .m k = listOrPost b .m k F := by
        simp only [closeJob, hjc]
        rw [if_pos ⟨k2, hall⟩]
        rw [endJob_recipher _ _ _ _ k1, hov, ← hF]
        simp only [setJob_setJob, k3, settleClaim_cancelled, ← hb]
      rw [e1]
      rcases hl : cut.list with _ | addr
      · have e2 : listOrPost b .m k F = postJob b .m k F := by simp only [listOrPost, F3, hl]
        have hun := unpin_pinsReleased F.pinned u.keys
        have c1 : ∀ c, claimAfter s x [k] c = if c.job = some k then none else some c := by
          intro c
          simp only [claimAfter]
          split
          · next k' hk' =>
            by_cases hm : k' = k
            · subst hm
              simp [erasedClaim, hk', ej, hin, hl]
            · simp [hk', hm]
          · next hn => simp [hn]
        have p1 : erasePost s x k = some F.completion := by simp [erasePost, ej, hin, hl, hF]
        have a1 : eraseAsk s x k = none := by simp [eraseAsk, ej, hin, hl]
        have u1 : ∀ g, eraseUnpin s x g k = F.pinned.count g := by intro g; simp [eraseUnpin, ej, hin, hl, F4]
        have e3 : postJob b .m k F =
            { u.setPort .m (fillReserved u.ports.m F.completion) with
              jobs := { u.jobs with m := (u.jobs.m.setIfInBounds k (some F)).setIfInBounds k none },
              keys := u.keys.unpin F.pinned,
              sweep := (u.sweep.mapClaims (fun c => if c.job = some k then { c with frozen := true } else c)).filterClaims
                (fun c => c.job != some k) } := by
          simp only [postJob, F1, hb]
          rfl
        have cl : ∀ l : List Claim, (l.map (fun c => if c.job = some k then { c with frozen := true } else c)).filter
            (fun c => c.job != some k) = l.filterMap (claimAfter s x [k]) := by
          intro l
          induction l with
          | nil => rfl
          | cons c l ih =>
            by_cases hcj : c.job = some k
            · simp [hcj, c1, ih]
            · simp [hcj, c1, ih]
        have jm : ∀ k', jobAt (postJob b .m k F) .m k' = jobAt (setJob (setJob u .m k (some F)) .m k none) .m k' := by
          intro k'
          rw [e3]
          rfl
        rw [e2]
        refine ⟨?_, fun k' => ?_, ?_, ?_, fun g => ?_, ?_, fun q => ?_, ?_, ?_⟩
        · exact (congrArg (fun v : State => v.jobs.i) e3).trans rfl
        · rw [jm, setJob_setJob, jobAt_setJob]
          by_cases hkk : k' = k
          · subst hkk
            simp [hlt, ej, erasedSlot, hin, hl]
          · simp [hkk]
        · rw [e3]; exact hun.1
        · rw [e3]; exact hun.2.1
        · rw [e3]
          simpa [u1] using hun.2.2 g
        · rw [e3]; rfl
        · rw [e3]
          simp only [SweepUnit.filterClaims, SweepUnit.mapClaims, get_map_vec]
          exact cl _
        · rw [e3]
          exact cl _
        · rw [e3]
          simp [p1, a1, fillReserved_eq]
      · obtain ⟨A, hA⟩ : ∃ A : Access, A =
            { who := .list .m k, kind := .listWrite, addr := addr, len := F.count, bytes := F.listBytes } := ⟨_, rfl⟩
        have e2 : listOrPost b .m k F = askAccess (setJob b .m k (some { F with phase := .listing })) A := by
          simp only [listOrPost, F3, hl, hA]
          rw [if_neg (by rw [F2]; simp)]
        have c1 : ∀ c, claimAfter s x [k] c = some (if c.job = some k then { c with frozen := true } else c) := by
          intro c
          simp only [claimAfter]
          split
          · next k' hk' =>
            by_cases hm : k' = k
            · subst hm
              simp [erasedClaim, hk', ej, hin, hl]
            · simp [hk', hm]
          · next hn => simp [hn]
        have p1 : erasePost s x k = none := by simp [erasePost, ej, hin, hl]
        have a1 : eraseAsk s x k = some A := by simp [eraseAsk, ej, hin, hl, hA, hF]
        have u1 : ∀ g, eraseUnpin s x g k = 0 := by intro g; simp [eraseUnpin, ej, hin, hl]
        have e3 : askAccess (setJob b .m k (some { F with phase := .listing })) A =
            { u with
              jobs := { u.jobs with
                m := (u.jobs.m.setIfInBounds k (some F)).setIfInBounds k (some { F with phase := .listing }) },
              bufferPort := { u.bufferPort with outstanding := u.bufferPort.outstanding ++ [A] },
              sweep := u.sweep.mapClaims (fun c => if c.job = some k then { c with frozen := true } else c) } := by
          simp only [askAccess, hb]
          rw [if_neg (by rw [setJob_bufferPort]; show ¬ u.bufferPort.faulted = true; simp [h.faulted])]
          rfl
        have cl : ∀ l : List Claim, l.map (fun c => if c.job = some k then { c with frozen := true } else c) =
            l.filterMap (claimAfter s x [k]) := by
          intro l
          induction l with
          | nil => rfl
          | cons c l ih => rw [List.map_cons, List.filterMap_cons, c1, ih]
        have jm : ∀ k', jobAt (askAccess (setJob b .m k (some { F with phase := .listing })) A) .m k' =
            jobAt (setJob (setJob u .m k (some F)) .m k (some { F with phase := .listing })) .m k' := by
          intro k'
          rw [e3]
          rfl
        rw [e2]
        refine ⟨?_, fun k' => ?_, ?_, ?_, fun g => ?_, ?_, fun q => ?_, ?_, ?_⟩
        · rw [e3]
        · rw [jm, setJob_setJob, jobAt_setJob]
          by_cases hkk : k' = k
          · subst hkk
            simp [hlt, ej, erasedSlot, hin, hl, hF]
          · simp [hkk]
        · rw [e3]
        · rw [e3]
        · rw [e3]
          simp [u1]
        · rw [e3]; rfl
        · rw [e3]
          simp only [SweepUnit.mapClaims, get_map_vec]
          exact cl _
        · rw [e3]
          exact cl _
        · rw [e3]
          simp [p1, a1, filledWith, State.setPort]
  · rw [if_neg he]
    have ej : erasedJob s x k = none := by rw [erasedJob_eq, if_neg he]
    have c1 : ∀ c, claimAfter s x [k] c = some c := by
      intro c
      simp only [claimAfter]
      split
      · next k' hk' =>
        split
        · next hm =>
          rw [List.mem_singleton] at hm
          simp [erasedClaim, hk', hm, ej]
        · rfl
      · rfl
    have p1 : erasePost s x k = none := by simp [erasePost, ej]
    have a1 : eraseAsk s x k = none := by simp [eraseAsk, ej]
    have u1 : ∀ g, eraseUnpin s x g k = 0 := by intro g; simp [eraseUnpin, ej]
    refine ⟨rfl, fun k' => ?_, rfl, rfl, fun g => ?_, rfl, fun q => ?_, ?_, ?_⟩
    · by_cases hkk : k' = k
      · subst hkk
        simp [ej]
      · simp [hkk]
    · simp [u1]
    · simp [c1]
    · simp [c1]
    · simp [p1, a1, filledWith, State.setPort]


theorem EraseEnds.refl (s : State) (x : RangeId) (u : State) : EraseEnds s x u u [] := by
  have c1 : ∀ c, claimAfter s x [] c = some c := fun c => claimAfter_other (by simp)
  constructor <;> simp [c1, filledWith, State.setPort]

/-- Slots after slots. -/
theorem EraseEnds.cons {s : State} {x : RangeId} {u v w : State} {a : Nat} {L : List Nat} (ha : a ∉ L)
    (h1 : EraseEnds s x u v [a]) (h2 : EraseEnds s x v w L) : EraseEnds s x u w (a :: L) := by
  have hb1 : v.bufferPort = { u.bufferPort with
      outstanding := u.bufferPort.outstanding ++ [a].filterMap (eraseAsk s x) } := by rw [h1.rest]
  have hp1 : v.ports = { u.ports with m := filledWith u.ports.m ([a].filterMap (erasePost s x)) } := by rw [h1.rest]; rfl
  refine ⟨h2.jobsI.trans h1.jobsI, fun k => ?_, h2.cells.trans h1.cells, h2.load.trans h1.load, fun g => ?_,
    h2.marks.trans h1.marks, fun q => ?_, ?_, ?_⟩
  · rw [h2.job, h1.job]
    by_cases hk : k = a
    · subst hk
      simp [ha]
    · simp [hk]
  · rw [h2.groups, h1.groups]
    simp [Function.comp_def, Nat.sub_sub]
  · rw [h2.claims, h1.claims, List.filterMap_filterMap]
    exact List.filterMap_congr fun c _ => claimAfter_cons ha c
  · rw [h2.cancelled, h1.cancelled, List.filterMap_filterMap]
    exact List.filterMap_congr fun c _ => claimAfter_cons ha c
  · refine h2.rest.trans ?_
    have la : ∀ {β : Type} (f : Nat → Option β), (a :: L).filterMap f = [a].filterMap f ++ L.filterMap f := fun f => by
      rw [← List.filterMap_append]
      rfl
    rw [hb1, hp1, filledWith_append, List.append_assoc, la, la]
    have e := h1.rest
    generalize w.jobs = wj at *
    generalize w.keys = wk at *
    generalize w.sweep = ws at *
    generalize v.jobs = vj at *
    generalize v.keys = vk at *
    generalize v.sweep = vs at *
    subst e
    rfl

theorem EraseEnds.holds {s : State} {x : RangeId} {u v : State} {a : Nat} {L : List Nat} (ha : a ∉ L)
    (h : EraseEnds s x u v [a]) (hu : EraseHolds s x u (a :: L)) : EraseHolds s x v L := by
  refine ⟨?_, fun k hk he => ?_⟩
  · rw [h.rest]
    exact hu.faulted
  · obtain ⟨j, h1, h2, h3, h4, h5, h6⟩ := hu.job k (List.mem_cons_of_mem _ hk) he
    have hka : k ≠ a := by rintro rfl; exact ha hk
    refine ⟨j, h1, ?_, h3, h4, h5, h6 ▸ ?_⟩
    · rw [h.job, if_neg (by simpa using hka), h2]
    · have hall : v.sweep.allClaims = u.sweep.allClaims.filterMap (claimAfter s x [a]) := by
        have : v.sweep.claims = u.sweep.claims.map (List.filterMap (claimAfter s x [a])) := by
          apply vector_ext_get
          intro q
          rw [h.claims, get_map_vec]
        have h' : (u.sweep.claims.map (List.filterMap (claimAfter s x [a]))).toList =
            u.sweep.claims.toList.map (List.filterMap (claimAfter s x [a])) := Vector.toList_map
        simp only [SweepUnit.allClaims, this, h.cancelled, h', List.filterMap_append, List.filterMap_flatten]
      rw [overtakenOf_map, overtakenOf_map, hall, find_filterMap_other]
      · intro c hc
        exact claimAfter_other (by simp [hc, hka])
      · intro c d hd
        simp only [claimAfter] at hd
        split at hd
        · split at hd
          · exact (erasedClaim_job hd).1
          · cases hd; rfl
        · cases hd; rfl

/-- The slots of a list of an erase. -/
theorem foldl_eraseOne {s : State} {x : RangeId} (L : List Nat) (hL : L.Nodup) {u : State} (h : EraseHolds s x u L) :
    EraseEnds s x u (L.foldl (fun t k => if erasesJob s x k = true then cancelJob t k else t) u) L := by
  induction L generalizing u with
  | nil => exact EraseEnds.refl s x u
  | cons a L ih =>
    obtain ⟨ha, hL⟩ := List.nodup_cons.mp hL
    have h1 : EraseEnds s x u (if erasesJob s x a = true then cancelJob u a else u) [a] :=
      eraseOne_ends ⟨h.faulted, fun k hk => h.job k (by rw [List.mem_singleton] at hk; rw [hk]; exact List.mem_cons_self)⟩
    exact h1.cons ha (ih hL (h1.holds ha h))

/-! ### The whole erase -/

/-- The old groups unbound and the new one bound (R117), in the terms of R48. -/
theorem replaceBindings_groups {s : State} {x : RangeId} {b old : Binding} (h : (s.table.entry x).current = some old) :
    (replaceBindings s x b).keys = { s.keys with
      groups := boundTo (unboundAll s.keys.groups (bindingsOf (s.table.entry x))) b.group
        (some { range := x, slot := .current }) } := by
  show ((s.keys.unbind (s.table.entry x).current).unbind (s.table.entry x).previous).setBound b.group _ = _
  rw [h, bindingsOf]
  rcases hp : (s.table.entry x).previous with _ | p <;> simp [h] <;> rfl

/-- The claims' overtaken sets are as they were once the cancelled claims have left the list (R118). -/
theorem cancelSweep_overtaken {s : State} {x : RangeId} {k : Nat} {c : Claim} (hm : c ∈ s.sweep.claims.get x)
    (hc : c.state = .reciphering) (h : HoldsClaim s k c) : overtakenOf (cancelSweep s x) k = overtakenOf s k := by
  have h1 : overtakenOf s k = c.overtaken := by
    have := claimOfJob_of_holds h
    rw [overtakenOf_eq, this]
  obtain ⟨-, hj, hl, hd⟩ := h
  have all : ∀ d ∈ (cancelSweep s x).sweep.allClaims, d.job = some k → d.overtaken = c.overtaken := by
    intro d hd' hdj
    rcases (mem_allClaims _ _).mp hd' with ⟨q, hq⟩ | hq
    · have hq' : d ∈ (put s.sweep.claims x []).get q := hq
      rw [get_put] at hq'
      split at hq'
      · simp at hq'
      · rw [hl q d hq' hdj]
    · have hq' : d ∈ s.sweep.cancelled ++ eraseCancels s x := hq
      rcases List.mem_append.mp hq' with hq' | hq'
      · rw [hd d hq' hdj]
      · simp only [eraseCancels, List.mem_map, List.mem_filter] at hq'
        obtain ⟨d', ⟨hd1, -⟩, rfl⟩ := hq'
        rw [hl x d' hd1 hdj]
  have here : { c with cancelled := true } ∈ (cancelSweep s x).sweep.allClaims := by
    refine (mem_allClaims _ _).mpr (.inr ?_)
    show _ ∈ s.sweep.cancelled ++ eraseCancels s x
    refine List.mem_append.mpr (.inr ?_)
    simp only [eraseCancels, List.mem_map, List.mem_filter]
    exact ⟨c, ⟨hm, by simp [hc]⟩, rfl⟩
  rw [h1, overtakenOf_eq]
  rcases hf : claimOfJob (cancelSweep s x) k with _ | d
  · have := List.find?_eq_none.mp hf _ here
    simp [hj] at this
  · have e := List.find?_some hf
    simp only [beq_iff_eq] at e
    exact all d (List.mem_of_find?_eq_some hf) e

/-- A Range Erase of a range whose RECIPHERING claims each hold a RUNNING job: the jobs end slot by slot, and what follows
comes next (R117 to R119). -/
theorem eraseRange_ends {s : State} {x : RangeId} (b : Binding) (h : RecipheringHeld s x) (hf : s.bufferPort.faulted = false) :
    ∃ p, eraseRange s x b = settle p ∧
      EraseEnds s x (cancelSweep (replaceBindings s x b) x) p (List.range 16) := by
  refine ⟨_, rfl, foldl_eraseOne _ List.nodup_range ⟨hf, fun k _ he => ?_⟩⟩
  simp only [erasesJob, List.any_eq_true, Bool.and_eq_true, beq_iff_eq] at he
  obtain ⟨c, hm, hc, hk⟩ := he
  obtain ⟨k', j, hh, hj, h1, h2, h3⟩ := h c hm hc
  have : k' = k := by
    have := hh.2.1
    rw [hk] at this
    cases this
    rfl
  subst this
  exact ⟨j, hj, hj, h1, h2, h3, cancelSweep_overtaken (s := replaceBindings s x b) hm hc hh⟩

theorem claimAfter_all (s : State) (x : RangeId) (c : Claim) : claimAfter s x (List.range 16) c = erasedClaim s x c := by
  simp only [claimAfter]
  split
  · next k hk =>
    split
    · rfl
    · next hn =>
      have : erasedJob s x k = none := by
        rw [erasedJob_eq]
        split
        · rcases hj : jobAt s .m k with _ | j
          · rfl
          · exact absurd (List.mem_range.mpr (slot_lt_of_jobAt hj)) hn
        · rfl
      simp [erasedClaim, hk, this]
  · next hn => simp [erasedClaim, hn]

/-- The end of a drain with no Retain request waiting posts nothing and touches no reset. -/
theorem endDrain_ports {q : State} (h : q.stage.waitingRetain = none) :
    (endDrain q).ports.s = q.ports.s ∧ (endDrain q).ports.reset = q.ports.reset := by
  have w : ∀ v : State, (wakeByRecord v).ports = v.ports := by
    intro v
    simp only [wakeByRecord]
    split <;> rfl
  simp only [endDrain, h]
  split
  · rw [w]
    exact ⟨rfl, rfl⟩
  · exact ⟨rfl, rfl⟩

end Sys2Proof.Machine
end

