-- ==== Sys2Proof/Laws/Records.lean ====
section
/-! SUPPORT. Records assembled from fields: each field reads back, and a byte that no field names is zero (R172, R178). -/

namespace Sys2Proof.Machine

/-- Two fields of a record share no byte. -/
abbrev FieldsApart (f g : Nat × Nat × Nat) : Prop := f.1 + f.2.1 ≤ g.1 ∨ g.1 + g.2.1 ≤ f.1

/-- A bit of an assembled record is that of the field that names its byte. -/
theorem assemble_bit (fs : List (Nat × Nat × Nat)) (i : Nat) :
    (assemble fs).getLsbD i = true ↔
      i < 256 ∧ ∃ f ∈ fs, 8 * f.1 ≤ i ∧ i < 8 * (f.1 + f.2.1) ∧ f.2.2.testBit (i - 8 * f.1) = true := by
  induction fs with
  | nil => simp [assemble]
  | cons f fs ih =>
    have e : assemble (f :: fs) =
        assemble fs ||| (BitVec.ofNat 256 (f.2.2 % 2 ^ (8 * f.2.1)) <<< (8 * f.1)) := rfl
    rw [e, BitVec.getLsbD_or, Bool.or_eq_true, ih]
    simp only [BitVec.getLsbD_shiftLeft, BitVec.getLsbD_ofNat, Nat.testBit_mod_two_pow, Bool.and_eq_true,
      decide_eq_true_eq, Bool.not_eq_true', decide_eq_false_iff_not, List.mem_cons, exists_eq_or_imp]
    constructor
    · rintro (⟨h, hf⟩ | ⟨⟨h1, h2⟩, h3, h4, h5⟩)
      · exact ⟨h, .inr hf⟩
      · exact ⟨h1, .inl ⟨by omega, by omega, h5⟩⟩
    · rintro ⟨h, ⟨h1, h2, h3⟩ | hf⟩
      · exact .inr ⟨⟨h, by omega⟩, by omega, by omega, h3⟩
      · exact .inl ⟨h, hf⟩

/-- A field of an assembled record reads back, cut to its width. -/
theorem recordField_assemble {fs : List (Nat × Nat × Nat)} {f : Nat × Nat × Nat} (hp : fs.Pairwise FieldsApart)
    (hf : f ∈ fs) (hn : f.1 + f.2.1 ≤ 32) :
    recordField (assemble fs) f.1 f.2.1 = f.2.2 % 2 ^ (8 * f.2.1) := by
  have apart : ∀ g ∈ fs, g = f ∨ FieldsApart f g := by
    intro g hg
    by_cases h : g = f
    · exact .inl h
    · obtain ⟨i, hi, rfl⟩ := List.mem_iff_getElem.mp hf
      obtain ⟨k, hk, rfl⟩ := List.mem_iff_getElem.mp hg
      rw [List.pairwise_iff_getElem] at hp
      rcases Nat.lt_trichotomy i k with hik | rfl | hik
      · exact .inr (hp i k hi hk hik)
      · exact absurd rfl h
      · exact .inr (hp k i hk hi hik).symm
  apply Nat.eq_of_testBit_eq
  intro i
  simp only [recordField, ← BitVec.getLsbD.eq_def, Nat.testBit_mod_two_pow,
    BitVec.getLsbD_extractLsb']
  by_cases hi : i < 8 * f.2.1
  · simp only [hi, decide_true, Bool.true_and]
    rw [Bool.eq_iff_iff, assemble_bit]
    constructor
    · rintro ⟨-, g, hg, h1, h2, h3⟩
      rcases apart g hg with rfl | h
      · simpa using h3
      · rcases h with h | h <;> omega
    · intro h
      exact ⟨by omega, f, hf, by omega, by omega, by simpa using h⟩
  · simp [hi]

/-- A byte that no field names is zero. -/
theorem recordByte_assemble {fs : List (Nat × Nat × Nat)} {k : Nat}
    (h : ∀ f ∈ fs, k < f.1 ∨ f.1 + f.2.1 ≤ k) : recordByte (assemble fs) k = 0 := by
  apply BitVec.eq_of_getLsbD_eq
  intro i hi
  simp only [recordByte, BitVec.getLsbD_extractLsb', hi, decide_true, Bool.true_and]
  rw [Bool.eq_iff_iff, assemble_bit]
  constructor
  · rintro ⟨-, f, hf, h1, h2, -⟩
    rcases h f hf with h | h <;> omega
  · simp

/-- Bit `i` of a byte is bit `i` of the field of that byte. -/
theorem recordByte_bit (r : Record) (k i : Nat) : (recordByte r k).getLsbD i = (recordField r k 1).testBit i := by
  simp only [recordByte, recordField, BitVec.getLsbD.eq_def]

end Sys2Proof.Machine
end

