-- ==== Sys2Proof/Laws/Sector.lean ====
section
/-! SUPPORT. The arithmetic of a sector: bytes and blocks, the keys of a group, block by block what encipher and decipher
give, the mask, the check and the trailer, once each. -/

namespace Sys2Proof.Machine

/-! ### Bytes and blocks (R8) -/

@[simp] theorem blockBytes_length (b : Block) : (blockBytes b).length = 16 := by simp [blockBytes]

theorem blockBytes_get (b : Block) {i : Nat} (h : i < 16) : (blockBytes b)[i]? = some (byteAt b i) := by
  simp [blockBytes, h]

/-- Two blocks with the same sixteen bytes are one. -/
theorem block_ext {a b : Block} (h : ∀ i, i < 16 → byteAt a i = byteAt b i) : a = b := by
  apply BitVec.eq_of_getLsbD_eq
  intro i hi
  have := congrArg (fun x : Byte => x.getLsbD (i % 8)) (h (i / 8) (by omega))
  simpa [byteAt, BitVec.getLsbD_extractLsb', Nat.mod_lt, show 8 * (i / 8) + i % 8 = i by omega] using this

/-- The block of a list has the list's bytes, byte 0 first. -/
theorem byteAt_blockOf (l : List Byte) {i : Nat} (h : i < 16) (hl : l.length ≤ 16) : byteAt (blockOf l) i = (l[i]?).getD 0 := by
  induction l generalizing i with
  | nil =>
    apply BitVec.eq_of_getLsbD_eq
    intro m hm
    simp [blockOf, byteAt]
  | cons x l ih =>
    have hl' : l.length ≤ 15 := Nat.le_of_succ_le_succ hl
    apply BitVec.eq_of_getLsbD_eq
    intro m hm
    rcases i with _ | i
    · simp [blockOf, byteAt, hm]
      intro h
      omega
    · have := congrArg (fun x : Byte => x.getLsbD m) (ih (i := i) (by omega) (by omega))
      simp [blockOf, byteAt, hm, show 8 * (i + 1) + m = 8 * i + m + 8 by omega] at this ⊢
      rw [← this]
      simp [show 8 * i + m + 8 < 128 by omega]

theorem blockOf_blockBytes (b : Block) : blockOf (blockBytes b) = b := by
  apply block_ext
  intro i hi
  rw [byteAt_blockOf _ hi (by simp), blockBytes_get b hi]
  rfl

@[simp] theorem bytesOfBlocks_length (bs : List Block) : (bytesOfBlocks bs).length = 16 * bs.length := by
  induction bs with
  | nil => rfl
  | cons b bs ih =>
    have : bytesOfBlocks (b :: bs) = blockBytes b ++ bytesOfBlocks bs := rfl
    rw [this, List.length_append, ih, blockBytes_length, List.length_cons]
    omega

/-- Block `j` of a list of blocks stands at bytes 16j to 16j + 15. -/
theorem bytesOfBlocks_cut (bs : List Block) {j : Nat} {b : Block} (h : bs[j]? = some b) :
    ((bytesOfBlocks bs).drop (16 * j)).take 16 = blockBytes b := by
  induction bs generalizing j with
  | nil => cases h
  | cons a bs ih =>
    have e : bytesOfBlocks (a :: bs) = blockBytes a ++ bytesOfBlocks bs := rfl
    rcases j with _ | j
    · cases h
      rw [e, Nat.mul_zero, List.drop_zero, List.take_left' (by simp)]
    · rw [e, show 16 * (j + 1) = 16 + 16 * j by omega, ← List.drop_drop, List.drop_left' (by simp)]
      exact ih h

theorem blocksOf_get (n : Nat) (l : List Byte) {j : Nat} (h : j < n) :
    (blocksOf n l)[j]? = some (blockOf ((l.drop (16 * j)).take 16)) := by
  induction n generalizing l j with
  | zero => omega
  | succ n ih =>
    rcases j with _ | j
    · rfl
    · rw [blocksOf, List.getElem?_cons_succ, ih _ (by omega), List.drop_drop]
      rw [show 16 + 16 * j = 16 * (j + 1) by omega]

@[simp] theorem blocksOf_length (n : Nat) (l : List Byte) : (blocksOf n l).length = n := by
  induction n generalizing l with
  | zero => rfl
  | succ n ih => simp [blocksOf, ih]

/-! ### Enciphering and deciphering block by block (R8, R9) -/

theorem tweakAt_succ (t : Block) (j : Nat) : tweakAt (doubleTweak t) j = tweakAt t (j + 1) := by
  induction j with
  | zero => rfl
  | succ j ih => rw [tweakAt, ih]; rfl

theorem encipherBlocks_get (k1 : List Byte) (t : Block) (ps : List Block) (j : Nat) :
    (encipherBlocks k1 t ps)[j]? = (ps[j]?).map (fun p => aesEncipher k1 (p ^^^ tweakAt t j) ^^^ tweakAt t j) := by
  induction ps generalizing t j with
  | nil => rfl
  | cons p ps ih =>
    rcases j with _ | j
    · rfl
    · rw [encipherBlocks, List.getElem?_cons_succ, List.getElem?_cons_succ, ih, tweakAt_succ]

theorem decipherBlocks_get (k1 : List Byte) (t : Block) (cs : List Block) (j : Nat) :
    (decipherBlocks k1 t cs)[j]? = (cs[j]?).map (fun c => aesDecipher k1 (c ^^^ tweakAt t j) ^^^ tweakAt t j) := by
  induction cs generalizing t j with
  | nil => rfl
  | cons p ps ih =>
    rcases j with _ | j
    · rfl
    · rw [decipherBlocks, List.getElem?_cons_succ, List.getElem?_cons_succ, ih, tweakAt_succ]

@[simp] theorem encipherBlocks_length (k1 : List Byte) (t : Block) (ps : List Block) :
    (encipherBlocks k1 t ps).length = ps.length := by
  induction ps generalizing t with
  | nil => rfl
  | cons p ps ih => simp [encipherBlocks, ih]

@[simp] theorem decipherBlocks_length (k1 : List Byte) (t : Block) (cs : List Block) :
    (decipherBlocks k1 t cs).length = cs.length := by
  induction cs generalizing t with
  | nil => rfl
  | cons p ps ih => simp [decipherBlocks, ih]

/-- Block `j` of an enciphered data unit (R8). -/
theorem encipherUnit_cut (k : GroupKeys) (lba n : Nat) (unit : List Byte) {j : Nat} (h : j < n) :
    ((encipherUnit k lba n unit).drop (16 * j)).take 16 =
      blockBytes (aesEncipher k.k1 (blockOf ((unit.drop (16 * j)).take 16) ^^^ tweakAt (initialTweak k lba) j) ^^^
        tweakAt (initialTweak k lba) j) :=
  bytesOfBlocks_cut _ (by rw [encipherBlocks_get, blocksOf_get n unit h]; rfl)

/-- Block `j` of a deciphered data unit (R9). -/
theorem decipherUnit_cut (k : GroupKeys) (lba n : Nat) (unit : List Byte) {j : Nat} (h : j < n) :
    ((decipherUnit k lba n unit).drop (16 * j)).take 16 =
      blockBytes (aesDecipher k.k1 (blockOf ((unit.drop (16 * j)).take 16) ^^^ tweakAt (initialTweak k lba) j) ^^^
        tweakAt (initialTweak k lba) j) :=
  bytesOfBlocks_cut _ (by rw [decipherBlocks_get, blocksOf_get n unit h]; rfl)

@[simp] theorem encipherUnit_length (k : GroupKeys) (lba n : Nat) (unit : List Byte) :
    (encipherUnit k lba n unit).length = 16 * n := by simp [encipherUnit]

@[simp] theorem decipherUnit_length (k : GroupKeys) (lba n : Nat) (unit : List Byte) :
    (decipherUnit k lba n unit).length = 16 * n := by simp [decipherUnit]

/-! ### The keys of a group (R3) -/

theorem cellBytes_eq (ks : KeyStore) (c : CellId) : cellBytes ks c.1 = blockBytes (ks.cells.get c).bits := by
  simp [cellBytes, Vector.get]

/-! ### The check, the mask and the trailer (R2, R10, R11) -/

theorem crcStep_toNat (c : BitVec 32) :
    (crcStep c).toNat = Nat.xor (c.toNat / 2) (if c.toNat % 2 = 1 then 0xEDB88320 else 0) := by
  have h : c.getLsbD 0 = decide (c.toNat % 2 = 1) := by simp [BitVec.getLsbD, Nat.testBit_zero]
  simp only [crcStep, h, decide_eq_true_eq]
  rw [BitVec.toNat_xor, BitVec.toNat_ushiftRight, Nat.shiftRight_one]
  split <;> rfl

theorem crc32_append (l : List Byte) (b : Byte) :
    crc32 (l ++ [b]) ^^^ 0xFFFFFFFF#32 = crcByte (crc32 l ^^^ 0xFFFFFFFF#32) b := by
  simp [crc32, List.foldl_append]

theorem sectorMask_bytes (k : GroupKeys) (lba n : Nat) {i : Nat} (h : i < 4) :
    (sectorMask k lba n).extractLsb' (8 * i) 8 = byteAt (tweakAt (initialTweak k lba) n) i := by
  apply BitVec.eq_of_getLsbD_eq
  intro m hm
  simp [sectorMask, byteAt, hm, show 8 * i + m < 32 by omega]

theorem leBytes_get (n v : Nat) {i : Nat} (h : i < n) : (leBytes n v)[i]? = some (BitVec.ofNat 8 (v >>> (8 * i))) := by
  simp [leBytes, h]

@[simp] theorem leBytes_length (n v : Nat) : (leBytes n v).length = n := by simp [leBytes]

theorem leNat_leBytes (v : BitVec 32) : BitVec.ofNat 32 (leNat (leBytes 4 v.toNat)) = v := by
  have h : leNat (leBytes 4 v.toNat) = v.toNat := by
    have : v.toNat < 4294967296 := v.isLt
    simp only [leNat, leBytes, List.range, List.range.loop, List.map, List.foldr, BitVec.toNat_ofNat, Nat.shiftRight_eq_div_pow]
    omega
  rw [h]
  simp

@[simp] theorem trailerBytes_length (t : Trailer) : (trailerBytes t).length = 8 := by simp [trailerBytes]

theorem trailerOf_trailerBytes (t : Trailer) : trailerOf (trailerBytes t) = t := by
  have h1 : (trailerBytes t).take 4 = leBytes 4 t.epoch.toNat := List.take_left' (by simp)
  have h2 : ((trailerBytes t).drop 4).take 4 = leBytes 4 t.check.toNat := by
    rw [trailerBytes, List.drop_left' (by simp)]
    exact List.take_of_length_le (by simp)
  rw [trailerOf, h1, h2, leNat_leBytes, leNat_leBytes]

theorem trailerBytes_get (t : Trailer) {i : Nat} (h : i < 4) :
    (trailerBytes t)[i]? = some (t.epoch.extractLsb' (8 * i) 8) ∧
    (trailerBytes t)[4 + i]? = some (t.check.extractLsb' (8 * i) 8) := by
  have e : ∀ v : BitVec 32, BitVec.ofNat 8 (v.toNat >>> (8 * i)) = v.extractLsb' (8 * i) 8 := fun v => rfl
  constructor
  · rw [trailerBytes, List.getElem?_append_left (by simpa using h), leBytes_get 4 _ h, e]
  · rw [trailerBytes, List.getElem?_append_right (by simp), leBytes_length, Nat.add_sub_cancel_left, leBytes_get 4 _ h, e]

end Sys2Proof.Machine
end

