-- ==== Sys2Proof/Tests/Slice0.lean ====
section
/-! SUPPORT. Tests: ill-formed commands refused, figures of the manual and of FIPS PUB 197, a few single steps,
and for every statement with hypotheses a witness that meets them, clause by clause. -/

namespace Sys2Proof.Tests

-- One theorem after the other: the kernel evaluations below otherwise wait on each other in many threads at once.
set_option Elab.async false

open Sys2Proof Sys2Proof.Machine

/-! ## Well-formedness and the word decoder -/

theorem test_wf_refuses_empty_access : Instr.wf (.badWindowAccess .i ⟨true, 4, 0⟩) = false := by decide
theorem test_wf_refuses_record_write : Instr.wf (.badWindowAccess .i ⟨true, 0x00, 32⟩) = false := by decide
theorem test_wf_refuses_completion_read : Instr.wf (.badWindowAccess .s ⟨false, 0x20, 32⟩) = false := by decide
theorem test_wf_keeps_short_write : Instr.wf (.badWindowAccess .i ⟨true, 0x00, 31⟩) = true := by decide
theorem test_wf_keeps_count_read : Instr.wf (.badWindowAccess .i ⟨false, 0x40, 4⟩) = true := by decide
theorem test_wf_refuses_nine_trailer_bytes : Instr.wf (.trailerReadDone 0 (List.replicate 9 0)) = false := by
  decide
theorem test_wf_refuses_long_data_unit : Instr.wf (.dataUnitReadDone 0 (List.replicate 4097 0)) = false := by
  decide +kernel
theorem test_wf_refuses_list_slot : Instr.wf (.verdictListWriteDone .m 16) = false := by decide
theorem test_wf_keeps_last_slot : Instr.wf (.verdictListWriteDone .i 31) = true := by decide
theorem test_wf_refuses_error_slot : Instr.wf (.busErrorResponse (.list .i 32)) = false := by decide
theorem test_wf_refuses_response_slot : Instr.wf (.droppedAccessResponse (.list .m 16) .data) = false := by
  decide

/-- No row of the table gives bits, so no word spells a command (log entry 27). -/
theorem test_no_word_spells_a_command : decodeTableWord 32 0xFFFFFFFF = none := rfl
theorem test_fetch_word_changes_nothing : State.withFetchWord State.reset 32 1 = State.reset := rfl

/-! ## Figures -/

/-- FIPS PUB 197, appendix C.1: AES-128 of 00112233445566778899aabbccddeeff under 000102...0f. -/
theorem test_aes128_vector :
    blockBytes (aesEncipher ((List.range 16).map (BitVec.ofNat 8))
      (blockOf ((List.range 16).map (fun i => BitVec.ofNat 8 (17 * i))))) =
    [0x69, 0xc4, 0xe0, 0xd8, 0x6a, 0x7b, 0x04, 0x30, 0xd8, 0xcd, 0xb7, 0x80, 0x70, 0xb4, 0xc5, 0x5a] := by
  decide +kernel

/-- FIPS PUB 197, appendix C.3: AES-256 of the same block under 000102...1f. -/
theorem test_aes256_vector :
    blockBytes (aesEncipher ((List.range 32).map (BitVec.ofNat 8))
      (blockOf ((List.range 16).map (fun i => BitVec.ofNat 8 (17 * i))))) =
    [0x8e, 0xa2, 0xb7, 0xca, 0x51, 0x67, 0x45, 0xbf, 0xea, 0xfc, 0x49, 0x90, 0x4b, 0x49, 0x60, 0x89] := by
  decide +kernel

/-- FIPS PUB 197, appendix C.1, the inverse cipher. -/
theorem test_aes128_inverse_vector :
    blockBytes (aesDecipher ((List.range 16).map (BitVec.ofNat 8))
      (blockOf [0x69, 0xc4, 0xe0, 0xd8, 0x6a, 0x7b, 0x04, 0x30, 0xd8, 0xcd, 0xb7, 0x80, 0x70, 0xb4, 0xc5, 0x5a])) =
    (List.range 16).map (fun i => BitVec.ofNat 8 (17 * i)) := by
  decide +kernel

/-- 01_sector_cipher.md, "Worked figures: tweak blocks", LBA 1000 and LBA 2^40 - 1. -/
theorem test_tweak_blocks :
    tweakBlock 1000 = 0x03E8#128 ∧ tweakBlock (2 ^ 40 - 1) = 0xFFFFFFFFFF#128 := by decide

/-- "Worked figures: doubling", example 1. -/
theorem test_doubling_example_1 :
    (tweakAt (0x80#128 <<< 120) 1, tweakAt (0x80#128 <<< 120) 2, tweakAt (0x80#128 <<< 120) 3) =
      (0x87#128, 0x010E#128, 0x021C#128) := by decide +kernel

/-- "Worked figures: doubling", example 2. -/
theorem test_doubling_example_2 :
    (tweakAt (0xC0#128 <<< 120 ||| 1#128) 1, tweakAt (0xC0#128 <<< 120 ||| 1#128) 2) =
      (0x80#128 <<< 120 ||| 0x85#128, 0x018D#128) := by decide +kernel

/-- R10: the check of the nine ASCII bytes "123456789". -/
theorem test_crc_check_value :
    crc32 [0x31, 0x32, 0x33, 0x34, 0x35, 0x36, 0x37, 0x38, 0x39] = 0xCBF43926#32 := by decide +kernel

/-- "Worked figures: mask and masked check": the mask is bytes 0 to 3 of T2 of example 2. -/
theorem test_masked_check :
    0xCBF43926#32 ^^^ (tweakAt (0xC0#128 <<< 120 ||| 1#128) 2).setWidth 32 = 0xCBF438AB#32 := by decide +kernel

/-- IEEE Std 1619, XTS-AES-128 vector 4 (data unit 0, bytes 00, 01, ...): its first two blocks under two different keys, the
first in the base cell and the second in the next one. R3, R5, R8 are that arithmetic. -/
theorem test_two_blocks_under_two_keys :
    let key1 : List Byte := [0x27, 0x18, 0x28, 0x18, 0x28, 0x45, 0x90, 0x45, 0x23, 0x53, 0x60, 0x28, 0x74, 0x71, 0x35, 0x26]
    let key2 : List Byte := [0x31, 0x41, 0x59, 0x26, 0x53, 0x58, 0x97, 0x93, 0x23, 0x84, 0x62, 0x64, 0x33, 0x83, 0x27, 0x95]
    let ks : KeyStore :=
      { KeyStore.cleared with
        cells := put (put KeyStore.cleared.cells 8 ⟨true, blockOf key1⟩) 9 ⟨true, blockOf key2⟩,
        groups := put KeyStore.cleared.groups 8 (some ⟨.filled, .s128, none, 0, none⟩) }
    groupKeys ks 8 = some { k1 := key1, k2 := key2 } ∧
    encipherUnit { k1 := key1, k2 := key2 } 0 2 ((List.range 32).map (BitVec.ofNat 8)) =
      [0x27, 0xa7, 0x47, 0x9b, 0xef, 0xa1, 0xd4, 0x76, 0x48, 0x9f, 0x30, 0x8c, 0xd4, 0xcf, 0xa6, 0xe2,
       0xa9, 0x6e, 0x4b, 0xbe, 0x32, 0x08, 0xff, 0x25, 0x28, 0x7d, 0xd3, 0x81, 0x96, 0x16, 0xe8, 0x9c] := by
  decide +kernel

/-- R3: the four cells of an S256 group at the top of the store, the low half of each key from the lower cell. -/
theorem test_keys_of_s256 :
    let bits (n : Nat) : KeyCell := ⟨true, BitVec.ofNat 128 n⟩
    let ks : KeyStore :=
      { KeyStore.cleared with
        cells := put (put (put (put KeyStore.cleared.cells 60 (bits 1)) 61 (bits 2)) 62 (bits 3)) 63 (bits 4),
        groups := put KeyStore.cleared.groups 60 (some ⟨.filled, .s256, none, 0, none⟩) }
    (groupKeys ks 60).map (fun k => (k.k1[0]?, k.k1[16]?, k.k2[0]?, k.k2[16]?, k.k1.length, k.k2.length)) =
      some (some 1, some 2, some 3, some 4, 32, 32) := by decide +kernel

/-! ## A part to test on -/

/-- A FILLED S128 group. -/
def group (bound : Option BoundTo) (pins : Nat) : GroupRec :=
  { state := .filled, strength := .s128, bound := bound, pins := pins, waitingClear := none }

/-- A range KEYED with a group and an epoch, unlocked. -/
def keyed (first last : Nat) (g : CellId) (e : Epoch) : RangeRec :=
  { RangeRec.absent with present := true, first := first, last := last, current := some ⟨g, e⟩ }

/-- The part of the worked example of 04_interface_port_jobs.md: in RUN and OPEN, all lanes IN_SERVICE, data unit
512, range 0 KEYED with (0, 7), range 3, LBA 1020 to 1029, with (8, 21); group 16 is FILLED and unbound. -/
def part : State :=
  { State.reset with
    table := { ranges := put (put rangesReset 0 (keyed 0 0 0 7)) 3 (keyed 1020 1029 8 21),
               capacity := 2048, dataUnit := .u512, admission := .opened },
    keys := { cells := [0, 1, 8, 9, 16, 17].foldl (fun v c => put v c { filled := true, bits := 5 })
                         KeyStore.cleared.cells,
              groups := put (put (put KeyStore.cleared.groups 0 (some (group (some ⟨0, .current⟩) 0)))
                          8 (some (group (some ⟨3, .current⟩) 0))) 16 (some (group none 0)),
              load := none },
    lanes := Vector.replicate 4 { inService := true, work := none, testHold := false },
    stage := { State.reset.stage with stage := .run, testRun := none, delay := 60, remaining := 2 } }

/-- The same part with range 3 sweeping from (4, 20) to (8, 21), mark 1020, claim A, LBA 1020 to 1024, and claim B,
LBA 1025 to 1029, in the states given ("a WRITE overtaking two claims"). -/
def sweepingWith (a b : ClaimState) : State :=
  { part with
    table := part.table.setEntry 3 { keyed 1020 1029 8 21 with previous := some ⟨4, 20⟩ },
    keys := { part.keys with groups := put part.keys.groups 4 (some (group (some ⟨3, .previous⟩) 0)) },
    sweep := { part.sweep with
      marks := put part.sweep.marks 3 (some 1020),
      claims := put part.sweep.claims 3
        [{ range := 3, first := 1020, count := 5, state := a, overtaken := [], cancelled := false,
           frozen := false, job := none },
         { range := 3, first := 1025, count := 5, state := b, overtaken := [], cancelled := false,
           frozen := false, job := none }] } }

/-- The state with one record waiting at a port and one completion place free there. -/
def asked (s : State) (p : Port) (r : Record) : State :=
  s.setPort p { requests := [r], filled := [], reserved := 31 }

/-- A state in another stage. -/
def inStage (s : State) (st : Stage) : State := { s with stage := { s.stage with stage := st } }

/-- A record with no fields beyond its header. -/
def header (code : Nat) : Record := assemble [(0, 1, code), (2, 2, 0xBEEF)]

/-- A record with a byte 4, as every request with a range index or a cell number has. -/
def indexed (code index : Nat) : Record := assemble [(0, 1, code), (2, 2, 0xBEEF), (4, 1, index)]

/-- A RANGE_BIND, RANGE_REKEY or RANGE_ERASE. -/
def binding (code index base epoch : Nat) : Record :=
  assemble [(0, 1, code), (2, 2, 0xBEEF), (4, 1, index), (5, 1, base), (8, 4, epoch)]

/-- A READ, WRITE, RECIPHER or SCREEN with a verdict list. -/
def transfer (code start count src dst list : Nat) : Record :=
  assemble [(0, 1, code), (1, 1, 1), (2, 2, 0xBEEF), (4, 5, start), (10, 2, count), (12, 5, src), (20, 5, dst),
    (27, 5, list)]

/-- The READ of the worked example: LBA 1000, count 40, its three regions. -/
def readExample : Record := transfer 0x01 1000 40 0x100000 0x200000 0x205000

/-- A job of an accepted READ of two sectors, LBA 1019 and 1020. -/
def twoSectors (kind : JobKind) : Job :=
  newJob part .i kind (transfer 0x01 1019 2 0x1000 0x8000 0x9000) (segmentsOf part.table 2 1019) none

/-- A job over LBA 1020 to 1024 in slot 0 of the M-table, its first sector in a lane and the others ended. -/
def lastSector (kind : JobKind) (list : Option Nat) : Job :=
  { newJob part .m kind (transfer 0x13 1020 5 0x1000 0x8000 0x9000) (segmentsOf part.table 5 1020) (some 3) with
    sectors := .inLane :: List.replicate 4 (.ended .reciphered), next := none, list := list }

/-- Claim A of the sweeping part, RECIPHERING under the job in slot 0. -/
def claimHeld : Claim :=
  { range := 3, first := 1020, count := 5, state := .reciphering, overtaken := [1022], cancelled := false,
    frozen := false, job := some 0 }

/-- The sweeping part with that claim and a claim B, and a job in slot 0 of the M-table. -/
def reciphering (j : Job) : State :=
  let s := setJob (asked (sweepingWith .reciphering .claimed) .m 0) .m 0 (some j)
  s.setSweep { s.sweep with claims := put s.sweep.claims 3 (claimHeld :: (s.sweep.claims.get 3).drop 1) }

/-- A lane's work on LBA 1020 of that job, in a phase. -/
def work (op : Operation) (phase : LanePhase) : Work :=
  { side := .i, slot := 0, op := op, lba := 1020, curGroup := some 8, curEpoch := some 21, prevGroup := some 4,
    prevEpoch := some 20, src := 0x1208, dst := some 0x8200, phase := phase, trailer := none, chosen := none,
    held := [] }

/-- The part with that job in slot 0, the work in lane 2, and an access of it outstanding. -/
def working (w : Work) (kind : AccessKind) (bytes : List Byte) : State :=
  { setJob part .i 0 (some (twoSectors .read)) with
    lanes := put part.lanes 2 { inService := true, work := some w, testHold := false },
    bufferPort := { part.bufferPort with
      outstanding := [{ who := .lane 2, kind := kind, addr := 0x1408, len := 8, bytes := bytes }] } }

/-! ## Single steps of the worked examples -/

/-- "Worked case: three segments": LBA 1000, count 40. -/
theorem test_three_segments :
    (segmentsOf part.table 40 1000).map (fun g => (g.first, g.last, g.range)) =
      [(1000, 1019, 0), (1020, 1029, 3), (1030, 1039, 0)] := by decide +kernel

/-- "Worked example: region arithmetic": the three lengths, and the variants of the record. -/
theorem test_region_lengths :
    jobRegions .u512 .read readExample = [⟨0x100000, 0x5140⟩, ⟨0x200000, 0x5000⟩, ⟨0x205000, 0x28⟩] := by
  decide +kernel
theorem test_region_variants :
    let rs (dst list : Nat) := jobRegions .u512 .read (transfer 0x01 1000 40 0x100000 dst list)
    misalignedIn (rs 0x200000 0x205004) = true ∧ overlapIn (rs 0x105000 0x205000) = true ∧
    pastBuffer (rs 0xFFFFFFC000 0x205000) = true ∧ pastBuffer (rs 0xFFFFFFB000 0x205000) = false ∧
    overlapIn (rs 0x200000 0x205000) = false := by decide +kernel

/-- "A READ across three segments", step 1: groups 0 and 8 pinned once each, 40 sectors WAITING. -/
theorem test_read_example_accepted :
    (match exec .read (asked part .i readExample) with
      | .next t => some ((t.keys.groups.get 0).map GroupRec.pins, (t.keys.groups.get 8).map GroupRec.pins,
          (jobAt t .i 0).map (fun j => (j.segments.length, j.sectors.length)), t.stage.remaining)
      | _ => none) = some (some 1, some 1, some (3, 40), 60) := by decide +kernel

/-- "A WRITE overtaking two claims": LBA 1022, count 5. -/
theorem test_write_overtakes :
    (match exec .write (asked (sweepingWith .reciphering .claimed) .i
        (transfer 0x02 1022 5 0x100000 0x200000 0x205000)) with
      | .next t => some ((t.sweep.claims.get 3).map Claim.overtaken, (t.keys.groups.get 8).map GroupRec.pins,
          (t.keys.groups.get 4).map GroupRec.pins)
      | _ => none) = some ([[1022, 1023, 1024], [1025, 1026]], some 1, some 0) := by decide +kernel

/-- The table of "an S256 load with a repeat and an abandonment", steps 1 and 2. -/
theorem test_key_open_steps :
    let open' (base : Nat) := exec .keyOpen (asked part .s
      (assemble [(0, 1, 0x40), (4, 1, base), (5, 1, 2)]))
    (match open' 22 with | .next t => t.ports.s.filled.map Completion.status | _ => []) = [.badField] ∧
    (match open' 20 with | .next t => t.keys.load | _ => none) = some ⟨20, .s256, []⟩ := by decide +kernel

/-- "The starvation limit": grants 8, 9 and 11. -/
theorem test_starvation_limit :
    let a (count : Nat) : Arbiter := { iClass := .high, mClass := .normal, count := count, last := some .i }
    chooseGrant (a 7) (fun _ => true) = some (.i, 8) ∧ chooseGrant (a 8) (fun _ => true) = some (.m, 0) ∧
    chooseGrant (a 1) (fun sd => sd == .i) = some (.i, 0) := by decide

/-- "Claiming range 0 around two bounded ranges": the next claim start jumps from 100 to 300. -/
theorem test_next_claim_start :
    lowestAt { part.table with
               ranges := put (put rangesReset 1 (keyed 100 199 8 21)) 2 (keyed 200 299 12 22),
               capacity := 1000 } 0 100 =
      some 300 := by decide +kernel

/-- "A SCREEN across two ranges": LBA 1020 to 1023 against current epoch 21 and previous epoch 20. -/
theorem test_screen_verdicts :
    ([20, 21, 7, 0].map (classify (work .screen .reading))) =
      [some (.ends .livePrevious), some (.ends .liveCurrent), some (.ends .retired), some (.ends .blank)] := by
  decide

/-- "A recipher job with overtaking": the final verdicts and the completion's counts. -/
theorem test_recipher_example :
    let lane : List Verdict := [.reciphered, .reciphered, .alreadyCurrent, .blank, .checkFail, .reciphered,
      .retired, .reciphered]
    let j : Job := { twoSectors .recipher with
      start := 5000, count := 8, sectors := lane.map SectorState.ended }
    let done : Job := { j with finals := j.finalVerdicts [5005, 5006] }
    done.finals = [.reciphered, .reciphered, .alreadyCurrent, .blank, .checkFail, .overtaken, .overtaken,
      .reciphered] ∧
    done.completion.status = .partly ∧ done.completion.body = .recipher 3 1 1 5004 2 := by decide

/-- The layout of a READ completion (R178): kind, PARTIAL, tag, counts 36, 2, 2, first fault LBA 1023. -/
theorem test_read_completion_bytes :
    blockBytes ((Completion.record ⟨0x01, .partly, 0xBEEF, .data 36 2 2 1023⟩).setWidth 128) =
    [0x01, 0x01, 0xEF, 0xBE, 36, 0, 2, 0, 2, 0, 0xFF, 0x03, 0, 0, 0, 0] := by decide +kernel

/-- R168 and R96: after a power-on reset a trailer response finds no access and changes nothing. -/
theorem test_trailer_needs_an_access : exec (.trailerReadDone 0 []) State.reset = .next State.reset := rfl

/-! ## Witnesses: queue, windows, events -/

theorem witness_StepRunsFrontCommand : State.reset.pending = [] := rfl

theorem witness_PowerOnResetGivesPowerOnValues :
    ∀ a ∈ [0x1407, 0x1410], ∀ x ∈ (working (work .encipher .writing) .resultWrite
      (List.replicate 8 1)).bufferPort.outstanding,
      x.kind.isWrite = true → a < x.addr ∨ x.addr + x.bytes.length ≤ a := by decide +kernel

/-- The part with `n` records queued at its I-port, in a stage. -/
def queued (st : Stage) (n : Nat) : State :=
  { part.setPort .i { requests := List.replicate n 0, filled := [], reserved := 0 } with
    stage := { part.stage with stage := st } }

theorem witness_RequestWriteQueuesOrDrops :
    (((queued .run 15).port .i).requests.length < 16 ∧ (Port.i = .s ∨ (queued .run 15).stage.stage ≠ .retain)) ∧
    (((queued .retain 15).port .i).requests.length < 16 ∧ Port.i ≠ .s ∧ (queued .retain 15).stage.stage = .retain ∧
      (queued .retain 15).ports.reset = none) ∧
    16 ≤ ((queued .run 16).port .i).requests.length := by decide +kernel

/-- In RETAIN while a reset runs: the record written joins `n` of the quota, or lies beyond it. -/
theorem witness_RequestWriteQueuesOrDrops_reset :
    let s (n : Nat) : State := { queued .retain n with
      ports := { (queued .retain n).ports with reset := some ⟨.engine, 1, 1, 0, 1, 0, 0, 0⟩ } }
    let written (n : Nat) : State := (s n).setPort .i ⟨List.replicate (n + 1) 0, [], 0⟩
    ((s 0).port .i).requests.length < 16 ∧ ((s 15).port .i).requests.length < 16 ∧
    (s 0).stage.stage = .retain ∧ ¬ RecordHeld (written 0) ∧ RecordHeld (written 1) ∧ RecordHeld (written 15) := by
  decide +kernel

theorem witness_CompletionReadGivesOldest :
    (∃ c cs, ((part.setPort .s ⟨[], [⟨0x20, .ok, 1, .empty⟩], 0⟩).port .s).filled = c :: cs) ∧
    (part.port .s).filled = [] ∧
    ∀ i ∈ [15, 31], ∀ f ∈ (Body.data 1 2 3 4).fields, i < f.1 ∨ f.1 + f.2.1 ≤ i := ⟨⟨_, _, rfl⟩, rfl, by decide⟩

theorem witness_OtherWindowAccessChangesNothing :
    ∀ a ∈ [(⟨true, 0x00, 31⟩ : WindowAccess), ⟨false, 0x20, 31⟩, ⟨false, 0x44, 8⟩, ⟨true, 0x48, 4⟩],
      a ≠ ⟨true, 0x00, 32⟩ ∧ a ≠ ⟨false, 0x20, 32⟩ ∧ a ≠ ⟨false, 0x40, 4⟩ ∧ a ≠ ⟨false, 0x44, 4⟩ := by decide

theorem witness_UnknownKindAndBadHeaderRefused :
    let s := asked part .m (header 0x01)
    let bad (k : Kind) : Record := indexed k.code.toNat 1
    (portPermits s .m = true ∧ (s.port .m).filled.length + (s.port .m).reserved < 32 ∧
      (s.port .m).requests.head? = some (header 0x01) ∧ ∀ k ∈ portKinds .m, k.code ≠ kindCode (header 0x01)) ∧
    ∀ h ∈ headerRequests, Taken (asked part .s (bad h.1)) .s (bad h.1) h.1 ∧ reservedZero (bad h.1) [] = false := by
  decide +kernel

/-- Every ground on which a port takes nothing, and the free places at their bound. -/
theorem witness_UnknownKindAndBadHeaderRefused_held :
    let s (p : Port) : State := asked part p (header 0x01)
    let reset (p : Port) : State := { s p with ports := { (s p).ports with reset := some ⟨.engine, 1, 0, 0, 0, 0, 0, 0⟩ } }
    let places (p : Port) (filled reserved : Nat) : State :=
      part.setPort p ⟨[header 0x01], List.replicate filled (answerOf 0 .ok .empty), reserved⟩
    (∀ p ∈ [Port.i, .m, .s], PortHeld (reset p) p ∧ ¬ PortHeld (s p) p ∧ TakesNothing (places p 2 30) p ∧
      ¬ TakesNothing (places p 1 30) p ∧ TakesNothing (part.setPort p ⟨[], [], 0⟩) p) ∧
    (∀ p ∈ [Port.i, .m], ∀ st ∈ [Stage.waking, .retain], PortHeld (inStage (s p) st) p) ∧
    (∀ p ∈ [Port.i, .m], ∀ st ∈ [Stage.run, .draining, .failed], ¬ PortHeld (inStage (s p) st) p) ∧
    (∀ st ∈ [Stage.waking, .retain], ¬ PortHeld (inStage (s .s) st) .s) ∧
    PortHeld { s .s with stage := { part.stage with waitingRetain := some 1 } } .s ∧
    PortHeld { s .s with stage := { part.stage with waitingLaneTest := some 1 } } .s ∧
    PortHeld { asked part .s (header 0x25) with stage := { part.stage with waitingLaneTest := some 1 } } .s := by
  have d : ∀ (s : State) (p : Port), PortHeld s p ↔ ¬ portPermits s p = true := fun s p => by
    rw [portPermits_iff, Classical.not_not]
  simp only [TakesNothing, d]
  decide +kernel

/-- A record of one kind at the head is no step of another kind's command, nor of UNKNOWN_KIND_RECORD. -/
theorem witness_UnknownKindAndBadHeaderRefused_other :
    ((asked part .i (header 0x01)).port .i).requests.head? = some (header 0x01) ∧
    (Kind.write, Instr.write) ∈ recordCommands .i ∧ kindCode (header 0x01) ≠ Kind.write.code ∧
    Kind.read ∈ portKinds .i ∧ kindCode (header 0x01) = Kind.read.code := by decide +kernel

theorem witness_EventPostTakesFirstInOrder :
    let none16 : Vector Bool 16 := Vector.replicate 16 false
    let e (bus retain test : Bool) (sweep refused : Vector Bool 16) : EventSet :=
      { rangeRefused := refused, sweepDone := sweep, busFault := bus, selfTest := test, retainEntered := retain }
    let s (v : EventSet) := (asked part .s 0).setEvents v
    (s (e true true true none16 none16)).ports.s.filled.length +
      (s (e true true true none16 none16)).ports.s.reserved < 32 ∧
    (e true true true none16 none16).busFault = true ∧ (e false true true none16 none16).retainEntered = true ∧
    (e false false true none16 none16).selfTest = true ∧
    (e false false false (put none16 15 true) none16).sweepDone.get 15 = true ∧
    (∀ q : RangeId, q < 15 → (e false false false (put none16 15 true) none16).sweepDone.get q = false) ∧
    (∀ q : RangeId, (e false false false none16 (put none16 15 true)).sweepDone.get q = false) ∧
    (e false false false none16 (put none16 15 true)).rangeRefused.get 15 = true ∧
    ∀ q : RangeId, q < 15 → (e false false false none16 (put none16 15 true)).rangeRefused.get q = false := by
  decide +kernel

/-- A reset of a kind that holds the S-port with a quota of 1 on each side. -/
def resetRun (kind : ResetKind) : ResetRun := ⟨kind, 0xBEEF, 1, 1, 1, 0, 0, 0⟩

/-- A job still in the I-table while that reset runs, and one record waiting at a side's port. -/
def resetting (side : Side) : State :=
  let s := asked (setJob part .i 0 (some (twoSectors .read))) (sidePort side) (header 0x01)
  { s with ports := { s.ports with reset := some (resetRun .engine) } }

theorem witness_QuotaRecordAnsweredUnchecked :
    ∀ side ∈ [Side.i, Side.m],
      (resetting side).ports.reset = some (resetRun .engine) ∧
      ((resetting side).port (sidePort side)).requests = header 0x01 :: [] ∧
      ((resetting side).port (sidePort side)).filled.length +
        ((resetting side).port (sidePort side)).reserved < 32 ∧
      (match side with | .i => (resetRun .engine).iQuota | .m => (resetRun .engine).mQuota) ≠ 0 ∧
      ¬ NoJobs (resetting side) ∧ NoReleasedClear (resetting side) := by decide +kernel

/-- The last quota record of a reset that has nothing else in flight: both tables empty, an S-port place reserved. -/
theorem witness_QuotaRecordAnsweredUnchecked_ends :
    ∀ side ∈ [Side.i, Side.m], ∀ kind ∈ [ResetKind.engine, .zeroize], ∀ left ∈ [0, 1],
      let run : ResetRun := match side with
        | .i => ⟨kind, 0xBEEF, 1, left, 0, 0, 0, 0⟩
        | .m => ⟨kind, 0xBEEF, left, 1, 0, 0, 0, 0⟩
      let run' : ResetRun := match side with
        | .i => { run with iQuota := run.iQuota - 1, iAnswered := run.iAnswered + 1 }
        | .m => { run with mQuota := run.mQuota - 1, mAnswered := run.mAnswered + 1 }
      let s := (asked part (sidePort side) (header 0x01)).setPort .s ⟨[], [], 1⟩
      let s := { s with ports := { s.ports with reset := some run } }
      (s.port (sidePort side)).requests = header 0x01 :: [] ∧
      (s.port (sidePort side)).filled.length + (s.port (sidePort side)).reserved < 32 ∧
      (match side with | .i => run.iQuota | .m => run.mQuota) ≠ 0 ∧ NoReleasedClear s ∧ s.stage.stage ≠ .draining ∧
      s.ports.s.reserved ≠ 0 ∧ (left = 0 → NothingInFlight s run') ∧ (left = 1 → ¬ NothingInFlight s run') := by
  decide +kernel

theorem witness_QueriesAnswerAndChangeNothing :
    (Taken (asked part .s (indexed 0x36 15)) .s (indexed 0x36 15) .rangeQuery ∧
      rangeOf (indexed 0x36 15) = some 15 ∧ reservedZero (indexed 0x36 15) [4] = true) ∧
    (Taken (asked part .s (indexed 0x43 63)) .s (indexed 0x43 63) .keyQuery ∧
      cellOf (recordField (indexed 0x43 63) 4 1) = some 63 ∧ reservedZero (indexed 0x43 63) [4] = true) ∧
    (∀ p ∈ [QueryPort.m, .s], Taken (asked part (queryPort p) (indexed 0x12 3)) (queryPort p) (indexed 0x12 3)
        .sweepQuery ∧ rangeOf (indexed 0x12 3) = some 3 ∧ reservedZero (indexed 0x12 3) [4] = true ∧
        (p = .m → (asked part (queryPort p) (indexed 0x12 3)).stage.stage ≠ .draining)) ∧
    (Taken (asked part .s (header 0x20)) .s (header 0x20) .status ∧ reservedZero (header 0x20) [] = true) := by
  decide +kernel

theorem witness_QueriesAnswerAndChangeNothing_absent :
    let s := asked part .s (indexed 0x36 15)
    Taken s .s (indexed 0x36 15) .rangeQuery ∧ SweepLaw s ∧ (s.table.entry 15).present = false := by
  refine ⟨by decide +kernel, ?_, by decide +kernel⟩
  unfold SweepLaw
  decide +kernel

/-- The first and last cell of a group of each strength, and the cells beside them; the record at 16 is the one there. -/
theorem witness_QueriesAnswerAndChangeNothing_group :
    CellsOf 16 .s128 16 ∧ CellsOf 16 .s128 17 ∧ ¬ CellsOf 16 .s128 15 ∧ ¬ CellsOf 16 .s128 18 ∧ CellsOf 60 .s256 63 ∧
    ¬ CellsOf 56 .s256 60 ∧ part.keys.groups.get 16 = some (group none 0) ∧
    (∀ b' : CellId, ∀ e' ∈ (part.keys.groups.get b').toList, CellsOf b' e'.strength 17 → b' = 16) ∧
    ∀ b' : CellId, ∀ e' ∈ (part.keys.groups.get b').toList, ¬ CellsOf b' e'.strength 63 := by
  unfold CellsOf
  decide +kernel

theorem witness_QueriesAnswerAndChangeNothing_refusals :
    let draining := { part with stage := { part.stage with stage := .draining } }
    (Taken (asked part .s (indexed 0x36 16)) .s (indexed 0x36 16) .rangeQuery ∧ rangeOf (indexed 0x36 16) = none) ∧
    (Taken (asked part .s (indexed 0x43 64)) .s (indexed 0x43 64) .keyQuery ∧
      cellOf (recordField (indexed 0x43 64) 4 1) = none) ∧
    (∀ p ∈ [QueryPort.m, .s], Taken (asked part (queryPort p) (indexed 0x12 16)) (queryPort p) (indexed 0x12 16)
      .sweepQuery ∧ rangeOf (indexed 0x12 16) = none) ∧
    (Taken (asked draining .m (indexed 0x12 3)) .m (indexed 0x12 3) .sweepQuery ∧ rangeOf (indexed 0x12 3) ≠ none ∧
      reservedZero (indexed 0x12 3) [4] = true ∧ (asked draining .m (indexed 0x12 3)).stage.stage = .draining) := by
  decide +kernel

/-! ## Witnesses: ranges and keys -/

/-- A RANGE_DEFINE of range 15 at LBA 1030 to 2047, the last of the drive, beside range 3. -/
def defineExample : Record :=
  assemble [(0, 1, 0x30), (2, 2, 0xBEEF), (4, 1, 15), (5, 1, 7), (8, 5, 1030), (16, 5, 2047)]

theorem witness_RangeDefineAndDelete :
    DefineReady (asked part .s defineExample) defineExample 15 ∧
    DeleteReady (asked part .s (indexed 0x31 3)) (indexed 0x31 3) 3 := by decide +kernel

/-- A RANGE_DEFINE of range 15 that meets range 3 in its last LBA, 1029. -/
def touching : Record :=
  assemble [(0, 1, 0x30), (2, 2, 0xBEEF), (4, 1, 15), (5, 1, 7), (8, 5, 1029), (16, 5, 2047)]

theorem witness_RangeDefineAndDelete_refusals :
    (Taken (asked part .s touching) .s touching .rangeDefine ∧ rangeOf touching = some 15 ∧
      Refuses (defineTable (asked part .s touching) touching 15) .rangeOverlap) ∧
    (Taken (asked part .s (indexed 0x31 0)) .s (indexed 0x31 0) .rangeDelete ∧ rangeOf (indexed 0x31 0) = some 0 ∧
      Refuses (deleteTable (asked part .s (indexed 0x31 0)) (indexed 0x31 0) 0) .badField) ∧
    (Taken (asked part .s (indexed 0x30 16)) .s (indexed 0x30 16) .rangeDefine ∧ rangeOf (indexed 0x30 16) = none) ∧
    (Taken (asked part .s (indexed 0x31 16)) .s (indexed 0x31 16) .rangeDelete ∧
      rangeOf (indexed 0x31 16) = none) := by
  refine ⟨⟨by decide +kernel, by decide +kernel, ?_⟩, ⟨by decide +kernel, by decide +kernel, ?_⟩, by decide +kernel,
    by decide +kernel⟩
  · exact .inr ⟨by decide +kernel, .inr ⟨by decide +kernel, .inr ⟨by decide +kernel, .inr ⟨by decide +kernel,
      .inr ⟨by decide +kernel, .inl ⟨⟨3, by decide +kernel⟩, rfl⟩⟩⟩⟩⟩⟩
  · exact .inr ⟨by decide +kernel, .inl ⟨.inl rfl, rfl⟩⟩

theorem witness_RangeLocksWritesThreeLocks :
    let r (x locks rest : Nat) := assemble [(0, 1, 0x32), (4, 1, x), (5, 1, locks), (31, 1, rest)]
    LocksReady (asked part .s (r 0 7 0)) (r 0 7 0) 0 ∧
    (∀ q ∈ [(15, 7, 0), (16, 7, 0), (0, 7, 1), (0, 8, 0), (0, 0x80, 0)],
      Taken (asked part .s (r q.1 q.2.1 q.2.2)) .s (r q.1 q.2.1 q.2.2) .rangeLocks) ∧
    rangeOf (r 16 7 0) = none ∧ reservedZero (r 0 7 1) [4, 5] = false ∧
    (recordByte (r 0 8 0) 5).getLsbD 3 = true ∧ (recordByte (r 0 0x80 0) 5).getLsbD 7 = true ∧
    (rangeOf (r 15 7 0) = some 15 ∧ (part.table.entry 15).present = false) := by decide +kernel

theorem witness_RangeBindBindsCurrent :
    let s := part.setRange 15 { keyed 2047 2047 0 0 with current := none }
    BindReady (asked s .s (binding 0x33 15 16 9)) (binding 0x33 15 16 9) 15 16 (group none 0) := by decide +kernel

/-- The part with range 15 PRESENT and UNKEYED at the drive's last LBA. -/
def unkeyed15 : State := part.setRange 15 { keyed 2047 2047 0 0 with current := none }

/-- RANGE_BIND of range 15 with epoch 21, which range 3 has, and with an index of 16. -/
theorem witness_RangeBindBindsCurrent_refusals :
    let r := binding 0x33 15 16 21
    (Taken (asked unkeyed15 .s r) .s r .rangeBind ∧ BindFields r 15 ∧ cellOf (groupByte r) = some 16 ∧
      Refuses (bindTable (asked unkeyed15 .s r) r 15 16) .epochClash) ∧
    (Taken (asked part .s (binding 0x33 16 16 9)) .s (binding 0x33 16 16 9) .rangeBind ∧
      BindFieldsBad (binding 0x33 16 16 9)) :=
  ⟨⟨by decide +kernel, by decide +kernel, by decide +kernel,
    refuses_of_firstRefusal (l := [(false, .badField), (false, .alreadyKeyed)] ++
      bindingChecks (asked unkeyed15 .s (binding 0x33 15 16 21)) 16 (epochOf (binding 0x33 15 16 21)))
      (.append (.cons ⟨by decide +kernel, rfl⟩ (.cons ⟨by decide +kernel, rfl⟩ .nil)) (bindingChecks_agree _ _ _))
      (by decide +kernel)⟩, by decide +kernel⟩

/-- RANGE_REKEY and RANGE_ERASE of range 3 with group 17, no base, and with a cell number of 64. -/
theorem witness_RangeRekeyAndErase_refusals :
    let r := binding 0x34 3 17 9
    let e := binding 0x35 3 17 9
    (Taken (asked part .s r) .s r .rangeRekey ∧ BindFields r 3 ∧ cellOf (groupByte r) = some 17 ∧
      Refuses (rekeyTable (asked part .s r) r 3 17) .badGroup) ∧
    (Taken (asked part .s e) .s e .rangeErase ∧ BindFields e 3 ∧ cellOf (groupByte e) = some 17 ∧
      Refuses (eraseTable (asked part .s e) e 3 17) .badGroup) ∧
    (Taken (asked part .s (binding 0x34 3 64 9)) .s (binding 0x34 3 64 9) .rangeRekey ∧
      BindFieldsBad (binding 0x34 3 64 9)) ∧
    (Taken (asked part .s (binding 0x35 3 64 9)) .s (binding 0x35 3 64 9) .rangeErase ∧
      BindFieldsBad (binding 0x35 3 64 9)) :=
  ⟨⟨by decide +kernel, by decide +kernel, by decide +kernel,
    refuses_of_firstRefusal
      (l := [(false, .badField), (false, .noKey), (false, .sweepActive)] ++
        bindingChecks (asked part .s (binding 0x34 3 17 9)) 17 (epochOf (binding 0x34 3 17 9)))
      (.append (.cons ⟨by decide +kernel, rfl⟩ (.cons ⟨by decide +kernel, rfl⟩ (.cons ⟨by decide +kernel, rfl⟩ .nil)))
        (bindingChecks_agree _ _ _)) (by decide +kernel)⟩,
   ⟨by decide +kernel, by decide +kernel, by decide +kernel,
    refuses_of_firstRefusal (l := [(false, .badField), (false, .noKey)] ++
      bindingChecks (asked part .s (binding 0x35 3 17 9)) 17 (epochOf (binding 0x35 3 17 9)))
      (.append (.cons ⟨by decide +kernel, rfl⟩ (.cons ⟨by decide +kernel, rfl⟩ .nil)) (bindingChecks_agree _ _ _))
      (by decide +kernel)⟩, by decide +kernel⟩

/-- The part with range 3 over the whole drive, so that range 0 has no LBA. -/
def covered : State := part.setRange 3 (keyed 0 2047 8 21)

theorem witness_RangeRekeyStartsSweep :
    (RekeyReady (asked part .s (binding 0x34 3 16 9)) (binding 0x34 3 16 9) 3 16 (group none 0) ⟨8, 21⟩
        (group (some ⟨3, .current⟩) 0) ∧ 1020 = (if (3 : RangeId) = 0 then 0 else (part.table.entry 3).first) ∧
      (lowestAt part.table 3 1020).isSome = true) ∧
    (RekeyReady (asked covered .s (binding 0x34 0 16 9)) (binding 0x34 0 16 9) 0 16 (group none 0) ⟨0, 7⟩
        (group (some ⟨0, .current⟩) 0) ∧ lowestAt covered.table 0 0 = none) := by decide +kernel

theorem witness_RangeEraseReplacesBindings :
    let s := asked (sweepingWith .claimed .done) .s (binding 0x35 3 16 9)
    (EraseReady s (binding 0x35 3 16 9) 3 16 (group none 0) ⟨8, 21⟩ ∧
      (∀ c ∈ s.sweep.claims.get 3, c.state ≠ .reciphering) ∧ NoReleasedClear s ∧ s.stage.stage ≠ .draining) ∧
    EraseReady (asked (sweepingWith .reciphering .claimed) .s (binding 0x35 3 16 9)) (binding 0x35 3 16 9) 3 16
      (group none 0) ⟨8, 21⟩ := by decide +kernel

theorem witness_RangeEraseReplacesBindings_reciphering :
    let r := binding 0x35 3 16 9
    let waiting (list : Option Nat) : Job :=
      { lastSector .recipher list with sectors := .waiting :: List.replicate 4 (.ended .reciphered), next := some 1020 }
    ∀ j ∈ [lastSector .recipher none, waiting none, waiting (some 0x9000)],
      let s := asked (reciphering j) .s r
      EraseReady s r 3 16 (group none 0) ⟨8, 21⟩ ∧ RecipheringHeld s 3 ∧ s.bufferPort.faulted = false ∧
      claimHeld ∈ s.sweep.claims.get 3 ∧ jobAt s .m 0 = some j := by
  intro r waiting j hj
  have facts : ∀ j ∈ [lastSector .recipher none, waiting none, waiting (some 0x9000)],
      EraseReady (asked (reciphering j) .s r) r 3 16 (group none 0) ⟨8, 21⟩ ∧ j.kind = .recipher ∧
      j.phase = .running ∧ j.cause = none ∧ HoldsClaim (asked (reciphering j) .s r) 0 claimHeld ∧
      claimHeld ∈ (asked (reciphering j) .s r).sweep.claims.get 3 ∧
      jobAt (asked (reciphering j) .s r) .m 0 = some j ∧
      ∀ c ∈ (asked (reciphering j) .s r).sweep.claims.get 3, c.state = .reciphering → c = claimHeld := by
    decide +kernel
  obtain ⟨h1, h2, h3, h4, h5, h6, h7, h8⟩ := facts j hj
  refine ⟨h1, fun c hc hs => ?_, rfl, h6, h7⟩
  rw [h8 c hc hs]
  exact ⟨0, j, h5, h7, h2, h3, h4⟩

/-- R135: two RECIPHER jobs that one Range Erase ends post in ascending order of slot, whichever claim is the older. -/
theorem test_erase_posts_by_slot :
    let s := reciphering { lastSector .recipher none with tag := 1, sectors := [.waiting] }
    let two := setJob s .m 1 (some { lastSector .recipher none with tag := 2, sectors := [.waiting] })
    let claims := [{ claimHeld with job := some 1 }, { claimHeld with first := 1025, job := some 0 }]
    let held := (two.setSweep { two.sweep with claims := put two.sweep.claims 3 claims }).setPort .m ⟨[], [], 2⟩
    (match exec .rangeErase (asked held .s (binding 0x35 3 16 9)) with
      | .next t => t.ports.m.filled.map (fun c => (c.tag, c.status))
      | _ => []) = [(1, .sweepCancelled), (2, .sweepCancelled)] := by decide +kernel

/-- R56, R119: a job that an erase ends releases its pin of group 8, the Key Clear that waited on it completes, and the
erase's own completion is the last. -/
theorem test_erase_posts_its_own_last :
    let r := binding 0x35 3 16 9
    let j := { lastSector .recipher none with sectors := [.ended .reciphered], pinned := [17] }
    let waits : GroupRec := { group none 1 with state := .retiring, waitingClear := some 1 }
    let s := (asked (reciphering j) .s r)
    let s := { s with keys := { s.keys with groups := put s.keys.groups 17 (some waits) } }
    eraseUnpins s 3 17 = 1 ∧
    (match exec .rangeErase s with
      | .next t => (t.ports.s.filled.map Completion.kind, t.ports.m.filled.length, t.keys.groups.get 17)
      | _ => ([], 0, none)) = ([0x42, 0x35], 1, none) := by decide +kernel

theorem witness_CountClearZeroesCount :
    CountClearReady (asked part .s (indexed 0x37 0)) (indexed 0x37 0) 0 := by decide +kernel

/-- The part with a load open on the S128 group at cell 20, some of its cells filled. -/
def loading (parts : List CellId) : State :=
  { part with keys := { part.keys with
      cells := parts.foldl (fun v c => put v c { filled := true, bits := 1 }) part.keys.cells,
      groups := put part.keys.groups 20 (some { group none 0 with state := .loading }),
      load := some ⟨20, .s128, parts⟩ } }

theorem witness_KeyOpenMakesLoadingGroup :
    let r := assemble [(0, 1, 0x40), (4, 1, 60), (5, 1, 2)]
    (OpenReady (asked part .s r) r 60 .s256 ∧ (asked part .s r).keys.load = none) ∧
    (OpenReady (asked (loading [20]) .s r) r 60 .s256 ∧
      (asked (loading [20]) .s r).keys.load = some ⟨20, .s128, [20]⟩) := by decide +kernel

theorem witness_KeyPartFillsCell :
    let r (c : Nat) := assemble [(0, 1, 0x41), (4, 1, c), (16, 16, 2 ^ 128 - 1)]
    let parts (l : OpenLoad) (c : CellId) := (List.finRange 64).filter (fun x => l.parts.contains x || x == c)
    (PartReady (asked (loading []) .s (r 20)) (r 20) 20 ⟨20, .s128, []⟩ ∧
      (parts ⟨20, .s128, []⟩ 20).length ≠ Strength.s128.size) ∧
    (PartReady (asked (loading [20]) .s (r 21)) (r 21) 21 ⟨20, .s128, [20]⟩ ∧
      (parts ⟨20, .s128, [20]⟩ 21).length = Strength.s128.size) := by decide +kernel

/-- The part with the record of group 16 replaced. -/
def withGroup16 (e : GroupRec) : State :=
  { part with keys := { part.keys with groups := put part.keys.groups 16 (some e) } }

theorem witness_KeyClearByGroupState :
    (ClearTaken (asked part .s (indexed 0x42 63)) (indexed 0x42 63) 63 ∧ groupHolding part.keys 63 = none) ∧
    (ClearTaken (asked (loading [20]) .s (indexed 0x42 20)) (indexed 0x42 20) 20 ∧
      groupHolding (loading [20]).keys 20 = some (20, { group none 0 with state := .loading })) ∧
    (ClearTaken (asked part .s (indexed 0x42 16)) (indexed 0x42 16) 16 ∧
      groupHolding part.keys 16 = some (16, group none 0)) ∧
    (ClearTaken (asked (withGroup16 (group none 1)) .s (indexed 0x42 16)) (indexed 0x42 16) 16 ∧
      groupHolding (withGroup16 (group none 1)).keys 16 = some (16, group none 1)) := by decide +kernel

/-- KEY_OPEN of S256 at cell 22 and at the occupied cells 16 to 19, KEY_PART without a load, KEY_CLEAR inside a group,
COUNT_CLEAR of an ABSENT range, and each with a number past its range. -/
theorem witness_KeyRequests_refusals :
    let op (base : Nat) := assemble [(0, 1, 0x40), (4, 1, base), (5, 1, 2)]
    (Taken (asked part .s (op 22)) .s (op 22) .keyOpen ∧ cellOf (recordField (op 22) 4 1) = some 22 ∧
      reservedZero (op 22) [4, 5] = true ∧ Refuses (openTable (asked part .s (op 22)) (op 22) 22) .badField) ∧
    (Taken (asked part .s (op 16)) .s (op 16) .keyOpen ∧ cellOf (recordField (op 16) 4 1) = some 16 ∧
      reservedZero (op 16) [4, 5] = true ∧ Refuses (openTable (asked part .s (op 16)) (op 16) 16) .occupied) ∧
    (Taken (asked part .s (indexed 0x41 20)) .s (indexed 0x41 20) .keyPart ∧
      cellOf (recordField (indexed 0x41 20) 4 1) = some 20 ∧
      reservedZero (indexed 0x41 20) ([4] ++ byteSpan 16 31) = true ∧
      Refuses (partTable (asked part .s (indexed 0x41 20)) 20) .noLoad) ∧
    (ClearTaken (asked part .s (indexed 0x42 17)) (indexed 0x42 17) 17 ∧
      Refuses (clearTable (asked part .s (indexed 0x42 17)) 17) .badGroup) ∧
    (Taken (asked part .s (indexed 0x37 15)) .s (indexed 0x37 15) .countClear ∧
      rangeOf (indexed 0x37 15) = some 15 ∧ (part.table.entry 15).present = false) ∧
    (∀ k ∈ [Kind.keyOpen, .keyPart, .keyClear],
      Taken (asked part .s (indexed k.code.toNat 64)) .s (indexed k.code.toNat 64) k ∧
      cellOf (recordField (indexed k.code.toNat 64) 4 1) = none) := by
  refine ⟨⟨by decide +kernel, by decide +kernel, by decide +kernel, ?_⟩, ⟨by decide +kernel, by decide +kernel,
    by decide +kernel, ?_⟩, ⟨by decide +kernel, by decide +kernel, by decide +kernel, ?_⟩, ⟨by decide +kernel, ?_⟩,
    by decide +kernel, by decide +kernel⟩
  · exact .inr ⟨by decide +kernel, .inl ⟨⟨.s256, by decide +kernel, by decide +kernel⟩, rfl⟩⟩
  · refine .inr ⟨by decide +kernel, .inr ⟨?_, .inl ⟨⟨.s256, by decide +kernel, 17, by decide +kernel, by decide +kernel,
      .inl (by decide +kernel)⟩, rfl⟩⟩⟩
    rintro ⟨st, -, h⟩
    revert h
    cases st <;> decide
  · exact .inl ⟨rfl, rfl⟩
  · exact .inl ⟨⟨16, group none 0, by decide +kernel, by decide⟩, rfl⟩

theorem witness_DeferredKeyClearCompletes :
    let e : GroupRec := { group none 0 with state := .retiring, waitingClear := some 1 }
    let s := asked (withGroup16 e) .s 0
    s.keys.groups.get 16 = some e ∧ e.state = .retiring ∧ e.pins = 0 ∧ e.waitingClear = some 1 ∧
      s.ports.s.reserved ≠ 0 ∧
      ∀ g' : CellId, g' ≠ 16 → ∀ e' ∈ (s.keys.groups.get g').toList, e'.state = .retiring → e'.pins ≠ 0 := by
  decide +kernel

/-! ## Witnesses: data requests, claims -/

/-- A transfer of 256 sectors, the drive's last, whose destination ends at the top of buffer memory. -/
def largest (code : Nat) : Record := transfer code 1792 256 0 (2 ^ 40 - 256 * 512) 0x20800

/-- R58: two released groups in one step, the lower base cell's completion first; the part has a place reserved for each. -/
theorem test_key_clears_in_order :
    let waits (tag : Tag) : GroupRec := { group none 0 with state := .retiring, waitingClear := some tag }
    let s := (withGroup16 (waits 1)).setPort .s ⟨[], [], 2⟩
    (match exec .keyClearDeferredDone (s.setKeys { s.keys with groups := put s.keys.groups 8 (some (waits 2)) }) with
      | .next t => some (t.ports.s.filled.map (fun c => (c.tag, c.status)), t.keys.groups.get 8, t.keys.groups.get 16)
      | _ => none) = some ([(2, .ok), (1, .ok)], none, none) := by decide +kernel

theorem witness_ReadAcceptedBecomesJob :
    ReadReady (asked part .i readExample) readExample 0 ∧
    ReadReady (asked part .i (largest 0x01)) (largest 0x01) 0 := by decide +kernel

theorem witness_WriteAcceptedMarksOvertaken :
    let s := sweepingWith .reciphering .claimed
    let r := transfer 0x02 1022 5 0x100000 0x200000 0x205000
    WriteReady (asked s .i r) r 0 ∧ ∃ c, (s.sweep.claims.get 3)[0]? = some c ∧ c.state ≠ .done ∧
      c.frozen = false := by
  exact ⟨by decide +kernel, _, rfl, by decide, rfl⟩

/-- The part with range 0's read lock set and its refusal count at a value. -/
def locked (n : Nat) : State :=
  part.setRange 0 { keyed 0 0 0 7 with readLock := true, refusals := n }

theorem witness_RefusedDataRequestLeavesNoTrace :
    let s := { part with table := { part.table with admission := .sealed } }
    let w := transfer 0x02 1000 40 0x100000 0x200000 0x205000
    (Taken (asked s .i readExample) .i readExample .read ∧
      Refuses (ioTable (asked s .i readExample) .read readExample) .isSealed) ∧
    (Taken (asked s .i w) .i w .write ∧ Refuses (ioTable (asked s .i w) .write w) .overlap) ∧
    ∀ n ∈ [0, 1, 65535], Taken (asked (locked n) .i readExample) .i readExample .read ∧
      Refuses (ioTable (asked (locked n) .i readExample) .read readExample) .locked := by
  refine ⟨⟨by decide +kernel, ?_⟩, ⟨by decide +kernel, ?_⟩, ?_⟩
  · exact refuses_of_firstRefusal (ioChecks_agree _ _ (.inl rfl) _) (by decide +kernel)
  · exact refuses_of_firstRefusal (ioChecks_agree _ _ (.inr rfl) _) (by decide +kernel)
  · intro n hn
    refine ⟨?_, refuses_of_firstRefusal (ioChecks_agree _ _ (.inl rfl) _) ?_⟩ <;> revert n <;> decide +kernel

/-- A RECIPHER that names no claim, and a SCREEN of the drive's last LBA and one more. -/
theorem witness_RefusedMediaRequest :
    let r := transfer 0x13 1020 5 0x100000 0x200000 0x205000
    let c := transfer 0x14 2047 2 0x100000 0 0x205000
    (Taken (asked part .m r) .m r .recipher ∧ Refuses (recipherTable (asked part .m r) r) .noClaim) ∧
    (Taken (asked part .m c) .m c .screen ∧ Refuses (screenTable (asked part .m c) c) .outOfRange) := by
  refine ⟨⟨by decide +kernel, ?_⟩, ⟨by decide +kernel, ?_⟩⟩
  · refine .inr ⟨by decide +kernel, .inr ⟨by decide +kernel, .inr ⟨by decide +kernel, .inr ⟨by decide +kernel,
      .inr ⟨by decide +kernel, .inr ⟨by decide +kernel, .inr ⟨by decide +kernel, .inl ⟨?_, rfl⟩⟩⟩⟩⟩⟩⟩⟩
    rintro ⟨x, c, hc, -⟩
    have none : ∀ x : RangeId, part.sweep.claims.get x = [] := by decide +kernel
    change c ∈ part.sweep.claims.get x at hc
    rw [none] at hc
    cases hc
  · simp only [screenTable, earlyTable, lookupTable, List.cons_append, List.nil_append, Refuses]
    decide +kernel

theorem witness_SegmentsCoverMaximalRuns : (1 : Nat) ≠ 0 ∧ (40 : Nat) ≠ 0 := by decide

theorem witness_LowestLbaOfRange :
    ∀ r ∈ [(0 : RangeId), 3], r ≠ 0 → (part.table.entry r).first ≤ (part.table.entry r).last := by decide +kernel

theorem witness_ClaimAndRelease :
    let s := sweepingWith .reciphering .claimed
    let one := s.setSweep (s.sweep.setClaims 3 ((s.sweep.claims.get 3).take 1))
    let r := assemble [(0, 1, 0x10), (4, 1, 3), (8, 5, 1025), (14, 2, 5)]
    ClaimReady (asked one .m r) r 3 1020 ∧
    ∃ cs c, ReleaseReady (asked s .m (indexed 0x11 3)) (indexed 0x11 3) 3 cs c := by
  exact ⟨by decide +kernel, [_], _, by decide +kernel, by decide +kernel, by decide +kernel, by decide +kernel,
    by decide +kernel, rfl, rfl⟩

/-- CLAIM and RELEASE on a list whose claims stand where R126 lets them. -/
theorem witness_ClaimAndRelease_order :
    let s := sweepingWith .reciphering .claimed
    (∀ c ∈ s.sweep.claims.get 3, 1 ≤ c.count) ∧ ClaimsInOrder s 3 (s.sweep.claims.get 3) ∧
    ClaimsInOrder s 3 ((s.sweep.claims.get 3).take 1) := by
  have first : startAfter (sweepingWith .reciphering .claimed) 3 [] = some 1020 := by decide +kernel
  have second : startAfter (sweepingWith .reciphering .claimed) 3
      (((sweepingWith .reciphering .claimed).sweep.claims.get 3).take 1) = some 1025 := by decide +kernel
  refine ⟨by decide +kernel, ?_, ?_⟩
  · intro older c younger h
    rcases older with _ | ⟨a, _ | ⟨b, older⟩⟩
    · obtain ⟨rfl, -⟩ := List.cons.inj h
      exact ⟨by decide, first⟩
    · have ⟨ha, hc⟩ := List.cons.inj h
      have ⟨hc, _⟩ := List.cons.inj hc
      rw [← ha, ← hc]
      exact ⟨by decide, second⟩
    · obtain ⟨-, h⟩ := List.cons.inj h
      obtain ⟨-, h⟩ := List.cons.inj h
      simp at h
  · intro older c younger h
    rcases older with _ | ⟨a, older⟩
    · obtain ⟨rfl, -⟩ := List.cons.inj h
      exact ⟨by decide, first⟩
    · obtain ⟨-, h⟩ := List.cons.inj h
      simp at h

/-- A CLAIM of a third claim, one past range 3's last LBA and one of 257 LBAs; a RELEASE of a RECIPHERING claim. -/
theorem witness_ClaimAndRelease_refusals :
    let s := sweepingWith .claimed .reciphering
    let one := s.setSweep (s.sweep.setClaims 3 ((s.sweep.claims.get 3).take 1))
    let r (n : Nat) := assemble [(0, 1, 0x10), (4, 1, 3), (8, 5, 1025), (14, 2, n)]
    (Taken (asked s .m (r 5)) .m (r 5) .claim ∧ ¬ ClaimFieldsBad (r 5) ∧ rangeOf (r 5) = some 3 ∧
      Refuses (claimTable (asked s .m (r 5)) (r 5) 3) .claimLimit) ∧
    (Taken (asked one .m (r 6)) .m (r 6) .claim ∧ ¬ ClaimFieldsBad (r 6) ∧
      Refuses (claimTable (asked one .m (r 6)) (r 6) 3) .badField) ∧
    (Taken (asked s .m (r 257)) .m (r 257) .claim ∧ ClaimFieldsBad (r 257)) ∧
    (Taken (asked s .m (indexed 0x11 16)) .m (indexed 0x11 16) .release ∧ rangeOf (indexed 0x11 16) = none) ∧
    (Taken (asked s .m (indexed 0x11 3)) .m (indexed 0x11 3) .release ∧ rangeOf (indexed 0x11 3) = some 3 ∧
      reservedZero (indexed 0x11 3) [4] = true ∧ Refuses (releaseTable (asked s .m (indexed 0x11 3)) 3) .claimOrder) := by
  refine ⟨⟨by decide +kernel, by decide +kernel, by decide +kernel, ?_⟩, ⟨by decide +kernel, by decide +kernel, ?_⟩,
    by decide +kernel, by decide +kernel, by decide +kernel, by decide +kernel, by decide +kernel, ?_⟩
  · exact .inr ⟨by decide +kernel, .inr ⟨by decide +kernel, .inl ⟨by decide +kernel, rfl⟩⟩⟩
  · exact .inr ⟨by decide +kernel, .inr ⟨by decide +kernel, .inr ⟨by decide +kernel, .inr ⟨by decide +kernel,
      .inl ⟨⟨1030, by decide +kernel, by decide +kernel, by decide +kernel⟩, rfl⟩⟩⟩⟩⟩
  · refine .inr ⟨by decide +kernel, .inr ⟨by decide +kernel, .inl ⟨?_, rfl⟩⟩⟩
    rintro ⟨cs, c, h, hc⟩
    have last := congrArg (fun l => l.getLast?.map Claim.state) h
    simp only [List.getLast?_append, List.getLast?_singleton, Option.some_or, Option.map_some, hc] at last
    revert last
    decide +kernel

theorem witness_RecipherAcceptedStartsClaim :
    let s := sweepingWith .claimed .claimed
    let r := transfer 0x13 1020 5 0x100000 0x200000 0x205000
    ∃ c, RecipherReady (asked s .m r) r c 0 :=
  ⟨_, by decide +kernel, by decide +kernel, by decide +kernel, by decide +kernel, rfl, by decide +kernel⟩

/-- Of two CLAIMED claims the request names one. -/
theorem witness_RecipherAcceptedStartsClaim_named :
    let s := sweepingWith .claimed .claimed
    let r := transfer 0x13 1020 5 0x100000 0x200000 0x205000
    let named (c : Claim) : Bool := c.state == .claimed && c.first == startOf r && c.count == countOf r
    (s.sweep.claims.get 3).map named = [true, false] ∧
    ∀ x : RangeId, x ≠ 3 → s.sweep.claims.get x = [] := by decide +kernel

theorem witness_ScreenAcceptedPinsNothing :
    ScreenReady (asked part .m (transfer 0x14 1016 8 0x100000 0 0x205000)) (transfer 0x14 1016 8 0x100000 0 0x205000)
      0 := by decide +kernel

/-! ## Witnesses: arbiter, lanes, buffer port -/

theorem witness_GrantHandsOfferedSector :
    ∀ lba ∈ [1019, 1020], ∀ kind ∈ [JobKind.read, .write],
      let j := { twoSectors kind with next := some lba }
      let s := setJob part .i 0 (some j)
      (∀ l', laneEligible s l' = true → 0 ≤ l') ∧ laneEligible s 0 = true ∧
      chooseGrant s.arbiter (fun sd => (offerOf s sd).isSome) = some (.i, 0) ∧
      offerOf s .i = some (0, j) ∧ j.next = some lba ∧ s.bufferPort.faulted = false := by decide +kernel

/-- Each ground on which a lane is not eligible, and the states in which nothing is offered or no lane is eligible. -/
theorem witness_GrantHandsOfferedSector_none :
    let s := setJob part .i 0 (some (twoSectors .read))
    let lane (a b : Bool) (w : Option Work) : State := { s with lanes := put s.lanes 3 ⟨a, w, b⟩ }
    laneEligible (lane true false none) 3 = true ∧ laneEligible (inStage s .draining) 3 = true ∧
    laneEligible (lane false false none) 3 = false ∧ laneEligible (lane true true none) 3 = false ∧
    laneEligible (lane true false (some (work .decipher .reading))) 3 = false ∧
    (∀ st ∈ [Stage.waking, .retain, .failed], ∀ l, laneEligible (inStage s st) l = false) ∧
    (∀ side ∈ [Side.i, .m], offerOf part side = none) ∧
    (offerOf (setJob part .i 0 (some { twoSectors .read with cause := some .aborted })) .i).isSome = false ∧
    (offerOf (setJob part .i 31 (some (twoSectors .read))) .i).isSome = true := by decide +kernel

theorem witness_ArbiterWhileClassesDiffer :
    let a : Arbiter := { iClass := .high, mClass := .normal, count := 0, last := none }
    (a.iClass ≠ a.mClass ∧ a.iClass = .high) ∧
    (∃ s : State, s.arbiter = a ∧ laneEligible s 0 = true ∧
      chooseGrant s.arbiter (fun sd => (offerOf s sd).isSome) = some (.i, 0)) ∧
    ∃ (grants : Nat → Side) (counts : Nat → Nat), counts 0 = a.count ∧ a.count ≤ 8 ∧
      ∀ i, chooseGrant { a with count := counts i } (fun _ => true) = some (grants i, counts (i + 1)) := by
  refine ⟨by decide, ⟨setJob part .i 0 (some (twoSectors .read)), rfl, by decide +kernel, by decide +kernel⟩, fun i => if i % 9 = 8 then .m else .i, fun i => i % 9, rfl, by decide, fun i => ?_⟩
  rcases Nat.lt_or_ge (i % 9) 8 with h | h
  · have : (i + 1) % 9 = i % 9 + 1 := by omega
    simp [chooseGrant, highSide, Config.starvationLimit, h, this, Nat.ne_of_lt h]
  · have : i % 9 = 8 := by omega
    have : (i + 1) % 9 = 0 := by omega
    simp [chooseGrant, highSide, Config.starvationLimit, otherSide, *]

theorem witness_ArbiterWhileClassesEqual :
    let a : Arbiter := { iClass := .high, mClass := .high, count := 0, last := some .i }
    let s : State := { setJob part .i 0 (some (twoSectors .read)) with arbiter := a }
    a.iClass = a.mClass ∧ (s.arbiter = a ∧ laneEligible s 0 = true ∧
      chooseGrant s.arbiter (fun sd => (offerOf s sd).isSome) = some (.i, 0)) ∧
    ∃ (grants : Nat → Side) (lasts : Nat → Option Side), lasts 0 = a.last ∧
      ∀ i, chooseGrant { a with last := lasts i } (fun _ => true) = some (grants i, 0) ∧
        lasts (i + 1) = some (grants i) := by
  refine ⟨rfl, by decide +kernel, fun i => if i % 2 = 0 then .m else .i,
    fun i => if i % 2 = 0 then some .i else some .m, rfl, fun i => ?_⟩
  rcases Nat.mod_two_eq_zero_or_one i with h | h
  · have : (i + 1) % 2 = 1 := by omega
    simp [chooseGrant, highSide, alternate, h, this]
  · have : (i + 1) % 2 = 0 := by omega
    simp [chooseGrant, highSide, alternate, h, this]

/-- Trailer bytes with an epoch. -/
def trailer (e : Nat) : List Byte := leBytes 4 e ++ leBytes 4 0

/-- The access outstanding in `working`. -/
def outstandingOf (kind : AccessKind) (bytes : List Byte) : Access :=
  { who := .lane 2, kind := kind, addr := 0x1408, len := 8, bytes := bytes }

theorem witness_TrailerReadClassifies :
    let w (op : Operation) := work op .reading
    let s (op : Operation) := working (w op) .trailerRead []
    let a := outstandingOf .trailerRead []
    let e (op : Operation) (n : Nat) := (trailerOf (readBytes (memoryAt (s op) a (trailer n)) a.addr 8)).epoch
    (∀ op ∈ [Operation.decipher, .recipher, .screen],
      LaneWaits (s op) 2 (w op) .reading a .trailerRead ∧ (s op).bufferPort.faulted = false) ∧
    Chooses (w .decipher) (e .decipher 21) (some 8) ∧ Chooses (w .decipher) (e .decipher 20) (some 4) ∧
    Chooses (w .recipher) (e .recipher 20) (some 4) ∧
    e .decipher 0 = 0 ∧ EndsAt (w .decipher) (e .decipher 7) .retired ∧
    EndsAt (w .recipher) (e .recipher 21) .alreadyCurrent ∧ EndsAt (w .recipher) (e .recipher 0) .blank ∧
    EndsAt (w .screen) (e .screen 20) .livePrevious ∧
    jobAt (s .screen) .i 0 = some (twoSectors .read) ∧ OthersOpen (twoSectors .read) 1020 ∧
    NoReleasedClear (s .screen) := by
  refine ⟨by decide +kernel, ?_, ?_, ?_, by decide +kernel, ?_, ?_, ?_, ?_, rfl, ?_, by decide +kernel⟩
  · exact ⟨by decide +kernel, .inl ⟨by decide +kernel, rfl⟩⟩
  · exact ⟨by decide +kernel, .inr ⟨by decide +kernel, by decide +kernel, rfl⟩⟩
  · exact ⟨by decide +kernel, by decide +kernel, rfl⟩
  · exact ⟨by decide +kernel, by decide +kernel, by decide +kernel, rfl⟩
  · exact ⟨by decide +kernel, .inl ⟨by decide +kernel, by decide +kernel, rfl⟩⟩
  · exact ⟨by decide +kernel, .inr (.inl ⟨by decide +kernel, by decide +kernel, rfl⟩)⟩
  · exact .inr (.inl ⟨by decide +kernel, by decide +kernel, by decide +kernel, rfl⟩)
  · exact ⟨rfl, 0, by decide +kernel, by decide +kernel, by decide +kernel⟩

theorem witness_DataUnitReadStartsTransform :
    LaneWaits (working (work .encipher .reading) .dataRead []) 2 (work .encipher .reading) .reading
      (outstandingOf .dataRead []) .dataRead := by decide +kernel

theorem witness_TransformEndByOperation :
    let check (w : Work) (k : GroupKeys) := crc32 (decipherUnit k w.lba 32 w.held) ^^^ sectorMask k w.lba 32
    let k : GroupKeys := { k1 := cellBytes part.keys 8, k2 := cellBytes part.keys 9 }
    let w (op : Operation) (off : BitVec 32) : Work :=
      { work op .transforming with
        chosen := some 8, trailer := some ⟨21, check (work op .transforming) k + off⟩ }
    let s (w : Work) := working w .dataRead []
    (∀ w', ((s w').lanes.get 2).work = some w' ∧ (s w').bufferPort.faulted = false) ∧
    groupKeys part.keys 8 = some k ∧
    (∀ op, (w op 0).phase = .transforming ∧ (w op 0).curGroup = some 8 ∧ (w op 0).curEpoch = some 21 ∧
      (w op 0).chosen = some 8 ∧ (w op 0).trailer = some ⟨21, check (w op 0) k⟩ ∧
      ∃ tr, (w op 1).trailer = some tr ∧ check (w op 1) k ≠ tr.check) ∧
    jobAt (s (w .decipher 1)) .i 0 = some (twoSectors .read) ∧ OthersOpen (twoSectors .read) 1020 := by
  refine ⟨fun _ => ⟨by simp [working], rfl⟩, rfl, fun op => ⟨rfl, rfl, rfl, rfl, ?_, _, rfl, ?_⟩, rfl, ?_⟩
  · exact congrArg (fun c => some (Trailer.mk 21 c)) (BitVec.add_zero _)
  · intro h
    have shifted : ∀ c : BitVec 32, c ≠ c + 1 := by intro c hc; bv_omega
    exact shifted _ h
  · exact ⟨rfl, 0, by decide +kernel, by decide +kernel, by decide +kernel⟩

theorem witness_ResultWriteEndsSector :
    let blank (op : Operation) (e : Epoch) : Work := { work op .writing with trailer := some ⟨e, 0⟩ }
    let s (w : Work) := working w .resultWrite (List.replicate 8 3)
    (∀ w ∈ [blank .encipher 0, blank .recipher 20, blank .decipher 0, blank .decipher 21],
      LaneWaits (s w) 2 w .writing (outstandingOf .resultWrite (List.replicate 8 3)) .resultWrite ∧
      jobAt (s w) .i 0 = some (twoSectors .read) ∧ NoReleasedClear (s w)) ∧
    (blank .decipher 0).trailer.map Trailer.epoch = some 0 ∧
    (blank .decipher 21).trailer.map Trailer.epoch ≠ some 0 ∧ OthersOpen (twoSectors .read) 1020 := by
  refine ⟨by decide +kernel, by decide, by decide, rfl, 0, by decide +kernel, by decide +kernel,
    by decide +kernel⟩

/-- That part with the job's one open sector in lane 2 and an access of it outstanding. -/
def lastOf (kind : JobKind) (list : Option Nat) (w : Work) (access : AccessKind) (bytes : List Byte) : State :=
  let s := reciphering (lastSector kind list)
  { s with
    lanes := put s.lanes 2 { inService := true, work := some { w with side := .m }, testHold := false },
    bufferPort := { s.bufferPort with outstanding := [outstandingOf access bytes] } }

/-- The last sector of a job that has its slot, a reserved place, its one claim and a mark. -/
abbrev LastReady (s : State) (kind : JobKind) (list : Option Nat) : Prop :=
  jobAt s .m 0 = some (lastSector kind list) ∧ LastOpen (lastSector kind list) 1020 ∧
  s.bufferPort.faulted = false ∧ (s.port (sidePort .m)).reserved ≠ 0 ∧ HoldsClaim s 0 claimHeld ∧
  s.sweep.marks.get claimHeld.range = some 1020

theorem witness_TrailerReadClassifies_last :
    ∀ kind ∈ [JobKind.recipher, .screen], ∀ list ∈ [none, some 0x9000],
      let w := { work .recipher .reading with side := .m }
      let s := lastOf kind list w .trailerRead []
      LaneWaits s 2 w .reading (outstandingOf .trailerRead []) .trailerRead ∧ LastReady s kind list ∧
      EndsAt w 21 .alreadyCurrent := by
  have ends : EndsAt { work .recipher .reading with side := .m } 21 .alreadyCurrent :=
    ⟨by decide, .inl ⟨by decide, rfl, rfl⟩⟩
  intro kind hk list hl
  refine ⟨?_, ?_, ends⟩ <;> revert list kind <;> decide +kernel

theorem witness_TransformEndByOperation_last :
    ∀ list ∈ [none, some 0x9000],
      let w := { work .recipher .transforming with side := .m, chosen := some 8 }
      let s := lastOf .recipher list w .trailerRead []
      (s.lanes.get 2).work = some w ∧ w.phase = .transforming ∧ LastReady s .recipher list ∧
      (w.curGroup.bind (groupKeys s.keys)).isSome = true ∧ w.curEpoch.isSome = true := by decide +kernel

theorem witness_ResultWriteEndsSector_last :
    ∀ kind ∈ [JobKind.recipher, .screen], ∀ list ∈ [none, some 0x9000],
      let w := { work .recipher .writing with side := .m }
      let s := lastOf kind list w .resultWrite (List.replicate 8 3)
      LaneWaits s 2 w .writing (outstandingOf .resultWrite (List.replicate 8 3)) .resultWrite ∧
      LastReady s kind list := by decide +kernel

/-- That part after a Range Erase (R117, R119): the job SWEEP_CANCELLED, its claim cancelled, no mark and no sweep. -/
def cancelledOf (list : Option Nat) (w : Work) (access : AccessKind) (bytes : List Byte) : State :=
  let s := setJob (lastOf .recipher list w access bytes) .m 0
    (some { lastSector .recipher list with cause := some .sweepCancelled })
  { s with
    table := part.table,
    sweep := { s.sweep with
      marks := put s.sweep.marks 3 none, claims := put s.sweep.claims 3 [],
      cancelled := [{ claimHeld with cancelled := true }] } }

/-- The last sector of a cancelled job: its slot, a reserved place, its one claim, and no mark. -/
abbrev CancelledReady (s : State) (list : Option Nat) : Prop :=
  let j : Job := { lastSector .recipher list with cause := some .sweepCancelled }
  jobAt s .m 0 = some j ∧ LastOpen j 1020 ∧ s.bufferPort.faulted = false ∧ (s.port (sidePort .m)).reserved ≠ 0 ∧
  j.kind = .recipher ∧ HoldsClaim s 0 { claimHeld with cancelled := true } ∧ s.sweep.marks.get claimHeld.range = none

theorem witness_TrailerReadClassifies_cancelled :
    ∀ list ∈ [none, some 0x9000],
      let w := { work .recipher .reading with side := .m }
      let s := cancelledOf list w .trailerRead []
      LaneWaits s 2 w .reading (outstandingOf .trailerRead []) .trailerRead ∧ CancelledReady s list := by decide +kernel

theorem witness_TransformEndByOperation_cancelled :
    ∀ list ∈ [none, some 0x9000],
      let w := { work .recipher .transforming with side := .m, chosen := some 8 }
      let s := cancelledOf list w .trailerRead []
      (s.lanes.get 2).work = some w ∧ w.phase = .transforming ∧ CancelledReady s list := by decide +kernel

theorem witness_ResultWriteEndsSector_cancelled :
    ∀ list ∈ [none, some 0x9000],
      let w := { work .recipher .writing with side := .m }
      let s := cancelledOf list w .resultWrite (List.replicate 8 3)
      LaneWaits s 2 w .writing (outstandingOf .resultWrite (List.replicate 8 3)) .resultWrite ∧
      CancelledReady s list := by decide +kernel

/-- R119, R135: that job's last sector posts SWEEP_CANCELLED with LBA 1022 OVERTAKEN, or asks for its list; the claim goes
with the completion. -/
theorem test_cancelled_job_ends :
    let w := { work .recipher .writing with side := .m }
    let run (list : Option Nat) := match exec (.resultWriteDone 2) (cancelledOf list w .resultWrite (List.replicate 8 3)) with
      | .next t => some (t.ports.m.filled.map (fun c => (c.status, c.body)), t.sweep.cancelled.length,
          t.bufferPort.outstanding.map Access.bytes)
      | _ => none
    run none = some ([(.sweepCancelled, .recipher 4 0 0 0 1)], 0, []) ∧
    run (some 0x9000) = some ([], 1, [[6, 6, 8, 6, 6]]) := by decide +kernel

/-- A job in LISTING with its list write outstanding, the only job of the part, in a stage of the part. -/
def lastListing (kind : JobKind) (pinned : List CellId) : State :=
  let s := setJob (reciphering (lastSector kind (some 0x9000))) .m 0 (some { lastSector kind (some 0x9000) with
    phase := .listing, sectors := List.replicate 5 (.ended .reciphered), finals := List.replicate 5 .reciphered,
    pinned := pinned })
  { s with
    ports := { s.ports with m := ⟨[], [], 1⟩, s := ⟨[], [], 1⟩ },
    bufferPort := { s.bufferPort with
      outstanding := [{ who := .list .m 0, kind := .listWrite, addr := 0x9000, len := 5, bytes := List.replicate 5 6 }] } }

/-- The job of that part, posted. -/
def postedOf (s : State) : State :=
  match jobAt s .m 0 with
  | some j => postJob { s with bufferPort := { s.bufferPort with outstanding := without s (.list .m 0) } } .m 0 j
  | none => s

theorem witness_VerdictListWritePostsCompletion :
    ∀ kind ∈ [JobKind.recipher, .screen], ∀ pinned ∈ [[], [16]], ∃ j a,
      jobAt (lastListing kind pinned) .m 0 = some j ∧ j.phase = .listing ∧
      accessOf (lastListing kind pinned) (.list .m 0) = some a ∧ a.kind = .listWrite ∧
      ((lastListing kind pinned).port (sidePort .m)).reserved ≠ 0 := by
  intro kind _ pinned _
  exact ⟨_, _, rfl, rfl, rfl, rfl, Nat.one_ne_zero⟩

/-- What follows a posting: nothing; a Key Clear that waited on the job's pin of group 16; the end of a drain; the end of
each reset. -/
theorem witness_VerdictListWritePostsCompletion_follows :
    let s := lastListing .screen [16]
    let waits : GroupRec := { group none 1 with state := .retiring, waitingClear := some 1 }
    let cleared := postedOf { s with keys := { s.keys with groups := put s.keys.groups 16 (some waits) } }
    let drained (tag : Option Tag) := postedOf { s with stage := { s.stage with
      stage := .draining, drainCause := some .request, waitingRetain := tag } }
    let run (kind : ResetKind) : ResetRun := ⟨kind, 1, 0, 0, 1, 1, 0, 0⟩
    let ended (kind : ResetKind) := postedOf { s with ports := { s.ports with reset := some (run kind) } }
    (NoReleasedClear (postedOf s) ∧ (postedOf s).stage.stage = .run ∧ (postedOf s).ports.reset = none) ∧
    (cleared.keys.groups.get 16 = some { waits with pins := 0 } ∧
      (∀ g' : CellId, g' ≠ 16 → ∀ e' ∈ (cleared.keys.groups.get g').toList, e'.state = .retiring → e'.pins ≠ 0) ∧
      cleared.ports.s.reserved ≠ 0 ∧ cleared.stage.stage = .run ∧ cleared.ports.reset = none) ∧
    (∀ tag ∈ [none, some 0xBEEF#16], NoReleasedClear (drained tag) ∧ NoJobs (drained tag) ∧
      (drained tag).stage.stage = .draining ∧ (drained tag).stage.drainCause = some .request ∧
      QueuesEmpty (drained tag) ∧ (drained tag).ports.reset = none ∧ (drained tag).stage.waitingRetain = tag ∧
      (drained tag).ports.s.reserved ≠ 0) ∧
    ∀ kind ∈ [ResetKind.engine, .zeroize], NoReleasedClear (ended kind) ∧
      (ended kind).ports.reset = some (run kind) ∧ NothingInFlight (ended kind) (run kind) ∧
      (ended kind).stage.stage ≠ .draining ∧ (ended kind).ports.s.reserved ≠ 0 := by
  refine ⟨?_, ?_, ?_, ?_⟩
  · decide +kernel
  · decide +kernel
  · refine List.forall_mem_cons.mpr ⟨?_, List.forall_mem_singleton.mpr ?_⟩
    · decide +kernel
    · decide +kernel
  · decide +kernel

theorem witness_JobCompletionByKind :
    let io (kind : JobKind) (c : Option EndCause) (n : Nat) : Job :=
      { twoSectors kind with cause := c, fault := n, firstFault := if n = 0 then none else some 1019 }
    let media (kind : JobKind) (c : Option EndCause) (first : Verdict) : Job :=
      { twoSectors kind with cause := c, sectors := [.ended first, .ended .reciphered], finals := [first, .overtaken] }
    (∀ kind ∈ [JobKind.read, .write], (io kind none 0).cause = none ∧ 0 = (io kind none 0).fault ∧
      0 < (io kind none 1).fault ∧ ((io kind none 1).fault = 0 → (io kind none 1).firstFault = none)) ∧
    (∀ c ∈ [EndCause.aborted, .zeroized, .busFault], (io .read (some c) 0).cause = some c) ∧
    (media .recipher (some .sweepCancelled) .retired).kind = .recipher ∧
    (∀ v ∈ [Verdict.retired, .checkFail, .reciphered],
      let j := media .recipher none v
      j.sectors.length = j.count ∧ j.sectors[0]? = some (.ended v) ∧ j.finals[0]? = some v ∧
      (if v = .reciphered then 0 else 1) = j.finals.count .retired + j.finals.count .checkFail) ∧
    (media .screen none .retired).kind = .screen ∧
    (media .screen none .retired).sectors[1]? = some (.ended .reciphered) := by decide +kernel

/-- A sector's end at either end of a job, with a fault and without one, below and above the first fault LBA. -/
theorem witness_JobCompletionByKind_sector :
    let j := { twoSectors .read with fault := 1, firstFault := some 1020 }
    (∀ lba ∈ [1019, 1020], lba - j.start < j.sectors.length) ∧ ¬ 1021 - j.start < j.sectors.length ∧
    (j.endSector 1019 .retired).firstFault = some 1019 ∧ (j.endSector 1021 .checkFail).firstFault = some 1020 ∧
    (j.endSector 1019 .blank).firstFault = some 1020 ∧ (j.endSector 1019 .blank).blank = 1 ∧
    (j.endSector 1020 .done).sectors[1]? = some (.ended .done) ∧ ¬ (j.fault = 0) ∧ j.firstFault ≠ none ∧
    (twoSectors .read).fault = 0 ∧ (twoSectors .read).firstFault = none := by decide +kernel

theorem tablesByKind_of (s : State)
    (hi : ∀ k < 32, ∀ j ∈ jobAt s .i k, j.kind = .read ∨ j.kind = .write)
    (hm : ∀ k < 16, ∀ j ∈ jobAt s .m k, j.kind = .recipher ∨ j.kind = .screen) : TablesByKind s :=
  ⟨fun k j h => hi k (slot_lt_of_jobAt h) j h, fun k j h => hm k (slot_lt_of_jobAt h) j h⟩

/-- A RECIPHER and a READ at a fault: no reset, or one with its quotas answered or not; the claim in its list, or cancelled. -/
theorem witness_BusErrorEndsEveryJob :
    let w := { work .recipher .reading with side := .m }
    let s := setJob (lastOf .recipher none w .trailerRead []) .i 31 (some (twoSectors .read))
    let cancelled := s.setSweep { s.sweep with
      claims := put s.sweep.claims 3 [], cancelled := [{ claimHeld with cancelled := true }] }
    let ending (quota : Nat) := { s with ports := { s.ports with reset := some ⟨.engine, 1, quota, 0, 1, 1, 0, 0⟩ } }
    (∀ t ∈ [s, cancelled, ending 0, ending 1], accessOf t (.lane 2) = some (outstandingOf .trailerRead []) ∧
      t.bufferPort.faulted = false ∧ TablesByKind t ∧ jobAt t .m 0 = some (lastSector .recipher none)) ∧
    s.ports.reset = none ∧ HoldsClaim s 0 claimHeld ∧ claimHeld ∈ s.sweep.claims.get 3 ∧
    cancelled.ports.reset = none ∧ HoldsClaim cancelled 0 { claimHeld with cancelled := true } := by
  intro w s cancelled ending
  have h : ∀ t ∈ [s, cancelled, ending 0, ending 1], accessOf t (.lane 2) = some (outstandingOf .trailerRead []) ∧
      t.bufferPort.faulted = false ∧ jobAt t .m 0 = some (lastSector .recipher none) ∧
      (∀ k < 32, ∀ j ∈ (jobAt t .i k).toList, j.kind = .read ∨ j.kind = .write) ∧
      ∀ k < 16, ∀ j ∈ (jobAt t .m k).toList, j.kind = .recipher ∨ j.kind = .screen := by decide +kernel
  refine ⟨fun t ht => ?_, by decide +kernel⟩
  obtain ⟨h1, h2, h3, h4, h5⟩ := h t ht
  exact ⟨h1, h2, tablesByKind_of t (fun k hk j hj => h4 k hk j (by simpa using hj))
    (fun k hk j hj => h5 k hk j (by simpa using hj)), h3⟩

/-- A RECIPHER in LISTING whose claim a Range Erase has cancelled, its list write outstanding. -/
theorem witness_BusErrorEndsEveryJob_listing :
    let s := lastListing .recipher []
    let s := { s with sweep := { s.sweep with
      claims := put s.sweep.claims 3 [], cancelled := [{ claimHeld with cancelled := true, frozen := true }] } }
    ∃ a j, accessOf s (.list .m 0) = some a ∧ s.bufferPort.faulted = false ∧ s.ports.reset = none ∧ TablesByKind s ∧
      HoldsClaim s 0 { claimHeld with cancelled := true, frozen := true } ∧ jobAt s .m 0 = some j ∧
      j.kind = .recipher ∧ j.phase = .listing := by
  intro s s
  have h : HoldsClaim s 0 { claimHeld with cancelled := true, frozen := true } ∧
      (∀ k < 32, ∀ j ∈ (jobAt s .i k).toList, j.kind = .read ∨ j.kind = .write) ∧
      ∀ k < 16, ∀ j ∈ (jobAt s .m k).toList, j.kind = .recipher ∨ j.kind = .screen := by decide +kernel
  exact ⟨_, _, rfl, rfl, rfl, tablesByKind_of s (fun k hk j hj => h.2.1 k hk j (by simpa using hj))
    (fun k hk j hj => h.2.2 k hk j (by simpa using hj)), h.1, rfl, rfl, rfl⟩

theorem witness_ClassSetSetsBothClasses :
    let r (i m : Nat) := assemble [(0, 1, 0x50), (4, 1, i), (5, 1, m)]
    (Taken (asked part .s (r 0 1)) .s (r 0 1) .classSet ∧ classOfCode (recordField (r 0 1) 4 1) = some .normal ∧
      classOfCode (recordField (r 0 1) 5 1) = some .high ∧ reservedZero (r 0 1) [4, 5] = true) ∧
    (Taken (asked part .s (r 0 2)) .s (r 0 2) .classSet ∧ 1 < recordField (r 0 2) 5 1) := by decide +kernel

theorem witness_BusRecoverReturnsToNormal :
    (Taken (asked part .s (header 0x51)) .s (header 0x51) .busRecover ∧ reservedZero (header 0x51) [] = true) ∧
    (Taken (asked part .s (indexed 0x51 1)) .s (indexed 0x51 1) .busRecover ∧
      reservedZero (indexed 0x51 1) [] = false) := by decide +kernel

/-! ## Witnesses: stages, admission, resets -/

theorem witness_InactivitySecondAndExpiry :
    let last := { part with stage := { part.stage with remaining := 1 } }
    let media := setJob last .m 15 (some (twoSectors .screen))
    (TimerOn part ∧ 2 ≤ part.stage.remaining) ∧
    (TimerOn last ∧ last.stage.remaining ≤ 1 ∧ tableEmpty last .m = true ∧ QueuesEmpty last) ∧
    (TimerOn media ∧ media.stage.remaining ≤ 1 ∧ tableEmpty media .m = false) ∧
    ¬ TimerOn (inStage part .retain) := by decide +kernel

/-- The last second with a record held at the I-port, and with one of a reset's quota there. -/
theorem witness_InactivitySecondAndExpiry_records :
    let s (p : Port) (quota : Option Nat) : State :=
      let s := asked { part with stage := { part.stage with remaining := 1 } } p (header 0x01)
      { s with ports := { s.ports with reset := quota.map (fun n => ⟨.engine, 1, n, n, 0, 0, 0, 0⟩) } }
    ∀ p ∈ [Port.i, .m], (∀ q ∈ [none, some 0, some 1], TimerOn (s p q) ∧ (s p q).stage.remaining ≤ 1 ∧
        tableEmpty (s p q) .m = true) ∧
      RecordHeld (s p none) ∧ RecordHeld (s p (some 0)) ∧ ¬ RecordHeld (s p (some 1)) := by decide +kernel

/-- R153, R150, R147: the timer's expiry with a record held enters RETAIN and wakes in the same step. -/
theorem test_expiry_wakes :
    let s := asked { part with stage := { part.stage with remaining := 1 } } .m (header 0x10)
    (match exec .inactivityExpiry s with
      | .next t => some (t.stage.stage, t.ports.events.retainEntered, t.stage.testRun.map TestRun.cause)
      | _ => none) = some (.waking, true, some .wake) := by decide +kernel

theorem witness_InactivitySetRestartsTimer :
    let r := assemble [(0, 1, 0x52), (4, 2, 3600), (6, 1, 1)]
    let long := assemble [(0, 1, 0x52), (4, 2, 3601)]
    (Taken (asked part .s r) .s r .inactivitySet ∧ recordField r 4 2 ≤ 3600 ∧ recordField r 6 1 ≤ 1 ∧
      reservedZero r [4, 5, 6] = true) ∧
    (Taken (asked part .s long) .s long .inactivitySet ∧ 3600 < recordField long 4 2) ∧
    (Taken (asked part .s (header 0x52)) .s (header 0x52) .inactivitySet ∧ recordField (header 0x52) 4 2 = 0) := by
  decide +kernel

theorem witness_RetainRequestByStage :
    let r := header 0x53
    let jobs := setJob part .i 31 (some (twoSectors .read))
    let out := { jobs with lanes := Vector.replicate 4 { inService := false, work := none, testHold := false } }
    (HeaderTaken (asked part .s r) r .retain ∧ NoJobs (asked part .s r) ∧ QueuesEmpty (asked part .s r)) ∧
    HeaderTaken (asked (inStage part .failed) .s r) r .retain ∧
    (HeaderTaken (asked jobs .s r) r .retain ∧ ¬ NoJobs (asked jobs .s r) ∧
      ∃ l : LaneId, ((asked jobs .s r).lanes.get l).inService = true) ∧
    HeaderTaken (asked (inStage part .retain) .s r) r .retain ∧
    HeaderTaken (asked (inStage part .waking) .s r) r .retain ∧
    (HeaderTaken (asked out .s r) r .retain ∧ ∀ l : LaneId, ((asked out .s r).lanes.get l).inService = false) := by
  decide +kernel

theorem witness_RetainRequestByStage_records :
    let r := header 0x53
    ∀ p ∈ [Port.i, .m], ∀ st ∈ [Stage.run, .failed],
      let s := asked (asked (inStage part st) p (header 0x01)) .s r
      HeaderTaken s r .retain ∧ s.stage.stage = st ∧ NoJobs s ∧ RecordHeld s ∧
      ¬ RecordHeld (asked (inStage part st) .s r) := by decide +kernel

theorem witness_WakeAndLaneTestByStage :
    ∀ st ∈ [Stage.retain, .waking, .run, .failed, .draining],
      HeaderTaken (asked (inStage part st) .s (header 0x54)) (header 0x54) .wake ∧
      HeaderTaken (asked (inStage part st) .s (header 0x55)) (header 0x55) .laneTest := by decide +kernel

/-- A Lane Test that waits, its run begun on every lane: lane 1 still in READING and to be tested, the others held. -/
def duringLaneTest (st : Stage) : State :=
  let s := asked (inStage part st) .s (header 0x24)
  { s with
    stage := { s.stage with
      testRun := some { cause := .request, under := allLanes, passed := noLanes }, waitingLaneTest := some 0xBEEF },
    ports := { s.ports with s := { s.ports.s with reserved := 1 } },
    lanes := put (Vector.replicate 4 { inService := true, work := none, testHold := true }) 1
      { inService := true, work := some (work .decipher .reading), testHold := false } }

/-- An Engine Reset taken in WAKING, and one behind a Lane Test in WAKING, RUN and FAILED with lane 1 waiting for its test. -/
theorem witness_WakeAndLaneTestByStage_reset :
    (HeaderTaken (asked (inStage part .waking) .s (header 0x24)) (header 0x24) .engineReset ∧
      (inStage part .waking).stage.stage = .waking) ∧
    ∀ st ∈ [Stage.waking, .run, .failed],
      ResetBehindLaneTest (duringLaneTest st) (header 0x24) ∧ (duringLaneTest st).stage.stage ≠ .draining ∧
      (duringLaneTest st).lanes.get 1 = { inService := true, work := some (work .decipher .reading), testHold := false } := by
  refine ⟨by decide +kernel, ?_⟩
  decide +kernel

/-- R174, R164 row 7: the S-port's hold by a Lane Test against an Engine Reset is the free value's, and no other's. -/
theorem test_engine_reset_behind_lane_test :
    portPermits (duringLaneTest .run) .s = Config.resetPassesLaneTest := rfl

/-- R164 row 7, R89: what the taking does then: the run goes on, lane 1 is held, and the Lane Test keeps its place. -/
theorem test_engine_reset_during_lane_test :
    let t := takeReset .engine (header 0x24) (takeRecord (duringLaneTest .run) .s)
    (t.stage.testRun.map TestRun.under, t.stage.waitingLaneTest, (t.lanes.get 1).testHold,
      t.ports.s.filled.map Completion.kind, t.ports.s.reserved) =
      (some allLanes, some 0xBEEF, true, [0x24], 1) := by decide +kernel

theorem witness_LaneSelfTestGivesHealth :
    let run (u : Vector Bool 4) : TestRun := { cause := .request, under := u, passed := noLanes }
    let s (u : Vector Bool 4) : State :=
      { asked part .s 0 with
        stage := { part.stage with testRun := some (run u), waitingLaneTest := some 0xBEEF },
        lanes := Vector.replicate 4 { inService := true, work := none, testHold := true } }
    ((s allLanes).stage.testRun = some (run allLanes) ∧ (run allLanes).under.get 3 = true ∧
      ((s allLanes).lanes.get 3).testHold = true ∧ ∃ l', l' ≠ 3 ∧ (run allLanes).under.get l' = true) ∧
    ((run (put noLanes 3 true)).under.get 3 = true ∧
      (∀ l', l' ≠ 3 → (run (put noLanes 3 true)).under.get l' = false) ∧
      (s (put noLanes 3 true)).ports.s.reserved ≠ 0) := by decide +kernel

theorem witness_DrainEndEntersRetain :
    let s (tag : Option Tag) : State :=
      { asked part .s 0 with
        stage := { part.stage with stage := .draining, drainCause := some .request, waitingRetain := tag } }
    ∀ tag, (s tag).stage.stage = .draining ∧ NoJobs (s tag) ∧
      (s tag).stage.drainCause = some .request ∧ QueuesEmpty (s tag) ∧ (s tag).stage.waitingRetain = tag ∧
      (s tag).ports.s.reserved ≠ 0 := by
  have h : NoJobs part := by decide +kernel
  exact fun _ => ⟨rfl, h, rfl, ⟨rfl, rfl⟩, rfl, by simp [asked, State.setPort]⟩

/-- A drain's end with a record waiting at the M-port: beyond any quota, beyond a reset's quota, and within it. -/
theorem witness_DrainEndEntersRetain_records :
    let s (run : Option ResetRun) : State :=
      let s := asked part .m (header 0x10)
      { s with
        ports := { s.ports with reset := run },
        stage := { part.stage with stage := .draining, drainCause := some .inactivity } }
    let quota (n : Nat) : Option ResetRun := some ⟨.engine, 1, 0, n, 1, 0, 0, 0⟩
    (∀ run ∈ [none, quota 0, quota 1], (s run).stage.stage = .draining ∧ NoJobs (s run) ∧
      (s run).stage.drainCause = some .inactivity) ∧
    RecordHeld (s none) ∧ RecordHeld (s (quota 0)) ∧ ¬ RecordHeld (s (quota 1)) := by decide +kernel

/-- R149, R147: with a record held the part enters RETAIN, RETAIN_ENTERED pending, and wakes in the same step. -/
theorem test_drain_end_wakes :
    let s : State := { asked part .m (header 0x10) with
      stage := { part.stage with stage := .draining, drainCause := some .inactivity } }
    (match exec .drainEnd s with
      | .next t => some (t.stage.stage, t.ports.events.retainEntered, t.stage.testRun.map TestRun.cause)
      | _ => none) = some (.waking, true, some .wake) := by decide +kernel

theorem witness_FormatAdmitSeal :
    let sealed := { part with table := { part.table with admission := .sealed } }
    let unset := { part with table := { part.table with admission := .sealed, capacity := 0 } }
    let r (n : Nat) := assemble [(0, 1, 0x21), (4, 6, n), (10, 2, 4096)]
    (∀ n ∈ [1030, 1099511627776], Taken (asked sealed .s (r n)) .s (r n) .formatSet ∧
      1 ≤ recordField (r n) 4 6 ∧ recordField (r n) 4 6 ≤ 1099511627776 ∧
      unitOfBytes (recordField (r n) 10 2) = some .u4096 ∧ reservedZero (r n) (byteSpan 4 11) = true ∧
      sealed.table.admission = .sealed ∧ NoSweep sealed ∧ NoJobs sealed ∧
      ∀ q : RangeId, q ≠ 0 → (sealed.table.entry q).present = true →
        (sealed.table.entry q).last < recordField (r n) 4 6) ∧
    HeaderTaken (asked sealed .s (header 0x22)) (header 0x22) .admitRequest ∧ sealed.table.capacity ≠ 0 ∧
    HeaderTaken (asked unset .s (header 0x22)) (header 0x22) .admitRequest ∧ unset.table.capacity = 0 ∧
    HeaderTaken (asked part .s (header 0x23)) (header 0x23) .sealRequest := by decide +kernel

/-- A FORMAT_SET to a capacity of 1029, whose last LBA range 3 passes, and one to a capacity of 0. -/
theorem witness_FormatAdmitSeal_refusals :
    let s := { part with table := { part.table with admission := .sealed } }
    let r (n : Nat) := assemble [(0, 1, 0x21), (4, 6, n), (10, 2, 4096)]
    (Taken (asked s .s (r 1029)) .s (r 1029) .formatSet ∧
      Refuses (formatSetTable (asked s .s (r 1029)) (r 1029)) .rangeOverlap) ∧
    (Taken (asked s .s (r 0)) .s (r 0) .formatSet ∧
      Refuses (formatSetTable (asked s .s (r 0)) (r 0)) .badField) := by
  refine ⟨⟨by decide +kernel, ?_⟩, ⟨by decide +kernel, ?_⟩⟩
  · exact .inr ⟨by decide +kernel, .inr ⟨by decide +kernel, .inr ⟨by decide +kernel, .inr ⟨by decide +kernel,
      .inl ⟨⟨3, by decide +kernel⟩, rfl⟩⟩⟩⟩⟩
  · exact .inl ⟨by decide +kernel, rfl⟩

/-- A lane in WRITING with its access, for the oldest claim's RECIPHER, and a lane in READING, at both resets. -/
theorem witness_ResetTakingStopsWork :
    let w (phase : LanePhase) := { work .recipher phase with side := .m }
    let s := lastOf .recipher none (w .writing) .resultWrite (List.replicate 8 3)
    let two := s.setLane 1 { inService := true, work := some (w .reading), testHold := false }
    (Instr.engineReset = .engineReset ∧ HeaderTaken (asked two .s (header 0x24)) (header 0x24) .engineReset) ∧
    (Instr.zeroize = .zeroize ∧ HeaderTaken (asked two .s (header 0x25)) (header 0x25) .zeroize) ∧
    TablesByKind two ∧ claimHeld ∈ two.sweep.claims.get 3 ∧ claimHeld.job = some 0 ∧
    (two.lanes.get 2).work = some (w .writing) ∧ (two.lanes.get 1).work = some (w .reading) := by
  intro w s two
  refine ⟨by decide +kernel, by decide +kernel, tablesByKind_of _ ?_ ?_, by decide +kernel⟩
  · have : ∀ k < 32, ∀ j ∈ (jobAt two .i k).toList, j.kind = .read ∨ j.kind = .write := by decide +kernel
    exact fun k hk j hj => this k hk j (by simpa using hj)
  · have : ∀ k < 16, ∀ j ∈ (jobAt two .m k).toList, j.kind = .recipher ∨ j.kind = .screen := by decide +kernel
    exact fun k hk j hj => this k hk j (by simpa using hj)

/-- Jobs that a reset meets: I-table slot 0 WAITING with no list, slot 5 in LISTING, slot 31 WAITING with a list, and the
RECIPHER of M-table slot 0 with its last sector in a lane. -/
def manyJobs (phase : LanePhase) : State :=
  let w := { work .recipher phase with side := .m }
  let s := lastOf .recipher none w .resultWrite (List.replicate 8 3)
  let s := setJob s .i 0 (some { twoSectors .read with list := none, pinned := [8] })
  let s := setJob s .i 5 (some { twoSectors .write with
    phase := .listing, sectors := List.replicate 2 (.ended .done), next := none })
  let s := setJob s .i 31 (some (twoSectors .write))
  let s := s.setPort .i ⟨[header 0x01], [], 3⟩
  { s with bufferPort := { s.bufferPort with outstanding := s.bufferPort.outstanding ++
      [{ who := .list .i 5, kind := .listWrite, addr := 0x9000, len := 2, bytes := [1, 1] }] } }

/-- What the taking meets there: a job with a sector in WRITING stays, one in LISTING stays, one posts at once, one asks for
its list; with the lane in READING the RECIPHER posts too. -/
theorem witness_ResetTakingStopsWork_jobs :
    let cut (s : State) (side : Side) (k : Nat) (j : Job) := stoppedAtTaking s side k .aborted j
    let s := manyJobs .writing
    (∀ phase ∈ [LanePhase.writing, .reading], TablesByKind (manyJobs phase) ∧ JobClaimsReciphering (manyJobs phase) ∧
      HeaderTaken (asked (manyJobs phase) .s (header 0x24)) (header 0x24) .engineReset) ∧
    (∃ j, jobAt s .m 0 = some j ∧ ¬ (cut s .m 0 j).AtEnd) ∧
    (∃ j, jobAt s .i 5 = some j ∧ j.phase = .listing) ∧
    (∃ j, jobAt s .i 0 = some j ∧ (cut s .i 0 j).AtEnd ∧ (cut s .i 0 j).PostsAtOnce) ∧
    (∃ j, jobAt s .i 31 = some j ∧ (cut s .i 31 j).AtEnd ∧ (cut s .i 31 j).list = some 0x9000 ∧
      (cut s .i 31 j).cause ≠ some .busFault) ∧ s.bufferPort.faulted = false ∧
    ∃ j, jobAt (manyJobs .reading) .m 0 = some j ∧ j.kind = .recipher ∧ (cut (manyJobs .reading) .m 0 j).AtEnd ∧
      (cut (manyJobs .reading) .m 0 j).PostsAtOnce := by
  intro cut s
  refine ⟨fun phase hp => ⟨?_, ?_, ?_⟩, ⟨_, rfl, ?_⟩, ⟨_, rfl, rfl⟩, ⟨_, rfl, ?_⟩, ⟨_, rfl, ?_⟩, rfl, _, rfl, ?_⟩
  · refine tablesByKind_of _ ?_ ?_
    · have : ∀ phase ∈ [LanePhase.writing, .reading], ∀ k < 32, ∀ j ∈ (jobAt (manyJobs phase) .i k).toList,
          j.kind = .read ∨ j.kind = .write := by decide +kernel
      exact fun k hk j hj => this phase hp k hk j (by simpa using hj)
    · have : ∀ phase ∈ [LanePhase.writing, .reading], ∀ k < 16, ∀ j ∈ (jobAt (manyJobs phase) .m k).toList,
          j.kind = .recipher ∨ j.kind = .screen := by decide +kernel
      exact fun k hk j hj => this phase hp k hk j (by simpa using hj)
  · have : ∀ phase ∈ [LanePhase.writing, .reading], JobClaimsReciphering (manyJobs phase) := by decide +kernel
    exact this phase hp
  · have : ∀ phase ∈ [LanePhase.writing, .reading],
        HeaderTaken (asked (manyJobs phase) .s (header 0x24)) (header 0x24) .engineReset := by decide +kernel
    exact this phase hp
  all_goals decide +kernel

/-- R78, R161: the step posts slot 0 ABORTED and asks for slot 31's list; slots 5 and the M-table's 0 stay. -/
theorem test_reset_taking_posts :
    let after {β : Type} (f : State → List β) : List β :=
      match exec .engineReset (asked (manyJobs .writing) .s (header 0x24)) with | .next t => f t | _ => []
    after (fun t => t.ports.i.filled.map Completion.status) = [.aborted] ∧
    after (fun t => t.ports.m.filled.map Completion.status) = [] ∧
    after (fun t => [0, 5, 31].map (fun k => (jobAt t .i k).map Job.phase)) = [none, some .listing, some .listing] ∧
    after (fun t => (jobAt t .m 0).toList.map Job.cause) = [some .aborted] ∧
    after (fun t => t.bufferPort.outstanding.map (fun a => (a.who, a.bytes))) =
      [(.lane 2, List.replicate 8 3), (.list .i 5, [1, 1]), (.list .i 31, [5, 5])] := by decide +kernel

theorem witness_ResetEndCompletes :
    ∀ kind ∈ [ResetKind.engine, .zeroize],
      let run : ResetRun := ⟨kind, 0xBEEF, 0, 0, 2, 1, 3, 0⟩
      let s : State := { asked part .s 0 with ports := { (asked part .s 0).ports with reset := some run } }
      s.ports.reset = some run ∧ NothingInFlight s run ∧ s.ports.s.reserved ≠ 0 := by decide +kernel

/-! ## Witnesses: the cipher and the laws -/

theorem witness_TweakBlockAndDoubling :
    ((1099511627775 : Nat) < 1099511627776 ∧ (15 : Nat) < 16) ∧ part.keys.groups.get 62 = none ∧
    (part.keys.groups.get 16 = some (group none 0) ∧ (group none 0).strength = .s128 ∧
      (17 : CellId).1 = (16 : CellId).1 + 1) ∧
    (∃ e : GroupRec, (withGroup16 e).keys.groups.get 16 = some e ∧ e.strength = .s256) ∧
    (19 : CellId).1 = (16 : CellId).1 + 3 ∧ (63 : CellId).1 = (60 : CellId).1 + 3 := by
  exact ⟨by decide, by decide +kernel, by decide +kernel,
    ⟨{ group none 0 with strength := .s256 }, by decide +kernel, rfl⟩, rfl, rfl⟩

theorem witness_DecipherUndoesEncipher : (List.replicate 512 (0 : Byte)).length = 16 * 32 := List.length_replicate

theorem witness_EncipheredSectorPassesItsCheck : (List.replicate 4096 (0 : Byte)).length = 16 * 256 :=
  List.length_replicate

/-- The last block of a data unit, and a block whose bytes it holds. -/
theorem witness_EncipheredSectorPassesItsCheck_block :
    let unit : List Byte := (List.range 512).map (BitVec.ofNat 8)
    unit.length = 16 * 32 ∧ 31 < 32 ∧
    ∀ i < 16, ((unit.drop (16 * 31)).take 16)[i]? = some (byteAt (blockOf ((unit.drop 496).take 16)) i) := by
  decide +kernel

/-- The sweeping part with a command in front. -/
def next (c : Instr) : State := { sweepingWith .reciphering .claimed with pending := [c], buffer := [(5, 1)] }

/-- A step of it that moves a record from the S-port's queue to its completions. -/
def lawful : State := asked (next .status) .s (header 0x20)

theorem witness_StepKeepsMemoryCanonical : Memory.wf lawful.buffer = true ∧ ∃ t, step lawful = .next t :=
  ⟨by decide +kernel, _, rfl⟩

theorem witness_StepKeepsPortsWithin : PortsWithin lawful ∧ ∃ t, step lawful = .next t :=
  ⟨fun p => by cases p <;> decide +kernel, _, rfl⟩

theorem witness_StepNeverRewritesFilledCell :
    EmptyCellsZero lawful ∧ (lawful.keys.cells.get 8).filled = true ∧ ∃ t, step lawful = .next t :=
  ⟨by unfold EmptyCellsZero; decide +kernel, by decide +kernel, _, rfl⟩

theorem witness_StepKeepsEpochLaw : EpochLaw lawful ∧ ∃ t, step lawful = .next t :=
  ⟨by unfold EpochLaw; decide +kernel, _, rfl⟩

theorem witness_StepKeepsSweepLaw : SweepLaw lawful ∧ ∃ t, step lawful = .next t :=
  ⟨by unfold SweepLaw; decide +kernel, _, rfl⟩

theorem witness_StepKeepsBoundsLaw :
    BoundsLaw lawful.table ∧ (∃ t, step lawful = .next t) ∧
    (∀ y ∈ [1020, 1029], (lawful.table.entry 3).present = true ∧ (lawful.table.entry 3).first ≤ y ∧
      y ≤ (lawful.table.entry 3).last) ∧
    ∀ y ∈ [1019, 1030], ∀ r : RangeId, r ≠ 0 → (lawful.table.entry r).present = true →
      ¬ ((lawful.table.entry r).first ≤ y ∧ y ≤ (lawful.table.entry r).last) :=
  ⟨by unfold BoundsLaw; decide +kernel, ⟨_, rfl⟩, by decide +kernel, by decide +kernel⟩

theorem witness_StepKeepsCountsWithin :
    CountsWithin lawful ∧ FaultedQuiet lawful ∧ TablesByKind lawful ∧ ∃ t, step lawful = .next t := by
  have none : ∀ side, tableEmpty lawful side = true := by intro side; cases side <;> decide +kernel
  refine ⟨by unfold CountsWithin; decide +kernel, by unfold FaultedQuiet; decide +kernel, ⟨fun k j h => ?_, fun k j h => ?_⟩,
    _, rfl⟩
  · rw [(tableEmpty_iff _ _).mp (none .i) k] at h
    cases h
  · rw [(tableEmpty_iff _ _).mp (none .m) k] at h
    cases h

/-- Two states that differ in the bits of one FILLED cell. -/
theorem witness_KeyBitsReadByTransformAlone :
    let other : State := { lawful with keys := { lawful.keys with
      cells := put lawful.keys.cells 8 { filled := true, bits := 6 } } }
    (∀ l, Instr.status ≠ .transformEnd l) ∧ SameButKeyBits lawful other ∧ lawful ≠ other ∧
      ∃ t, exec .status lawful = .next t :=
  ⟨fun l => by simp, ⟨by decide +kernel, rfl⟩, by decide +kernel, _, rfl⟩

end Sys2Proof.Tests
end

section
/-! PROOFS. The sector cipher (R3 to R11, R17, R19): the inverse cipher undoes the cipher round by round, so the
decipher of an enciphered data unit gives its plaintext. -/

namespace Sys2Proof.Machine

/-! ### The steps of a round, each with its inverse (log entry 7) -/

theorem blockBytes_blockOf {l : List Byte} (h : l.length = 16) : blockBytes (blockOf l) = l := by
  apply List.ext_getElem?
  intro i
  by_cases hi : i < 16
  · have hl : i < l.length := by omega
    rw [blockBytes_get _ hi, byteAt_blockOf _ hi (by omega), List.getElem?_eq_getElem hl]
    rfl
  · rw [List.getElem?_eq_none (by simp; omega), List.getElem?_eq_none (by omega)]

theorem invSubByte_subByte : ∀ x : Byte, invSubByte (subByte x) = x := by decide +kernel

theorem invSubBytes_subBytes (st : List Byte) : invSubBytes (subBytes st) = st := by
  simp [invSubBytes, subBytes, Function.comp_def, invSubByte_subByte]

@[simp] theorem subBytes_length (st : List Byte) : (subBytes st).length = st.length := by simp [subBytes]

@[simp] theorem shiftRows_length (st : List Byte) : (shiftRows st).length = 16 := by simp [shiftRows]

/-- Each row turned right by as many columns as it was turned left. -/
theorem invShiftRows_shiftRows {st : List Byte} (h : st.length = 16) : invShiftRows (shiftRows st) = st := by
  apply List.ext_getElem (by simp [invShiftRows, h])
  intro i hi hs
  have back : (((i + 12 * (i % 4)) % 16) + 4 * (((i + 12 * (i % 4)) % 16) % 4)) % 16 = i := by omega
  have inner : (i + 12 * (i % 4)) % 16 < 16 := Nat.mod_lt _ (by decide)
  simp only [invShiftRows, shiftRows, List.getElem_map, List.getElem_range, List.getD_eq_getElem?_getD,
    List.getElem?_map, List.getElem?_range inner, Option.map_some, Option.getD_some, back,
    List.getElem?_eq_getElem hs]

/-- Multiplication by x in GF(2^8) is linear. -/
theorem xtime_xor (a b : Byte) : xtime (a ^^^ b) = xtime a ^^^ xtime b := by
  simp only [xtime, BitVec.shiftLeft_xor_distrib, BitVec.msb_xor]
  cases a.msb <;> cases b.msb <;> simp [BitVec.xor_assoc, BitVec.xor_comm 27#8]

/-- So is every multiplication of InvMixColumns. -/
theorem mul_xor (a b : Byte) :
    mul9 (a ^^^ b) = mul9 a ^^^ mul9 b ∧ mul11 (a ^^^ b) = mul11 a ^^^ mul11 b ∧
    mul13 (a ^^^ b) = mul13 a ^^^ mul13 b ∧ mul14 (a ^^^ b) = mul14 a ^^^ mul14 b := by
  simp only [mul9, mul11, mul13, mul14, xtime_xor]
  exact ⟨by ac_rfl, by ac_rfl, by ac_rfl, by ac_rfl⟩

/-- The coefficients of one byte of a column in the four bytes of MixColumns undone: 1 for the byte itself, 0 for the
other three (FIPS PUB 197, InvMixColumns). -/
theorem mixColumns_coefficients : ∀ x : Byte,
    mul14 (xtime x) ^^^ mul11 x ^^^ mul13 x ^^^ mul9 (xtime x ^^^ x) = x ∧
    mul14 (xtime x ^^^ x) ^^^ mul11 (xtime x) ^^^ mul13 x ^^^ mul9 x = 0 ∧
    mul14 x ^^^ mul11 (xtime x ^^^ x) ^^^ mul13 (xtime x) ^^^ mul9 x = 0 ∧
    mul14 x ^^^ mul11 x ^^^ mul13 (xtime x ^^^ x) ^^^ mul9 (xtime x) = 0 := by decide +kernel

/-- One row of InvMixColumns on a column that MixColumns has made. -/
theorem invMixColumns_row (a b c d : Byte) :
    mul14 (xtime a ^^^ (xtime b ^^^ b) ^^^ c ^^^ d) ^^^ mul11 (a ^^^ xtime b ^^^ (xtime c ^^^ c) ^^^ d) ^^^
      mul13 (a ^^^ b ^^^ xtime c ^^^ (xtime d ^^^ d)) ^^^ mul9 ((xtime a ^^^ a) ^^^ b ^^^ c ^^^ xtime d) = a := by
  obtain ⟨ha, -, -, -⟩ := mixColumns_coefficients a
  obtain ⟨-, hb, -, -⟩ := mixColumns_coefficients b
  obtain ⟨-, -, hc, -⟩ := mixColumns_coefficients c
  obtain ⟨-, -, -, hd⟩ := mixColumns_coefficients d
  calc _ = (mul14 (xtime a) ^^^ mul11 a ^^^ mul13 a ^^^ mul9 (xtime a ^^^ a)) ^^^
        (mul14 (xtime b ^^^ b) ^^^ mul11 (xtime b) ^^^ mul13 b ^^^ mul9 b) ^^^
        (mul14 c ^^^ mul11 (xtime c ^^^ c) ^^^ mul13 (xtime c) ^^^ mul9 c) ^^^
        (mul14 d ^^^ mul11 d ^^^ mul13 (xtime d ^^^ d) ^^^ mul9 (xtime d)) := by
        simp only [mul_xor]
        ac_rfl
    _ = a := by rw [ha, hb, hc, hd]; simp

/-- The other three rows are the first one on the column turned by one, two and three bytes. -/
theorem invMixColumns_mixColumns_column (a b c d : Byte) (rest : List Byte) :
    invMixColumns (mixColumns (a :: b :: c :: d :: rest)) = a :: b :: c :: d :: invMixColumns (mixColumns rest) := by
  have rowA := invMixColumns_row a b c d
  have rowB := invMixColumns_row b c d a
  have rowC := invMixColumns_row c d a b
  have rowD := invMixColumns_row d a b c
  simp only [mul_xor] at rowA rowB rowC rowD
  simp only [mixColumns, invMixColumns, mul_xor, List.cons.injEq, and_true]
  exact ⟨rowA, .trans (by ac_rfl) rowB, .trans (by ac_rfl) rowC, .trans (by ac_rfl) rowD⟩

theorem invMixColumns_mixColumns (m : Nat) (st : List Byte) (h : st.length = 4 * m) :
    (mixColumns st).length = 4 * m ∧ invMixColumns (mixColumns st) = st := by
  induction m generalizing st with
  | zero =>
    obtain rfl := List.eq_nil_of_length_eq_zero h
    exact ⟨rfl, rfl⟩
  | succ m ih =>
    match st, h with
    | a :: b :: c :: d :: rest, h =>
      obtain ⟨length, back⟩ := ih rest (by simp only [List.length_cons] at h; omega)
      exact ⟨by simp only [mixColumns, List.length_cons, length]; omega,
        by rw [invMixColumns_mixColumns_column, back]⟩

/-! ### The cipher and its inverse (R7, log entry 7) -/

/-- The last round, which has no MixColumns, undone. -/
theorem lastRound_undone (st : Block) :
    blockOf (invSubBytes (invShiftRows (blockBytes (blockOf (shiftRows (subBytes (blockBytes st))))))) = st := by
  rw [blockBytes_blockOf (by simp), invShiftRows_shiftRows (by simp), invSubBytes_subBytes, blockOf_blockBytes]

/-- Every other round undone. -/
theorem round_undone (st : Block) :
    blockOf (invSubBytes (invShiftRows (invMixColumns (blockBytes
      (blockOf (mixColumns (shiftRows (subBytes (blockBytes st))))))))) = st := by
  obtain ⟨length, back⟩ := invMixColumns_mixColumns 4 (shiftRows (subBytes (blockBytes st))) (by simp)
  rw [blockBytes_blockOf length, back, invShiftRows_shiftRows (by simp), invSubBytes_subBytes, blockOf_blockBytes]

theorem invCipherRounds_cipherRounds (ks : List Block) (st : Block) :
    invCipherRounds ks (cipherRounds ks st) = st := by
  induction ks generalizing st with
  | nil => rfl
  | cons k ks ih =>
    cases ks with
    | nil => rw [cipherRounds, invCipherRounds, xor_cancel_right, lastRound_undone]
    | cons k' ks =>
      rw [cipherRounds, invCipherRounds, ih, xor_cancel_right, round_undone] <;> simp

/-- D_K undoes E_K, whatever the key (R7). -/
theorem aesDecipher_aesEncipher (key : List Byte) (b : Block) : aesDecipher key (aesEncipher key b) = b := by
  simp only [aesDecipher, aesEncipher]
  cases expandKey key with
  | nil => rfl
  | cons k ks => rw [cipherWith, invCipherWith, invCipherRounds_cipherRounds, xor_cancel_right]

/-! ### Data units (R8, R9) -/

theorem decipherBlocks_encipherBlocks (k1 : List Byte) (t : Block) (ps : List Block) :
    decipherBlocks k1 t (encipherBlocks k1 t ps) = ps := by
  induction ps generalizing t with
  | nil => rfl
  | cons p ps ih => rw [encipherBlocks, decipherBlocks, ih, xor_cancel_right, aesDecipher_aesEncipher, xor_cancel_right]

theorem blocksOf_bytesOfBlocks (bs : List Block) : blocksOf bs.length (bytesOfBlocks bs) = bs := by
  apply List.ext_getElem?
  intro j
  by_cases hj : j < bs.length
  · rw [blocksOf_get _ _ hj, bytesOfBlocks_cut bs (List.getElem?_eq_getElem hj), blockOf_blockBytes,
      List.getElem?_eq_getElem hj]
  · rw [List.getElem?_eq_none (by simpa using hj), List.getElem?_eq_none (by simpa using hj)]

theorem bytesOfBlocks_blocksOf (n : Nat) {unit : List Byte} (h : unit.length = 16 * n) :
    bytesOfBlocks (blocksOf n unit) = unit := by
  induction n generalizing unit with
  | zero => exact (List.eq_nil_of_length_eq_zero h).symm
  | succ n ih =>
    have first : (unit.take 16).length = 16 := by simp; omega
    calc bytesOfBlocks (blocksOf (n + 1) unit)
        = blockBytes (blockOf (unit.take 16)) ++ bytesOfBlocks (blocksOf n (unit.drop 16)) := rfl
      _ = unit.take 16 ++ unit.drop 16 := by rw [blockBytes_blockOf first, ih (by simp; omega)]
      _ = unit := List.take_append_drop 16 unit

/-- Settles O50: block by block, since D_K undoes E_K and both use the same tweaks. -/
theorem decipherUndoesEncipher : Obligations.DecipherUndoesEncipher := by
  intro k lba n unit h
  have cut := blocksOf_bytesOfBlocks (encipherBlocks k.k1 (initialTweak k lba) (blocksOf n unit))
  rw [encipherBlocks_length, blocksOf_length] at cut
  rw [decipherUnit, encipherUnit, cut, decipherBlocks_encipherBlocks, bytesOfBlocks_blocksOf n h]

/-- The one block with the bytes of a cut of a data unit. -/
theorem blockOf_eq_of_bytes {l : List Byte} {p : Block} (hl : l.length ≤ 16)
    (h : ∀ i, i < 16 → l[i]? = some (byteAt p i)) : blockOf l = p := by
  apply block_ext
  intro i hi
  rw [byteAt_blockOf l hi hl, h i hi, Option.getD_some]

/-! ### The check and its mask (R10, R11, R19) -/

/-- The masked check of an enciphered data unit, deciphered under the same keys, is the one it was given (R11, R19). -/
theorem decipherChecked_encipherUnit (k : GroupKeys) (e : Epoch) (lba n : Nat) {unit : List Byte}
    (h : unit.length = 16 * n) :
    decipherChecked k lba n { epoch := e, check := maskedCheck k lba n unit } (encipherUnit k lba n unit) =
      some unit := by
  simp only [decipherChecked, decipherUndoesEncipher k lba n unit h, if_true]

/-- A sector's first bytes are its ciphertext and its last eight its trailer (R1, R17). -/
theorem cipherSector_parts (k : GroupKeys) (e : Epoch) (lba n : Nat) (unit : List Byte) :
    (cipherSector k e lba n unit).length = 16 * n + 8 ∧
    (cipherSector k e lba n unit).take (16 * n) = encipherUnit k lba n unit ∧
    trailerOf ((cipherSector k e lba n unit).drop (16 * n)) =
      { epoch := e, check := maskedCheck k lba n unit } := by
  refine ⟨by simp [cipherSector], List.take_left' (by simp), ?_⟩
  rw [cipherSector, List.drop_left' (by simp), trailerOf_trailerBytes]

/-- Settles O51: the parts from the laws of the sector's arithmetic, the round trip from O50's. -/
theorem encipheredSectorPassesItsCheck : Obligations.EncipheredSectorPassesItsCheck := by
  refine ⟨⟨rfl, rfl⟩, fun k lba n j unit _ hj => ?_, fun k lba n i hi => sectorMask_bytes k lba n hi,
    ⟨by decide, crc32_append⟩, crcStep_toNat,
    fun t i => ⟨trailerBytes_length t, trailerOf_trailerBytes t, fun hi => trailerBytes_get t hi⟩,
    fun k e lba n unit h => ?_⟩
  · refine ⟨encipherUnit_length k lba n unit, decipherUnit_length k lba n unit, fun p hp i hi => ?_⟩
    beta_reduce at hp ⊢
    rw [encipherUnit_cut k lba n unit hj, decipherUnit_cut k lba n unit hj,
      blockOf_eq_of_bytes (List.length_take_le _ _) hp]
    exact ⟨blockBytes_get _ hi, blockBytes_get _ hi⟩
  · obtain ⟨length, cipher, trailer⟩ := cipherSector_parts k e lba n unit
    refine ⟨length, cipher, trailer, ?_⟩
    rw [trailer, cipher]
    exact decipherChecked_encipherUnit k e lba n h

/-! ### Keys and tweaks (R3 to R6) -/

/-- Byte `i` of a tweak block is byte `i` of the LBA (R4). -/
theorem byteAt_tweakBlock (lba : Nat) {i : Nat} (hi : i < 16) :
    (byteAt (tweakBlock lba) i).toNat = lba / 2 ^ (8 * i) % 256 := by
  apply Nat.eq_of_testBit_eq
  intro m
  rw [show (256 : Nat) = 2 ^ 8 from rfl, Nat.testBit_mod_two_pow, Nat.testBit_div_two_pow]
  simp only [byteAt, tweakBlock, BitVec.testBit_toNat, BitVec.getLsbD_extractLsb', BitVec.getLsbD_ofNat]
  by_cases hm : m < 8
  · simp [hm, show m + 8 * i < 128 by omega, Nat.add_comm]
  · simp [hm]

/-- An LBA is below 2^40, so the bytes of its tweak block from the fifth on are zero (R4). -/
theorem byteAt_tweakBlock_high {lba i : Nat} (hl : lba < 1099511627776) (hi : i < 16) (h5 : 5 ≤ i) :
    byteAt (tweakBlock lba) i = 0x00 := by
  apply BitVec.eq_of_toNat_eq
  have below : lba < 2 ^ (8 * i) := calc
    lba < 2 ^ 40 := hl
    _ ≤ 2 ^ (8 * i) := Nat.pow_le_pow_right (by decide) (by omega)
  rw [byteAt_tweakBlock lba hi, Nat.div_eq_of_lt below]
  rfl

/-- A doubling as a number: the shift drops the bit at the top, and 0x87 comes in where that bit was 1 (R6). -/
theorem doubleTweak_toNat (t : Block) :
    (doubleTweak t).toNat = Nat.xor (t.toNat * 2 % 2 ^ 128) (if 2 ^ 127 ≤ t.toNat then 0x87 else 0) := by
  have top : t.msb = decide (2 ^ 127 ≤ t.toNat) := BitVec.msb_eq_decide t
  simp only [doubleTweak, top, decide_eq_true_eq, BitVec.toNat_xor, BitVec.toNat_shiftLeft, Nat.shiftLeft_eq]
  split <;> rfl

/-- Settles O49, clause by clause. -/
theorem tweakBlockAndDoubling : Obligations.TweakBlockAndDoubling := by
  refine ⟨fun ks g => ⟨fun h => ?_, fun e c1 h hs h1 => ?_, fun e c1 c2 c3 h hs h1 h2 h3 => ?_⟩,
    fun lba i hl hi => ⟨byteAt_tweakBlock lba hi, byteAt_tweakBlock_high hl hi⟩, fun _ _ => rfl,
    fun t0 j => ⟨rfl, doubleTweak_toNat _⟩⟩
  · simp only [groupKeys, h]
  · simp only [groupKeys, h, hs, ← h1, cellBytes_eq]
    rfl
  · simp only [groupKeys, h, hs, ← h1, ← h2, ← h3, cellBytes_eq]
    rfl

end Sys2Proof.Machine
end

section
/-! PROOFS. The steps of a lane's work on a sector (R13 to R21): what each command does where its access is outstanding
or its transform has ended, and the end of a sector, its job's last one included (R15, R65, R77, R78). -/

namespace Sys2Proof.Machine

/-! ### Accesses asked for, and memory as a read meets it -/

/-- A NORMAL port takes every access asked for (R97). -/
theorem askAccess_normal {s : State} (a : Access) (h : s.bufferPort.faulted = false) :
    askAccess s a =
      { s with bufferPort := { s.bufferPort with outstanding := s.bufferPort.outstanding ++ [a] } } := by
  simp only [askAccess, h]
  rfl

/-- A lane enters WRITING and asks for its write (R15). -/
theorem startWriting_normal {s : State} (l : LaneId) (w : Work) (result : List Byte)
    (h : s.bufferPort.faulted = false) :
    startWriting s l w result =
      { s with
        lanes := put s.lanes l { s.lanes.get l with work := some { w with phase := .writing, held := result } },
        bufferPort := { s.bufferPort with outstanding := s.bufferPort.outstanding ++
          [{ who := .lane l, kind := .resultWrite, addr := w.dst.getD 0, len := result.length, bytes := result }] } } :=
  askAccess_normal _ h

theorem startWriting_buffer (s : State) (l : LaneId) (w : Work) (result : List Byte) :
    (startWriting s l w result).buffer = s.buffer := askAccess_buffer _ _

/-- Only the bytes that the other masters have placed, up to the access's length, can differ (log entry 5). -/
theorem sameOutside_memoryAt {s t : State} {a : Access} {placed : List Byte} (h : t.buffer = memoryAt s a placed) :
    SameOutside s t a.addr (min placed.length a.len) := by
  intro x hx
  rw [h, memoryAt, readByte_writeBytes_outside]
  simpa [Nat.min_comm] using hx

/-- The state as a lane's delivered access leaves it, but for the lane itself: memory changed, the access gone. -/
def delivered (s : State) (l : LaneId) (m : Memory) : State :=
  { s with buffer := m, bufferPort := { s.bufferPort with outstanding := without s (.lane l) } }

theorem clearAccess_placeBytes (s : State) (l : LaneId) (a : Access) (placed : List Byte) :
    clearAccess (placeBytes s a placed) (.lane l) = delivered s l (memoryAt s a placed) := rfl

theorem clearAccess_landWrite (s : State) (l : LaneId) (a : Access) :
    clearAccess (landWrite s a) (.lane l) = delivered s l (writeBytes s.buffer a.addr a.bytes) := rfl

theorem jobAt_delivered (s : State) (l : LaneId) (m : Memory) (side : Side) (k : Nat) :
    jobAt (delivered s l m) side k = jobAt s side k := by
  cases side <;> rfl

theorem port_delivered (s : State) (l : LaneId) (m : Memory) (p : Port) : (delivered s l m).port p = s.port p := by
  cases p <;> rfl

/-- A report commutes with the delivery it follows. -/
theorem sectorReported_delivered (s : State) (l : LaneId) (w : Work) (j : Job) (v : Verdict) (m : Memory) :
    sectorReported (delivered s l m) l w j v =
      { sectorReported s l w j v with
        buffer := m, bufferPort := { s.bufferPort with outstanding := without s (.lane l) } } :=
  sectorReported_buffer ..

/-! ### The end of a sector (R15, R77) -/

/-- A sector that is not its job's last: only released Key Clears follow its report (R58). -/
theorem report_open_follows {s : State} {l : LaneId} {w : Work} {j : Job} (v : Verdict)
    (hw : (s.lanes.get l).work = some w) (hj : jobAt s w.side w.slot = some j) (ho : OthersOpen j w.lba) :
    Follows (sectorReported s l w j v) (settle (reportSector s l v)) ∧
      (NoReleasedClear s → settle (reportSector s l v) = sectorReported s l w j v) :=
  ⟨reportSector_open hw hj ho ▸ settle_follows _, settle_reportSector hw hj ho⟩

/-- A job's last sector: the job ends, and what follows comes about in the same step (R65, R78; log entry 3). -/
theorem report_last_follows {s : State} {l : LaneId} {w : Work} {j : Job} (v : Verdict)
    (hw : (s.lanes.get l).work = some w) (hj : jobAt s w.side w.slot = some j) (ho : LastOpen j w.lba)
    (hr : (s.port (sidePort w.side)).reserved ≠ 0) (hf : s.bufferPort.faulted = false) :
    ∃ p, JobEnded (sectorReported s l w j v) w.side w.slot (j.endSector w.lba v) p ∧
      Follows p (settle (reportSector s l v)) :=
  ⟨_, reportSector_last hw hj ho hr hf, settle_follows _⟩

theorem settle_reportSector_buffer (s : State) (l : LaneId) (v : Verdict) :
    (settle (reportSector s l v)).buffer = s.buffer := by
  rw [settle_buffer, reportSector_buffer]

/-! ### Reads (R13) -/

/-- Settles O32. -/
theorem dataUnitReadStartsTransform : Obligations.DataUnitReadStartsTransform := by
  intro s l w a placed ⟨hw, hp, ha, hk⟩
  refine ⟨_, ?_, sameOutside_memoryAt ?_, rfl⟩
  · show execDataUnitReadDone l placed s = _
    simp only [execDataUnitReadDone, hw, ha, hp, hk, and_self, if_true]
    rfl
  · rfl

/-- An epoch that chooses a group (R18, R20). -/
theorem classify_choose {w : Work} {e : Epoch} {g : Option CellId} (h : Chooses w e g) :
    classify w e = some (.choose g) := by
  cases hop : w.op <;> simp only [Chooses, hop] at h <;> simp only [classify, hop]
  case decipher =>
    obtain ⟨h0, ⟨hc, rfl⟩ | ⟨hc, hp, rfl⟩⟩ := h
    · rw [if_neg h0, if_pos hc]
    · rw [if_neg h0, if_neg hc, if_pos hp]
  case recipher =>
    obtain ⟨-, hp, rfl⟩ := h
    rw [if_pos hp]

/-- Epoch 0 in a decipher (R18). -/
theorem classify_zeros {w : Work} (h : w.op = .decipher) : classify w 0 = some .zeros := by
  simp only [classify, h, if_true]

/-- An epoch that ends the sector (R18, R20, R21). -/
theorem classify_ends {w : Work} {e : Epoch} {v : Verdict} (h : EndsAt w e v) : classify w e = some (.ends v) := by
  cases hop : w.op <;> simp only [EndsAt, hop] at h <;> simp only [classify, hop]
  case decipher =>
    obtain ⟨h0, hc, hp, rfl⟩ := h
    rw [if_neg h0, if_neg hc, if_neg hp]
  case recipher =>
    obtain ⟨hp, ⟨-, hc, rfl⟩ | ⟨h0, hc, rfl⟩ | ⟨h0, hc, rfl⟩⟩ := h
    · rw [if_neg hp, if_pos hc]
    · rw [if_neg hp, if_neg hc, if_pos h0]
    · rw [if_neg hp, if_neg hc, if_neg h0]
  case screen =>
    obtain ⟨-, hc, rfl⟩ | ⟨-, hc, hp, rfl⟩ | ⟨h0, hc, hp, rfl⟩ | ⟨h0, hc, hp, rfl⟩ := h
    · rw [if_pos hc]
    · rw [if_neg hc, if_pos hp]
    · rw [if_neg hc, if_neg hp, if_pos h0]
    · rw [if_neg hc, if_neg hp, if_neg h0]

/-- A trailer read that completes has the lane go on as its table says. -/
theorem exec_trailerReadDone {s : State} {l : LaneId} {w : Work} {a : Access} (placed : List Byte) {c : Classified}
    (h : LaneWaits s l w .reading a .trailerRead)
    (hc : classify w (trailerOf (readBytes (memoryAt s a placed) a.addr 8)).epoch = some c) :
    exec (.trailerReadDone l placed) s = .next (afterTrailer (delivered s l (memoryAt s a placed)) l
      { w with trailer := some (trailerOf (readBytes (memoryAt s a placed) a.addr 8)) } c) := by
  obtain ⟨hw, hp, ha, hk⟩ := h
  have hc' : classify w (trailerOf (readBytes (delivered s l (memoryAt s a placed)).buffer a.addr 8)).epoch = some c :=
    hc
  show execTrailerReadDone l placed s = _
  simp only [execTrailerReadDone, hw, ha, hp, hk, and_self, if_true, clearAccess_placeBytes, hc']
  rfl

/-- Settles O31: one of the three answers of the tables, then the lane's next access or the end of the sector. -/
theorem trailerReadClassifies : Obligations.TrailerReadClassifies := by
  intro s l w a placed h hf mem tr w'
  have hw : ((delivered s l mem).lanes.get l).work = some w := h.1
  have hf' : (delivered s l mem).bufferPort.faulted = false := hf
  refine ⟨fun g hg => ?_, fun hop h0 => ?_, fun v j hv hj ho => ?_, fun v j hv hj ho hr => ?_⟩
  · refine ⟨_, exec_trailerReadDone placed h (classify_choose hg), sameOutside_memoryAt ?_, ?_⟩
    · simp only [afterTrailer, askAccess_buffer]
      rfl
    · exact askAccess_normal _ hf'
  · have hz : classify w tr.epoch = some .zeros := by rw [h0, classify_zeros hop]
    have starts := startWriting_normal l w' (List.replicate s.table.dataUnit.bytes 0) hf'
    refine ⟨_, exec_trailerReadDone placed h hz, sameOutside_memoryAt (startWriting_buffer _ _ _ _),
      starts.trans ?_⟩
    rw [List.length_replicate]
    rfl
  · have hj' := (jobAt_delivered s l mem w.side w.slot).trans hj
    obtain ⟨follows, quiet⟩ := report_open_follows v hw hj' ho
    rw [sectorReported_delivered] at follows quiet
    exact ⟨_, exec_trailerReadDone placed h (classify_ends hv),
      sameOutside_memoryAt (settle_reportSector_buffer _ _ _), follows, quiet⟩
  · have hj' := (jobAt_delivered s l mem w.side w.slot).trans hj
    have ended := report_last_follows v hw hj' ho (by rwa [port_delivered]) hf'
    rw [sectorReported_delivered] at ended
    exact ⟨_, exec_trailerReadDone placed h (classify_ends hv),
      sameOutside_memoryAt (settle_reportSector_buffer _ _ _), ended⟩

/-! ### The end of a transform (R14, R17, R19, R20) -/

theorem decipherChecked_pass {k : GroupKeys} {lba n : Nat} {t : Trailer} {unit : List Byte}
    (h : crc32 (decipherUnit k lba n unit) ^^^ sectorMask k lba n = t.check) :
    decipherChecked k lba n t unit = some (decipherUnit k lba n unit) := if_pos h

theorem decipherChecked_fail {k : GroupKeys} {lba n : Nat} {t : Trailer} {unit : List Byte}
    (h : crc32 (decipherUnit k lba n unit) ^^^ sectorMask k lba n ≠ t.check) :
    decipherChecked k lba n t unit = none := if_neg h

/-- A transform that gives a verdict ends its sector; one that gives a result asks for its write. -/
theorem exec_transformEnd {s : State} {l : LaneId} {w : Work} {x : TransformResult}
    (hw : (s.lanes.get l).work = some w) (hp : w.phase = .transforming)
    (hx : transformWork s.keys s.table.dataUnit.blocks w = some x) :
    exec (.transformEnd l) s = .next (match x with
      | .result bytes => startWriting s l w bytes
      | .verdict v => settle (reportSector s l v)) := by
  show execTransformEnd l s = _
  simp only [execTransformEnd, hw, hp, if_true, hx]
  cases x <;> rfl

/-- Settles O33. -/
theorem transformEndByOperation : Obligations.TransformEndByOperation := by
  intro s l w hw hp hf n writes
  have whole : ∀ bytes, transformWork s.keys n w = some (.result bytes) → writes bytes := fun bytes hx =>
    ⟨_, exec_transformEnd hw hp hx, sameMemory_of_buffer (startWriting_buffer s l w bytes),
      startWriting_normal l w bytes hf⟩
  refine ⟨fun g k e hop hg hk he => whole _ ?_, fun g k tr hop hg hk ht hc => whole _ ?_,
    fun g k tr gc kc e hop hg hk ht hgc hkc he hc => whole _ ?_, fun g k tr j hop hg hk ht hc hj => ?_⟩
  · simp only [transformWork, hop, hg, Option.bind_some, hk, he]
    rfl
  · simp only [transformWork, hop, hg, Option.bind_some, hk, ht, decipherChecked_pass hc]
  · simp only [transformWork, hop, hg, Option.bind_some, hk, ht, hgc, hkc, he, decipherChecked_pass hc]
    rfl
  · have fails : transformWork s.keys n w = some (.verdict .checkFail) := by
      rcases hop with hop | ⟨hop, hkeys, hepoch⟩
      · simp only [transformWork, hop, hg, Option.bind_some, hk, ht, decipherChecked_fail hc]
      · obtain ⟨kc, hkc⟩ := Option.isSome_iff_exists.mp hkeys
        obtain ⟨e, he⟩ := Option.isSome_iff_exists.mp hepoch
        simp only [transformWork, hop, hg, Option.bind_some, hk, ht, hkc, he, decipherChecked_fail hc]
    have same := sameMemory_of_buffer (settle_reportSector_buffer s l .checkFail)
    refine ⟨fun ho => ⟨_, exec_transformEnd hw hp fails, same, report_open_follows .checkFail hw hj ho⟩,
      fun ho hr => ⟨_, exec_transformEnd hw hp fails, same, report_last_follows .checkFail hw hj ho hr hf⟩⟩

/-! ### The result write (R15) -/

/-- The verdict of a sector whose write has completed (R15). -/
theorem writtenVerdict_eq {w : Work} {v : Verdict}
    (h : (w.op = .encipher ∧ v = .done) ∨ (w.op = .recipher ∧ v = .reciphered) ∨
      (w.op = .decipher ∧ w.trailer.map Trailer.epoch = some 0 ∧ v = .blank) ∨
      (w.op = .decipher ∧ w.trailer.map Trailer.epoch ≠ some 0 ∧ v = .done)) : writtenVerdict w = some v := by
  obtain ⟨hop, rfl⟩ | ⟨hop, rfl⟩ | ⟨hop, ht, rfl⟩ | ⟨hop, ht, rfl⟩ := h <;>
    simp only [writtenVerdict, hop]
  · exact if_pos ht
  · exact if_neg ht

theorem exec_resultWriteDone {s : State} {l : LaneId} {w : Work} {a : Access} {v : Verdict}
    (h : LaneWaits s l w .writing a .resultWrite) (hv : writtenVerdict w = some v) :
    exec (.resultWriteDone l) s =
      .next (settle (reportSector (delivered s l (writeBytes s.buffer a.addr a.bytes)) l v)) := by
  obtain ⟨hw, hp, ha, hk⟩ := h
  show execResultWriteDone l s = _
  simp only [execResultWriteDone, hw, ha, hp, hk, and_self, if_true, hv, clearAccess_landWrite]

/-- Settles O34: the bytes land, then the sector's end is reported. -/
theorem resultWriteEndsSector : Obligations.ResultWriteEndsSector := by
  intro s l w a j v h hv hj _
  obtain ⟨m, hm⟩ : ∃ m, m = writeBytes s.buffer a.addr a.bytes := ⟨_, rfl⟩
  have hw : ((delivered s l m).lanes.get l).work = some w := h.1
  have hj' := (jobAt_delivered s l m w.side w.slot).trans hj
  have buffer := settle_reportSector_buffer (delivered s l m) l v
  have buffer' : (settle (reportSector (delivered s l m) l v)).buffer = m := buffer
  refine ⟨_, hm ▸ exec_resultWriteDone h (writtenVerdict_eq hv), fun x hx => ?_, fun hwf i b hb => ?_, ?_⟩
  · rw [buffer', hm, readByte_writeBytes_outside _ _ _ _ hx]
  · rw [buffer', hm, readByte_writeBytes _ _ _ _ _ hwf hb]
  · rw [buffer', ← sectorReported_delivered]
    exact ⟨report_open_follows v hw hj', fun ho hf hr =>
      report_last_follows v hw hj' ho (by rwa [port_delivered]) hf⟩

end Sys2Proof.Machine
end

section
/-! PROOFS. The taking of a reset (R161, R162, R165): the accesses the lanes keep and drop, what the ends of jobs keep
whatever the tables hold, what follows in the same step, and from these the clauses of its statement. -/

namespace Sys2Proof.Machine

/-! ### The accesses of the lanes (R16, R96) -/

theorem accessOf_congr {u v : State} (h : v.bufferPort.outstanding = u.bufferPort.outstanding) (who : Requester) :
    accessOf v who = accessOf u who := by
  simp only [accessOf, h]

theorem accessOf_clear_self (u : State) (who : Requester) : accessOf (clearAccess u who) who = none := by
  simp [accessOf, clearAccess, State.setBufferPort, List.find?_eq_none]

theorem endSector_bufferPort (u : State) (side : Side) (k lba : Nat) (v : Verdict) :
    (endSector u side k lba v).bufferPort = u.bufferPort := by
  simp only [endSector]
  split
  · exact setJob_bufferPort ..
  · rfl

/-- Whether the lane holds a sector that the taking of a reset has it abandon. -/
def leavesSector (x : Lane) : Bool := x.work.any (fun w => w.phase != .writing)

theorem leavesSector_iff (x : Lane) : leavesSector x = true ↔ ∃ w, x.work = some w ∧ w.phase ≠ .writing := by
  simp [leavesSector, Option.any_eq_true]

/-- A lane that abandons its sector drops its access and no other lane's. -/
theorem abandonUnlessWriting_access (u : State) (l l' : LaneId) :
    accessOf (abandonUnlessWriting u l) (.lane l') =
      if l' = l ∧ leavesSector (u.lanes.get l) = true then none else accessOf u (.lane l') := by
  by_cases hl : leavesSector (u.lanes.get l) = true
  · obtain ⟨w, hw, hp⟩ := (leavesSector_iff _).mp hl
    have e : accessOf (abandonUnlessWriting u l) (.lane l') =
        accessOf (clearAccess (freeLane u l) (.lane l)) (.lane l') := by
      apply accessOf_congr
      simp only [abandonUnlessWriting, hw, hp, if_false, abandonSector, endSector_bufferPort]
    rw [e]
    by_cases h : l' = l
    · rw [if_pos ⟨h, hl⟩, h, accessOf_clear_self]
    · rw [if_neg (fun h' => h h'.1), accessOf_clear _ (by simpa using h)]
      rfl
  · have e : abandonUnlessWriting u l = u := by
      simp only [abandonUnlessWriting]
      split
      · next w hw => rw [if_pos (by_contra fun hp => hl ((leavesSector_iff _).mpr ⟨w, hw, hp⟩))]
      · rfl
    rw [e, if_neg (fun h => hl h.2)]

theorem foldl_abandon_access (L : List LaneId) (hL : L.Nodup) (u : State) (l : LaneId) :
    accessOf (L.foldl abandonUnlessWriting u) (.lane l) =
      if l ∈ L ∧ leavesSector (u.lanes.get l) = true then none else accessOf u (.lane l) := by
  induction L generalizing u with
  | nil => simp
  | cons a L ih =>
    obtain ⟨ha, hL⟩ := List.nodup_cons.mp hL
    have lane := (abandonUnlessWriting_abandoned u a).lane l
    rw [List.foldl_cons, ih hL, abandonUnlessWriting_access]
    by_cases h : l = a
    · subst h
      simp [ha]
    · rw [if_neg (by simpa using h)] at lane
      simp [h, lane]

/-- At the taking a lane in WRITING keeps its access, and one that abandons its sector has none. -/
theorem takenState_laneAccess (kind : ResetKind) (tag : Tag) (s : State) (l : LaneId) :
    accessOf (takenState kind tag s) (.lane l) =
      if leavesSector (s.lanes.get l) = true then none else accessOf s (.lane l) := by
  obtain ⟨u, hu⟩ : ∃ u, u =
      mapJobs (mapJobs { s with ports := { s.ports with reset := some (newReset s kind tag) } }
        .i (Job.stop kind.cause)) .m (Job.stop kind.cause) := ⟨_, rfl⟩
  have lanes : u.lanes = s.lanes := by rw [hu, mapJobs_lanes, mapJobs_lanes]
  have port : u.bufferPort = s.bufferPort := by rw [hu, mapJobs_bufferPort, mapJobs_bufferPort]
  have e : accessOf (takenState kind tag s) (.lane l) =
      accessOf ((List.finRange 4).foldl abandonUnlessWriting u) (.lane l) := by rw [hu]; rfl
  rw [e, foldl_abandon_access _ (List.nodup_finRange 4), lanes, accessOf_congr (congrArg _ port)]
  simp

/-! ### Claims that differ in their frozen flag at most -/

/-- `d` is the claim `c`, its set frozen or not (R132). -/
def SameClaim (c d : Claim) : Prop := d.job = c.job ∧ d.overtaken = c.overtaken ∧ d.state = c.state

theorem SameClaim.rfl {c : Claim} : SameClaim c c := ⟨Eq.refl _, Eq.refl _, Eq.refl _⟩

theorem SameClaim.trans {c d e : Claim} (h : SameClaim c d) (h' : SameClaim d e) : SameClaim c e :=
  ⟨h'.1.trans h.1, h'.2.1.trans h.2.1, h'.2.2.trans h.2.2⟩

/-- Every claim of `w'` was one of `w`. -/
structure ClaimsFrom (w w' : SweepUnit) : Prop where
  claim : ∀ x, ∀ d ∈ w'.claims.get x, ∃ c ∈ w.claims.get x, SameClaim c d
  cancelled : ∀ d ∈ w'.cancelled, ∃ c ∈ w.cancelled, SameClaim c d

theorem ClaimsFrom.refl (w : SweepUnit) : ClaimsFrom w w :=
  ⟨fun _ d h => ⟨d, h, .rfl⟩, fun d h => ⟨d, h, .rfl⟩⟩

theorem ClaimsFrom.trans {w w' w'' : SweepUnit} (h : ClaimsFrom w w') (h' : ClaimsFrom w' w'') : ClaimsFrom w w'' := by
  refine ⟨fun x d hd => ?_, fun d hd => ?_⟩
  · obtain ⟨c, hc, hcd⟩ := h'.claim x d hd
    obtain ⟨b, hb, hbc⟩ := h.claim x c hc
    exact ⟨b, hb, hbc.trans hcd⟩
  · obtain ⟨c, hc, hcd⟩ := h'.cancelled d hd
    obtain ⟨b, hb, hbc⟩ := h.cancelled c hc
    exact ⟨b, hb, hbc.trans hcd⟩

theorem claimsFrom_filter (w : SweepUnit) (f : Claim → Bool) : ClaimsFrom w (w.filterClaims f) := by
  refine ⟨fun x d hd => ⟨d, ?_, .rfl⟩, fun d hd => ⟨d, List.mem_of_mem_filter hd, .rfl⟩⟩
  rw [SweepUnit.filterClaims, get_map] at hd
  exact List.mem_of_mem_filter hd

/-- No claim of `w` records M-table slot `k`. -/
def NoClaimOf (w : SweepUnit) (k : Nat) : Prop :=
  (∀ x, ∀ c ∈ w.claims.get x, c.job ≠ some k) ∧ ∀ c ∈ w.cancelled, c.job ≠ some k

theorem ClaimsFrom.noClaimOf {w w' : SweepUnit} (h : ClaimsFrom w w') {k : Nat} (hk : NoClaimOf w k) :
    NoClaimOf w' k := by
  refine ⟨fun x d hd => ?_, fun d hd => ?_⟩
  · obtain ⟨c, hc, hcd⟩ := h.claim x d hd
    exact hcd.1 ▸ hk.1 x c hc
  · obtain ⟨c, hc, hcd⟩ := h.cancelled d hd
    exact hcd.1 ▸ hk.2 c hc

theorem noClaimOf_filter (w : SweepUnit) (k : Nat) : NoClaimOf (w.filterClaims (fun c => c.job != some k)) k := by
  refine ⟨fun x c hc => ?_, fun c hc => ?_⟩
  · rw [SweepUnit.filterClaims, get_map] at hc
    simpa using List.of_mem_filter hc
  · simpa using List.of_mem_filter hc

/-- While a reset runs, settling the claim of a job cut short freezes its set or does nothing (R132, R141). -/
theorem settleClaim_cut {u : State} (k : Nat) (c : EndCause) (hr : u.ports.reset ≠ none) :
    settleClaim u k (some c) = u ∨
      settleClaim u k (some c) = changeClaimOfJob u k (fun d => { d with frozen := true }) := by
  have running : u.ports.reset.isSome = true := Option.isSome_iff_ne_none.mpr hr
  simp only [settleClaim]
  split
  · exact .inl rfl
  · cases c with
    | busFault => simp [running]
    | aborted => exact .inr rfl
    | zeroized => exact .inr rfl
    | sweepCancelled => exact .inr rfl

/-- The claims of the part but for a frozen flag: none is lost and none is new. -/
structure ClaimsKept (w w' : SweepUnit) : Prop extends ClaimsFrom w w' where
  kept : ∀ x, ∀ c ∈ w.claims.get x, ∃ d ∈ w'.claims.get x, SameClaim c d

theorem claimsKept_frozen (w : SweepUnit) (k : Nat) :
    ClaimsKept w (w.mapClaims (fun c => if c.job = some k then { c with frozen := true } else c)) := by
  have same : ∀ c : Claim, SameClaim c (if c.job = some k then { c with frozen := true } else c) := by
    intro c
    split <;> exact .rfl
  refine ⟨⟨fun x d hd => ?_, fun d hd => ?_⟩, fun x c hc => ?_⟩
  · rw [SweepUnit.mapClaims, get_map] at hd
    obtain ⟨c, hc, rfl⟩ := List.mem_map.mp hd
    exact ⟨c, hc, same c⟩
  · obtain ⟨c, hc, rfl⟩ := List.mem_map.mp hd
    exact ⟨c, hc, same c⟩
  · rw [SweepUnit.mapClaims, get_map]
    exact ⟨_, List.mem_map_of_mem hc, same c⟩

theorem settleClaim_cut_kept {u : State} (k : Nat) (c : EndCause) (hr : u.ports.reset ≠ none) :
    ClaimsKept u.sweep (settleClaim u k (some c)).sweep ∧ (settleClaim u k (some c)).ports = u.ports ∧
      (settleClaim u k (some c)).keys = u.keys := by
  rcases settleClaim_cut k c hr with h | h <;> rw [h]
  · exact ⟨⟨.refl _, fun _ d hd => ⟨d, hd, .rfl⟩⟩, rfl, rfl⟩
  · exact ⟨claimsKept_frozen u.sweep k, rfl, rfl⟩

/-! ### What the ends of jobs keep (R78, R132, R135) -/

theorem jobAt_congr {u v : State} (h : v.jobs = u.jobs) (side : Side) (k : Nat) : jobAt v side k = jobAt u side k := by
  cases side <;> simp only [jobAt, h]

/-- What any number of jobs' ends keep while a reset runs, whatever the tables hold: of a job that stays all but its
phase and its final verdicts, the lanes with their accesses, the requests, every claim but those of the RECIPHER jobs
posted. -/
structure EndsKeep (u v : State) : Prop where
  job : ∀ side k j, jobAt v side k = some j →
    ∃ j0, jobAt u side k = some j0 ∧ j = { j0 with phase := j.phase, finals := j.finals }
  lanes : v.lanes = u.lanes
  stage : v.stage = u.stage
  access : ∀ l, accessOf v (.lane l) = accessOf u (.lane l)
  requests : ∀ p, (v.port p).requests = (u.port p).requests
  s : v.ports.s = u.ports.s
  reset : v.ports.reset = u.ports.reset
  groups : ∀ g, (v.keys.groups.get g).map GroupRec.state = (u.keys.groups.get g).map GroupRec.state
  claims : ClaimsFrom u.sweep v.sweep
  removed : ∀ k j, jobAt u .m k = some j → j.kind = .recipher → jobAt v .m k = none → NoClaimOf v.sweep k
  held : (∀ k j, jobAt u .i k = some j → j.kind ≠ .recipher) →
    ∀ x k, ∀ c ∈ u.sweep.claims.get x, c.job = some k → jobAt v .m k ≠ none →
      ∃ d ∈ v.sweep.claims.get x, SameClaim c d

theorem EndsKeep.refl (u : State) : EndsKeep u u where
  job _ _ j hj := ⟨j, hj, rfl⟩
  lanes := rfl
  stage := rfl
  access _ := rfl
  requests _ := rfl
  s := rfl
  reset := rfl
  groups _ := rfl
  claims := .refl _
  removed k j hj _ hn := by rw [hj] at hn; cases hn
  held _ x k c hc _ _ := ⟨c, hc, .rfl⟩

theorem EndsKeep.trans {u v w : State} (h : EndsKeep u v) (h' : EndsKeep v w) : EndsKeep u w where
  job side k j hj := by
    obtain ⟨j1, hj1, e1⟩ := h'.job side k j hj
    obtain ⟨j0, hj0, e0⟩ := h.job side k j1 hj1
    exact ⟨j0, hj0, by rw [e1, e0]⟩
  lanes := h'.lanes.trans h.lanes
  stage := h'.stage.trans h.stage
  access l := (h'.access l).trans (h.access l)
  requests p := (h'.requests p).trans (h.requests p)
  s := h'.s.trans h.s
  reset := h'.reset.trans h.reset
  groups g := (h'.groups g).trans (h.groups g)
  claims := h.claims.trans h'.claims
  removed k j hj hk hn := by
    cases hv : jobAt v .m k with
    | none => exact h'.claims.noClaimOf (h.removed k j hj hk hv)
    | some j1 =>
      obtain ⟨j0, hj0, e⟩ := h.job .m k j1 hv
      obtain rfl : j = j0 := by rw [hj] at hj0; exact Option.some.inj hj0
      exact h'.removed k j1 hv (by rw [e]; exact hk) hn
  held hi x k c hc hck hn := by
    have hi' : ∀ k j, jobAt v .i k = some j → j.kind ≠ .recipher := by
      intro k j hj
      obtain ⟨j0, hj0, e⟩ := h.job .i k j hj
      rw [e]
      exact hi k j0 hj0
    have hv : jobAt v .m k ≠ none := by
      obtain ⟨j, hj⟩ := Option.ne_none_iff_exists'.mp hn
      obtain ⟨j0, hj0, -⟩ := h'.job .m k j hj
      simp [hj0]
    obtain ⟨d, hd, hcd⟩ := h.held hi x k c hc hck hv
    obtain ⟨e, he, hde⟩ := h'.held hi' x k d hd (hcd.1.trans hck) hn
    exact ⟨e, he, hcd.trans hde⟩

/-- The posting of a completion, update by update (R78). -/
theorem postJob_eq (b : State) (side : Side) (k : Nat) (j : Job) :
    postJob b side k j =
      (setJob ((post b (sidePort side) j.completion).setKeys (b.keys.unpin j.pinned)) side k none).setSweep
        (if j.kind = .recipher then b.sweep.filterClaims (fun c => c.job != some k) else b.sweep) := by
  cases side <;> cases hk : j.kind <;> simp only [postJob, hk] <;> rfl

/-- The state from which a job cut short goes on to its list or its completion: its final verdicts made and its claim's
set frozen where it is a RECIPHER (R132). -/
structure Prepared (u b : State) (side : Side) (k : Nat) (j F : Job) : Prop where
  made : F = { j with finals := F.finals }
  job : ∀ side' k', ¬ (side' = side ∧ k' = k) → jobAt b side' k' = jobAt u side' k'
  ports : b.ports = u.ports
  keys : b.keys = u.keys
  bufferPort : b.bufferPort = u.bufferPort
  stage : b.stage = u.stage
  lanes : b.lanes = u.lanes
  claims : ClaimsKept u.sweep b.sweep

theorem endJob_prepared {u : State} (side : Side) (k : Nat) {j : Job} (hr : u.ports.reset ≠ none)
    (hc : j.cause ≠ none) : ∃ b F, Prepared u b side k j F ∧ endJob u side k j = listOrPost b side k F := by
  obtain ⟨c, hc⟩ := Option.ne_none_iff_exists'.mp hc
  have plain : Prepared u u side k j j :=
    ⟨rfl, fun _ _ _ => rfl, rfl, rfl, rfl, rfl, rfl, .refl _, fun _ d hd => ⟨d, hd, .rfl⟩⟩
  cases hk : j.kind with
  | read => exact ⟨u, j, plain, by simp only [endJob, hk]⟩
  | write => exact ⟨u, j, plain, by simp only [endJob, hk]⟩
  | screen => exact ⟨u, j, plain, by simp only [endJob, hk]⟩
  | recipher =>
    obtain ⟨F, hF⟩ : ∃ F, F = { j with finals := j.finalVerdicts (overtakenOf u k) } := ⟨_, rfl⟩
    obtain ⟨kept, ports, keys⟩ := @settleClaim_cut_kept (setJob u side k (some F)) k c (by rwa [setJob_ports])
    obtain ⟨-, bufferPort, jobs⟩ := settleClaim_frame (setJob u side k (some F)) k (some c)
    obtain ⟨stage, lanes⟩ := settleClaim_stage_lanes (setJob u side k (some F)) k (some c)
    rw [setJob_sweep] at kept
    rw [setJob_ports] at ports
    rw [setJob_keys] at keys
    rw [setJob_bufferPort] at bufferPort
    rw [setJob_stage] at stage
    rw [setJob_lanes] at lanes
    refine ⟨settleClaim (setJob u side k (some F)) k (some c), F, ⟨by rw [hF], fun side' k' hn => ?_, ports, keys,
      bufferPort, stage, lanes, kept⟩, ?_⟩
    · rw [jobAt_congr jobs, jobAt_setJob, if_neg (fun h => hn ⟨h.1, h.2.1⟩)]
    · rw [← hc, hF]
      simp only [endJob, hk]
      rfl

/-- The completion of a job cut short posted. -/
theorem Prepared.post_keeps {u b : State} {side : Side} {k : Nat} {j F : Job} (h : Prepared u b side k j F)
    (hj : jobAt u side k = some j) : EndsKeep u (postJob b side k F) := by
  have hlt := slot_lt_of_jobAt hj
  have kind : F.kind = j.kind := by rw [h.made]
  have job : ∀ side' k', jobAt (postJob b side k F) side' k' =
      if side' = side ∧ k' = k then none else jobAt u side' k' := by
    intro side' k'
    have e : jobAt (postJob b side k F) side' k' = jobAt (setJob b side k none) side' k' := by
      apply jobAt_congr
      rw [postJob_eq, State.setSweep_jobs]
      cases side <;> rfl
    rw [e, jobAt_setJob]
    by_cases hx : side' = side ∧ k' = k
    · rw [if_pos hx, if_pos ⟨hx.1, hx.2, hlt⟩]
    · rw [if_neg hx, if_neg (fun h' => hx ⟨h'.1, h'.2.1⟩), h.job _ _ hx]
  have sweep : (postJob b side k F).sweep =
      if j.kind = .recipher then b.sweep.filterClaims (fun c => c.job != some k) else b.sweep := by
    rw [postJob_eq, State.setSweep_sweep, kind]
  have ports : ∀ p, (postJob b side k F).port p = (post b (sidePort side) F.completion).port p := by
    intro p
    rw [postJob_eq, State.port_setSweep, port_setJob, State.port_setKeys]
  have port : ∀ p, b.port p = u.port p := fun p => by cases p <;> simp only [State.port, h.ports]
  constructor
  case lanes => rw [postJob_eq, State.setSweep_lanes, setJob_lanes, State.setKeys_lanes, post_lanes, h.lanes]
  case stage => rw [postJob_eq, State.setSweep_stage, setJob_stage, State.setKeys_stage, post_stage, h.stage]
  case job =>
    intro side' k' j' hj'
    rw [job] at hj'
    split at hj'
    · cases hj'
    · exact ⟨j', hj', rfl⟩
  case access =>
    intro l
    apply accessOf_congr
    rw [postJob_eq, State.setSweep_bufferPort, setJob_bufferPort, State.setKeys_bufferPort, post_bufferPort,
      h.bufferPort]
  case requests =>
    intro p
    rw [ports, post, State.port_setPort, fillReserved_eq]
    split
    · next hp => rw [hp, port]; rfl
    · rw [port]
  case s =>
    have e := ports .s
    rw [post, State.port_setPort, if_neg (by cases side <;> simp [sidePort]), port] at e
    exact e
  case reset => rw [postJob_eq, State.setSweep_ports, setJob_ports, State.setKeys_ports, post_reset, h.ports]
  case groups =>
    intro g
    rw [postJob_keys, (unpin_pinsReleased F.pinned b.keys).2.2, h.keys, Option.map_map]
    rfl
  case claims =>
    rw [sweep]
    split
    · exact h.claims.toClaimsFrom.trans (claimsFrom_filter _ _)
    · exact h.claims.toClaimsFrom
  case removed =>
    intro k' j' hj' hk' hn
    rw [job] at hn
    split at hn
    · next hx =>
      obtain ⟨rfl, rfl⟩ := hx
      rw [hj] at hj'
      cases hj'
      rw [sweep, if_pos hk']
      exact noClaimOf_filter _ _
    · rw [hj'] at hn
      cases hn
  case held =>
    intro hi x k' c hc hck hn
    obtain ⟨d, hd, hcd⟩ := h.claims.kept x c hc
    refine ⟨d, ?_, hcd⟩
    rw [sweep]
    split
    · next hr =>
      have hside : side = .m := by
        cases side
        · exact absurd hr (hi k j hj)
        · rfl
      have hne : k' ≠ k := by
        rintro rfl
        rw [job, if_pos ⟨hside.symm, rfl⟩] at hn
        exact hn rfl
      rw [SweepUnit.filterClaims, get_map]
      exact List.mem_filter.mpr ⟨hd, by simp [hcd.1, hck, hne]⟩
    · exact hd

/-- Asking for an access changes the outstanding accesses alone, and adds the one asked for or none. -/
theorem askAccess_frame (s : State) (a : Access) :
    ∃ l, (l = [] ∨ l = [a]) ∧ askAccess s a =
      s.setBufferPort { s.bufferPort with outstanding := s.bufferPort.outstanding ++ l } := by
  by_cases h : s.bufferPort.faulted = true
  · exact ⟨[], .inl rfl, by rw [askAccess, if_pos h, List.append_nil]; rfl⟩
  · exact ⟨[a], .inr rfl, by simp [askAccess, h]⟩

/-- The list of a job cut short asked for. -/
theorem Prepared.list_keeps {u b : State} {side : Side} {k : Nat} {j F : Job} (h : Prepared u b side k j F)
    (hj : jobAt u side k = some j) {a : Access} (ha : a.who = .list side k) :
    EndsKeep u (askAccess (setJob b side k (some { F with phase := .listing })) a) := by
  have hlt := slot_lt_of_jobAt hj
  obtain ⟨l, hl, e⟩ := askAccess_frame (setJob b side k (some { F with phase := .listing })) a
  rw [e]
  generalize hv : (setJob b side k (some { F with phase := .listing })).setBufferPort _ = v
  have job : ∀ side' k', jobAt v side' k' =
      if side' = side ∧ k' = k then some { F with phase := .listing } else jobAt u side' k' := by
    intro side' k'
    rw [← hv, jobAt_congr (State.setBufferPort_jobs _ _), jobAt_setJob]
    by_cases hx : side' = side ∧ k' = k
    · rw [if_pos hx, if_pos ⟨hx.1, hx.2, hlt⟩]
    · rw [if_neg hx, if_neg (fun h' => hx ⟨h'.1, h'.2.1⟩), h.job _ _ hx]
  have stays : ∀ side' k', jobAt u side' k' ≠ none → jobAt v side' k' ≠ none := by
    intro side' k' hn
    rw [job]
    split
    · exact Option.some_ne_none _
    · exact hn
  have ports : v.ports = u.ports := by rw [← hv, State.setBufferPort_ports, setJob_ports, h.ports]
  have keys : v.keys = u.keys := by rw [← hv, State.setBufferPort_keys, setJob_keys, h.keys]
  have sweep : v.sweep = b.sweep := by rw [← hv, State.setBufferPort_sweep, setJob_sweep]
  constructor
  case lanes => rw [← hv, State.setBufferPort_lanes, setJob_lanes, h.lanes]
  case stage => rw [← hv, State.setBufferPort_stage, setJob_stage, h.stage]
  case job =>
    intro side' k' j' hj'
    rw [job] at hj'
    split at hj'
    · next hx =>
      obtain ⟨rfl, rfl⟩ := hx
      cases hj'
      exact ⟨j, hj, by rw [h.made]⟩
    · exact ⟨j', hj', rfl⟩
  case access =>
    intro x
    have other : l.find? (fun a => a.who == .lane x) = none := by
      rcases hl with rfl | rfl <;> simp [ha]
    rw [← hv]
    simp [accessOf, h.bufferPort, other]
  case requests => intro p; cases p <;> simp only [State.port, ports]
  case s => rw [ports]
  case reset => rw [ports]
  case groups => intro g; rw [keys]
  case claims => rw [sweep]; exact h.claims.toClaimsFrom
  case removed =>
    intro k' j' hj' _ hn
    exact absurd hn (stays _ _ (by simp [hj']))
  case held =>
    intro _ x _ c hc _ _
    rw [sweep]
    exact h.claims.kept x c hc

/-- The end of one slot's job keeps it all, once the job has an end cause and a reset runs. -/
theorem closeJob_keeps {u : State} (hr : u.ports.reset ≠ none)
    (hc : ∀ side k j, jobAt u side k = some j → j.cause ≠ none) (side : Side) (k : Nat) :
    EndsKeep u (closeJob u side k) := by
  simp only [closeJob]
  split
  · next j hj =>
    split
    · obtain ⟨b, F, h, e⟩ := endJob_prepared side k hr (hc side k j hj)
      rw [e, listOrPost]
      split
      · split
        · exact h.post_keeps hj
        · exact h.list_keeps hj rfl
      · exact h.post_keeps hj
    · exact .refl u
  · exact .refl u

theorem foldl_closeJob_keeps (side : Side) (L : List Nat) {u : State} (hr : u.ports.reset ≠ none)
    (hc : ∀ side k j, jobAt u side k = some j → j.cause ≠ none) :
    EndsKeep u (L.foldl (fun s k => closeJob s side k) u) := by
  induction L generalizing u with
  | nil => exact .refl u
  | cons k L ih =>
    have h := closeJob_keeps hr hc side k
    refine h.trans (ih (by rwa [h.reset]) fun side' k' j hj => ?_)
    obtain ⟨j0, hj0, e⟩ := h.job side' k' j hj
    rw [e]
    exact hc side' k' j0 hj0

/-- The state after the ends that the taking of a reset brings about, before what follows in the same step. -/
def takingEnds (kind : ResetKind) (tag : Tag) (s : State) : State :=
  (List.range 16).foldl (fun s k => closeJob s .m k)
    ((List.range 32).foldl (fun s k => closeJob s .i k) (takenState kind tag s))

theorem takeReset_eq_settle (kind : ResetKind) (r : Record) (s : State) :
    takeReset kind r s = settle (takingEnds kind (recordTag r) s) := takeReset_eq kind r s

theorem takingEnds_keeps (kind : ResetKind) (tag : Tag) (s : State) :
    EndsKeep (takenState kind tag s) (takingEnds kind tag s) := by
  have hr : (takenState kind tag s).ports.reset ≠ none := by simp [(takenState_frame kind tag s).1]
  have hc : ∀ side k j, jobAt (takenState kind tag s) side k = some j → j.cause ≠ none := by
    intro side k j hj
    rw [takenState_job, Option.map_eq_some_iff] at hj
    obtain ⟨j0, -, rfl⟩ := hj
    exact Option.some_ne_none _
  have hi := foldl_closeJob_keeps .i (List.range 32) hr hc
  refine hi.trans (foldl_closeJob_keeps .m (List.range 16) (by rwa [hi.reset]) fun side k j hj => ?_)
  obtain ⟨j0, hj0, e⟩ := hi.job side k j hj
  rw [e]
  exact hc side k j0 hj0

/-! ### What follows in the same step (log entry 3) -/

theorem wakeByRecord_frame (s : State) :
    (wakeByRecord s).ports = s.ports ∧ (wakeByRecord s).sweep = s.sweep ∧
    ∀ l, ((wakeByRecord s).lanes.get l).work = (s.lanes.get l).work := by
  simp only [wakeByRecord]
  split
  · exact ⟨rfl, rfl, fun l => by simp [wakePart]⟩
  · exact ⟨rfl, rfl, fun _ => rfl⟩

/-- The end of a drain keeps the claims and the lanes' work, and posts nothing where no Retain request waits. -/
theorem endDrain_frame (s : State) :
    (endDrain s).sweep = s.sweep ∧ (endDrain s).ports.reset = s.ports.reset ∧
    (∀ l, ((endDrain s).lanes.get l).work = (s.lanes.get l).work) ∧
    (s.stage.waitingRetain = none → (endDrain s).ports.s = s.ports.s) := by
  simp only [endDrain]
  split
  · generalize s.stage.drainCause.getD .request = cause
    rcases hw : s.stage.waitingRetain with _ | tag
    · obtain ⟨ports, sweep, work⟩ := wakeByRecord_frame (retainEntry s cause)
      exact ⟨sweep, (congrArg PortBlock.reset ports).trans rfl, work,
        fun _ => (congrArg PortBlock.s ports).trans rfl⟩
    · obtain ⟨ports, sweep, work⟩ :=
        wakeByRecord_frame (post (retainEntry s cause) .s (heldCompletion .retain tag .empty))
      exact ⟨sweep, (congrArg PortBlock.reset ports).trans rfl, work, fun h => nomatch h⟩
  · exact ⟨rfl, rfl, fun _ => rfl, fun _ => rfl⟩

theorem finishKeyClears_frame (s : State) :
    (finishKeyClears s).sweep = s.sweep ∧ (finishKeyClears s).ports.reset = s.ports.reset ∧
    (finishKeyClears s).lanes = s.lanes ∧ (finishKeyClears s).stage = s.stage := by
  obtain ⟨e, -⟩ := finishKeyClears_done s
  generalize (finishKeyClears s).keys = k at e
  rw [e]
  exact ⟨rfl, rfl, rfl, rfl⟩

/-- What follows leaves each lane its work. -/
theorem settle_work (p : State) (l : LaneId) : ((settle p).lanes.get l).work = (p.lanes.get l).work := by
  have ends : ∀ u t, ResetDone u t → (t.lanes.get l).work = (u.lanes.get l).work := by
    intro u t h
    by_cases hr : ∃ run, u.ports.reset = some run ∧ NothingInFlight u run
    · obtain ⟨run, h1, h2⟩ := hr
      rw [h.2 run h1 h2]
      cases run.kind <;> rfl
    · rw [h.1 (fun run h1 h2 => hr ⟨run, h1, h2⟩)]
  obtain ⟨-, -, drain, -⟩ := endDrain_frame (finishKeyClears p)
  rw [settle, ends _ _ (endReset_done _), drain, (finishKeyClears_frame p).2.2.1]

/-- A completion with a place reserved is posted (R172). -/
theorem mem_heldPosted {s : State} {c : Completion} (h : s.ports.s.reserved ≠ 0) :
    c ∈ (heldPosted s [c]).ports.s.filled := by
  have e : (heldPosted s [c]).ports.s.filled = s.ports.s.filled ++ [c].take s.ports.s.reserved := rfl
  rw [e, List.take_of_length_le (Nat.one_le_iff_ne_zero.mpr h)]
  simp

/-- A reset that runs goes on, the claims as they were; or it ends, nothing being in flight, and its completion is
posted (R163, R166). -/
theorem settle_reset {p : State} {run : ResetRun} (hr : p.ports.reset = some run) :
    ((settle p).ports.reset = some run ∧ (settle p).sweep = p.sweep) ∨
    ((settle p).ports.reset = none ∧ run.iQuota = 0 ∧ run.mQuota = 0 ∧ NoJobs (settle p) ∧
      ((settle p).sweep = p.sweep ∨ (settle p).sweep = State.reset.sweep) ∧
      (NoReleasedClear p → p.stage.waitingRetain = none → p.ports.s.reserved ≠ 0 →
        { kind := run.kind.kind.code, status := .ok, tag := run.tag,
          body := .reset run.iJobs run.mJobs run.iAnswered run.mAnswered } ∈ (settle p).ports.s.filled)) := by
  obtain ⟨u, hu⟩ : ∃ u, u = endDrain (finishKeyClears p) := ⟨_, rfl⟩
  obtain ⟨sweep, reset, -, ports⟩ := endDrain_frame (finishKeyClears p)
  obtain ⟨sweep', reset', -, stage⟩ := finishKeyClears_frame p
  have hur : u.ports.reset = some run := by rw [hu, reset, reset', hr]
  have hus : u.sweep = p.sweep := by rw [hu, sweep, sweep']
  have e : settle p = endZeroize (endEngineReset u) := by rw [hu]; rfl
  obtain ⟨goes, ends⟩ := endReset_done u
  by_cases hn : NothingInFlight u run
  · right
    have posted : NoReleasedClear p → p.stage.waitingRetain = none → p.ports.s.reserved ≠ 0 →
        u.ports.s.reserved ≠ 0 := by
      intro hc hw hp
      rwa [hu, ports (by rwa [stage]), finishKeyClears_quiet hc]
    rw [e, ends run hur hn]
    rcases run with ⟨kind, tag, iQuota, mQuota, iJobs, mJobs, iAnswered, mAnswered⟩
    obtain ⟨jobs, i0, m0, -⟩ := hn
    cases kind with
    | engine =>
      exact ⟨rfl, i0, m0, jobs, .inl hus, fun hc hw hp => mem_heldPosted (posted hc hw hp)⟩
    | zeroize =>
      exact ⟨rfl, i0, m0, jobs, .inr rfl, fun hc hw hp => mem_heldPosted (posted hc hw hp)⟩
  · left
    rw [e, goes (fun run' h => by rw [hur] at h; cases h; exact hn)]
    exact ⟨hur, hus⟩

/-! ### The taking, clause by clause (R161, R162, R165) -/

theorem endSector_buffer (s : State) (side : Side) (k lba : Nat) (v : Verdict) :
    (endSector s side k lba v).buffer = s.buffer := by
  simp only [endSector]
  split
  · exact setJob_buffer ..
  · rfl

theorem abandonUnlessWriting_buffer (s : State) (l : LaneId) : (abandonUnlessWriting s l).buffer = s.buffer := by
  have leaves : (abandonSector s l).buffer = s.buffer := by
    simp only [abandonSector]
    split
    · exact endSector_buffer ..
    · rfl
  simp only [abandonUnlessWriting]
  split
  · split
    · rfl
    · exact leaves
  · rfl

theorem takeReset_buffer (kind : ResetKind) (r : Record) (s : State) : (takeReset kind r s).buffer = s.buffer := by
  have closes : ∀ side (L : List Nat) (u : State), (L.foldl (fun s k => closeJob s side k) u).buffer = u.buffer :=
    fun side L u => List.foldlRecOn (motive := fun v => v.buffer = u.buffer) L _ rfl
      fun v hv k _ => (closeJob_buffer v side k).trans hv
  have leaves : ∀ (L : List LaneId) (u : State), (L.foldl abandonUnlessWriting u).buffer = u.buffer :=
    fun L u => List.foldlRecOn (motive := fun v => v.buffer = u.buffer) L _ rfl
      fun v hv l _ => (abandonUnlessWriting_buffer v l).trans hv
  rw [takeReset_eq, settle_buffer, closes, closes, takenState, State.setSweep_buffer, leaves, mapJobs_buffer,
    mapJobs_buffer]

/-- A job the taking of a reset has cut short has no sector WAITING. -/
theorem stoppedAtTaking_noWaiting (s : State) (side : Side) (k : Nat) (cause : EndCause) (j : Job) :
    SectorState.waiting ∉ (stoppedAtTaking s side k cause j).sectors := by
  intro h
  simp only [stoppedAtTaking, endedEarly, List.mem_mapIdx] at h
  obtain ⟨i, hi, h⟩ := h
  rw [List.getElem_map] at h
  split at h
  · cases h
  · split at h
    · cases h
    · next hne => exact hne h

/-- A job still in a table (R81, R141, R161). -/
theorem takeReset_job {kind : ResetKind} {r : Record} {s : State} {side : Side} {k : Nat} {j : Job}
    (h : jobAt (takeReset kind r s) side k = some j) :
    ∃ j0, jobAt s side k = some j0 ∧ j.tag = j0.tag ∧ j.cause = some (j0.cause.getD kind.cause) ∧
      j.next = none ∧ SectorState.waiting ∉ j.sectors := by
  rw [takeReset_eq_settle, jobAt_congr (settle_frame _).1] at h
  obtain ⟨j1, hj1, e⟩ := (takingEnds_keeps kind (recordTag r) s).job side k j h
  rw [takenState_job, Option.map_eq_some_iff] at hj1
  obtain ⟨j0, hj0, rfl⟩ := hj1
  rw [e]
  exact ⟨j0, hj0, rfl, rfl, rfl, stoppedAtTaking_noWaiting s side k kind.cause j0⟩

theorem laneLeft_work (s : State) (l : LaneId) :
    (laneLeft s l).work = if leavesSector (s.lanes.get l) = true then none else (s.lanes.get l).work := by
  simp only [laneLeft, leavesSector]
  split
  · next w hw => by_cases hp : w.phase = .writing <;> simp [hp, hw, laneFreed]
  · next hw => simp [hw]

/-- A lane in WRITING keeps its work; every other lane has none (R16, R161). -/
theorem takeReset_work (kind : ResetKind) (r : Record) (s : State) (l : LaneId) :
    ((takeReset kind r s).lanes.get l).work =
      if leavesSector (s.lanes.get l) = true then none else (s.lanes.get l).work := by
  obtain ⟨-, -, -, -, -, -, -, -, lane⟩ := takenState_frame kind (recordTag r) s
  rw [takeReset_eq_settle, settle_work, (takingEnds_keeps kind (recordTag r) s).lanes, lane, laneLeft_work]

/-- So with its access (R16, R161). -/
theorem takeReset_laneAccess (kind : ResetKind) (r : Record) (s : State) (l : LaneId) :
    accessOf (takeReset kind r s) (.lane l) =
      if leavesSector (s.lanes.get l) = true then none else accessOf s (.lane l) := by
  obtain ⟨-, -, -, outstanding⟩ := settle_frame (takingEnds kind (recordTag r) s)
  rw [takeReset_eq_settle, accessOf_congr outstanding, (takingEnds_keeps kind (recordTag r) s).access,
    takenState_laneAccess]

/-- The reset notes its quotas and its jobs and goes on, with the claims the ends have left; or, nothing being in
flight, it ends in its own step with those counts (R162, R163, R166). -/
theorem takeReset_reset (kind : ResetKind) (r : Record) (s : State) :
    ((takeReset kind r s).ports.reset = some (newReset s kind (recordTag r)) ∧
      (takeReset kind r s).sweep = (takingEnds kind (recordTag r) s).sweep) ∨
    ((takeReset kind r s).ports.reset = none ∧ QueuesEmpty s ∧ NoJobs (takeReset kind r s) ∧
      ((takeReset kind r s).sweep = (takingEnds kind (recordTag r) s).sweep ∨
        (takeReset kind r s).sweep = State.reset.sweep) ∧
      (NoRetiring s → s.stage.waitingRetain = none → s.ports.s.reserved ≠ 0 →
        { kind := kind.kind.code, status := .ok, tag := recordTag r,
          body := .reset (unendedJobs s .i) (unendedJobs s .m) 0 0 } ∈ (takeReset kind r s).ports.s.filled)) := by
  obtain ⟨ports, keys, stage, -⟩ := takenState_frame kind (recordTag r) s
  have keeps := takingEnds_keeps kind (recordTag r) s
  have run : (takingEnds kind (recordTag r) s).ports.reset = some (newReset s kind (recordTag r)) := by
    rw [keeps.reset, ports]
  rw [takeReset_eq_settle]
  rcases settle_reset run with goes | ⟨none, i0, m0, jobs, sweep, posted⟩
  · exact .inl goes
  · refine .inr ⟨none, ⟨List.eq_nil_of_length_eq_zero i0, List.eq_nil_of_length_eq_zero m0⟩, jobs, sweep,
      fun hn hw hp => ?_⟩
    rw [newReset_eq] at posted
    refine posted (fun g e he hs => ?_) (by rwa [keeps.stage, stage]) (by rwa [keeps.s, ports])
    have states := keeps.groups g
    rw [keys] at states
    rw [Option.mem_toList] at he
    rw [he, Option.map_some, hs, eq_comm, Option.map_eq_some_iff] at states
    obtain ⟨e0, he0, hs0⟩ := states
    exact absurd hs0 (hn g e0 (by simp [he0]))

theorem reset_claims (x : RangeId) : State.reset.sweep.claims.get x = [] := by
  simp [State.reset, Vector.get]

/-- The claims after the taking: those the ends have left, or none. -/
theorem takeReset_claims (kind : ResetKind) (r : Record) (s : State) :
    ClaimsFrom (takingEnds kind (recordTag r) s).sweep (takeReset kind r s).sweep := by
  have none : ClaimsFrom (takingEnds kind (recordTag r) s).sweep State.reset.sweep :=
    ⟨fun x d hd => by simp [reset_claims] at hd, fun d hd => nomatch hd⟩
  obtain ⟨-, e⟩ | ⟨-, -, -, e | e, -⟩ := takeReset_reset kind r s <;> rw [e]
  · exact .refl _
  · exact .refl _
  · exact none

/-- No claim is CLAIMED or DONE (R161). -/
theorem takeReset_reciphering (kind : ResetKind) (r : Record) (s : State) (x : RangeId) :
    ∀ c ∈ (takeReset kind r s).sweep.claims.get x, c.state = .reciphering := by
  intro c hc
  obtain ⟨-, -, -, -, -, -, sweep, -⟩ := takenState_frame kind (recordTag r) s
  obtain ⟨b, hb, hbc⟩ :=
    ((takingEnds_keeps kind (recordTag r) s).claims.trans (takeReset_claims kind r s)).claim x c hc
  rw [sweep, SweepUnit.filterClaims, get_map] at hb
  rw [hbc.2.2]
  simpa using List.of_mem_filter hb

/-- The claim of a RECIPHER job whose completion is posted is removed with it (R135). -/
theorem takeReset_removed {kind : ResetKind} {r : Record} {s : State} {k : Nat} {j : Job} (hj : jobAt s .m k = some j)
    (hk : j.kind = .recipher) (hn : jobAt (takeReset kind r s) .m k = none) :
    NoClaimOf (takeReset kind r s).sweep k := by
  rw [takeReset_eq_settle, jobAt_congr (settle_frame _).1] at hn
  refine (takeReset_claims kind r s).noClaimOf
    ((takingEnds_keeps kind (recordTag r) s).removed k (stoppedAtTaking s .m k kind.cause j) ?_ hk hn)
  rw [takenState_job, hj, Option.map_some]

/-- A RECIPHERING claim stays with its set while its job does (R132, R141). -/
theorem takeReset_held {kind : ResetKind} {r : Record} {s : State} (ht : TablesByKind s) {x : RangeId} {c : Claim}
    {k : Nat} (hc : c ∈ s.sweep.claims.get x) (hs : c.state = .reciphering) (hk : c.job = some k)
    (hn : jobAt (takeReset kind r s) .m k ≠ none) :
    ∃ d ∈ (takeReset kind r s).sweep.claims.get x, SameClaim c d := by
  obtain ⟨-, -, -, -, -, -, sweep, -⟩ := takenState_frame kind (recordTag r) s
  have hi : ∀ k j, jobAt (takenState kind (recordTag r) s) .i k = some j → j.kind ≠ .recipher := by
    intro k j hj hr
    rw [takenState_job, Option.map_eq_some_iff] at hj
    obtain ⟨j0, hj0, rfl⟩ := hj
    have hr0 : j0.kind = .recipher := hr
    rcases ht.1 k j0 hj0 with h | h <;> rw [h] at hr0 <;> cases hr0
  have hc' : c ∈ (takenState kind (recordTag r) s).sweep.claims.get x := by
    rw [sweep, SweepUnit.filterClaims, get_map]
    exact List.mem_filter.mpr ⟨hc, by simp [hs]⟩
  have stands : jobAt (takingEnds kind (recordTag r) s) .m k ≠ none := by
    rwa [takeReset_eq_settle, jobAt_congr (settle_frame _).1] at hn
  have kept := (takingEnds_keeps kind (recordTag r) s).held hi x k c hc' hk stands
  obtain ⟨-, e⟩ | ⟨-, -, ⟨-, empty⟩, -⟩ := takeReset_reset kind r s
  · rwa [e]
  · exact absurd ((tableEmpty_iff _ _).mp empty k) hn

/-- The records of the I-port and of the M-port wait on (R162). -/
theorem takeReset_requests (kind : ResetKind) (r : Record) (s : State) :
    (takeReset kind r s).ports.i.requests = s.ports.i.requests ∧
    (takeReset kind r s).ports.m.requests = s.ports.m.requests := by
  obtain ⟨ports, -⟩ := takenState_frame kind (recordTag r) s
  obtain ⟨-, i, m, -⟩ := settle_frame (takingEnds kind (recordTag r) s)
  have requests := (takingEnds_keeps kind (recordTag r) s).requests
  rw [takeReset_eq_settle, i, m]
  generalize takingEnds kind (recordTag r) s = w at *
  generalize takenState kind (recordTag r) s = u at *
  exact ⟨(requests .i).trans (by rw [State.port, ports]), (requests .m).trans (by rw [State.port, ports])⟩

/-! ### Jobs at their end, told slot by slot (R78, R80, R135) -/

/-- A list write asked for names its slot, whose job has ended. -/
theorem slotAsk_who {u : State} {side : Side} {k : Nat} {a : Access} (h : slotAsk u side k = some a) :
    a.who = .list side k ∧ ∃ j, jobAt u side k = some j ∧ j.AtEnd := by
  simp only [slotAsk, Option.bind_eq_some_iff, Option.ite_none_right_eq_some, Option.map_eq_some_iff] at h
  obtain ⟨j, hj, ⟨hend, -⟩, addr, -, rfl⟩ := h
  exact ⟨rfl, j, hj, hend⟩

/-- The list writes that the ends of both tables' jobs ask for, the I-table's first. -/
def asksOf (u : State) : List Access :=
  (List.range 32).filterMap (slotAsk u .i) ++ (List.range 16).filterMap (slotAsk u .m)

theorem mem_asksOf {u : State} {a : Access} :
    a ∈ asksOf u ↔ ∃ side k, k < side.slots ∧ slotAsk u side k = some a := by
  simp only [asksOf, List.mem_append, List.mem_filterMap, List.mem_range]
  constructor
  · rintro (⟨k, hk, h⟩ | ⟨k, hk, h⟩)
    · exact ⟨.i, k, hk, h⟩
    · exact ⟨.m, k, hk, h⟩
  · rintro ⟨side, k, hk, h⟩
    cases side
    · exact .inl ⟨k, hk, h⟩
    · exact .inr ⟨k, hk, h⟩

/-- No list write is asked for by a slot whose job has not ended. -/
theorem asksOf_find_none {u : State} {side : Side} {k : Nat} (h : ∀ j, jobAt u side k = some j → ¬ j.AtEnd) :
    (asksOf u).find? (fun a => a.who == .list side k) = none := by
  rw [List.find?_eq_none]
  intro a ha
  obtain ⟨side', k', -, hask⟩ := mem_asksOf.mp ha
  obtain ⟨who, j, hj, hend⟩ := slotAsk_who hask
  rw [who, beq_iff_eq, Requester.list.injEq]
  rintro ⟨rfl, rfl⟩
  exact h j hj hend

/-- What becomes of each job: `cut` is it as the taking has cut it short. -/
theorem takeReset_slot {kind : ResetKind} {r : Record} {s t : State} (et : takeReset kind r s = t)
    (ht : TablesByKind s) (hc : JobClaimsReciphering s) {side : Side} {k : Nat} {j : Job}
    (hj : jobAt s side k = some j) :
    let cut := stoppedAtTaking s side k kind.cause j
    (¬ cut.AtEnd → jobAt t side k = some cut) ∧
    (j.phase = .listing → accessOf t (.list side k) = accessOf s (.list side k)) ∧
    (cut.AtEnd → cut.PostsAtOnce → jobAt t side k = none) ∧
    (cut.AtEnd → ∀ addr, cut.list = some addr → cut.cause ≠ some .busFault →
      let ended := withFinals s k cut
      jobAt t side k = some { ended with phase := .listing } ∧
      (s.bufferPort.faulted = false →
        { who := .list side k, kind := .listWrite, addr := addr, len := ended.count, bytes := ended.listBytes }
          ∈ t.bufferPort.outstanding)) := by
  obtain ⟨u, w, e, ujob, finals, wjob, -, -, -, -, -, ulist, outstanding, -⟩ := takeReset_taken kind r s ht hc
  obtain ⟨jobs, -, -, accesses⟩ := settle_frame w
  rw [← et.symm.trans e] at jobs accesses
  intro cut
  have tjob : jobAt t side k = slotAfter u side k := (jobAt_congr jobs side k).trans (wjob side k)
  have tout : t.bufferPort.outstanding = u.bufferPort.outstanding ++
      (if s.bufferPort.faulted = true then [] else asksOf u) := accesses.trans outstanding
  have hcut : jobAt u side k = some cut := by rw [ujob, hj]; rfl
  have after : slotAfter u side k = if cut.AtEnd then
      (if cut.PostsAtOnce then none else some { withFinals s k cut with phase := .listing }) else some cut := by
    rw [← finals]
    simp only [slotAfter, hcut, Option.bind_some]
  rw [tjob, after]
  refine ⟨fun hn => if_neg hn, fun hl => ?_, fun he hp => by rw [if_pos he, if_pos hp], fun he addr ha hb => ?_⟩
  · have running : ¬ cut.AtEnd := fun he => by
      have hr : j.phase = .running := he.1
      rw [hl] at hr
      cases hr
    have none : (if s.bufferPort.faulted = true then [] else asksOf u).find? (fun a => a.who == .list side k) =
        none := by
      split
      · rfl
      · exact asksOf_find_none fun j' hj' => by rw [hcut] at hj'; cases hj'; exact running
    rw [← ulist]
    simp only [accessOf, tout, List.find?_append, none, Option.or_none]
  · have lists : ¬ cut.PostsAtOnce := not_or.mpr ⟨by simp [ha], hb⟩
    refine ⟨by rw [if_pos he, if_neg lists], fun hf => ?_⟩
    rw [tout, hf, if_neg (by decide)]
    refine List.mem_append_right _ (mem_asksOf.mpr ⟨side, k, slot_lt_of_jobAt hj, ?_⟩)
    simp only [slotAsk, hcut, Option.bind_some, finals]
    rw [if_pos ⟨he, lists⟩, ha]
    rfl

/-- The completions posted for each table, and the state from which the rest of the step follows. -/
theorem takeReset_posts {kind : ResetKind} {r : Record} {s t : State} (et : takeReset kind r s = t)
    (ht : TablesByKind s) (hc : JobClaimsReciphering s) :
    (∀ side, (t.port (sidePort side)).filled = (s.port (sidePort side)).filled ++
      (takingPosts s side kind.cause).take (s.port (sidePort side)).reserved) ∧
    ∃ p, p.jobs = t.jobs ∧ (∀ l, p.lanes.get l = laneLeft s l) ∧
      p.bufferPort.outstanding = t.bufferPort.outstanding ∧ p.bufferPort.faulted = s.bufferPort.faulted ∧
      p.stage = s.stage ∧ p.table = s.table ∧ p.arbiter = s.arbiter ∧
      p.ports = { s.ports with
        i := t.ports.i, m := t.ports.m, reset := some (newReset s kind (recordTag r)) } ∧
      p.keys.cells = s.keys.cells ∧ p.keys.load = s.keys.load ∧
      (∀ g, p.keys.groups.get g = (s.keys.groups.get g).map (fun e =>
        { e with pins := e.pins - (takingUnpins s .i kind.cause g + takingUnpins s .m kind.cause g) })) ∧
      Follows p t := by
  obtain ⟨u, w, e, -, -, -, ports, cells, load, groups, faulted, -, -, stage, table, arbiter, lanes⟩ :=
    takeReset_taken kind r s ht hc
  obtain ⟨jobs, i, m, accesses⟩ := settle_frame w
  have follows := settle_follows w
  rw [← et.symm.trans e] at jobs i m accesses follows
  refine ⟨fun side => ?_, w, jobs.symm, lanes, accesses.symm, faulted, stage, table, arbiter, ?_, cells, load, groups,
    follows⟩
  · cases side
    · simp only [sidePort, State.port, i, ports]
      rfl
    · simp only [sidePort, State.port, m, ports]
      rfl
  · rw [i, m, ports]

/-! ### The command (R161, R165) -/

theorem exec_engineReset {s : State} {r : Record} (h : HeaderTaken s r .engineReset) :
    exec .engineReset s = .next (takeReset .engine r (takeRecord s .s)) := by
  show execEngineReset s = _
  rw [execEngineReset, onRecord_taken _ h.1, decideRecord_accept (by simp [firstRefusal_cons, h.2])]

theorem exec_zeroize {s : State} {r : Record} (h : HeaderTaken s r .zeroize) :
    exec .zeroize s = .next (takeReset .zeroize r (takeRecord s .s)) := by
  show execZeroize s = _
  rw [execZeroize, onRecord_taken _ h.1, decideRecord_accept (by simp [firstRefusal_cons, h.2])]

/-- The command takes the record and then its reset. -/
theorem exec_reset {s : State} {r : Record} {c : Instr} {kind : ResetKind} {cause : EndCause}
    (h : (c = .engineReset ∧ kind = .engine ∧ cause = .aborted ∧ HeaderTaken s r .engineReset) ∨
      (c = .zeroize ∧ kind = .zeroize ∧ cause = .zeroized ∧ HeaderTaken s r .zeroize)) :
    exec c s = .next (takeReset kind r (takeRecord s .s)) ∧ cause = kind.cause ∧ kind.kind.code = kindCode r ∧
      s.stage.waitingRetain = none := by
  have free : ∀ {k}, Taken s .s r k → s.stage.waitingRetain = none := fun ht =>
    by_contra fun hw => (portPermits_iff s .s).mp ht.1 (.inr (.inl hw))
  have code : ∀ {k}, Taken s .s r k → k.code = kindCode r := fun ⟨_, _, _, hk⟩ => hk.symm
  obtain ⟨rfl, rfl, rfl, h⟩ | ⟨rfl, rfl, rfl, h⟩ := h
  · exact ⟨exec_engineReset h, rfl, code h.1, free h.1⟩
  · exact ⟨exec_zeroize h, rfl, code h.1, free h.1⟩

/-- Settles O47: the taking clause by clause, from the state in which the record is taken. -/
theorem resetTakingStopsWork : Obligations.ResetTakingStopsWork := by
  intro s r c kind cause h
  obtain ⟨ran, rfl, code, retain⟩ := exec_reset h
  have leaves : ∀ l, (∃ w, (s.lanes.get l).work = some w ∧ w.phase ≠ .writing) →
      leavesSector ((takeRecord s .s).lanes.get l) = true := fun l => (leavesSector_iff _).mpr
  have stays : ∀ l w, (s.lanes.get l).work = some w → w.phase = .writing →
      ¬ leavesSector ((takeRecord s .s).lanes.get l) = true := fun l w hw hp hl => by
    obtain ⟨w', hw', hp'⟩ := (leavesSector_iff _).mp hl
    cases hw.symm.trans hw'
    exact hp' hp
  have buffer := takeReset_buffer kind r (takeRecord s .s)
  have job := @takeReset_job kind r (takeRecord s .s)
  have work := takeReset_work kind r (takeRecord s .s)
  have access := takeReset_laneAccess kind r (takeRecord s .s)
  have reciphering := takeReset_reciphering kind r (takeRecord s .s)
  have removed := @takeReset_removed kind r (takeRecord s .s)
  have held := @takeReset_held kind r (takeRecord s .s)
  have requests := takeReset_requests kind r (takeRecord s .s)
  have reset := takeReset_reset kind r (takeRecord s .s)
  generalize et : takeReset kind r (takeRecord s .s) = t at *
  refine ⟨t, ran, sameMemory_of_buffer buffer, fun side k j hj => job hj, fun l w hw hp => ⟨?_, ?_⟩,
    fun l hl => ?_, fun l w hw hp => ?_, reciphering, fun k j hj hk hn => removed hj hk hn,
    fun x cl k ht hcl hs hk hn => ?_, requests.1, requests.2, ?_, fun ht hc => ?_⟩
  · rw [work, if_neg (stays l w hw hp)]
    exact hw
  · rw [access, if_neg (stays l w hw hp)]
    rfl
  · rw [work]
    split
    · rfl
    · next hs =>
      rcases hw : (s.lanes.get l).work with _ | w
      · exact hw
      · exact absurd (leaves l ⟨w, hw, hl w hw⟩) hs
  · rw [access, if_pos (leaves l ⟨w, hw, hp⟩)]
  · obtain ⟨d, hd, hjob, hset, -⟩ := held ht hcl hs hk hn
    exact ⟨d, hd, hjob.trans hk, hset⟩
  · rcases reset with ⟨goes, -⟩ | ⟨ended, empty, jobs, -, posted⟩
    · exact .inl (goes.trans (congrArg some (newReset_eq _ _ _)))
    · exact .inr ⟨ended, empty, jobs, fun hn => code ▸ posted hn retain (Nat.succ_ne_zero _)⟩
  · obtain ⟨filled, p, hp⟩ := takeReset_posts et ht hc
    refine ⟨fun side => ?_, fun side k j hj => takeReset_slot et ht hc hj, p, ?_⟩
    · cases side <;> exact filled _
    · rw [newReset_eq] at hp
      exact hp

end Sys2Proof.Machine
end
section
/-! PROOFS. The laws of the Range Table row by row (R23, R24, R26, R31, R41): each law of the whole table as a
condition on the rows and on pairs of them, and what a change of one row has to meet so that the law stands. -/

namespace Sys2Proof.Machine

/-! ### Rows -/

@[simp] theorem entry_setEntry_self (t : RangeTable) (x : RangeId) (e : RangeRec) : (t.setEntry x e).entry x = e :=
  get_put_self _ _ _

theorem entry_setEntry_ne (t : RangeTable) {x r : RangeId} (e : RangeRec) (h : r ≠ x) :
    (t.setEntry x e).entry r = t.entry r := get_put_ne _ _ _ _ h

/-- The rows at power-on and after a Zeroize (R44, R166). -/
theorem get_rangesReset (r : RangeId) :
    rangesReset.get r = if r = 0 then RangeRec.globalReset else RangeRec.absent := by
  have e : rangesReset = put (Vector.replicate 16 RangeRec.absent) (0 : RangeId) RangeRec.globalReset := rfl
  rw [e, get_put]
  simp [Vector.get]

/-- At power-on a row has no binding, its refusal count is 0, and range 0 alone is PRESENT (R44). -/
theorem get_rangesReset_fields (r : RangeId) :
    bindingsOf (rangesReset.get r) = [] ∧ (rangesReset.get r).refusals = 0 ∧
      ((rangesReset.get r).present = true → r = 0) := by
  rw [get_rangesReset]
  split
  · next h => exact ⟨rfl, rfl, fun _ => h⟩
  · exact ⟨rfl, rfl, fun h => nomatch h⟩

/-! ### Epochs (R41) -/

/-- The epochs of one row's live bindings. -/
def epochsOf (e : RangeRec) : List Epoch := (bindingsOf e).map Binding.epoch

/-- The law of O56 on a table. -/
def EpochsLawful (t : RangeTable) : Prop := (liveEpochs t).Nodup ∧ (0 : Epoch) ∉ liveEpochs t

theorem mem_liveEpochs {t : RangeTable} {p : Epoch} : p ∈ liveEpochs t ↔ ∃ r, p ∈ epochsOf (t.entry r) := by
  simp [liveEpochs, epochsOf]

/-- An epoch passes the EPOCH_CLASH test when it is not 0 and no row has it (R39, R41). -/
theorem epochClashes_eq_false {t : RangeTable} {p : Epoch} :
    epochClashes t p = false ↔ p ≠ 0 ∧ ∀ r, p ∉ epochsOf (t.entry r) := by
  simp only [epochClashes, Bool.or_eq_false_iff, beq_eq_false_iff_ne, List.contains_eq_mem, decide_eq_false_iff_not,
    mem_liveEpochs, not_exists]

/-- The law of the epochs, row by row: each row's are distinct and not 0, and no two rows share one. -/
theorem epochsLawful_iff (t : RangeTable) : EpochsLawful t ↔
    (∀ r, (epochsOf (t.entry r)).Nodup ∧ (0 : Epoch) ∉ epochsOf (t.entry r)) ∧
    ∀ r q, r ≠ q → ∀ p ∈ epochsOf (t.entry r), p ∉ epochsOf (t.entry q) := by
  have rows : (liveEpochs t).Nodup ↔ (∀ r, (epochsOf (t.entry r)).Nodup) ∧
      ∀ r q, r ≠ q → ∀ p ∈ epochsOf (t.entry r), p ∉ epochsOf (t.entry q) := by
    show ((List.finRange 16).flatMap (fun r => epochsOf (t.entry r))).Nodup ↔ _
    rw [List.nodup_flatMap]
    refine and_congr (by simp) ⟨fun h r q hne p hr hq => ?_, fun h => ?_⟩
    · have symm : Std.Symm (Function.onFun List.Disjoint fun r => epochsOf (t.entry r)) :=
        ⟨fun _ _ hd => List.Disjoint.symm hd⟩
      exact h.forall (List.mem_finRange r) (List.mem_finRange q) hne hr hq
    · exact (List.nodup_finRange 16).imp fun {r q} hne p hr hq => h r q hne p hr hq
  rw [EpochsLawful, rows, mem_liveEpochs, not_exists, forall_and]
  tauto

/-- A row whose epochs are distinct, each one the row's own before or one that passes the EPOCH_CLASH test. -/
theorem EpochsLawful.setEntry {t : RangeTable} (h : EpochsLawful t) {x : RangeId} {e : RangeRec}
    (distinct : (epochsOf e).Nodup)
    (fresh : ∀ p ∈ epochsOf e, p ∈ epochsOf (t.entry x) ∨ epochClashes t p = false) :
    EpochsLawful (t.setEntry x e) := by
  obtain ⟨rows, apart⟩ := (epochsLawful_iff t).mp h
  have new : ∀ p ∈ epochsOf e, p ≠ 0 ∧ ∀ q, q ≠ x → p ∉ epochsOf (t.entry q) := by
    intro p hp
    rcases fresh p hp with hx | hc
    · exact ⟨fun h0 => (rows x).2 (h0 ▸ hx), fun q hq => apart x q hq.symm p hx⟩
    · obtain ⟨h0, hn⟩ := epochClashes_eq_false.mp hc
      exact ⟨h0, fun q _ => hn q⟩
  refine (epochsLawful_iff _).mpr ⟨fun r => ?_, fun r q hne p hr hq => ?_⟩
  · by_cases hr : r = x
    · subst hr
      rw [entry_setEntry_self]
      exact ⟨distinct, fun h0 => (new 0 h0).1 rfl⟩
    · rw [entry_setEntry_ne _ _ hr]
      exact rows r
  · by_cases hrx : r = x
    · subst hrx
      rw [entry_setEntry_self] at hr
      rw [entry_setEntry_ne _ _ hne.symm] at hq
      exact (new p hr).2 q hne.symm hq
    · rw [entry_setEntry_ne _ _ hrx] at hr
      by_cases hqx : q = x
      · subst hqx
        rw [entry_setEntry_self] at hq
        exact (new p hq).2 r hrx hr
      · rw [entry_setEntry_ne _ _ hqx] at hq
        exact apart r q hne p hr hq

/-- Tables whose rows have the same bindings have the same epochs. -/
theorem EpochsLawful.congr {t t' : RangeTable} (h : EpochsLawful t)
    (same : ∀ r, bindingsOf (t'.entry r) = bindingsOf (t.entry r)) : EpochsLawful t' := by
  have e : liveEpochs t' = liveEpochs t := by simp only [liveEpochs, same]
  rwa [EpochsLawful, e]

/-! ### Sweeps (R23, R24) -/

/-- The law of O57 on one row and its mark. -/
structure SweepRow (r : RangeId) (e : RangeRec) (mark : Option Nat) : Prop where
  global : r = 0 → e.present = true
  marked : e.previous.isSome = mark.isSome
  keyed : e.previous.isSome = true → e.current.isSome = true
  absent : e.present = false → e = RangeRec.absent

theorem sweepLaw_iff (s : State) : SweepLaw s ↔ ∀ r, SweepRow r (s.table.entry r) (s.sweep.marks.get r) := by
  constructor
  · rintro ⟨global, rows⟩ r
    obtain ⟨marked, keyed, absent⟩ := rows r
    exact ⟨fun h => h ▸ global, marked, keyed, absent⟩
  · exact fun h => ⟨(h 0).global rfl, fun r => ⟨(h r).marked, (h r).keyed, (h r).absent⟩⟩

/-- A row without a previous binding has no mark, and one with a mark has both bindings. -/
theorem SweepLaw.mark_none {s : State} (h : SweepLaw s) {r : RangeId} (hp : (s.table.entry r).previous = none) :
    s.sweep.marks.get r = none := by
  have := ((sweepLaw_iff s).mp h r).marked
  rw [hp] at this
  exact Option.isNone_iff_eq_none.mp (by simpa using this.symm)

theorem SweepLaw.absent {s : State} (h : SweepLaw s) {r : RangeId} (hp : (s.table.entry r).present = false) :
    s.table.entry r = RangeRec.absent := ((sweepLaw_iff s).mp h r).absent hp

/-! ### Bounds (R26) -/

/-- The two ranges' LBAs do not meet. -/
def BoundsApart (e f : RangeRec) : Prop := e.last < f.first ∨ f.last < e.first

theorem boundsLaw_iff (t : RangeTable) : BoundsLaw t ↔
    (∀ r, r ≠ 0 → (t.entry r).present = true →
      (t.entry r).first ≤ (t.entry r).last ∧ (t.entry r).last < t.capacity) ∧
    ∀ r q, r ≠ 0 → q ≠ 0 → r ≠ q → (t.entry r).present = true → (t.entry q).present = true →
      BoundsApart (t.entry r) (t.entry q) := Iff.rfl

/-- Bounds in order, below the capacity and apart from those of every other PRESENT bounded range. -/
def BoundsFit (t : RangeTable) (x : RangeId) (e : RangeRec) : Prop :=
  e.first ≤ e.last ∧ e.last < t.capacity ∧
  ∀ q, q ≠ 0 → q ≠ x → (t.entry q).present = true → BoundsApart e (t.entry q)

theorem BoundsLaw.fit {t : RangeTable} (h : BoundsLaw t) {x : RangeId} (h0 : x ≠ 0)
    (hp : (t.entry x).present = true) : BoundsFit t x (t.entry x) :=
  ⟨(h.1 x h0 hp).1, (h.1 x h0 hp).2, fun q hq hne hpq => h.2 x q h0 hq hne.symm hp hpq⟩

theorem BoundsLaw.setEntry {t : RangeTable} (h : BoundsLaw t) {x : RangeId} {e : RangeRec}
    (fit : x ≠ 0 → e.present = true → BoundsFit t x e) : BoundsLaw (t.setEntry x e) := by
  refine (boundsLaw_iff _).mpr ⟨fun r h0 hp => ?_, fun r q hr0 hq0 hne hpr hpq => ?_⟩
  · by_cases hr : r = x
    · subst hr
      rw [entry_setEntry_self] at hp ⊢
      exact ⟨(fit h0 hp).1, (fit h0 hp).2.1⟩
    · rw [entry_setEntry_ne _ _ hr] at hp ⊢
      exact h.1 r h0 hp
  · by_cases hr : r = x
    · subst hr
      rw [entry_setEntry_self] at hpr ⊢
      rw [entry_setEntry_ne _ _ hne.symm] at hpq ⊢
      exact (fit hr0 hpr).2.2 q hq0 hne.symm hpq
    · rw [entry_setEntry_ne _ _ hr] at hpr ⊢
      by_cases hq : q = x
      · subst hq
        rw [entry_setEntry_self] at hpq ⊢
        exact ((fit hq0 hpq).2.2 r hr0 hr hpr).symm
      · rw [entry_setEntry_ne _ _ hq] at hpq ⊢
        exact h.2 r q hr0 hq0 hne hpr hpq

/-- Tables with the same ranges PRESENT, in the same bounds and below the same capacity. -/
theorem BoundsLaw.congr {t t' : RangeTable} (h : BoundsLaw t) (capacity : t'.capacity = t.capacity)
    (same : ∀ r, (t'.entry r).present = (t.entry r).present ∧ (t'.entry r).first = (t.entry r).first ∧
      (t'.entry r).last = (t.entry r).last) : BoundsLaw t' := by
  have present : ∀ r, (t'.entry r).present = (t.entry r).present := fun r => (same r).1
  have first : ∀ r, (t'.entry r).first = (t.entry r).first := fun r => (same r).2.1
  have last : ∀ r, (t'.entry r).last = (t.entry r).last := fun r => (same r).2.2
  simpa only [BoundsLaw, present, first, last, capacity] using h

/-! ### Resolution (R26) -/

theorem mem_boundedRanges {r : RangeId} : r ∈ boundedRanges ↔ r ≠ 0 := by revert r; decide

/-- A PRESENT range's bounds hold an LBA. -/
theorem boundsHold_iff (e : RangeRec) (y : Nat) :
    boundsHold e y = true ↔ e.present = true ∧ e.first ≤ y ∧ y ≤ e.last := by
  simp [boundsHold, and_assoc]

/-- The range found for an LBA is a PRESENT bounded one that holds it. -/
theorem boundedAt_some {t : RangeTable} {y : Nat} {r : RangeId} (h : boundedAt t y = some r) :
    r ≠ 0 ∧ (t.entry r).present = true ∧ (t.entry r).first ≤ y ∧ y ≤ (t.entry r).last :=
  ⟨mem_boundedRanges.mp (List.mem_of_find?_eq_some h),
    (boundsHold_iff _ _).mp (List.find?_some (p := fun q => boundsHold (t.entry q) y) h)⟩

theorem boundedAt_none {t : RangeTable} {y : Nat} : boundedAt t y = none ↔
    ∀ r : RangeId, r ≠ 0 → (t.entry r).present = true → ¬ ((t.entry r).first ≤ y ∧ y ≤ (t.entry r).last) := by
  simp only [boundedAt, List.find?_eq_none, mem_boundedRanges, boundsHold_iff, not_and]

/-- Under the law of the bounds an LBA inside a PRESENT bounded range resolves to it. -/
theorem resolve_inside {t : RangeTable} (h : BoundsLaw t) {r : RangeId} {y : Nat} (h0 : r ≠ 0)
    (hp : (t.entry r).present = true) (hf : (t.entry r).first ≤ y) (hl : y ≤ (t.entry r).last) :
    resolve t y = r := by
  rcases hb : boundedAt t y with _ | q
  · exact absurd ⟨hf, hl⟩ (boundedAt_none.mp hb r h0 hp)
  · obtain ⟨q0, qp, qf, ql⟩ := boundedAt_some hb
    rw [resolve, hb, Option.getD_some]
    by_contra hne
    rcases h.2 q r q0 h0 hne qp hp with hd | hd <;> omega

/-- An LBA in no PRESENT bounded range resolves to range 0. -/
theorem resolve_outside {t : RangeTable} {y : Nat} (h : ∀ r : RangeId, r ≠ 0 → (t.entry r).present = true →
    ¬ ((t.entry r).first ≤ y ∧ y ≤ (t.entry r).last)) : resolve t y = 0 := by
  rw [resolve, boundedAt_none.mpr h, Option.getD_none]

end Sys2Proof.Machine
end
section
/-! PROOFS. What every change of the part keeps of the laws (O56 to O59): one relation between a state and a later one,
that each law which held still holds, proved for each shared operation once. -/

namespace Sys2Proof.Machine

/-! ### The laws, part by part -/

/-- The refusal counts within their limit (R31). -/
def RefusalsWithin (t : RangeTable) : Prop := ∀ r, (t.entry r).refusals ≤ 65535

/-- The claims within their limits (R125). -/
def ClaimsWithin (w : SweepUnit) : Prop := (∀ r, (w.claims.get r).length ≤ 2) ∧ deviceClaims w ≤ 8

/-- The arbiter's count within its limit, and 0 while the classes are equal (R91). -/
def ArbiterWithin (a : Arbiter) : Prop := a.count ≤ 8 ∧ (a.iClass = a.mClass → a.count = 0)

/-- The inactivity remaining within the delay, and the delay within its limit (R143). -/
def TimerWithin (c : StageController) : Prop := c.remaining ≤ c.delay ∧ c.delay ≤ 3600

theorem countsWithin_iff (s : State) : CountsWithin s ↔
    RefusalsWithin s.table ∧ ClaimsWithin s.sweep ∧ ArbiterWithin s.arbiter ∧ TimerWithin s.stage := by
  simp only [CountsWithin, RefusalsWithin, ClaimsWithin, ArbiterWithin, TimerWithin]
  tauto

/-- The kinds of job each table holds (R64, R129). -/
def KindFits (side : Side) (k : JobKind) : Prop :=
  match side with
  | .i => k = .read ∨ k = .write
  | .m => k = .recipher ∨ k = .screen

theorem tablesByKind_iff (s : State) :
    TablesByKind s ↔ ∀ side k j, jobAt s side k = some j → KindFits side j.kind := by
  constructor
  · rintro ⟨i, m⟩ side
    cases side
    · exact i
    · exact m
  · exact fun h => ⟨h .i, h .m⟩

theorem noJobs_iff (s : State) : NoJobs s ↔ ∀ side k, jobAt s side k = none := by
  simp only [NoJobs, tableEmpty_iff]
  constructor
  · rintro ⟨i, m⟩ side
    cases side
    · exact i
    · exact m
  · exact fun h => ⟨h .i, h .m⟩

/-- The laws of the Range Table that held of `s` hold of `t`. -/
structure RangesKept (s t : State) : Prop where
  epochs : EpochsLawful s.table → EpochsLawful t.table
  sweep : SweepLaw s → SweepLaw t
  bounds : BoundsLaw s.table → BoundsLaw t.table
  refusals : RefusalsWithin s.table → RefusalsWithin t.table

/-- The laws of the jobs, the lanes and the Buffer Port that held of `s` hold of `t`. -/
structure WorkKept (s t : State) : Prop where
  quiet : FaultedQuiet s → FaultedQuiet t
  kinds : TablesByKind s → TablesByKind t

/-- Each law of O56 to O59 that held of `s` holds of `t`. -/
structure LawsKept (s t : State) : Prop where
  ranges : RangesKept s t
  claims : ClaimsWithin s.sweep → ClaimsWithin t.sweep
  arbiter : ArbiterWithin s.arbiter → ArbiterWithin t.arbiter
  timer : TimerWithin s.stage → TimerWithin t.stage
  work : WorkKept s t

theorem LawsKept.refl (s : State) : LawsKept s s := ⟨⟨id, id, id, id⟩, id, id, id, ⟨id, id⟩⟩

theorem RangesKept.trans {s t u : State} (h : RangesKept s t) (h' : RangesKept t u) : RangesKept s u :=
  ⟨h'.epochs ∘ h.epochs, h'.sweep ∘ h.sweep, h'.bounds ∘ h.bounds, h'.refusals ∘ h.refusals⟩

theorem LawsKept.trans {s t u : State} (h : LawsKept s t) (h' : LawsKept t u) : LawsKept s u where
  ranges := h.ranges.trans h'.ranges
  claims := h'.claims ∘ h.claims
  arbiter := h'.arbiter ∘ h.arbiter
  timer := h'.timer ∘ h.timer
  work := ⟨h'.work.quiet ∘ h.work.quiet, h'.work.kinds ∘ h.work.kinds⟩

/-- A command that answers a state which keeps the laws. -/
theorem LawsKept.of_next {s t u : State} (h : (.next u : Host.Outcome State Fault Refusal) = .next t)
    (kept : LawsKept s u) : LawsKept s t := Host.Outcome.next.inj h ▸ kept

/-- Operations one after the other keep the laws when each does. -/
theorem LawsKept.foldl {α : Type} {f : State → α → State} (h : ∀ u a, LawsKept u (f u a)) (L : List α) (s : State) :
    LawsKept s (L.foldl f s) := by
  induction L generalizing s with
  | nil => exact .refl s
  | cons a L ih => exact (h s a).trans (ih _)

/-! ### Changes of rows -/

/-- Two records of a range that differ in locks and refusal count at most. -/
structure SameRow (e f : RangeRec) : Prop where
  present : f.present = e.present
  first : f.first = e.first
  last : f.last = e.last
  current : f.current = e.current
  previous : f.previous = e.previous

theorem SameRow.refl (e : RangeRec) : SameRow e e := ⟨rfl, rfl, rfl, rfl, rfl⟩

/-- A change of locks, counts and places of marks alone; an ABSENT record keeps its zeros. -/
theorem RangesKept.of_same_rows {s t : State} (capacity : t.table.capacity = s.table.capacity)
    (same : ∀ r, SameRow (s.table.entry r) (t.table.entry r))
    (marks : ∀ r, (t.sweep.marks.get r).isSome = (s.sweep.marks.get r).isSome)
    (absent : SweepLaw s → ∀ r, (s.table.entry r).present = false → t.table.entry r = s.table.entry r)
    (refusals : ∀ r, (s.table.entry r).refusals ≤ 65535 → (t.table.entry r).refusals ≤ 65535) : RangesKept s t where
  epochs h := h.congr fun r => by rw [bindingsOf, (same r).current, (same r).previous]; rfl
  sweep h := (sweepLaw_iff t).mpr fun r => by
    have row := (sweepLaw_iff s).mp h r
    refine ⟨fun hr => ?_, ?_, fun hp => ?_, fun hp => ?_⟩
    · rw [(same r).present]; exact row.global hr
    · rw [(same r).previous, marks]; exact row.marked
    · rw [(same r).current]; rw [(same r).previous] at hp; exact row.keyed hp
    · rw [(same r).present] at hp; rw [absent h r hp]; exact row.absent hp
  bounds h := h.congr capacity fun r => ⟨(same r).present, (same r).first, (same r).last⟩
  refusals h r := refusals r (h r)

/-- The Range Table and the marks as they were. -/
theorem RangesKept.of_eq {s t : State} (table : t.table = s.table)
    (marks : ∀ r, (t.sweep.marks.get r).isSome = (s.sweep.marks.get r).isSome) : RangesKept s t :=
  .of_same_rows (by rw [table]) (fun r => by rw [table]; exact .refl _) marks (fun _ r _ => by rw [table])
    fun r h => by rw [table]; exact h

/-- A change of the record and the mark of one range. -/
theorem RangesKept.of_row {s t : State} (x : RangeId) (e : RangeRec) (table : t.table = s.table.setEntry x e)
    (marks : ∀ r, r ≠ x → t.sweep.marks.get r = s.sweep.marks.get r)
    (epochs : (epochsOf (s.table.entry x)).Nodup →
      (epochsOf e).Nodup ∧ ∀ p ∈ epochsOf e, p ∈ epochsOf (s.table.entry x) ∨ epochClashes s.table p = false)
    (sweep : SweepLaw s → SweepRow x e (t.sweep.marks.get x))
    (bounds : BoundsLaw s.table → x ≠ 0 → e.present = true → BoundsFit s.table x e)
    (refusals : (s.table.entry x).refusals ≤ 65535 → e.refusals ≤ 65535) : RangesKept s t where
  epochs h := by
    obtain ⟨distinct, fresh⟩ := epochs (((epochsLawful_iff _).mp h).1 x).1
    exact table ▸ h.setEntry distinct fresh
  sweep h := (sweepLaw_iff t).mpr fun r => by
    by_cases hr : r = x
    · subst hr
      rw [table, entry_setEntry_self]
      exact sweep h
    · rw [table, entry_setEntry_ne _ _ hr, marks r hr]
      exact (sweepLaw_iff s).mp h r
  bounds h := table ▸ h.setEntry (bounds h)
  refusals h r := by
    by_cases hr : r = x
    · subst hr
      rw [table, entry_setEntry_self]
      exact refusals (h r)
    · rw [table, entry_setEntry_ne _ _ hr]
      exact h r

/-- A change of one range's locks or refusal count. -/
theorem RangesKept.of_same_row {s t : State} (x : RangeId) (e : RangeRec) (table : t.table = s.table.setEntry x e)
    (marks : t.sweep.marks = s.sweep.marks) (same : SameRow (s.table.entry x) e)
    (absent : SweepLaw s → (s.table.entry x).present = false → e = s.table.entry x)
    (refusals : (s.table.entry x).refusals ≤ 65535 → e.refusals ≤ 65535) : RangesKept s t := by
  have others : ∀ r, r ≠ x → t.table.entry r = s.table.entry r := fun r hr => by rw [table, entry_setEntry_ne _ _ hr]
  have self : t.table.entry x = e := by rw [table, entry_setEntry_self]
  refine .of_same_rows (by rw [table]; rfl) (fun r => ?_) (fun r => by rw [marks]) (fun h r hp => ?_) fun r h => ?_
  · by_cases hr : r = x
    · rw [hr, self]; exact same
    · rw [others r hr]; exact .refl _
  · by_cases hr : r = x
    · rw [hr] at hp ⊢; rw [self]; exact absent h hp
    · exact others r hr
  · by_cases hr : r = x
    · rw [hr] at h ⊢; rw [self]; exact refusals h
    · rw [others r hr]; exact h

/-! ### Changes of claims -/

theorem deviceClaims_eq (w : SweepUnit) :
    deviceClaims w = ∑ r : RangeId, (w.claims.get r).length + w.cancelled.length := by
  rw [deviceClaims, Fin.sum_univ_def]

/-- Replacing one range's list changes the device claim count by the difference of the lengths. -/
theorem deviceClaims_setClaims (w : SweepUnit) (x : RangeId) (cs : List Claim) :
    deviceClaims (w.setClaims x cs) + (w.claims.get x).length = deviceClaims w + cs.length := by
  have before := Finset.add_sum_erase (Finset.univ : Finset RangeId) (fun r => (w.claims.get r).length)
    (Finset.mem_univ x)
  have after := Finset.add_sum_erase (Finset.univ : Finset RangeId)
    (fun r => ((w.setClaims x cs).claims.get r).length) (Finset.mem_univ x)
  have others : ∀ r ∈ (Finset.univ : Finset RangeId).erase x,
      ((w.setClaims x cs).claims.get r).length = (w.claims.get r).length :=
    fun r hr => by rw [SweepUnit.setClaims, get_put_ne _ _ _ _ (Finset.ne_of_mem_erase hr)]
  have self : ((w.setClaims x cs).claims.get x).length = cs.length := by rw [SweepUnit.setClaims, get_put_self]
  have same : (w.setClaims x cs).cancelled = w.cancelled := rfl
  rw [Finset.sum_congr rfl others] at after
  rw [deviceClaims_eq, deviceClaims_eq, same]
  omega

/-- No list grows. -/
theorem ClaimsWithin.of_le {w w' : SweepUnit} (h : ClaimsWithin w)
    (lists : ∀ r, (w'.claims.get r).length ≤ (w.claims.get r).length)
    (cancelled : w'.cancelled.length ≤ w.cancelled.length) : ClaimsWithin w' := by
  refine ⟨fun r => (lists r).trans (h.1 r), le_trans ?_ h.2⟩
  rw [deviceClaims_eq, deviceClaims_eq]
  exact add_le_add (Finset.sum_le_sum fun r _ => lists r) cancelled

/-- One range's list replaced by one of at most 2 claims that leaves the device claim count within its limit. -/
theorem ClaimsWithin.setClaims {w : SweepUnit} (h : ClaimsWithin w) {x : RangeId} {cs : List Claim}
    (list : cs.length ≤ 2) (device : deviceClaims w + cs.length ≤ 8 + (w.claims.get x).length) :
    ClaimsWithin (w.setClaims x cs) := by
  refine ⟨fun r => ?_, ?_⟩
  · simp only [SweepUnit.setClaims, get_put]
    split
    · exact list
    · exact h.1 r
  · have := deviceClaims_setClaims w x cs
    omega

/-- One range's list replaced by one that is no longer. -/
theorem ClaimsWithin.setClaims_le {w : SweepUnit} (h : ClaimsWithin w) {x : RangeId} {cs : List Claim}
    (le : cs.length ≤ (w.claims.get x).length) : ClaimsWithin (w.setClaims x cs) :=
  h.setClaims (le.trans (h.1 x)) (add_le_add h.2 le)

theorem ClaimsWithin.mapClaims {w : SweepUnit} (h : ClaimsWithin w) (f : Claim → Claim) :
    ClaimsWithin (w.mapClaims f) :=
  h.of_le (fun r => by simp [SweepUnit.mapClaims]) (by simp [SweepUnit.mapClaims])

theorem ClaimsWithin.filterClaims {w : SweepUnit} (h : ClaimsWithin w) (f : Claim → Bool) :
    ClaimsWithin (w.filterClaims f) :=
  h.of_le (fun r => by simpa [SweepUnit.filterClaims] using List.length_filter_le _ _)
    (List.length_filter_le _ _)

/-! ### Changes of jobs, lanes and accesses -/

/-- A FAULTED port without work has no job, no busy lane and no access: each of them shows the port NORMAL. -/
theorem FaultedQuiet.normal_of_job {s : State} {side : Side} {k : Nat} {j : Job} (hj : jobAt s side k = some j)
    (h : FaultedQuiet s) : s.bufferPort.faulted = false := by
  by_contra hf
  have := (noJobs_iff s).mp (h (by simpa using hf)).2.1 side k
  rw [hj] at this
  cases this

theorem FaultedQuiet.normal_of_work {s : State} {l : LaneId} {w : Work} (hw : (s.lanes.get l).work = some w)
    (h : FaultedQuiet s) : s.bufferPort.faulted = false := by
  by_contra hf
  have := (h (by simpa using hf)).2.2 l
  rw [hw] at this
  cases this

/-- Jobs that stand keep their kind, and no work begins. -/
theorem WorkKept.of_less {s t : State} (faulted : t.bufferPort.faulted = s.bufferPort.faulted)
    (outstanding : s.bufferPort.outstanding = [] → t.bufferPort.outstanding = [])
    (jobs : ∀ side k j, jobAt t side k = some j → ∃ j', jobAt s side k = some j' ∧ j'.kind = j.kind)
    (work : ∀ l, (s.lanes.get l).work = none → (t.lanes.get l).work = none) : WorkKept s t where
  quiet h hf := by
    obtain ⟨none, empty, free⟩ := h (faulted ▸ hf)
    refine ⟨outstanding none, (noJobs_iff t).mpr fun side k => ?_, fun l => work l (free l)⟩
    rcases hj : jobAt t side k with _ | j
    · rfl
    · obtain ⟨j', hj', -⟩ := jobs side k j hj
      rw [(noJobs_iff s).mp empty side k] at hj'
      cases hj'
  kinds h := (tablesByKind_iff t).mpr fun side k j hj => by
    obtain ⟨j', hj', kind⟩ := jobs side k j hj
    exact kind ▸ (tablesByKind_iff s).mp h side k j' hj'

/-- While the port is NORMAL work may begin. -/
theorem WorkKept.of_normal {s t : State} (normal : FaultedQuiet s → t.bufferPort.faulted = false)
    (kinds : TablesByKind s → TablesByKind t) : WorkKept s t where
  quiet h hf := absurd hf (by rw [normal h]; exact Bool.false_ne_true)
  kinds := kinds

theorem WorkKept.of_eq {s t : State} (bufferPort : t.bufferPort = s.bufferPort) (jobs : t.jobs = s.jobs)
    (work : ∀ l, (t.lanes.get l).work = (s.lanes.get l).work) : WorkKept s t :=
  .of_less (by rw [bufferPort]) (by rw [bufferPort]; exact id)
    (fun side k j hj => ⟨j, by rw [← jobAt_congr jobs]; exact hj, rfl⟩) fun l h => (work l).trans h

/-- The tables stand as they were. -/
theorem TablesByKind.congr {s t : State} (h : TablesByKind s) (jobs : t.jobs = s.jobs) : TablesByKind t :=
  (tablesByKind_iff t).mpr fun side k j hj => (tablesByKind_iff s).mp h side k j (jobAt_congr jobs side k ▸ hj)

/-- A slot takes a job of its table's kinds. -/
theorem TablesByKind.setJob {s : State} (h : TablesByKind s) {side : Side} {k : Nat} {j : Job}
    (fits : KindFits side j.kind) : TablesByKind (setJob s side k (some j)) :=
  (tablesByKind_iff _).mpr fun side' k' j' hj' => by
    rw [jobAt_setJob] at hj'
    split at hj'
    · next at' =>
      cases hj'
      exact at'.1 ▸ fits
    · exact (tablesByKind_iff s).mp h side' k' j' hj'

/-! ### Changes of one block -/

section
variable {s t : State}

theorem LawsKept.of_work (work : WorkKept s t) (table : t.table = s.table := by simp)
    (sweep : t.sweep = s.sweep := by simp) (arbiter : t.arbiter = s.arbiter := by simp)
    (stage : t.stage = s.stage := by simp) : LawsKept s t :=
  ⟨.of_eq table (by simp [sweep]), by rw [sweep]; exact id, by rw [arbiter]; exact id, by rw [stage]; exact id, work⟩

theorem LawsKept.of_same (table : t.table = s.table := by simp) (sweep : t.sweep = s.sweep := by simp)
    (arbiter : t.arbiter = s.arbiter := by simp) (stage : t.stage = s.stage := by simp)
    (bufferPort : t.bufferPort = s.bufferPort := by simp) (jobs : t.jobs = s.jobs := by simp)
    (lanes : t.lanes = s.lanes := by simp) : LawsKept s t :=
  .of_work (.of_eq bufferPort jobs fun l => by rw [lanes]) table sweep arbiter stage

theorem LawsKept.of_stage (timer : TimerWithin s.stage → TimerWithin t.stage)
    (work : ∀ l, (t.lanes.get l).work = (s.lanes.get l).work := by simp) (table : t.table = s.table := by simp)
    (sweep : t.sweep = s.sweep := by simp) (arbiter : t.arbiter = s.arbiter := by simp)
    (bufferPort : t.bufferPort = s.bufferPort := by simp) (jobs : t.jobs = s.jobs := by simp) : LawsKept s t :=
  ⟨.of_eq table (by simp [sweep]), by rw [sweep]; exact id, by rw [arbiter]; exact id, timer,
    .of_eq bufferPort jobs work⟩

/-- The Range Table and the Sweep Unit alone change. -/
theorem LawsKept.of_ranges (ranges : RangesKept s t) (claims : ClaimsWithin s.sweep → ClaimsWithin t.sweep)
    (arbiter : t.arbiter = s.arbiter := by simp) (stage : t.stage = s.stage := by simp)
    (bufferPort : t.bufferPort = s.bufferPort := by simp) (jobs : t.jobs = s.jobs := by simp)
    (lanes : t.lanes = s.lanes := by simp) : LawsKept s t :=
  ⟨ranges, claims, by rw [arbiter]; exact id, by rw [stage]; exact id, .of_eq bufferPort jobs fun l => by rw [lanes]⟩

end

end Sys2Proof.Machine
end
section
/-! PROOFS. Each shared operation keeps the laws. -/
namespace Sys2Proof.Machine

/-! ### Records, events and keys -/

theorem takeRecord_kept (s : State) (p : Port) : LawsKept s (takeRecord s p) := .of_same

theorem post_kept (s : State) (p : Port) (c : Completion) : LawsKept s (post s p c) := .of_same

theorem answerRecord_kept (s : State) (p : Port) (r : Record) (st : Status) (b : Body) :
    LawsKept s (answerRecord s p r st b) := .of_same

theorem setKeys_kept (s : State) (k : KeyStore) : LawsKept s (s.setKeys k) := .of_same

theorem setEvents_kept (s : State) (e : EventSet) : LawsKept s (s.setEvents e) := .of_same

/-! ### Accesses and lanes -/

theorem clearAccess_kept (s : State) (who : Requester) : LawsKept s (clearAccess s who) :=
  .of_work (.of_less rfl (fun h => by simp [clearAccess, h]) (fun _ _ j hj => ⟨j, hj, rfl⟩) fun _ h => h)
    rfl rfl rfl rfl

@[simp] theorem askAccess_faulted (s : State) (a : Access) :
    (askAccess s a).bufferPort.faulted = s.bufferPort.faulted := by
  simp only [askAccess]
  split <;> rfl

/-- A FAULTED port issues no access (R98). -/
theorem askAccess_kept (s : State) (a : Access) : LawsKept s (askAccess s a) := by
  obtain ⟨l, -, e⟩ := askAccess_frame s a
  by_cases hf : s.bufferPort.faulted = true
  · rw [askAccess, if_pos hf]
    exact .refl s
  · have normal : (askAccess s a).bufferPort.faulted = false := by simpa using hf
    rw [e] at normal ⊢
    exact .of_work (.of_normal (fun _ => normal) fun h => h.congr rfl) rfl rfl rfl rfl

/-- A lane's work begins or changes only where the port is NORMAL. -/
theorem setWork_kept {s : State} (normal : FaultedQuiet s → s.bufferPort.faulted = false) (l : LaneId) (w : Work) :
    LawsKept s (setWork s l w) := .of_work (.of_normal normal fun h => h.congr rfl) rfl rfl rfl rfl

/-- A change of a lane that begins no work. -/
theorem setLane_kept (s : State) (l : LaneId) (x : Lane) (hx : (s.lanes.get l).work = none → x.work = none) :
    LawsKept s (s.setLane l x) := by
  refine .of_work (.of_less rfl id (fun _ _ j hj => ⟨j, hj, rfl⟩) fun l' h => ?_) rfl rfl rfl rfl
  rw [State.setLane_lanes, get_put]
  split
  · next e => exact hx (e ▸ h)
  · exact h

theorem freeLane_kept (s : State) (l : LaneId) : LawsKept s (freeLane s l) := setLane_kept s l _ fun _ => rfl

theorem startWriting_kept {s : State} {l : LaneId} {w : Work} (hw : (s.lanes.get l).work = some w) (w' : Work)
    (result : List Byte) : LawsKept s (startWriting s l w' result) :=
  (setWork_kept (fun h => h.normal_of_work hw) l _).trans (askAccess_kept _ _)

/-! ### Jobs and their sectors -/

theorem emptySlot_kept (s : State) (side : Side) (k : Nat) : LawsKept s (setJob s side k none) := by
  refine .of_work (.of_less (by simp) (by simp) (fun side' k' j hj => ⟨j, ?_, rfl⟩) (by simp))
  rw [jobAt_setJob] at hj
  split at hj
  · cases hj
  · exact hj

/-- A job that stands is changed and keeps its kind. -/
theorem changeJob_kept {s : State} {side : Side} {k : Nat} {j j' : Job} (hj : jobAt s side k = some j)
    (hk : j'.kind = j.kind) : LawsKept s (setJob s side k (some j')) := by
  refine .of_work (.of_less (by simp) (by simp) (fun side' k' i hi => ?_) (by simp))
  rw [jobAt_setJob] at hi
  split at hi
  · next at' =>
    obtain ⟨rfl, rfl, -⟩ := at'
    cases hi
    exact ⟨j, hj, hk.symm⟩
  · exact ⟨i, hi, rfl⟩

theorem mapBothJobs_kept (s : State) {f : Job → Job} (hf : ∀ j, (f j).kind = j.kind) :
    LawsKept s (mapJobs (mapJobs s .i f) .m f) := by
  refine .of_work (.of_less (by simp) (by simp) (fun side k j hj => ?_) (by simp))
  rw [jobAt_mapJobs, Option.map_eq_some_iff] at hj
  obtain ⟨j', hj', rfl⟩ := hj
  exact ⟨j', hj', (hf j').symm⟩

theorem endSector_kept (s : State) (side : Side) (k lba : Nat) (v : Verdict) :
    LawsKept s (endSector s side k lba v) := by
  simp only [endSector]
  split
  · next j hj => exact changeJob_kept hj rfl
  · exact .refl s

theorem abandonSector_kept (s : State) (l : LaneId) : LawsKept s (abandonSector s l) := by
  simp only [abandonSector]
  split
  · exact ((freeLane_kept s l).trans (clearAccess_kept _ _)).trans (endSector_kept _ _ _ _ _)
  · exact .refl s

theorem abandonUnlessWriting_kept (s : State) (l : LaneId) : LawsKept s (abandonUnlessWriting s l) := by
  simp only [abandonUnlessWriting]
  split
  · split
    · exact .refl s
    · exact abandonSector_kept s l
  · exact .refl s

/-! ### Claims and sweeps -/

theorem filterClaims_kept (s : State) (f : Claim → Bool) : LawsKept s (s.setSweep (s.sweep.filterClaims f)) :=
  .of_ranges (.of_eq rfl fun _ => rfl) fun h => h.filterClaims f

theorem mapClaims_kept (s : State) (f : Claim → Claim) : LawsKept s (s.setSweep (s.sweep.mapClaims f)) :=
  .of_ranges (.of_eq rfl fun _ => rfl) fun h => h.mapClaims f

/-- A range's list replaced by one that is no longer. -/
theorem setClaims_kept (s : State) {x : RangeId} {cs : List Claim} (le : cs.length ≤ (s.sweep.claims.get x).length) :
    LawsKept s (s.setSweep (s.sweep.setClaims x cs)) :=
  .of_ranges (.of_eq rfl fun _ => rfl) fun h => h.setClaims_le le

/-- The end of a sweep drops the previous binding with the mark (R113). -/
theorem endSweep_kept (s : State) (x : RangeId) : LawsKept s (endSweep s x) := by
  refine .of_ranges (.of_row x { s.table.entry x with previous := none } rfl (fun r hr => get_put_ne _ _ _ _ hr)
    (fun distinct => ?_) (fun h => ?_) (fun h h0 hp => h.fit h0 hp) id) (fun h => h.of_le (fun _ => le_rfl) le_rfl)
    rfl rfl rfl rfl rfl
  · have sub : (epochsOf { s.table.entry x with previous := none }).Sublist (epochsOf (s.table.entry x)) := by
      simp [epochsOf, bindingsOf]
    exact ⟨distinct.sublist sub, fun p hp => .inl (sub.subset hp)⟩
  · have row := (sweepLaw_iff s).mp h x
    have mark : (endSweep s x).sweep.marks.get x = none := get_put_self _ _ _
    refine ⟨row.global, by rw [mark]; rfl, fun hp => (nomatch hp), fun hp => ?_⟩
    rw [h.absent hp]
    rfl

/-- The mark of a sweeping range moves on, its oldest claims are removed, and the sweep ends or goes on (R134). -/
theorem advanceMark_kept (s : State) (x : RangeId) : LawsKept s (advanceMark s x) := by
  simp only [advanceMark]
  split
  · exact .refl s
  · next mark hm =>
    obtain ⟨passed, split, -⟩ := advanceOver_passed (lowestAt s.table x) (s.sweep.claims.get x) mark
    have shorter : (advanceOver (lowestAt s.table x) (s.sweep.claims.get x) mark).1.length ≤
        (s.sweep.claims.get x).length := by
      conv_rhs => rw [split, List.length_append]
      exact Nat.le_add_left _ _
    have moved : LawsKept s (s.setSweep
        ((s.sweep.setClaims x (advanceOver (lowestAt s.table x) (s.sweep.claims.get x) mark).1).setMark x
          (some (advanceOver (lowestAt s.table x) (s.sweep.claims.get x) mark).2.1))) := by
      refine .of_ranges (.of_eq rfl fun r => ?_) (fun h => (h.setClaims_le shorter).of_le (fun _ => le_rfl) le_rfl)
      show ((put s.sweep.marks x _).get r).isSome = _
      rw [get_put]
      split
      · next hr => rw [hr, hm]; rfl
      · rfl
    split
    · exact moved.trans (endSweep_kept _ _)
    · exact moved

theorem settleClaim_kept (s : State) (k : Nat) (cause : Option EndCause) : LawsKept s (settleClaim s k cause) := by
  have changed : ∀ f, LawsKept s (changeClaimOfJob s k f) := fun f => mapClaims_kept s _
  simp only [settleClaim]
  split
  · exact .refl s
  · split
    · exact (changed _).trans (advanceMark_kept _ _)
    · split
      · exact .refl s
      · exact changed _
    · exact changed _
    · exact changed _
    · exact changed _

/-! ### The end of a job (R65, R78, R132) -/

theorem postJob_kept (s : State) (side : Side) (k : Nat) (j : Job) : LawsKept s (postJob s side k j) := by
  have posted := ((post_kept s (sidePort side) j.completion).trans (setKeys_kept _ (s.keys.unpin j.pinned))).trans
    (emptySlot_kept _ side k)
  rw [postJob_eq]
  split
  · exact posted.trans (.of_ranges (.of_eq rfl fun _ => by simp [SweepUnit.filterClaims])
      fun h => by simpa using ClaimsWithin.filterClaims h _)
  · exact posted.trans .of_same

theorem listOrPost_kept {s : State} {side : Side} {k : Nat} {j : Job} (hj : jobAt s side k = some j) :
    LawsKept s (listOrPost s side k j) := by
  simp only [listOrPost]
  split
  · split
    · exact postJob_kept s side k j
    · exact (changeJob_kept hj (by rfl)).trans (askAccess_kept _ _)
  · exact postJob_kept s side k j

theorem endJob_kept {s : State} {side : Side} {k : Nat} {j : Job} (hj : jobAt s side k = some j) :
    LawsKept s (endJob s side k j) := by
  simp only [endJob]
  split
  · refine ((changeJob_kept hj (by rfl)).trans (settleClaim_kept _ k j.cause)).trans (listOrPost_kept ?_)
    rw [jobAt_congr (settleClaim_frame _ _ _).2.2, jobAt_setJob, if_pos ⟨rfl, rfl, slot_lt_of_jobAt hj⟩]
  · exact listOrPost_kept hj
  · exact listOrPost_kept hj
  · exact listOrPost_kept hj

theorem closeJob_kept (s : State) (side : Side) (k : Nat) : LawsKept s (closeJob s side k) := by
  simp only [closeJob]
  split
  · next j hj =>
    split
    · exact endJob_kept hj
    · exact .refl s
  · exact .refl s

theorem reportSector_kept (s : State) (l : LaneId) (v : Verdict) : LawsKept s (reportSector s l v) := by
  simp only [reportSector]
  split
  · exact ((freeLane_kept s l).trans (endSector_kept _ _ _ _ _)).trans (closeJob_kept _ _ _)
  · exact .refl s

theorem endOnFault_kept (side : Side) (s : State) (k : Nat) : LawsKept s (endOnFault side s k) := by
  simp only [endOnFault]
  split
  · next j hj =>
    split
    · exact endJob_kept hj
    · exact postJob_kept s side k j
  · exact .refl s

/-! ### The Stage Controller (R143 to R153) -/

theorem wakePart_kept (s : State) (cause : TestCause) (tag : Option Tag) : LawsKept s (wakePart s cause tag) :=
  .of_stage id (fun l => by simp [wakePart]) rfl rfl rfl rfl rfl

theorem wakeByRecord_kept (s : State) : LawsKept s (wakeByRecord s) := by
  simp only [wakeByRecord]
  split
  · exact wakePart_kept s _ _
  · exact .refl s

theorem restartTimer_kept (s : State) : LawsKept s (restartTimer s) :=
  .of_stage (fun h => ⟨le_rfl, h.2⟩) (fun _ => rfl) rfl rfl rfl rfl rfl

theorem jobAccepted_kept (s : State) (side : Side) : LawsKept s (jobAccepted s side) := by
  cases side with
  | i => exact restartTimer_kept s
  | m =>
    simp only [jobAccepted]
    split
    · exact restartTimer_kept s
    · exact .refl s

/-- The locks that an entry to RETAIN sets are those of PRESENT ranges (R38). -/
theorem lockAtRetain_same (e : RangeRec) : SameRow e (lockAtRetain e) ∧ (lockAtRetain e).refusals = e.refusals ∧
    (e.present = false → lockAtRetain e = e) := by
  simp only [lockAtRetain]
  split
  · next h => exact ⟨⟨rfl, rfl, rfl, rfl, rfl⟩, rfl, fun hp => by simp [hp] at h⟩
  · exact ⟨.refl e, rfl, fun _ => rfl⟩

theorem retainEntry_kept (s : State) (cause : RetainCause) : LawsKept s (retainEntry s cause) := by
  have entry : ∀ r, (retainEntry s cause).table.entry r = lockAtRetain (s.table.entry r) := fun r => get_map _ _ _
  refine ⟨.of_same_rows rfl (fun r => ?_) (fun _ => rfl) (fun _ r hp => ?_) (fun r h => ?_), id, id, id,
    .of_eq rfl rfl fun _ => rfl⟩
  · rw [entry]; exact (lockAtRetain_same _).1
  · rw [entry]; exact (lockAtRetain_same _).2.2 hp
  · rw [entry, (lockAtRetain_same _).2.1]; exact h

theorem endDrain_kept (s : State) : LawsKept s (endDrain s) := by
  simp only [endDrain]
  split
  · refine LawsKept.trans ?_ (wakeByRecord_kept _)
    split
    · exact (retainEntry_kept s _).trans (post_kept _ _ _)
    · exact retainEntry_kept s _
  · exact .refl s

theorem expireTimer_kept (s : State) : LawsKept s (expireTimer s) := by
  have zero : LawsKept s (s.setStage { s.stage with remaining := 0 }) := .of_stage fun h => ⟨Nat.zero_le _, h.2⟩
  simp only [expireTimer]
  split
  · exact (zero.trans (retainEntry_kept _ _)).trans (wakeByRecord_kept _)
  · exact zero.trans (.of_stage id)

theorem timerSecond_kept (s : State) : LawsKept s (timerSecond s) := by
  simp only [timerSecond]
  split
  · exact expireTimer_kept s
  · exact .of_stage fun h => ⟨(Nat.sub_le _ _).trans h.1, h.2⟩

/-! ### What follows in the same step (log entry 3) -/

theorem finishKeyClear_kept (s : State) (g : CellId) : LawsKept s (finishKeyClear s g) := by
  simp only [finishKeyClear]
  split
  · split
    · split
      · exact (setKeys_kept s _).trans (post_kept _ _ _)
      · exact setKeys_kept s _
    · exact .refl s
  · exact .refl s

theorem completeReset_kept (s : State) (r : ResetRun) : LawsKept s (completeReset s r) :=
  LawsKept.trans (t := { s with ports := { s.ports with reset := none } }) .of_same (post_kept _ _ _)

/-- The Buffer Port is NORMAL and the arbiter's count 0 (R163). -/
theorem resetPortAndArbiter_kept (s : State) : LawsKept s (resetPortAndArbiter s) :=
  ⟨.of_eq rfl fun _ => rfl, id, fun _ => ⟨Nat.zero_le _, fun _ => rfl⟩, id,
    .of_normal (fun _ => rfl) fun h => h.congr rfl⟩

/-- The ranges, the marks and the claims as at power-on meet their laws, whatever stood before. -/
theorem RangesKept.of_reset {s t : State} (ranges : t.table.ranges = rangesReset)
    (marks : t.sweep.marks = Vector.replicate 16 none) : RangesKept s t := by
  have entry : ∀ r, t.table.entry r = rangesReset.get r := fun r => by rw [RangeTable.entry, ranges]
  refine ⟨fun _ => (epochsLawful_iff _).mpr ⟨fun r => ?_, fun r q _ p hp => ?_⟩,
    fun _ => (sweepLaw_iff t).mpr fun r => ?_, fun _ => ⟨fun r h0 hp => ?_, fun r q h0 _ _ hp => ?_⟩, fun _ r => ?_⟩
  · rw [entry, epochsOf, (get_rangesReset_fields r).1]
    simp
  · rw [entry, epochsOf, (get_rangesReset_fields r).1] at hp
    cases hp
  · have mark : t.sweep.marks.get r = none := by simp [marks, Vector.get]
    rw [entry, mark, get_rangesReset]
    split
    · next h => exact ⟨fun _ => rfl, rfl, fun h => (nomatch h), fun h => (nomatch h)⟩
    · next h => exact ⟨fun h' => absurd h' h, rfl, fun h => (nomatch h), fun _ => rfl⟩
  · rw [entry] at hp
    exact absurd ((get_rangesReset_fields r).2.2 hp) h0
  · rw [entry] at hp
    exact absurd ((get_rangesReset_fields r).2.2 hp) h0
  · rw [entry, (get_rangesReset_fields r).2.1]
    exact Nat.zero_le _

theorem ClaimsWithin.of_reset {w : SweepUnit} (claims : w.claims = Vector.replicate 16 []) (cancelled : w.cancelled = []) :
    ClaimsWithin w := by
  have none : ∀ r, w.claims.get r = [] := fun r => by simp [claims, Vector.get]
  refine ⟨fun r => by simp [none], ?_⟩
  rw [deviceClaims_eq, cancelled]
  simp [none]

theorem zeroizeClear_kept (s : State) : LawsKept s (zeroizeClear s) :=
  ⟨.of_reset rfl rfl, fun _ => .of_reset rfl rfl, id, id, .of_eq rfl rfl fun _ => rfl⟩

theorem endEngineReset_kept (s : State) : LawsKept s (endEngineReset s) := by
  simp only [endEngineReset]
  split
  · split
    · exact (resetPortAndArbiter_kept s).trans (completeReset_kept _ _)
    · exact .refl s
  · exact .refl s

theorem endZeroize_kept (s : State) : LawsKept s (endZeroize s) := by
  simp only [endZeroize]
  split
  · split
    · exact ((zeroizeClear_kept s).trans (resetPortAndArbiter_kept _)).trans (completeReset_kept _ _)
    · exact .refl s
  · exact .refl s

theorem finishKeyClears_kept (s : State) : LawsKept s (finishKeyClears s) := .foldl finishKeyClear_kept _ s

theorem settle_kept (s : State) : LawsKept s (settle s) :=
  (((finishKeyClears_kept s).trans (endDrain_kept _)).trans (endEngineReset_kept _)).trans (endZeroize_kept _)

end Sys2Proof.Machine
end
section
/-! PROOFS. The requests of the Range Table, the format and admission requests and the resets keep the laws (O56 to O59):
these are the commands that change rows of the Range Table or put it back to its power-on values. -/

namespace Sys2Proof.Machine

/-! ### Records taken and decided -/

/-- A change followed by the answer of the record. -/
theorem LawsKept.answered {s u : State} (h : LawsKept s u) (p : Port) (r : Record) (st : Status) (b : Body) :
    LawsKept s (answerRecord u p r st b) := h.trans (answerRecord_kept u p r st b)

/-- The block's step on the record taken decides for the command. -/
theorem onRecord_kept {s t : State} {p : Port} {k : Kind} {f : Record → State → State}
    (h : onRecord p k s f = .next t) (hf : ∀ r u, LawsKept u (f r u)) : LawsKept s t := by
  obtain rfl | ⟨r, -, rfl⟩ := onRecord_cases h
  · exact .refl _
  · exact (takeRecord_kept s p).trans (hf r _)

/-- A record decided by checks may use that they all passed. -/
theorem decideRecord_kept {p : Port} {r : Record} {checks : List (Bool × Status)} {s accept : State}
    (h : (∀ c ∈ checks, c.1 = false) → LawsKept s accept) : LawsKept s (decideRecord p r checks s accept) := by
  simp only [decideRecord]
  split
  · exact answerRecord_kept ..
  · next passed => exact h ((firstRefusal_eq_none _).mp passed)

theorem withRange_kept {p : Port} {r : Record} {assigned : List Nat} {s : State} {f : RangeId → State}
    (h : ∀ x, LawsKept s (f x)) : LawsKept s (withRange p r assigned s f) := by
  simp only [withRange]
  split
  · split
    · exact h _
    · exact answerRecord_kept ..
  · exact answerRecord_kept ..

theorem withGroup_kept {r : Record} {s : State} {f : CellId → State} (h : ∀ g, LawsKept s (f g)) :
    LawsKept s (withGroup r s f) := by
  simp only [withGroup]
  split
  · exact h _
  · exact answerRecord_kept ..

theorem withCell_kept {r : Record} {assigned : List Nat} {s : State} {f : CellId → State} (h : ∀ c, LawsKept s (f c)) :
    LawsKept s (withCell r assigned s f) := by
  simp only [withCell]
  split
  · split
    · exact h _
    · exact answerRecord_kept ..
  · exact answerRecord_kept ..

/-! ### The Range Table's requests (R33 to R43, R109 to R119) -/

/-- The three locks are all that a locks byte changes (R178). -/
theorem withLocks_same (e : RangeRec) (r : Record) : SameRow e (withLocks e r) := ⟨rfl, rfl, rfl, rfl, rfl⟩

/-- Bounds that no PRESENT bounded range shares an LBA with (R33). -/
theorem boundsTaken_eq_false {t : RangeTable} {first last : Nat} (h : boundsTaken t first last = false) (q : RangeId)
    (h0 : q ≠ 0) (hp : (t.entry q).present = true) : last < (t.entry q).first ∨ (t.entry q).last < first := by
  have := List.any_eq_false.mp h q (mem_boundedRanges.mpr h0)
  simp only [hp, Bool.true_and, Bool.and_eq_true, decide_eq_true_eq, not_and] at this
  omega

theorem execRangeDefine_kept {s t : State} (h : execRangeDefine s = .next t) : LawsKept s t := by
  refine onRecord_kept h fun r s => withRange_kept fun x => decideRecord_kept fun passed => LawsKept.answered ?_ ..
  simp only [List.forall_mem_cons, Bool.or_eq_false_iff, beq_eq_false_iff_ne, decide_eq_false_iff_not] at passed
  obtain ⟨-, ⟨h0, ordered⟩, -, vacant, below, apart, -⟩ := passed
  refine .of_ranges (.of_row x _ rfl (fun _ _ => rfl) (fun _ => ⟨List.nodup_nil, fun p hp => nomatch hp⟩) (fun hs => ?_)
    (fun _ _ _ => ⟨not_lt.mp ordered, not_le.mp below, fun q q0 _ hq => boundsTaken_eq_false apart q q0 hq⟩)
    fun _ => Nat.zero_le _) id
  have mark : s.sweep.marks.get x = none := hs.mark_none (by rw [hs.absent vacant]; rfl)
  exact ⟨fun _ => rfl, by rw [State.setRange_sweep, mark]; rfl, fun hp => (nomatch hp), fun hp => (nomatch hp)⟩

theorem execRangeDelete_kept {s t : State} (h : execRangeDelete s = .next t) : LawsKept s t := by
  refine onRecord_kept h fun r s => withRange_kept fun x => decideRecord_kept fun passed => LawsKept.answered ?_ ..
  simp only [List.forall_mem_cons, Bool.or_eq_false_iff, beq_eq_false_iff_ne] at passed
  obtain ⟨⟨h0, -⟩, quiet, -⟩ := passed
  have settled : (s.table.entry x).previous = none := by
    by_contra hp
    exact Bool.false_ne_true (quiet.symm.trans ((anySweeping_iff _).mpr fun none => hp (none x)))
  refine (setKeys_kept s _).trans (.of_ranges (.of_row x RangeRec.absent rfl (fun _ _ => rfl)
    (fun _ => ⟨List.nodup_nil, fun p hp => nomatch hp⟩) (fun hs => ?_) (fun _ _ hp => nomatch hp)
    fun _ => Nat.zero_le _) id)
  have mark : s.sweep.marks.get x = none := (show SweepLaw s from hs).mark_none settled
  exact ⟨fun hx => absurd hx h0, by rw [State.setRange_sweep, State.setKeys_sweep, mark]; rfl, fun hp => (nomatch hp),
    fun _ => rfl⟩

theorem execRangeLocks_kept {s t : State} (h : execRangeLocks s = .next t) : LawsKept s t := by
  refine onRecord_kept h fun r s => withRange_kept fun x => decideRecord_kept fun passed => LawsKept.answered ?_ ..
  simp only [List.forall_mem_cons, Bool.not_eq_false'] at passed
  obtain ⟨-, present, -⟩ := passed
  exact .of_ranges (.of_same_row x _ rfl rfl (withLocks_same _ _) (fun _ hp => by rw [present] at hp; cases hp) id) id

theorem execCountClear_kept {s t : State} (h : execCountClear s = .next t) : LawsKept s t := by
  refine onRecord_kept h fun r s => withRange_kept fun x => decideRecord_kept fun passed => LawsKept.answered ?_ ..
  simp only [List.forall_mem_cons, Bool.not_eq_false'] at passed
  exact .of_ranges (.of_same_row x _ rfl rfl ⟨rfl, rfl, rfl, rfl, rfl⟩ (fun _ hp => by rw [passed.1] at hp; cases hp)
    fun _ => Nat.zero_le _) id

/-- A refusal is counted against a locked range, so a PRESENT one (R31). -/
theorem countRefusal_kept (s : State) (x : RangeId)
    (locked : (s.table.entry x).readLock = true ∨ (s.table.entry x).writeLock = true) : LawsKept s (countRefusal s x) := by
  have counted : LawsKept s (s.setRange x
      { s.table.entry x with refusals := min ((s.table.entry x).refusals + 1) Config.refusalLimit }) := by
    refine .of_ranges (.of_same_row x _ rfl rfl ⟨rfl, rfl, rfl, rfl, rfl⟩ (fun hs hp => ?_)
      fun _ => Nat.min_le_right _ _) id
    rw [hs.absent hp] at locked
    rcases locked with hl | hl <;> cases hl
  simp only [countRefusal]
  split
  · exact counted.trans (setEvents_kept _ _)
  · exact counted

/-- A binding's epoch that passes its check is in no row (R39, R41). -/
theorem bindingChecks_epoch {s : State} {g : CellId} {p : Epoch} {checks : List (Bool × Status)}
    (h : ∀ c ∈ checks ++ bindingChecks s g p, c.1 = false) : epochClashes s.table p = false :=
  h (epochClashes s.table p, .epochClash) (by simp [bindingChecks])

theorem execRangeBind_kept {s t : State} (h : execRangeBind s = .next t) : LawsKept s t := by
  refine onRecord_kept h fun r s => withRange_kept fun x => withGroup_kept fun g => decideRecord_kept fun passed =>
    LawsKept.answered ?_ ..
  have fresh := bindingChecks_epoch passed
  simp only [List.cons_append, List.forall_mem_cons, Bool.not_eq_false', Option.isSome_eq_false_iff,
    Option.isNone_iff_eq_none] at passed
  obtain ⟨present, unkeyed, -⟩ := passed
  have old : epochsOf (s.table.entry x) = (s.table.entry x).previous.toList.map Binding.epoch := by
    simp [epochsOf, bindingsOf, unkeyed]
  have new : epochsOf { s.table.entry x with current := some { group := g, epoch := epochOf r } } =
      epochOf r :: epochsOf (s.table.entry x) := by rw [old]; rfl
  refine (setKeys_kept s _).trans (.of_ranges (.of_row x _ rfl (fun _ _ => rfl) (fun distinct => ?_) (fun hs => ?_)
    (fun hb h0 hp => BoundsLaw.fit hb h0 hp) id) id rfl rfl rfl rfl rfl)
  · rw [new]
    refine ⟨List.nodup_cons.mpr ⟨(epochClashes_eq_false.mp fresh).2 x, distinct⟩, fun p hp => ?_⟩
    rcases List.mem_cons.mp hp with rfl | hp
    · exact .inr fresh
    · exact .inl hp
  · have row := (sweepLaw_iff s).mp hs x
    exact ⟨fun _ => present, row.marked, fun _ => rfl, fun hp => by rw [present] at hp; cases hp⟩

/-- The sweep begun: the old binding beside the new one, and the mark with them (R110). -/
theorem startSweep_kept {s : State} {x : RangeId} {b : Binding} (present : (s.table.entry x).present = true)
    (keyed : (s.table.entry x).current.isSome = true) (settled : (s.table.entry x).previous = none)
    (fresh : epochClashes s.table b.epoch = false) : LawsKept s (startSweep s x b) := by
  have new : epochsOf { s.table.entry x with current := some b, previous := (s.table.entry x).current } =
      b.epoch :: epochsOf (s.table.entry x) := by simp [epochsOf, bindingsOf, settled]
  refine .of_ranges (.of_row x _ rfl (fun r hr => get_put_ne _ _ _ _ hr) (fun distinct => ?_) (fun hs => ?_)
    (fun h h0 hp => BoundsLaw.fit h h0 hp) id) (fun h => h.of_le (fun _ => le_rfl) le_rfl) rfl rfl rfl rfl rfl
  · rw [new]
    refine ⟨List.nodup_cons.mpr ⟨(epochClashes_eq_false.mp fresh).2 x, distinct⟩, fun p hp => ?_⟩
    rcases List.mem_cons.mp hp with rfl | hp
    · exact .inr fresh
    · exact .inl hp
  · have mark : (startSweep s x b).sweep.marks.get x = some (if x = 0 then 0 else (s.table.entry x).first) :=
      get_put_self _ _ _
    exact ⟨fun _ => present, by rw [mark]; exact keyed, fun _ => rfl, fun hp => by rw [present] at hp; cases hp⟩

theorem execRangeRekey_kept {s t : State} (h : execRangeRekey s = .next t) : LawsKept s t := by
  refine onRecord_kept h fun r s => withRange_kept fun x => withGroup_kept fun g => decideRecord_kept fun passed =>
    LawsKept.answered ?_ ..
  have fresh := bindingChecks_epoch passed
  simp only [List.cons_append, List.forall_mem_cons, Bool.not_eq_false', Option.isNone_eq_false_iff, isSweeping,
    Option.isSome_eq_false_iff, Option.isNone_iff_eq_none] at passed
  obtain ⟨present, keyed, settled, -⟩ := passed
  have started := startSweep_kept (b := { group := g, epoch := epochOf r }) present keyed settled fresh
  simp only [rekeyRange]
  split
  · exact started
  · exact started.trans (endSweep_kept _ _)

/-- The bindings replaced by one new one, and the mark and the claims with them gone (R117, R118). -/
theorem cancelSweep_kept {s : State} {x : RangeId} {b : Binding} (present : (s.table.entry x).present = true)
    (fresh : epochClashes s.table b.epoch = false) : LawsKept s (cancelSweep (replaceBindings s x b) x) := by
  refine .of_ranges (.of_row x { s.table.entry x with current := some b, previous := none } rfl
    (fun r hr => get_put_ne _ _ _ _ hr) (fun _ => ⟨List.nodup_singleton _, fun p hp => ?_⟩) (fun _ => ?_)
    (fun h h0 hp => BoundsLaw.fit h h0 hp) id) (fun h => ?_) rfl rfl rfl rfl rfl
  · obtain rfl := List.mem_singleton.mp hp
    exact .inr fresh
  · have mark : (cancelSweep (replaceBindings s x b) x).sweep.marks.get x = none := get_put_self _ _ _
    exact ⟨fun _ => present, by rw [mark]; rfl, fun hp => (nomatch hp), fun hp => by rw [present] at hp; cases hp⟩
  · refine ⟨fun r => (h.setClaims_le (x := x) (cs := []) (Nat.zero_le _)).1 r, ?_⟩
    have emptied := deviceClaims_setClaims s.sweep x []
    have going : ((s.sweep.claims.get x).filter (fun c => c.state == .reciphering)).length ≤
        (s.sweep.claims.get x).length := List.length_filter_le _ _
    have moved : deviceClaims (cancelSweep (replaceBindings s x b) x).sweep = deviceClaims (s.sweep.setClaims x []) +
        ((s.sweep.claims.get x).filter (fun c => c.state == .reciphering)).length := by
      simp [deviceClaims, cancelSweep, replaceBindings, SweepUnit.setMark, SweepUnit.setClaims, Nat.add_assoc]
    have limit := h.2
    simp only [List.length_nil] at emptied
    omega

theorem cancelJob_kept (s : State) (k : Nat) : LawsKept s (cancelJob s k) := by
  simp only [cancelJob]
  split
  · next j hj => exact (changeJob_kept hj (by rfl)).trans (closeJob_kept _ _ _)
  · exact .refl s

theorem execRangeErase_kept {s t : State} (h : execRangeErase s = .next t) : LawsKept s t := by
  refine onRecord_kept h fun r s => withRange_kept fun x => withGroup_kept fun g => decideRecord_kept fun passed =>
    LawsKept.answered ?_ ..
  have fresh := bindingChecks_epoch passed
  simp only [List.cons_append, List.forall_mem_cons, Bool.not_eq_false'] at passed
  have erased := cancelSweep_kept (b := { group := g, epoch := epochOf r }) passed.1 fresh
  refine (erased.trans (LawsKept.foldl (fun u k => ?_) _ _)).trans (settle_kept _)
  split
  · exact cancelJob_kept u k
  · exact .refl u

theorem execRangeQuery_kept {s t : State} (h : execRangeQuery s = .next t) : LawsKept s t :=
  onRecord_kept h fun _ _ => withRange_kept fun _ => answerRecord_kept ..

theorem execSweepQuery_kept {s t : State} {p : QueryPort} (h : execSweepQuery p s = .next t) : LawsKept s t :=
  onRecord_kept h fun _ _ => withRange_kept fun _ => decideRecord_kept fun _ => answerRecord_kept ..

/-! ### Format, admission and resets (R159 to R168) -/

/-- A capacity above every PRESENT bounded range's last LBA (R159). -/
theorem rangePastCapacity_eq_false {t : RangeTable} {n : Nat} (h : rangePastCapacity t n = false) (q : RangeId)
    (h0 : q ≠ 0) (hp : (t.entry q).present = true) : (t.entry q).last < n := by
  have := List.any_eq_false.mp h q (mem_boundedRanges.mpr h0)
  simpa [hp] using this

theorem execFormatSet_kept {s t : State} (h : execFormatSet s = .next t) : LawsKept s t := by
  refine onRecord_kept h fun r s => ?_
  dsimp only
  split
  · exact answerRecord_kept ..
  · next capacity u _ =>
    refine decideRecord_kept fun passed => LawsKept.answered ?_ ..
    have fits : rangePastCapacity s.table capacity = false :=
      passed (rangePastCapacity s.table capacity, .rangeOverlap) (by simp)
    exact .of_ranges ⟨fun hs => hs.congr fun _ => rfl, id, fun hb => ⟨fun q h0 hp =>
      ⟨(hb.1 q h0 hp).1, rangePastCapacity_eq_false fits q h0 hp⟩, hb.2⟩, id⟩ id

/-- The admission state is in no law. -/
theorem setAdmission_kept (s : State) (a : Admission) : LawsKept s { s with table := { s.table with admission := a } } :=
  .of_ranges ⟨fun hs => hs.congr fun _ => rfl, id, id, id⟩ id

theorem execAdmitRequest_kept {s t : State} (h : execAdmitRequest s = .next t) : LawsKept s t :=
  onRecord_kept h fun _ _ => decideRecord_kept fun _ => (setAdmission_kept _ _).answered ..

theorem execSealRequest_kept {s t : State} (h : execSealRequest s = .next t) : LawsKept s t :=
  onRecord_kept h fun _ _ => decideRecord_kept fun _ => (setAdmission_kept _ _).answered ..

theorem takenState_kept (kind : ResetKind) (tag : Tag) (s : State) : LawsKept s (takenState kind tag s) := by
  have begun : LawsKept s { s with ports := { s.ports with reset := some (newReset s kind tag) } } := .of_same
  have stopped := begun.trans (mapBothJobs_kept _ (f := Job.stop kind.cause) fun _ => rfl)
  exact (stopped.trans (.foldl abandonUnlessWriting_kept _ _)).trans (filterClaims_kept _ _)

theorem takeReset_kept (kind : ResetKind) (r : Record) (s : State) : LawsKept s (takeReset kind r s) := by
  rw [takeReset_eq]
  exact (((takenState_kept kind (recordTag r) s).trans (.foldl (fun u k => closeJob_kept u .i k) _ _)).trans
    (.foldl (fun u k => closeJob_kept u .m k) _ _)).trans (settle_kept _)

theorem execEngineReset_kept {s t : State} (h : execEngineReset s = .next t) : LawsKept s t :=
  onRecord_kept h fun _ _ => decideRecord_kept fun _ => takeReset_kept ..

theorem execZeroize_kept {s t : State} (h : execZeroize s = .next t) : LawsKept s t :=
  onRecord_kept h fun _ _ => decideRecord_kept fun _ => takeReset_kept ..

/-- Every law holds of the power-on values, whatever stood before. -/
theorem execPowerOnReset_kept {s t : State} (h : execPowerOnReset s = .next t) : LawsKept s t := by
  cases h
  refine ⟨.of_reset rfl rfl, fun _ => .of_reset rfl rfl, fun _ => ⟨Nat.zero_le _, fun h => nomatch h⟩,
    fun _ => ⟨le_rfl, Nat.zero_le _⟩, .of_normal (fun _ => rfl) fun _ => (tablesByKind_iff _).mpr fun side k j hj => ?_⟩
  have empty : ∀ n, ((Vector.replicate n (none : Option Job))[k]?).join = none := fun n => by
    rw [Vector.getElem?_replicate]
    split <;> rfl
  cases side
  · exact nomatch (empty 32).symm.trans hj
  · exact nomatch (empty 16).symm.trans hj

end Sys2Proof.Machine
end
section
/-! PROOFS. The other commands keep the laws, and so does every step of the part (O56, O57, O58, O59). -/

namespace Sys2Proof.Machine

/-! ### Data requests (R68 to R74, R130 to R138) -/

/-- A job accepted through a NORMAL port into the table of its kind. -/
theorem acceptJob_kept {s : State} {side : Side} {j : Job} (normal : s.bufferPort.faulted = false)
    (fits : KindFits side j.kind) : LawsKept s (acceptJob s side j) := by
  have placed : LawsKept s (setJob s side ((freeSlot s side).getD 0) (some j)) :=
    .of_work (.of_normal (fun _ => by simpa using normal) fun h => h.setJob fits)
  exact (placed.trans (setKeys_kept _ _)).trans (jobAccepted_kept _ _)

/-- A data request that passed its checks met a NORMAL port (check 8 of R68). -/
theorem earlyChecks_normal {s : State} {bad : Bool} {rs : List Region} {rest : List (Bool × Status)}
    (h : firstRefusal (earlyChecks s bad rs ++ rest) = none) : s.bufferPort.faulted = false :=
  (firstRefusal_eq_none _).mp h (s.bufferPort.faulted, .busFault) (by simp [earlyChecks])

theorem refuseIo_kept (s : State) (k : JobKind) (r : Record) (st : Status) : LawsKept s (refuseIo s k r st) := by
  simp only [refuseIo]
  split
  · next g hg =>
    have locked : directionLock k (s.table.entry g.range) = true :=
      List.find?_some (p := fun g : Segment => directionLock k (s.table.entry g.range)) hg
    refine (countRefusal_kept s g.range ?_).answered ..
    cases k with
    | read => exact .inl locked
    | write => exact .inr locked
    | recipher => cases locked
    | screen => cases locked
  · exact answerRecord_kept ..

theorem markOvertaken_kept (s : State) (r : Record) : LawsKept s (markOvertaken s r) := mapClaims_kept s _

theorem execRead_kept {s t : State} (h : execRead s = .next t) : LawsKept s t := by
  refine onRecord_kept h fun r s => ?_
  split
  · exact refuseIo_kept ..
  · next passed =>
    rw [ioChecks, List.append_assoc] at passed
    exact acceptJob_kept (earlyChecks_normal passed) (.inl rfl)

theorem execWrite_kept {s t : State} (h : execWrite s = .next t) : LawsKept s t := by
  refine onRecord_kept h fun r s => ?_
  split
  · exact refuseIo_kept ..
  · next passed =>
    rw [ioChecks, List.append_assoc] at passed
    refine LawsKept.trans ?_ (markOvertaken_kept _ r)
    exact acceptJob_kept (earlyChecks_normal passed) (.inr rfl)

theorem answerClaim_kept (s : State) (r : Record) (x : RangeId) (st : Status) : LawsKept s (answerClaim s r x st) :=
  answerRecord_kept ..

/-- A claim is appended where the range and the device have room for it (R125, R127). -/
theorem appendClaim_kept {s : State} {c : Claim} (device : deviceClaims s.sweep < 8)
    (list : (s.sweep.claims.get c.range).length < 2) : LawsKept s (appendClaim s c) := by
  refine .of_ranges (.of_eq rfl fun _ => rfl) (fun h => h.setClaims ?_ ?_) rfl rfl rfl rfl rfl
  · simpa using Nat.succ_le_of_lt list
  · simp only [List.length_append, List.length_singleton]
    omega

theorem execClaim_kept {s t : State} (h : execClaim s = .next t) : LawsKept s t := by
  refine onRecord_kept h fun r s => withRange_kept fun x => ?_
  split
  · exact answerRecord_kept ..
  · split
    · exact answerClaim_kept ..
    · next passed =>
      have limit := (firstRefusal_eq_none _).mp passed
      simp only [claimChecks, List.forall_mem_cons, Bool.or_eq_false_iff, decide_eq_false_iff_not, not_le, ge_iff_le]
        at limit
      obtain ⟨-, -, ⟨device, list⟩, -⟩ := limit
      exact (appendClaim_kept device list).trans (answerClaim_kept ..)

theorem execRelease_kept {s t : State} (h : execRelease s = .next t) : LawsKept s t := by
  refine onRecord_kept h fun r s => withRange_kept fun x => ?_
  split
  · exact answerClaim_kept ..
  · exact (setClaims_kept s (by simp)).trans (answerClaim_kept ..)

theorem execRecipher_kept {s t : State} (h : execRecipher s = .next t) : LawsKept s t := by
  refine onRecord_kept h fun r s => ?_
  split
  · next passed _ =>
    exact (setClaims_kept s (by simp)).trans (acceptJob_kept (earlyChecks_normal passed) (.inl rfl))
  · exact answerRecord_kept ..
  · exact answerRecord_kept ..

theorem execScreen_kept {s t : State} (h : execScreen s = .next t) : LawsKept s t := by
  refine onRecord_kept h fun r s => ?_
  split
  · exact answerRecord_kept ..
  · next passed =>
    rw [screenChecks, List.append_assoc] at passed
    exact acceptJob_kept (earlyChecks_normal passed) (.inr rfl)

/-! ### The Key Store's requests (R51 to R60) -/

theorem execKeyOpen_kept {s t : State} (h : execKeyOpen s = .next t) : LawsKept s t := by
  refine onRecord_kept h fun r s => withCell_kept fun base => ?_
  split
  · exact answerRecord_kept ..
  · exact decideRecord_kept fun _ => (setKeys_kept _ _).answered ..

theorem execKeyPart_kept {s t : State} (h : execKeyPart s = .next t) : LawsKept s t := by
  refine onRecord_kept h fun r s => withCell_kept fun c => ?_
  split
  · exact answerRecord_kept ..
  · exact decideRecord_kept fun _ => (setKeys_kept _ _).answered ..

theorem clearGroup_kept (s : State) (r : Record) (c : CellId) (g : GroupRec) : LawsKept s (clearGroup s r c g) := by
  simp only [clearGroup]
  split
  · exact (setKeys_kept _ _).answered ..
  · split
    · exact (setKeys_kept _ _).answered ..
    · exact setKeys_kept _ _
  · exact answerRecord_kept ..

theorem execKeyClear_kept {s t : State} (h : execKeyClear s = .next t) : LawsKept s t := by
  refine onRecord_kept h fun r s => withCell_kept fun c => ?_
  split
  · exact answerRecord_kept ..
  · exact decideRecord_kept fun _ => clearGroup_kept ..

theorem execKeyQuery_kept {s t : State} (h : execKeyQuery s = .next t) : LawsKept s t :=
  onRecord_kept h fun _ _ => withCell_kept fun _ => answerRecord_kept ..

/-! ### The arbiter, the lanes and the Buffer Port (R12 to R21, R91 to R103) -/

/-- A change of the arbiter alone. -/
theorem setArbiter_kept (s : State) {a : Arbiter} (within : ArbiterWithin s.arbiter → ArbiterWithin a) :
    LawsKept s { s with arbiter := a } :=
  ⟨.of_eq rfl fun _ => rfl, id, within, id, .of_eq rfl rfl fun _ => rfl⟩

theorem execClassSet_kept {s t : State} (h : execClassSet s = .next t) : LawsKept s t := by
  refine onRecord_kept h fun r s => ?_
  dsimp only
  split
  · exact (setArbiter_kept s fun _ => ⟨Nat.zero_le _, fun _ => rfl⟩).answered ..
  · exact answerRecord_kept ..

/-- The count after a grant: at most 8, and 0 while the classes are equal (R93, R94). -/
theorem chooseGrant_within {a : Arbiter} {waits : Side → Bool} {side : Side} {n : Nat}
    (h : chooseGrant a waits = some (side, n)) : n ≤ 8 ∧ (a.iClass = a.mClass → n = 0) := by
  simp only [chooseGrant] at h
  split at h
  · next high hh =>
    have differ : a.iClass ≠ a.mClass := by
      intro e
      rw [highSide, e] at hh
      split at hh <;> simp_all
    refine ⟨?_, fun e => absurd e differ⟩
    split at h
    · split at h
      · next below => cases h; exact below
      · cases h; exact Nat.zero_le _
    · cases h; exact Nat.zero_le _
    · cases h; exact Nat.zero_le _
    · cases h
  · have zero : n = 0 := by split at h <;> cases h <;> rfl
    exact ⟨zero ▸ Nat.zero_le _, fun _ => zero⟩

/-- The job whose sector is offered stands in its slot (R76). -/
theorem offerOf_job {s : State} {side : Side} {k : Nat} {j : Job} (h : offerOf s side = some (k, j)) :
    jobAt s side k = some j := by
  have offers := (offerOf_lowest h).1
  simp only [offering] at offers
  split at offers
  · next j' hj =>
    split at offers
    · cases offers; exact hj
    · cases offers
  · cases offers

theorem grantSector_kept {s : State} {side : Side} {k : Nat} {j : Job} (hj : jobAt s side k = some j) (l : LaneId)
    (lba : Nat) : LawsKept s (grantSector s l side k j lba) := by
  have granted : LawsKept s (setJob s side k (some (j.granted lba))) := changeJob_kept hj rfl
  have normal : FaultedQuiet (setJob s side k (some (j.granted lba))) →
      (setJob s side k (some (j.granted lba))).bufferPort.faulted = false :=
    FaultedQuiet.normal_of_job (j := j.granted lba)
      (by rw [jobAt_setJob, if_pos ⟨rfl, rfl, slot_lt_of_jobAt hj⟩])
  exact (granted.trans (setWork_kept normal l _)).trans (askAccess_kept _ _)

theorem execGrant_kept {s t : State} (h : execGrant s = .next t) : LawsKept s t := by
  simp only [execGrant] at h
  split at h
  · next l side n _ chosen =>
    split at h
    · next k j offered =>
      split at h
      · next lba _ =>
        cases h
        obtain ⟨count, equal⟩ := chooseGrant_within chosen
        exact (grantSector_kept (offerOf_job offered) l lba).trans (setArbiter_kept _ fun _ => ⟨count, equal⟩)
      · exact .of_next h (.refl _)
    · exact .of_next h (.refl _)
  · exact .of_next h (.refl _)

/-- A read meets memory as the other masters have placed it, and is no longer outstanding (log entry 5). -/
theorem readDelivered_kept (s : State) (a : Access) (placed : List Byte) (who : Requester) :
    LawsKept s (clearAccess (placeBytes s a placed) who) :=
  LawsKept.trans (t := placeBytes s a placed) (.of_same rfl rfl rfl rfl rfl rfl rfl) (clearAccess_kept _ _)

/-- A write stands in memory and is no longer outstanding (R15, R80). -/
theorem writeLanded_kept (s : State) (a : Access) (who : Requester) : LawsKept s (clearAccess (landWrite s a) who) :=
  LawsKept.trans (t := landWrite s a) (.of_same rfl rfl rfl rfl rfl rfl rfl) (clearAccess_kept _ _)

theorem afterTrailer_kept {s : State} {l : LaneId} {w : Work} (hw : (s.lanes.get l).work = some w) (w' : Work)
    (c : Classified) : LawsKept s (afterTrailer s l w' c) := by
  cases c with
  | choose g => exact (setWork_kept (fun h => h.normal_of_work hw) l _).trans (askAccess_kept _ _)
  | zeros => exact startWriting_kept hw _ _
  | ends v => exact (reportSector_kept s l v).trans (settle_kept _)

theorem execTrailerReadDone_kept {s t : State} {l : LaneId} {placed : List Byte}
    (h : execTrailerReadDone l placed s = .next t) : LawsKept s t := by
  simp only [execTrailerReadDone] at h
  split at h
  · next w a hw _ =>
    split at h
    · split at h
      · cases h
        exact (readDelivered_kept s a placed _).trans
          (afterTrailer_kept (s := clearAccess (placeBytes s a placed) (.lane l)) hw _ _)
      · exact .of_next h (.refl _)
    · exact .of_next h (.refl _)
  · exact .of_next h (.refl _)

theorem execDataUnitReadDone_kept {s t : State} {l : LaneId} {placed : List Byte}
    (h : execDataUnitReadDone l placed s = .next t) : LawsKept s t := by
  simp only [execDataUnitReadDone] at h
  split at h
  · next w a hw _ =>
    split at h
    · cases h
      exact (readDelivered_kept s a placed _).trans (setWork_kept
        (fun h => FaultedQuiet.normal_of_work (s := clearAccess (placeBytes s a placed) (.lane l)) hw h) l _)
    · exact .of_next h (.refl _)
  · exact .of_next h (.refl _)

theorem execTransformEnd_kept {s t : State} {l : LaneId} (h : execTransformEnd l s = .next t) : LawsKept s t := by
  simp only [execTransformEnd] at h
  split at h
  · next w hw =>
    split at h
    · split at h
      · exact .of_next h (startWriting_kept hw _ _)
      · exact .of_next h ((reportSector_kept _ _ _).trans (settle_kept _))
      · exact .of_next h (.refl _)
    · exact .of_next h (.refl _)
  · exact .of_next h (.refl _)

theorem execResultWriteDone_kept {s t : State} {l : LaneId} (h : execResultWriteDone l s = .next t) : LawsKept s t := by
  simp only [execResultWriteDone] at h
  split at h
  · split at h
    · split at h
      · exact .of_next h (((writeLanded_kept s _ _).trans (reportSector_kept _ _ _)).trans (settle_kept _))
      · exact .of_next h (.refl _)
    · exact .of_next h (.refl _)
  · exact .of_next h (.refl _)

theorem execVerdictListWriteDone_kept {s t : State} {side : Side} {slot : Nat}
    (h : execVerdictListWriteDone side slot s = .next t) : LawsKept s t := by
  simp only [execVerdictListWriteDone] at h
  split at h
  · split at h
    · exact .of_next h (((writeLanded_kept s _ _).trans (postJob_kept _ _ _ _)).trans (settle_kept _))
    · exact .of_next h (.refl _)
  · exact .of_next h (.refl _)

/-- A bus fault before any lane or job has met it: the accesses dropped and the port FAULTED (R98). -/
def portFaulted (s : State) (a : Access) : State :=
  (dropAll s).setBufferPort { (dropAll s).bufferPort with faulted := true, faultAddr := a.addr }

/-- Until then a bus fault has changed buffer memory and the Buffer Port alone. -/
theorem portFaulted_frame (s : State) (a : Access) :
    (portFaulted s a).table = s.table ∧ (portFaulted s a).sweep = s.sweep ∧ (portFaulted s a).arbiter = s.arbiter ∧
      (portFaulted s a).stage = s.stage ∧ (portFaulted s a).jobs = s.jobs := by
  have cut : ∀ (L : List Access) (u : State), ∃ m d, L.foldl cutWrite u = { u with buffer := m, draws := d } := by
    intro L
    induction L with
    | nil => exact fun u => ⟨u.buffer, u.draws, rfl⟩
    | cons x L ih =>
      intro u
      obtain ⟨m, d, e⟩ := ih (cutWrite u x)
      refine ⟨m, d, e.trans ?_⟩
      simp only [cutWrite]
      split <;> rfl
  obtain ⟨m, d, e⟩ := cut s.bufferPort.outstanding s
  simp only [portFaulted, dropAll, e]
  exact ⟨rfl, rfl, rfl, rfl, rfl⟩

/-- A bus fault: what its ends of sectors and jobs keep of the other laws holds from the state in which the port is
FAULTED, and that no work is left is the fault's own effect (R98, R99). -/
theorem busFault_kept (s : State) (a : Access) : LawsKept s (busFault s a) := by
  obtain ⟨p, settled, empty, free, port, -⟩ := busFault_ended s a
  have ended : LawsKept (portFaulted s a) (busFault s a) := by
    have abandoned : LawsKept (portFaulted s a) (abandonAll (portFaulted s a)) := .foldl abandonSector_kept _ _
    have stopped := abandoned.trans (mapBothJobs_kept _ (f := Job.busFault) fun _ => rfl)
    have posted := (stopped.trans (.foldl (endOnFault_kept .i) (List.range Side.i.slots) _)).trans
      (.foldl (endOnFault_kept .m) (List.range Side.m.slots) _)
    exact (posted.trans (setEvents_kept _ _)).trans (settle_kept _)
  obtain ⟨table, sweep, arbiter, stage, jobs⟩ := portFaulted_frame s a
  refine ⟨.trans (.of_eq table fun r => by rw [sweep]) ended.ranges, fun h => ended.claims (sweep ▸ h),
    fun h => ended.arbiter (arbiter ▸ h), fun h => ended.timer (stage ▸ h), fun _ => ?_,
    fun h => ended.work.kinds (h.congr jobs)⟩
  rw [settled]
  exact (settle_kept p).work.quiet fun _ => ⟨by rw [port], empty, free⟩

theorem execBusErrorResponse_kept {s t : State} {who : Requester} (h : execBusErrorResponse who s = .next t) :
    LawsKept s t := by
  simp only [execBusErrorResponse] at h
  split at h
  · split at h
    · exact .of_next h (.refl _)
    · exact .of_next h (busFault_kept s _)
  · exact .of_next h (.refl _)

theorem recoverPort_kept (s : State) : LawsKept s (s.setBufferPort { s.bufferPort with faulted := false }) :=
  .of_work (.of_normal (fun _ => rfl) fun h => h.congr rfl)

theorem execBusRecover_kept {s t : State} (h : execBusRecover s = .next t) : LawsKept s t :=
  onRecord_kept h fun _ _ => decideRecord_kept fun _ => (recoverPort_kept _).answered ..

/-! ### The windows and the Port Block (R169 to R178) -/

theorem execRequestWindowWrite_kept {s t : State} {p : Port} {r : Record}
    (h : execRequestWindowWrite p r s = .next t) : LawsKept s t := by
  simp only [execRequestWindowWrite] at h
  have queued : LawsKept s
      ((s.setPort p { s.port p with requests := (s.port p).requests ++ [r] }).setAnswer (.written p)) := .of_same
  split at h
  · cases h
    split
    · exact queued
    · exact queued.trans (wakeByRecord_kept _)
  · exact .of_next h .of_same

theorem execCompletionWindowRead_kept {s t : State} {p : Port} (h : execCompletionWindowRead p s = .next t) :
    LawsKept s t := by
  simp only [execCompletionWindowRead] at h
  split at h <;> cases h <;> exact .of_same

theorem execBadWindowAccess_kept {s t : State} {p : Port} {a : WindowAccess}
    (h : execBadWindowAccess p a s = .next t) : LawsKept s t := by
  simp only [execBadWindowAccess] at h
  split at h <;> cases h
  · exact .of_same
  · exact .of_same
  · exact .of_same
  · exact .refl _
  · exact .refl _

theorem execUnknownKindRecord_kept {s t : State} {p : Port} (h : execUnknownKindRecord p s = .next t) :
    LawsKept s t := by
  simp only [execUnknownKindRecord] at h
  split at h
  · split at h
    · exact .of_next h (.refl _)
    · exact .of_next h ((takeRecord_kept _ _).answered ..)
  · exact .of_next h (.refl _)

theorem execStatus_kept {s t : State} (h : execStatus s = .next t) : LawsKept s t :=
  onRecord_kept h fun _ _ => decideRecord_kept fun _ => answerRecord_kept ..

theorem execEventPost_kept {s t : State} (h : execEventPost s = .next t) : LawsKept s t := by
  simp only [execEventPost] at h
  split at h
  · split at h
    · exact .of_next h .of_same
    · exact .of_next h (.refl _)
  · exact .of_next h (.refl _)

theorem answerQuota_kept (s : State) (side : Side) (reset : ResetRun) (r : Record) :
    LawsKept s (answerQuota s side reset r) := .of_same (by simp [answerQuota]) (by simp [answerQuota])
  (by simp [answerQuota]) (by simp [answerQuota]) (by simp [answerQuota]) (by simp [answerQuota]) (by simp [answerQuota])

theorem execAbortQuotaAnswer_kept {s t : State} {side : Side} (h : execAbortQuotaAnswer side s = .next t) :
    LawsKept s t := by
  simp only [execAbortQuotaAnswer] at h
  split at h
  · split at h
    · exact .of_next h ((answerQuota_kept _ _ _ _).trans (settle_kept _))
    · exact .of_next h (.refl _)
  · exact .of_next h (.refl _)

/-! ### The Stage Controller's commands (R146 to R156) -/

theorem execInactivityTick_kept {s t : State} (h : execInactivityTick s = .next t) : LawsKept s t := by
  simp only [execInactivityTick] at h
  split at h <;> cases h
  · exact timerSecond_kept _
  · exact .refl _

theorem execInactivityExpiry_kept {s t : State} (h : execInactivityExpiry s = .next t) : LawsKept s t := by
  simp only [execInactivityExpiry] at h
  split at h <;> cases h
  · exact expireTimer_kept _
  · exact .refl _

theorem execInactivitySet_kept {s t : State} (h : execInactivitySet s = .next t) : LawsKept s t := by
  refine onRecord_kept h fun r s => ?_
  dsimp only
  split
  · next delay media fields =>
    have limit : delay ≤ 3600 := by
      simp only [inactivityFields] at fields
      split at fields
      · next ok => cases fields; exact ok.1
      · cases fields
    exact (LawsKept.of_stage fun _ => ⟨le_rfl, limit⟩).answered ..
  · exact answerRecord_kept ..

theorem retainAtOnce_kept (s : State) (r : Record) : LawsKept s (retainAtOnce s r) :=
  ((retainEntry_kept s _).answered ..).trans (wakeByRecord_kept _)

theorem execRetain_kept {s t : State} (h : execRetain s = .next t) : LawsKept s t := by
  refine onRecord_kept h fun r s => decideRecord_kept fun _ => ?_
  simp only [retainByStage]
  split
  · split
    · exact retainAtOnce_kept ..
    · split
      · exact .of_stage id (fun _ => rfl) rfl rfl rfl rfl rfl
      · exact answerRecord_kept ..
  · exact retainAtOnce_kept ..
  · exact answerRecord_kept ..
  · exact answerRecord_kept ..
  · exact answerRecord_kept ..

theorem execWake_kept {s t : State} (h : execWake s = .next t) : LawsKept s t := by
  refine onRecord_kept h fun r s => decideRecord_kept fun _ => ?_
  simp only [wakeByStage]
  split
  · exact (answerRecord_kept ..).trans (wakePart_kept _ _ _)
  · exact answerRecord_kept ..
  · exact answerRecord_kept ..
  · exact answerRecord_kept ..
  · exact answerRecord_kept ..

theorem beginLaneTest_kept (s : State) (tag : Tag) : LawsKept s (beginLaneTest s tag) :=
  .of_stage id (fun l => by simp [beginLaneTest]) rfl rfl rfl rfl rfl

theorem execLaneTest_kept {s t : State} (h : execLaneTest s = .next t) : LawsKept s t := by
  refine onRecord_kept h fun r s => decideRecord_kept fun _ => ?_
  simp only [laneTestByStage]
  split
  · exact beginLaneTest_kept ..
  · exact beginLaneTest_kept ..
  · exact wakePart_kept ..
  · exact answerRecord_kept ..
  · exact answerRecord_kept ..

theorem endTestRun_kept (s : State) (run : TestRun) : LawsKept s (endTestRun s run) := by
  have moved : ∀ (enters : Bool) (c : StageController), c.delay = s.stage.delay →
      c.remaining = (if enters then s.stage.delay else s.stage.remaining) → LawsKept s (raiseSelfTest (s.setStage c)) := by
    intro enters c delay remaining
    refine LawsKept.trans (.of_stage fun h => ?_) (setEvents_kept _ _)
    rw [State.setStage_stage, TimerWithin, delay, remaining]
    refine ⟨?_, h.2⟩
    split
    · exact le_rfl
    · exact h.1
  simp only [endTestRun]
  split
  · exact (moved _ _ (by rfl) (by rfl)).trans (post_kept _ _ _)
  · exact moved _ _ rfl rfl

theorem endLaneTest_kept (s : State) (l : LaneId) (run : TestRun) (passed : Bool) :
    LawsKept s (endLaneTest s l run passed) := by
  have tested : LawsKept s ((s.setLane l { s.lanes.get l with inService := passed, testHold := false }).setStage
      { s.stage with testRun := some (run.lane l passed) }) :=
    (setLane_kept s l { s.lanes.get l with inService := passed, testHold := false } id).trans (.of_stage id)
  simp only [endLaneTest]
  split
  · exact tested
  · exact tested.trans (endTestRun_kept _ _)

theorem execLaneSelfTestEnd_kept {s t : State} {l : LaneId} {encOk decOk : Bool}
    (h : execLaneSelfTestEnd l encOk decOk s = .next t) : LawsKept s t := by
  simp only [execLaneSelfTestEnd] at h
  split at h
  · split at h <;> cases h
    · exact endLaneTest_kept ..
    · exact .refl _
  · exact .of_next h (.refl _)

/-! ### Every step -/

/-- Every command keeps the laws. -/
theorem exec_kept {c : Instr} {s t : State} (h : exec c s = .next t) : LawsKept s t := by
  cases c with
  | powerOnReset => exact execPowerOnReset_kept h
  | inactivityTick => exact execInactivityTick_kept h
  | inactivityExpiry => exact execInactivityExpiry_kept h
  | requestWindowWrite p r => exact execRequestWindowWrite_kept h
  | completionWindowRead p => exact execCompletionWindowRead_kept h
  | badWindowAccess p a => exact execBadWindowAccess_kept h
  | read => exact execRead_kept h
  | write => exact execWrite_kept h
  | claim => exact execClaim_kept h
  | release => exact execRelease_kept h
  | sweepQuery p => exact execSweepQuery_kept h
  | recipher => exact execRecipher_kept h
  | screen => exact execScreen_kept h
  | unknownKindRecord p => exact execUnknownKindRecord_kept h
  | status => exact execStatus_kept h
  | formatSet => exact execFormatSet_kept h
  | admitRequest => exact execAdmitRequest_kept h
  | sealRequest => exact execSealRequest_kept h
  | engineReset => exact execEngineReset_kept h
  | zeroize => exact execZeroize_kept h
  | rangeDefine => exact execRangeDefine_kept h
  | rangeDelete => exact execRangeDelete_kept h
  | rangeLocks => exact execRangeLocks_kept h
  | rangeBind => exact execRangeBind_kept h
  | rangeRekey => exact execRangeRekey_kept h
  | rangeErase => exact execRangeErase_kept h
  | rangeQuery => exact execRangeQuery_kept h
  | countClear => exact execCountClear_kept h
  | keyOpen => exact execKeyOpen_kept h
  | keyPart => exact execKeyPart_kept h
  | keyClear => exact execKeyClear_kept h
  | keyQuery => exact execKeyQuery_kept h
  | classSet => exact execClassSet_kept h
  | busRecover => exact execBusRecover_kept h
  | inactivitySet => exact execInactivitySet_kept h
  | retain => exact execRetain_kept h
  | wake => exact execWake_kept h
  | laneTest => exact execLaneTest_kept h
  | abortQuotaAnswer side => exact execAbortQuotaAnswer_kept h
  | grant => exact execGrant_kept h
  | trailerReadDone l placed => exact execTrailerReadDone_kept h
  | dataUnitReadDone l placed => exact execDataUnitReadDone_kept h
  | transformEnd l => exact execTransformEnd_kept h
  | resultWriteDone l => exact execResultWriteDone_kept h
  | verdictListWriteDone side slot => exact execVerdictListWriteDone_kept h
  | busErrorResponse who => exact execBusErrorResponse_kept h
  | droppedAccessResponse who kind => exact .of_next h (.refl _)
  | laneSelfTestEnd l encOk decOk => exact execLaneSelfTestEnd_kept h
  | eventPost => exact execEventPost_kept h
  | drainEnd => exact .of_next h (endDrain_kept s)
  | keyClearDeferredDone => exact .of_next h (finishKeyClears_kept s)
  | engineResetEnd => exact .of_next h (endEngineReset_kept s)
  | zeroizeClearing => exact .of_next h (endZeroize_kept s)

/-- Every step keeps the laws. -/
theorem step_kept {s t : State} (h : step s = .next t) : LawsKept s t := by
  simp only [step] at h
  split at h
  · exact .of_next h (.refl _)
  · next rest _ => exact LawsKept.trans (t := { s with pending := rest }) .of_same (exec_kept h)

/-- Settles O56: the epochs' part of what every step keeps. -/
theorem stepKeepsEpochLaw : Obligations.StepKeepsEpochLaw :=
  fun _ _ law h => (step_kept h).ranges.epochs law

/-- Settles O57: the sweeps' part of what every step keeps. -/
theorem stepKeepsSweepLaw : Obligations.StepKeepsSweepLaw :=
  fun _ _ law h => (step_kept h).ranges.sweep law

/-- Settles O58: the bounds' part of what every step keeps, and the resolution of an LBA under the law. -/
theorem stepKeepsBoundsLaw : Obligations.StepKeepsBoundsLaw :=
  ⟨fun _ _ law h => (step_kept h).ranges.bounds law,
    fun _ _ law => ⟨fun _ => resolve_inside law, resolve_outside⟩⟩

/-- Settles O59: the counts' and the work's parts of what every step keeps. -/
theorem stepKeepsCountsWithin : Obligations.StepKeepsCountsWithin := by
  refine ⟨fun s t counts quiet h => ?_, fun s t kinds h => (step_kept h).work.kinds kinds⟩
  have kept := step_kept h
  obtain ⟨refusals, claims, arbiter, timer⟩ := (countsWithin_iff s).mp counts
  exact ⟨(countsWithin_iff t).mpr ⟨kept.ranges.refusals refusals, kept.claims claims, kept.arbiter arbiter,
    kept.timer timer⟩, kept.work.quiet quiet⟩

end Sys2Proof.Machine
end
section
/-! PROOFS. The requests of the Range Table that are answered at once, and the four queries (R32 to R43, R60, R122, R140,
R177): each command on a record taken is a list of checks and one effect. -/

namespace Sys2Proof.Machine

/-! ### A record decided by checks -/

/-- Checks that agree with a table none of whose conditions holds all pass. -/
theorem ChecksAgree.pass {l : List (Bool × Status)} {t : List (Prop × Status)} (h : ChecksAgree l t)
    (clear : ∀ c ∈ t, ¬ c.1) : firstRefusal l = none := by
  induction h with
  | nil => rfl
  | @cons c p l t hc _ ih =>
    obtain ⟨status, rest⟩ := List.forall_mem_cons.mp clear
    rw [show c = (c.1, c.2) from rfl, firstRefusal_cons, if_neg (fun h => status (hc.1.mp h)), ih rest]

/-- A command that decides its record by checks refuses it as the table says that agrees with them. -/
theorem answeredOnly_of_checks {c : Instr} {s accept : State} {p : Port} {r : Record} {checks : List (Bool × Status)}
    {table : List (Prop × Status)} {st : Status}
    (runs : exec c s = .next (decideRecord p r checks (takeRecord s p) accept)) (agree : ChecksAgree checks table)
    (h : Refuses table st) : AnsweredOnly c s p r st .empty := by
  refine answeredOnly_of_exec (runs.trans ?_)
  rw [decideRecord, firstRefusal_of_refuses agree h]

/-- The first condition of a table, where it holds, gives the status. -/
theorem Refuses.first {q : Prop} {st st' : Status} {rest : List (Prop × Status)} (h : Refuses ((q, st) :: rest) st')
    (holds : q) : st' = st := by
  rcases h with ⟨-, h⟩ | ⟨h, -⟩
  · exact h
  · exact absurd holds h

/-- Where it does not hold the rest of the table decides. -/
theorem Refuses.rest {q : Prop} {st st' : Status} {rest : List (Prop × Status)} (h : Refuses ((q, st) :: rest) st')
    (fails : ¬ q) : Refuses rest st' := by
  rcases h with ⟨h, -⟩ | ⟨-, h⟩
  · exact absurd h fails
  · exact h

/-- An index above 15 or a reserved byte that is not zero is refused BAD_FIELD before all else (R32). -/
theorem answeredOnly_of_badRange {c : Instr} {s : State} {p : Port} {k : Kind} {r : Record} {assigned : List Nat}
    {f : Record → State → RangeId → State}
    (runs : exec c s = onRecord p k s (fun r s => withRange p r assigned s (f r s))) (taken : Taken s p r k)
    (bad : rangeOf r = none ∨ reservedZero r assigned = false) : AnsweredOnly c s p r .badField .empty :=
  answeredOnly_of_exec (by rw [runs, onRecord_taken _ taken, withRange_bad bad])

/-- A cell number above 63 or a reserved byte that is not zero is refused BAD_FIELD before all else (R49). -/
theorem answeredOnly_of_badCell {c : Instr} {s : State} {k : Kind} {r : Record} {assigned : List Nat}
    {f : Record → State → CellId → State}
    (runs : exec c s = onRecord .s k s (fun r s => withCell r assigned s (f r s))) (taken : Taken s .s r k)
    (bad : cellOf (recordField r 4 1) = none ∨ reservedZero r assigned = false) :
    AnsweredOnly c s .s r .badField .empty :=
  answeredOnly_of_exec (by rw [runs, onRecord_taken _ taken, withCell_bad bad])

/-- The taking of a record and a change of a range's record are in either order. -/
theorem setRange_takeRecord (s : State) (p : Port) (x : RangeId) (e : RangeRec) :
    (takeRecord s p).setRange x e = takeRecord (s.setRange x e) p := by cases p <;> rfl

/-- So are it and a change of the Key Store. -/
theorem setKeys_takeRecord (s : State) (p : Port) (k : KeyStore) :
    (takeRecord s p).setKeys k = takeRecord (s.setKeys k) p := by cases p <;> rfl

/-- A record answered at once with nothing but a change of the Range Table and the Key Store is completed. -/
theorem completed_of_exec {c : Instr} {s u : State} {p : Port} {r : Record} {st : Status} {b : Body}
    (runs : exec c s = .next (answerRecord (takeRecord u p) p r st b)) (memory : u.buffer = s.buffer) :
    ∃ t, exec c s = .next t ∧ SameMemory s t ∧ t = completed u p (answerOf r st b) :=
  ⟨_, runs, sameMemory_of_buffer (by rw [answerRecord_takeRecord, completed_buffer, memory]), answerRecord_takeRecord ..⟩

/-! ### RANGE_DEFINE and RANGE_DELETE (R33, R35) -/

/-- The assigned bytes of RANGE_DEFINE (R178). -/
abbrev defineBytes : List Nat := [4, 5] ++ byteSpan 8 12 ++ byteSpan 16 20

/-- The checks that RANGE_DEFINE makes of a record whose index and reserved bytes are good (R33). -/
def defineChecks (t : RangeTable) (r : Record) (x : RangeId) : List (Bool × Status) :=
  [(!(locksOk r), .badField), (x == 0 || decide (defineFirst r > defineLast r), .badField), (anySweeping t, .sweepActive),
   ((t.entry x).present, .rangePresent), (decide (defineLast r ≥ t.capacity), .outOfRange),
   (boundsTaken t (defineFirst r) (defineLast r), .rangeOverlap)]

/-- The record of the range a RANGE_DEFINE makes (R33). -/
def definedRange (r : Record) : RangeRec :=
  withLocks { RangeRec.absent with present := true, first := defineFirst r, last := defineLast r } r

theorem exec_rangeDefine {s : State} {r : Record} {x : RangeId} (taken : Taken s .s r .rangeDefine)
    (index : rangeOf r = some x) (fields : reservedZero r defineBytes = true) :
    exec .rangeDefine s = .next (decideRecord .s r (defineChecks s.table r x) (takeRecord s .s)
      (answerRecord (takeRecord (s.setRange x (definedRange r)) .s) .s r .ok .empty)) := by
  show execRangeDefine s = _
  rw [execRangeDefine, onRecord_taken _ taken, withRange_some index fields, ← setRange_takeRecord]
  rfl

theorem boundsTaken_iff (t : RangeTable) (first last : Nat) : boundsTaken t first last = true ↔
    ∃ q : RangeId, q ≠ 0 ∧ (t.entry q).present = true ∧ first ≤ (t.entry q).last ∧
      (t.entry q).first ≤ last := by
  simp only [boundsTaken, List.any_eq_true, mem_boundedRanges, Bool.and_eq_true, decide_eq_true_eq, and_assoc]

/-- Where the reserved bytes are good, RANGE_DEFINE makes the checks of its table. -/
theorem defineChecks_agree {s : State} {r : Record} (x : RangeId) (fields : reservedZero r defineBytes = true) :
    ChecksAgree (defineChecks s.table r x) (defineTable s r x) :=
  .cons ⟨by rw [fields]; simp, rfl⟩ (.cons ⟨by simp [defineFirst, defineLast], rfl⟩ (.cons ⟨anySweeping_iff _, rfl⟩
    (.cons ⟨.rfl, rfl⟩ (.cons ⟨decide_eq_true_iff, rfl⟩ (.cons ⟨boundsTaken_iff _ _ _, rfl⟩ .nil)))))

/-- A RANGE_DEFINE that is ready meets no condition of its table. -/
theorem defineTable_pass {s : State} {r : Record} {x : RangeId} (h : DefineReady s r x) :
    ∀ c ∈ defineTable s r x, ¬ c.1 := by
  obtain ⟨-, -, fields, locks, bounded, ordered, quiet, vacant, below, apart⟩ := h
  have clear : ¬ ∃ q : RangeId, q ≠ 0 ∧ (s.table.entry q).present = true ∧
      recordField r 8 5 ≤ (s.table.entry q).last ∧ (s.table.entry q).first ≤ recordField r 16 5 := by
    rintro ⟨q, h0, hp, hf, hl⟩
    rcases apart q h0 hp with h | h <;> omega
  simp only [defineTable, List.forall_mem_cons]
  refine ⟨by rw [fields, locks]; simp, ?_, not_not.mpr quiet, by simp [vacant], not_le.mpr below, clear,
    fun c hc => nomatch hc⟩
  rintro (h | h)
  · exact bounded h
  · omega

/-- The checks that RANGE_DELETE makes of a record whose index and reserved bytes are good (R35). -/
def deleteChecks (t : RangeTable) (x : RangeId) : List (Bool × Status) :=
  [(x == 0 || !(t.entry x).present, .badField), (anySweeping t, .sweepActive)]

theorem exec_rangeDelete {s : State} {r : Record} {x : RangeId} (taken : Taken s .s r .rangeDelete)
    (index : rangeOf r = some x) (fields : reservedZero r [4] = true) :
    exec .rangeDelete s = .next (decideRecord .s r (deleteChecks s.table x) (takeRecord s .s)
      (answerRecord (takeRecord ((s.setKeys (s.keys.unbind (s.table.entry x).current)).setRange x RangeRec.absent) .s)
        .s r .ok .empty)) := by
  show execRangeDelete s = _
  rw [execRangeDelete, onRecord_taken _ taken, withRange_some index fields, ← setRange_takeRecord, ← setKeys_takeRecord]
  rfl

theorem deleteChecks_agree {s : State} (x : RangeId) :
    ChecksAgree (deleteChecks s.table x)
      [(x = 0 ∨ (s.table.entry x).present = false, .badField), (¬ NoSweep s, .sweepActive)] :=
  .cons ⟨by simp, rfl⟩ (.cons ⟨anySweeping_iff _, rfl⟩ .nil)

/-- Unbinding one binding's group, where there is one. -/
theorem unbind_eq (k : KeyStore) (b : Option Binding) :
    k.unbind b = { k with groups := unboundAll k.groups b.toList } := by cases b <;> rfl

/-- Settles O10: each command is its list of checks, which agrees with its table, and its one effect. -/
theorem rangeDefineAndDelete : Obligations.RangeDefineAndDelete := by
  intro s r x
  refine ⟨fun ready => ?_, fun ready => ?_, fun st taken bad => ?_, fun st taken bad => ?_⟩
  · have clear := defineTable_pass ready
    obtain ⟨taken, index, fields, -⟩ := ready
    refine completed_of_exec ((exec_rangeDefine taken index fields).trans ?_) rfl
    rw [decideRecord_accept ((defineChecks_agree x fields).pass clear)]
    rfl
  · obtain ⟨taken, index, fields, bounded, present, quiet⟩ := ready
    rw [← unbind_eq]
    refine completed_of_exec ((exec_rangeDelete taken index fields).trans ?_) rfl
    rw [decideRecord_accept ((deleteChecks_agree x).pass ?_)]
    simp [bounded, present, quiet]
  · rcases bad with ⟨index, rfl⟩ | ⟨index, refused⟩
    · exact answeredOnly_of_badRange (execRangeDefine.eq_def s) taken (.inl index)
    · rcases fields : reservedZero r defineBytes with _ | _
      · cases refused.first (.inl fields)
        exact answeredOnly_of_badRange (execRangeDefine.eq_def s) taken (.inr fields)
      · exact answeredOnly_of_checks (exec_rangeDefine taken index fields) (defineChecks_agree x fields) refused
  · rcases bad with ⟨index, rfl⟩ | ⟨index, refused⟩
    · exact answeredOnly_of_badRange (execRangeDelete.eq_def s) taken (.inl index)
    · rcases fields : reservedZero r [4] with _ | _
      · cases refused.first fields
        exact answeredOnly_of_badRange (execRangeDelete.eq_def s) taken (.inr fields)
      · exact answeredOnly_of_checks (exec_rangeDelete taken index fields) (deleteChecks_agree x)
          (refused.rest (by simp [fields]))

/-! ### RANGE_LOCKS and COUNT_CLEAR (R37, R43) -/

theorem exec_rangeLocks {s : State} {r : Record} {x : RangeId} (taken : Taken s .s r .rangeLocks)
    (index : rangeOf r = some x) (fields : reservedZero r [4, 5] = true) :
    exec .rangeLocks s = .next (decideRecord .s r
      [(!(locksOk r), .badField), (!(s.table.entry x).present, .badField)] (takeRecord s .s)
      (answerRecord (takeRecord (s.setRange x (withLocks (s.table.entry x) r)) .s) .s r .ok .empty)) := by
  show execRangeLocks s = _
  rw [execRangeLocks, onRecord_taken _ taken, withRange_some index fields, ← setRange_takeRecord]
  rfl

/-- A reserved bit set in the locks byte is found (R178). -/
theorem locksOk_eq_false {r : Record} {i : Nat} (h3 : 3 ≤ i) (h8 : i < 8) (set : (recordByte r 5).getLsbD i = true) :
    locksOk r = false := by
  rw [locksOk, beq_eq_false_iff_ne]
  intro clear
  have bit : ((recordByte r 5) &&& 0xF8#8).getLsbD i = false := by
    rw [show (recordByte r 5) &&& 0xF8#8 = 0 from clear]
    simp
  have mask : (0xF8#8).getLsbD i = true := by interval_cases i <;> rfl
  rw [BitVec.getLsbD_and, set, mask] at bit
  cases bit

/-- Settles O11: the effect where the checks pass, and BAD_FIELD for each way in which they do not. -/
theorem rangeLocksWritesThreeLocks : Obligations.RangeLocksWritesThreeLocks := by
  intro s r x
  refine ⟨fun ready => ?_, fun taken bad => ?_⟩
  · obtain ⟨taken, index, fields, locks, present⟩ := ready
    refine completed_of_exec ((exec_rangeLocks taken index fields).trans ?_) rfl
    rw [decideRecord_accept (by simp [firstRefusal_cons, locks, present])]
    rfl
  · rcases index : rangeOf r with _ | y
    · exact answeredOnly_of_badRange (execRangeLocks.eq_def s) taken (.inl index)
    rcases fields : reservedZero r [4, 5] with _ | _
    · exact answeredOnly_of_badRange (execRangeLocks.eq_def s) taken (.inr fields)
    refine answeredOnly_of_exec ((exec_rangeLocks taken index fields).trans ?_)
    have failed : locksOk r = false ∨ (s.table.entry y).present = false := by
      rcases bad with none | reserved | ⟨i, h3, h8, set⟩ | ⟨same, absent⟩
      · rw [index] at none; cases none
      · rw [fields] at reserved; cases reserved
      · exact .inl (locksOk_eq_false h3 h8 set)
      · rw [index] at same; cases same; exact .inr absent
    have refused : firstRefusal [(!(locksOk r), .badField), (!(s.table.entry y).present, .badField)] =
        some .badField := by
      rcases failed with h | h
      · simp [firstRefusal_cons, h]
      · simp [firstRefusal_cons, h]
    rw [decideRecord, refused]

theorem exec_countClear {s : State} {r : Record} {x : RangeId} (taken : Taken s .s r .countClear)
    (index : rangeOf r = some x) (fields : reservedZero r [4] = true) :
    exec .countClear s = .next (decideRecord .s r [(!(s.table.entry x).present, .badField)] (takeRecord s .s)
      (answerRecord (takeRecord (s.setRange x { s.table.entry x with refusals := 0 }) .s) .s r .ok .empty)) := by
  show execCountClear s = _
  rw [execCountClear, onRecord_taken _ taken, withRange_some index fields, ← setRange_takeRecord]
  rfl

/-- Settles O15: the effect where the range is PRESENT, and BAD_FIELD where it is not or a field is not good. -/
theorem countClearZeroesCount : Obligations.CountClearZeroesCount := by
  intro s r x
  refine ⟨fun ready => ?_, fun taken bad => ?_⟩
  · obtain ⟨taken, index, fields, present⟩ := ready
    have runs : exec .countClear s = .next (answerRecord
        (takeRecord (s.setRange x { s.table.entry x with refusals := 0 }) .s) .s r .ok .empty) := by
      rw [exec_countClear taken index fields, decideRecord_accept (by simp [firstRefusal_cons, present])]
    obtain ⟨t, ran, memory, answered⟩ := completed_of_exec runs rfl
    exact ⟨t, ran, memory, by rw [answered, completed, State.setPort_events]; rfl, answered⟩
  · rcases index : rangeOf r with _ | y
    · exact answeredOnly_of_badRange (execCountClear.eq_def s) taken (.inl index)
    rcases fields : reservedZero r [4] with _ | _
    · exact answeredOnly_of_badRange (execCountClear.eq_def s) taken (.inr fields)
    have absent : (s.table.entry y).present = false := by
      rcases bad with none | reserved | ⟨same, absent⟩
      · rw [index] at none; cases none
      · rw [fields] at reserved; cases reserved
      · rw [index] at same; cases same; exact absent
    refine answeredOnly_of_exec ((exec_countClear taken index fields).trans ?_)
    rw [decideRecord, show firstRefusal [(!(s.table.entry y).present, .badField)] = some .badField by
      simp [firstRefusal_cons, absent]]

/-! ### RANGE_BIND (R39) -/

/-- The checks that RANGE_BIND makes of a record whose numbers and reserved bytes are good (R39). -/
def bindRangeChecks (s : State) (r : Record) (x : RangeId) (g : CellId) : List (Bool × Status) :=
  [(!(s.table.entry x).present, .badField), ((s.table.entry x).current.isSome, .alreadyKeyed)] ++
    bindingChecks s g (epochOf r)

theorem exec_rangeBind {s : State} {r : Record} {x : RangeId} {g : CellId} (taken : Taken s .s r .rangeBind)
    (fields : BindFields r x) (group : cellOf (groupByte r) = some g) :
    exec .rangeBind s = .next (decideRecord .s r (bindRangeChecks s r x g) (takeRecord s .s)
      (answerRecord (takeRecord (bindCurrent s x { group := g, epoch := epochOf r }) .s) .s r .ok .empty)) := by
  show execRangeBind s = _
  obtain ⟨index, reserved⟩ := fields
  rw [execRangeBind, onRecord_taken _ taken, withRange_some (as := bindBytes) index reserved, withGroup_some group,
    bindCurrent, bindCurrent, ← setRange_takeRecord, ← setKeys_takeRecord]
  rfl

theorem bindRangeChecks_agree (s : State) (r : Record) (x : RangeId) (g : CellId) :
    ChecksAgree (bindRangeChecks s r x g) (bindTable s r x g) :=
  .append (.cons ⟨by simp, rfl⟩ (.cons ⟨Option.isSome_iff_ne_none, rfl⟩ .nil)) (bindingChecks_agree s r g)

/-- Settles O12: the command is its list of checks, which agrees with its table, and its one effect. -/
theorem rangeBindBindsCurrent : Obligations.RangeBindBindsCurrent := by
  intro s r x g ge
  refine ⟨fun ready => ?_, fun st taken bad => ?_⟩
  · obtain ⟨taken, fields, present, unkeyed, binding⟩ := ready
    have passed : firstRefusal (bindRangeChecks s r x g) = none := by
      rw [bindRangeChecks, firstRefusal_append (by simp [firstRefusal_cons, present, unkeyed]), bindingChecks_pass binding]
    obtain ⟨group, stands, -⟩ := binding
    have bound : bindCurrent s x { group := g, epoch := epochOf r } = (s.setKeys { s.keys with
        groups := put s.keys.groups g (some { ge with bound := some { range := x, slot := .current } }) }).setRange x
          { s.table.entry x with current := some { group := g, epoch := epochOf r } } := by
      simp only [bindCurrent, KeyStore.setBound, KeyStore.changeGroup, stands, Option.map_some]
    rw [← bound]
    refine completed_of_exec ((exec_rangeBind taken fields group).trans ?_) rfl
    rw [decideRecord_accept passed]
  · rcases bad with ⟨fieldsBad, rfl⟩ | ⟨fields, group, refused⟩
    · rcases index : rangeOf r with _ | y
      · exact answeredOnly_of_badRange (execRangeBind.eq_def s) taken (.inl index)
      rcases fields : reservedZero r bindBytes with _ | _
      · exact answeredOnly_of_badRange (execRangeBind.eq_def s) taken (.inr fields)
      have noGroup : cellOf (groupByte r) = none := by
        rcases fieldsBad with none | group | reserved
        · rw [index] at none; cases none
        · exact group
        · exact nomatch fields.symm.trans reserved
      refine answeredOnly_of_exec ?_
      show execRangeBind s = _
      rw [execRangeBind, onRecord_taken _ taken, withRange_some index fields, withGroup, noGroup]
    · exact answeredOnly_of_checks (exec_rangeBind taken fields group) (bindRangeChecks_agree s r x g) refused

/-! ### The four queries (R42, R60, R122, R140, R177) -/

theorem exec_rangeQuery {s : State} {r : Record} {x : RangeId} (taken : Taken s .s r .rangeQuery)
    (index : rangeOf r = some x) (fields : reservedZero r [4] = true) :
    exec .rangeQuery s =
      .next (answerRecord (takeRecord s .s) .s r .ok (.range x (reportedEntry s.table x))) := by
  show execRangeQuery s = _
  rw [execRangeQuery, onRecord_taken _ taken, withRange_some index fields, takeRecord_table]

theorem exec_keyQuery {s : State} {r : Record} {c : CellId} (taken : Taken s .s r .keyQuery)
    (cell : cellOf (recordField r 4 1) = some c) (fields : reservedZero r [4] = true) :
    exec .keyQuery s = .next (answerRecord (takeRecord s .s) .s r .ok (.keyQuery (keyReport s.keys c))) := by
  show execKeyQuery s = _
  rw [execKeyQuery, onRecord_taken _ taken, withCell_some cell fields, takeRecord_keys]

theorem sweepReport_takeRecord (s : State) (p : Port) (q : QueryPort) (x : RangeId) :
    sweepReport (takeRecord s p) q x = sweepReport s q x := by
  simp only [sweepReport, nextClaimStart, takeRecord_table, takeRecord_sweep]

theorem exec_sweepQuery {s : State} {r : Record} {p : QueryPort} {x : RangeId}
    (taken : Taken s (queryPort p) r .sweepQuery) (index : rangeOf r = some x) (fields : reservedZero r [4] = true) :
    exec (.sweepQuery p) s = .next (decideRecord (queryPort p) r
      [(p == .m && s.stage.stage == .draining, .retaining)] (takeRecord s (queryPort p))
      (answerRecord (takeRecord s (queryPort p)) (queryPort p) r .ok (.sweep (sweepReport s p x)))) := by
  show execSweepQuery p s = _
  rw [execSweepQuery, onRecord_taken _ taken, withRange_some index fields, takeRecord_stage, sweepReport_takeRecord]

theorem statusReport_takeRecord (s : State) (p : Port) : statusReport (takeRecord s p) = statusReport s := by
  cases p <;> rfl

theorem exec_status {s : State} {r : Record} (taken : Taken s .s r .status) (fields : reservedZero r [] = true) :
    exec .status s = .next (answerRecord (takeRecord s .s) .s r .ok (.status (statusReport s))) := by
  show execStatus s = _
  rw [execStatus, onRecord_taken _ taken, decideRecord_accept (by simp [firstRefusal_cons, fields]),
    statusReport_takeRecord]

/-- Settles O9: the group of a cell, each query's answer, and its refusals. -/
theorem queriesAnswerAndChangeNothing : Obligations.QueriesAnswerAndChangeNothing := by
  refine ⟨fun k c b => ?_, fun s r => ?_⟩
  · intro stands
    refine ⟨fun st => inGroup_iff b st c, fun e => groupHolding_iff, fun e here only => ?_, groupHolding_none⟩
    exact groupHolding_iff.mpr ⟨here, fun b' lower e' there => absurd (only b' e' there) (ne_of_lt lower)⟩
  · refine ⟨fun x taken index fields => ?_, fun c taken cell fields => ?_, fun p x taken index fields permits => ?_,
      fun taken fields => ?_, fun taken bad => ?_, fun taken bad => ?_, fun p taken bad => ?_,
      fun taken index fields draining => ?_⟩
    · obtain ⟨t, runs, memory, answered⟩ := completed_of_exec (exec_rangeQuery taken index fields) rfl
      refine ⟨t, runs, memory, answered, fun law absent => ?_⟩
      have bounded : x ≠ 0 := fun h => by rw [h, law.1] at absent; cases absent
      rw [answered, reportedEntry, if_neg bounded, law.absent absent]
      rfl
    · exact completed_of_exec (exec_keyQuery taken cell fields) rfl
    · have passes : firstRefusal [(p == .m && s.stage.stage == .draining, .retaining)] = none := by
        cases p with
        | m => simp [firstRefusal_cons, permits rfl]
        | s => rfl
      obtain ⟨t, runs, memory, answered⟩ := completed_of_exec
        ((exec_sweepQuery taken index fields).trans (congrArg _ (decideRecord_accept passes))) rfl
      refine ⟨t, runs, memory, answered.trans ?_⟩
      by_cases sweeping : (s.table.entry x).previous.isSome = true
      · have sweeps : isSweeping s.table x = true := sweeping
        rw [if_pos sweeping]
        cases p <;> simp only [sweepReport, if_pos sweeps] <;> rfl
      · have settled : ¬ isSweeping s.table x = true := sweeping
        rw [if_neg sweeping]
        cases p <;> simp only [sweepReport, if_neg settled]
    · exact completed_of_exec (exec_status taken fields) rfl
    · exact answeredOnly_of_badRange (execRangeQuery.eq_def s) taken bad
    · exact answeredOnly_of_badCell (execKeyQuery.eq_def s) taken bad
    · exact answeredOnly_of_badRange (execSweepQuery.eq_def p s) taken bad
    · obtain ⟨x, index⟩ := Option.ne_none_iff_exists'.mp index
      refine answeredOnly_of_exec ((exec_sweepQuery (p := .m) taken index fields).trans ?_)
      rw [decideRecord, show firstRefusal [((QueryPort.m == .m && s.stage.stage == .draining), .retaining)] =
        some .retaining by simp [firstRefusal_cons, draining]]
      rfl

end Sys2Proof.Machine
end
section
/-! PROOFS. Segments and the lowest LBA of a range (R27, R28): the segments cover their LBAs in maximal runs, and the skips
over the bounded ranges end outside all of them. -/

namespace Sys2Proof.Machine

/-! ### Segments (R28) -/

/-- A segment resolves to its one range throughout and carries that range's bindings. -/
structure SegmentOf (t : RangeTable) (g : Segment) : Prop where
  ordered : g.first ≤ g.last
  resolves : ∀ y, g.first ≤ y → y ≤ g.last → resolve t y = g.range
  current : g.current = (t.entry g.range).current
  previous : g.previous = (t.entry g.range).previous

/-- Neighbours: the later segment goes on where the earlier one ends, in another range. -/
def SegmentsMeet (a b : Segment) : Prop := b.first = a.last + 1 ∧ a.range ≠ b.range

/-- The segments from `x` to `last`: one at least, each of one range, neighbours meeting. -/
structure SegmentsCover (t : RangeTable) (x last : Nat) (segs : List Segment) : Prop where
  head : segs.head?.map Segment.first = some x
  reaches : segs.getLast?.map Segment.last = some last
  each : ∀ g ∈ segs, SegmentOf t g
  meet : segs.IsChain SegmentsMeet

/-- The segment of one LBA. -/
def oneSegment (t : RangeTable) (x : Nat) : Segment :=
  { first := x, last := x, range := resolve t x, current := (t.entry (resolve t x)).current,
    previous := (t.entry (resolve t x)).previous }

theorem oneSegment_segmentOf (t : RangeTable) (x : Nat) : SegmentOf t (oneSegment t x) :=
  ⟨le_rfl, fun _ hf hl => by rw [le_antisymm hl hf]; rfl, rfl, rfl⟩

/-- The LBA before a segment joins it where it resolves to its range, and else is a segment of its own. -/
theorem segmentsOf_succ {t : RangeTable} {n x : Nat} {seg : Segment} {rest : List Segment}
    (h : segmentsOf t n (x + 1) = seg :: rest) : segmentsOf t (n + 1) x =
      if seg.range = resolve t x then { seg with first := x } :: rest else oneSegment t x :: seg :: rest := by
  simp only [segmentsOf, h]
  rfl

theorem segmentsOf_cover (t : RangeTable) (n x : Nat) : SegmentsCover t x (x + n) (segmentsOf t (n + 1) x) := by
  induction n generalizing x with
  | zero =>
    exact ⟨rfl, rfl, fun g hg => List.mem_singleton.mp hg ▸ oneSegment_segmentOf t x, .singleton _⟩
  | succ n ih =>
    obtain ⟨head, reaches, each, meet⟩ := ih (x + 1)
    rcases tail : segmentsOf t (n + 1) (x + 1) with _ | ⟨seg, rest⟩
    · rw [tail] at head; cases head
    rw [tail] at head reaches each meet
    have starts : seg.first = x + 1 := Option.some.inj head
    obtain ⟨segment, others⟩ := List.forall_mem_cons.mp each
    rw [Nat.add_right_comm] at reaches
    rw [segmentsOf_succ tail]
    split
    · next same =>
      refine ⟨rfl, ?_, List.forall_mem_cons.mpr
        ⟨⟨?_, fun y hf hl => ?_, segment.current, segment.previous⟩, others⟩, ?_⟩
      · rcases rest with _ | ⟨next, rest⟩
        · exact reaches
        · exact reaches
      · exact (Nat.le_succ x).trans (starts.symm.trans_le segment.ordered)
      · rcases Nat.eq_or_lt_of_le hf with rfl | later
        · exact same.symm
        · exact segment.resolves y (starts ▸ later) hl
      · rcases rest with _ | ⟨next, rest⟩
        · exact .singleton _
        · obtain ⟨joined, onward⟩ := List.isChain_cons_cons.mp meet
          exact .cons_cons joined onward
    · next differs =>
      exact ⟨rfl, reaches, List.forall_mem_cons.mpr ⟨oneSegment_segmentOf t x, each⟩,
        .cons_cons ⟨starts, fun e => differs e.symm⟩ meet⟩

/-- Settles O23: the segments of one LBA more are those from the next LBA on with the LBA joined or put before. -/
theorem segmentsCoverMaximalRuns : Obligations.SegmentsCoverMaximalRuns := by
  intro t n x hn
  obtain ⟨m, rfl⟩ := Nat.exists_eq_succ_of_ne_zero hn
  obtain ⟨head, reaches, each, meet⟩ := segmentsOf_cover t m x
  refine ⟨head, reaches, fun g hg => ?_, fun i a b ha hb => ?_⟩
  · obtain ⟨ordered, resolves, current, previous⟩ := each g hg
    exact ⟨ordered, resolves, current, previous⟩
  · obtain ⟨_, rfl⟩ := List.getElem?_eq_some_iff.mp ha
    obtain ⟨next, rfl⟩ := List.getElem?_eq_some_iff.mp hb
    exact List.isChain_iff_getElem.mp meet i next

/-! ### The lowest LBA of a range (R27) -/

/-- An option that is the least number with a property from `x` on, or none where there is none, is both exactly. -/
theorem least_from_iff {P : Nat → Prop} {x : Nat} {o : Option Nat}
    (found : ∀ y, o = some y → x ≤ y ∧ P y ∧ ∀ z, x ≤ z → P z → y ≤ z)
    (missing : o = none → ∀ z, x ≤ z → ¬ P z) :
    (∀ y, o = some y ↔ (x ≤ y ∧ P y ∧ ∀ z, x ≤ z → P z → y ≤ z)) ∧ (o = none ↔ ∀ z, x ≤ z → ¬ P z) := by
  refine ⟨fun y => ⟨found y, fun ⟨above, holds, least⟩ => ?_⟩, missing, fun h => ?_⟩
  · rcases o with _ | w
    · exact absurd holds (missing rfl y above)
    · obtain ⟨above', holds', least'⟩ := found w rfl
      rw [le_antisymm (least' y above holds) (least w above' holds')]
  · rcases o with _ | w
    · rfl
    · obtain ⟨above, holds, -⟩ := found w rfl
      exact absurd holds (h w above)

/-- The PRESENT bounded ranges that end at or above an LBA: those a skip can still meet. -/
def rangesAbove (t : RangeTable) (x : Nat) : Finset RangeId :=
  {q | q ≠ 0 ∧ (t.entry q).present = true ∧ x ≤ (t.entry q).last}

/-- A skip leaves the range it skips behind, and meets no new one. -/
theorem rangesAbove_skip {t : RangeTable} {x : Nat} {r : RangeId} (h : boundedAt t x = some r) :
    rangesAbove t ((t.entry r).last + 1) ⊂ rangesAbove t x := by
  obtain ⟨r0, present, first, last⟩ := boundedAt_some h
  refine Finset.ssubset_iff_subset_ne.mpr ⟨fun q hq => ?_, fun same => ?_⟩
  · simp only [rangesAbove, Finset.mem_filter, Finset.mem_univ, true_and] at hq ⊢
    obtain ⟨q0, qp, ql⟩ := hq
    exact ⟨q0, qp, by omega⟩
  · have skipped : r ∈ rangesAbove t ((t.entry r).last + 1) := by
      rw [same]
      simp only [rangesAbove, Finset.mem_filter, Finset.mem_univ, true_and]
      exact ⟨r0, present, last⟩
    simp only [rangesAbove, Finset.mem_filter, Finset.mem_univ, true_and] at skipped
    omega

/-- There are 15 bounded ranges. -/
theorem card_rangesAbove_le (t : RangeTable) (x : Nat) : (rangesAbove t x).card ≤ 15 := by
  have sub : rangesAbove t x ⊆ Finset.univ.erase 0 := fun q hq => by
    simp only [rangesAbove, Finset.mem_filter, Finset.mem_univ, true_and] at hq
    simp [hq.1]
  exact (Finset.card_le_card sub).trans (by decide)

/-- The skips pass LBAs of bounded ranges alone. -/
theorem skipBounded_passes (t : RangeTable) (n x : Nat) : x ≤ skipBounded t n x ∧
    ∀ y, x ≤ y → y < skipBounded t n x → boundedAt t y ≠ none := by
  induction n generalizing x with
  | zero => exact ⟨le_rfl, fun y hx hy => absurd hy (not_lt.mpr hx)⟩
  | succ n ih =>
    simp only [skipBounded]
    split
    · next r hr =>
      obtain ⟨r0, present, first, last⟩ := boundedAt_some hr
      obtain ⟨up, passed⟩ := ih ((t.entry r).last + 1)
      refine ⟨by omega, fun y hx hy none => ?_⟩
      by_cases inside : y ≤ (t.entry r).last
      · exact boundedAt_none.mp none r r0 present ⟨first.trans hx, inside⟩
      · exact passed y (by omega) hy none
    · exact ⟨le_rfl, fun y hx hy => absurd hy (not_lt.mpr hx)⟩

/-- As many skips as there are ranges to meet end outside every bounded range. -/
theorem skipBounded_outside {t : RangeTable} {n x : Nat} (h : (rangesAbove t x).card ≤ n) :
    boundedAt t (skipBounded t n x) = none := by
  induction n generalizing x with
  | zero =>
    rcases hr : boundedAt t x with _ | r
    · exact hr
    · have := Finset.card_lt_card (rangesAbove_skip hr)
      omega
  | succ n ih =>
    simp only [skipBounded]
    split
    · next r hr =>
      have := Finset.card_lt_card (rangesAbove_skip hr)
      exact ih (by omega)
    · assumption

/-- The lowest LBA of range 0 at or above `x`: the LBA after the skips, if it is below the capacity. -/
theorem lowestAt_global (t : RangeTable) (x : Nat) :
    (∀ y, lowestAt t 0 x = some y → x ≤ y ∧ (y < t.capacity ∧ boundedAt t y = none) ∧
      ∀ z, x ≤ z → z < t.capacity ∧ boundedAt t z = none → y ≤ z) ∧
    (lowestAt t 0 x = none → ∀ z, x ≤ z → ¬ (z < t.capacity ∧ boundedAt t z = none)) := by
  obtain ⟨up, passed⟩ := skipBounded_passes t 15 x
  have outside := skipBounded_outside (card_rangesAbove_le t x)
  have low : lowestAt t 0 x = if skipBounded t 15 x < t.capacity then some (skipBounded t 15 x) else none := rfl
  have least : ∀ z, x ≤ z → boundedAt t z = none → skipBounded t 15 x ≤ z := fun z above free =>
    not_lt.mp fun below => passed z above below free
  rw [low]
  split
  · next below =>
    refine ⟨fun y hy => ?_, fun h => nomatch h⟩
    obtain rfl := Option.some.inj hy
    exact ⟨up, ⟨below, outside⟩, fun z above hz => least z above hz.2⟩
  · next full =>
    refine ⟨fun y hy => (nomatch hy), fun _ z above hz => ?_⟩
    have := least z above hz.2
    omega

/-- The lowest LBA of a bounded range at or above `x`. -/
theorem lowestAt_bounded {t : RangeTable} {r : RangeId} (h0 : r ≠ 0) (ordered : (t.entry r).first ≤ (t.entry r).last)
    (x : Nat) :
    (∀ y, lowestAt t r x = some y → x ≤ y ∧
      ((t.entry r).present = true ∧ (t.entry r).first ≤ y ∧ y ≤ (t.entry r).last) ∧
      ∀ z, x ≤ z → (t.entry r).present = true ∧ (t.entry r).first ≤ z ∧ z ≤ (t.entry r).last → y ≤ z) ∧
    (lowestAt t r x = none →
      ∀ z, x ≤ z → ¬ ((t.entry r).present = true ∧ (t.entry r).first ≤ z ∧ z ≤ (t.entry r).last)) := by
  simp only [lowestAt, if_neg h0]
  split
  · next absent => exact ⟨fun y hy => (nomatch hy), fun _ z _ hz => by rw [absent] at hz; cases hz.1⟩
  · next present =>
    have present : (t.entry r).present = true := by simpa using present
    split
    · next below =>
      refine ⟨fun y hy => ?_, fun h => nomatch h⟩
      obtain rfl := Option.some.inj hy
      exact ⟨le_of_lt below, ⟨present, le_rfl, ordered⟩, fun z _ hz => hz.2.1⟩
    · next above =>
      split
      · next inside =>
        refine ⟨fun y hy => ?_, fun h => nomatch h⟩
        obtain rfl := Option.some.inj hy
        exact ⟨le_rfl, ⟨present, not_lt.mp above, inside⟩, fun z hx _ => hx⟩
      · next past => exact ⟨fun y hy => (nomatch hy), fun _ z hx hz => past (hx.trans hz.2.2)⟩

/-- Settles O24: range 0 by the skips over the bounded ranges, a bounded range by its bounds. -/
theorem lowestLbaOfRange : Obligations.LowestLbaOfRange := by
  intro t r belongs ordered x
  by_cases h0 : r = 0
  · subst h0
    have global : belongs = fun y => y < t.capacity ∧ boundedAt t y = none := by
      funext y
      simp only [belongs, if_true, boundedAt_none]
    rw [global]
    obtain ⟨found, missing⟩ := lowestAt_global t x
    exact least_from_iff found missing
  · have bounded : belongs = fun y =>
        (t.entry r).present = true ∧ (t.entry r).first ≤ y ∧ y ≤ (t.entry r).last := by
      funext y
      simp only [belongs, if_neg h0]
    rw [bounded]
    obtain ⟨found, missing⟩ := lowestAt_bounded h0 (ordered h0) x
    exact least_from_iff found missing

end Sys2Proof.Machine
end
section
/-! PROOFS. The Key Store's requests (R45, R49 to R58): each command on a record taken is a list of checks and one
effect, and the Key Clears that waited complete when their groups have lost the last pin. -/

namespace Sys2Proof.Machine

/-! ### KEY_OPEN (R51, R52) -/

/-- The checks of KEY_OPEN on a record whose cell, strength and reserved bytes are good (R51). -/
def openChecks (k : KeyStore) (base : CellId) (st : Strength) : List (Bool × Status) :=
  [(!(baseAllowed st base), .badField), (cellsOccupied k base st, .occupied)]

theorem exec_keyOpen {s : State} {r : Record} {base : CellId} {st : Strength} (taken : Taken s .s r .keyOpen)
    (cell : cellOf (recordField r 4 1) = some base) (fields : reservedZero r [4, 5] = true)
    (strength : strengthOfCode (recordField r 5 1) = some st) :
    exec .keyOpen s = .next (decideRecord .s r (openChecks s.keys base st) (takeRecord s .s)
      (answerRecord (takeRecord (s.setKeys (openLoad s.keys base st)) .s) .s r .ok
        (.keyLoad s.keys.load.isSome false 0))) := by
  show execKeyOpen s = _
  rw [execKeyOpen, onRecord_taken _ taken, withCell_some cell fields, strength, ← setKeys_takeRecord]
  rfl

theorem baseAllowed_iff (st : Strength) (base : CellId) : baseAllowed st base = true ↔ base.1 % st.size = 0 :=
  beq_iff_eq

/-- A cell of the new group is FILLED, or held by a group that is LOADING or RETIRING (R51). -/
theorem cellsOccupied_iff (k : KeyStore) (base : CellId) (st : Strength) : cellsOccupied k base st = true ↔
    ∃ c : CellId, base.1 ≤ c.1 ∧ c.1 < base.1 + st.size ∧
      ((k.cells.get c).filled = true ∨ ∃ h, groupHolding k c = some h ∧ h.2.state ≠ .filled) := by
  simp only [cellsOccupied, List.any_eq_true, List.mem_finRange, true_and, Bool.and_eq_true, Bool.or_eq_true, inGroup,
    decide_eq_true_eq, and_assoc]
  refine exists_congr fun c => and_congr_right fun _ => and_congr_right fun _ => or_congr_right ?_
  rcases groupHolding k c with _ | ⟨b, g⟩
  · simp
  · rcases h : g.state <;> simp [h]

/-- Where the strength is good, KEY_OPEN makes the checks of its table after the first. -/
theorem openChecks_agree {s : State} {r : Record} {st : Strength} (base : CellId)
    (strength : strengthOfCode (recordField r 5 1) = some st) :
    ChecksAgree (openChecks s.keys base st) (openTable s r base).tail := by
  refine .cons ⟨?_, rfl⟩ (.cons ⟨?_, rfl⟩ .nil)
  · simp [strength, ← baseAllowed_iff]
  · rw [cellsOccupied_iff, strength]
    simp

/-- The record of a group just opened (R52). -/
abbrev openedGroup (st : Strength) : GroupRec :=
  { state := .loading, strength := st, bound := none, pins := 0, waitingClear := none }

theorem openLoad_none {k : KeyStore} (h : k.load = none) (base : CellId) (st : Strength) :
    openLoad k base st =
      { cells := k.cells, groups := put k.groups base (some (openedGroup st)),
        load := some { base := base, strength := st, parts := [] } } := by
  simp only [openLoad, KeyStore.abandonLoad, h]

theorem openLoad_some {k : KeyStore} {l : OpenLoad} (h : k.load = some l) (base : CellId) (st : Strength) :
    openLoad k base st =
      { cells := emptyCells k.cells l.base l.strength,
        groups := put (put k.groups l.base none) base (some (openedGroup st)),
        load := some { base := base, strength := st, parts := [] } } := by
  simp only [openLoad, KeyStore.abandonLoad, h, KeyStore.removeGroup]

/-- A KEY_OPEN that is ready meets no condition of its table. -/
theorem openTable_pass {s : State} {r : Record} {base : CellId} {st : Strength} (h : OpenReady s r base st) :
    ∀ c ∈ openTable s r base, ¬ c.1 := by
  obtain ⟨-, -, -, strength, aligned, vacant⟩ := h
  have free : ¬ ∃ c : CellId, base.1 ≤ c.1 ∧ c.1 < base.1 + st.size ∧
      ((s.keys.cells.get c).filled = true ∨ ∃ h, groupHolding s.keys c = some h ∧ h.2.state ≠ .filled) := by
    rintro ⟨c, low, high, filled | ⟨g, held, state⟩⟩
    · rw [(vacant c low high).1] at filled
      cases filled
    · exact state ((vacant c low high).2 g (by simp [held]))
  simp only [openTable, strength, List.forall_mem_cons, Option.some.injEq, exists_eq_left', aligned]
  exact ⟨by simp, by simp, free, fun c hc => nomatch hc⟩

/-- A KEY_OPEN that is ready makes its group and its load. -/
theorem keyOpen_done {s : State} {r : Record} {base : CellId} {st : Strength} (h : OpenReady s r base st) :
    ∃ t, exec .keyOpen s = .next t ∧ SameMemory s t ∧ t = completed (s.setKeys (openLoad s.keys base st)) .s
      (answerOf r .ok (.keyLoad s.keys.load.isSome false 0)) := by
  have clear := openTable_pass h
  obtain ⟨taken, cell, fields, strength, -⟩ := h
  refine completed_of_exec ((exec_keyOpen taken cell fields strength).trans ?_) rfl
  rw [decideRecord_accept ((openChecks_agree base strength).pass fun c hc => clear c (List.mem_of_mem_tail hc))]

/-- A code that names no strength is refused BAD_FIELD before the other checks (R51). -/
theorem keyOpen_badStrength {s : State} {r : Record} {base : CellId} (taken : Taken s .s r .keyOpen)
    (cell : cellOf (recordField r 4 1) = some base) (fields : reservedZero r [4, 5] = true)
    (strength : strengthOfCode (recordField r 5 1) = none) : AnsweredOnly .keyOpen s .s r .badField .empty :=
  answeredOnly_of_exec (by
    show execKeyOpen s = _
    rw [execKeyOpen, onRecord_taken _ taken, withCell_some cell fields, strength])

/-- Settles O16: the checks agree with the table, and the effect is `openLoad`, without and with an open load. -/
theorem keyOpenMakesLoadingGroup : Obligations.KeyOpenMakesLoadingGroup := by
  intro s r base st
  refine ⟨fun refusal taken bad => ?_, fun ready => ⟨fun closed => ?_, fun l opened => ?_⟩⟩
  · rcases bad with ⟨field, rfl⟩ | ⟨cell, fields, refused⟩
    · exact answeredOnly_of_badCell (execKeyOpen.eq_def s) taken field
    · rcases strength : strengthOfCode (recordField r 5 1) with _ | st'
      · obtain rfl := refused.first strength
        exact keyOpen_badStrength taken cell fields strength
      · exact answeredOnly_of_checks (exec_keyOpen taken cell fields strength) (openChecks_agree base strength)
          (refused.rest (by simp [strength]))
  · have done := keyOpen_done ready
    rwa [openLoad_none closed, closed] at done
  · have done := keyOpen_done ready
    rwa [openLoad_some opened, opened] at done

/-! ### KEY_PART (R54) -/

/-- The assigned bytes of KEY_PART (R178). -/
abbrev partBytes : List Nat := [4] ++ byteSpan 16 31

/-- The checks of KEY_PART on the open load (R54). -/
def partChecks (k : KeyStore) (l : OpenLoad) (c : CellId) : List (Bool × Status) :=
  [(!(inGroup l.base l.strength c), .badField), (l.parts.contains c || (k.cells.get c).filled, .cellRepeat)]

/-- Before the group's last cell the load stays open with one cell more (R54). -/
theorem fillPart_part {k : KeyStore} {l : OpenLoad} {c : CellId} (part : (addPart l.parts c).length ≠ l.strength.size)
    (bits : Block) : fillPart k l c bits =
      { cells := put k.cells c { filled := true, bits := bits }, groups := k.groups,
        load := some { l with parts := addPart l.parts c } } := by
  simp only [fillPart, if_neg part]

/-- With the last cell the load closes and the group is FILLED (R54). -/
theorem fillPart_last {k : KeyStore} {l : OpenLoad} {c : CellId} (last : (addPart l.parts c).length = l.strength.size)
    (bits : Block) : fillPart k l c bits =
      { cells := put k.cells c { filled := true, bits := bits },
        groups := put k.groups l.base ((k.groups.get l.base).map fun g => { g with state := .filled }),
        load := none } := by
  simp only [fillPart, if_pos last, KeyStore.changeGroup]

/-- The answer to a KEY_PART that fills its cell (R54). -/
def partBody (l : OpenLoad) (c : CellId) : Body :=
  .keyLoad false (decide ((addPart l.parts c).length = l.strength.size)) (addPart l.parts c).length

theorem partBody_part {l : OpenLoad} {c : CellId} (part : (addPart l.parts c).length ≠ l.strength.size) :
    partBody l c = .keyLoad false false (addPart l.parts c).length := by rw [partBody, decide_eq_false part]

theorem partBody_last {l : OpenLoad} {c : CellId} (last : (addPart l.parts c).length = l.strength.size) :
    partBody l c = .keyLoad false true (addPart l.parts c).length := by rw [partBody, decide_eq_true last]

theorem exec_keyPart {s : State} {r : Record} {c : CellId} {l : OpenLoad} (taken : Taken s .s r .keyPart)
    (cell : cellOf (recordField r 4 1) = some c) (fields : reservedZero r partBytes = true)
    (opened : s.keys.load = some l) :
    exec .keyPart s = .next (decideRecord .s r (partChecks s.keys l c) (takeRecord s .s)
      (answerRecord (takeRecord (s.setKeys (fillPart s.keys l c (r.extractLsb' 128 128))) .s) .s r .ok
        (partBody l c))) := by
  show execKeyPart s = _
  rw [execKeyPart, onRecord_taken _ taken, withCell_some cell fields, takeRecord_keys, opened, ← setKeys_takeRecord]
  rfl

/-- With no load open, KEY_PART is refused NO_LOAD before the other checks (R54). -/
theorem keyPart_noLoad {s : State} {r : Record} {c : CellId} (taken : Taken s .s r .keyPart)
    (cell : cellOf (recordField r 4 1) = some c) (fields : reservedZero r partBytes = true)
    (closed : s.keys.load = none) : AnsweredOnly .keyPart s .s r .noLoad .empty :=
  answeredOnly_of_exec (by
    show execKeyPart s = _
    rw [execKeyPart, onRecord_taken _ taken, withCell_some cell fields, takeRecord_keys, closed])

/-- On an open load, KEY_PART makes the checks of its table after the first. -/
theorem partChecks_agree {s : State} {l : OpenLoad} (opened : s.keys.load = some l) (c : CellId) :
    ChecksAgree (partChecks s.keys l c) (partTable s c).tail := by
  refine .cons ⟨?_, rfl⟩ (.cons ⟨?_, rfl⟩ .nil)
  · simp only [opened, inGroup, Bool.not_eq_true', ← Bool.not_eq_true, Bool.and_eq_true, decide_eq_true_eq,
      Option.some.injEq, exists_eq_left']
  · simp [opened]

theorem partTable_pass {s : State} {r : Record} {c : CellId} {l : OpenLoad} (h : PartReady s r c l) :
    ∀ x ∈ partTable s c, ¬ x.1 := by
  obtain ⟨-, -, -, opened, low, high, fresh, empty⟩ := h
  simp only [partTable, opened, List.forall_mem_cons, Option.some.injEq, exists_eq_left']
  exact ⟨by simp, not_not.mpr ⟨low, high⟩, by simp [fresh, empty], fun x hx => nomatch hx⟩

/-- A KEY_PART that is ready fills its cell. -/
theorem keyPart_done {s : State} {r : Record} {c : CellId} {l : OpenLoad} (h : PartReady s r c l) :
    ∃ t, exec .keyPart s = .next t ∧ SameMemory s t ∧
      t = completed (s.setKeys (fillPart s.keys l c (r.extractLsb' 128 128))) .s (answerOf r .ok (partBody l c)) := by
  have clear := partTable_pass h
  obtain ⟨taken, cell, fields, opened, -⟩ := h
  refine completed_of_exec ((exec_keyPart taken cell fields opened).trans ?_) rfl
  rw [decideRecord_accept ((partChecks_agree opened c).pass fun x hx => clear x (List.mem_of_mem_tail hx))]

/-- Settles O17: the checks agree with the table, and the effect is `fillPart`, before and at the last cell. -/
theorem keyPartFillsCell : Obligations.KeyPartFillsCell := by
  intro s r c l
  refine ⟨fun refusal taken bad => ?_, fun ready => ⟨fun part => ?_, fun last => ?_⟩⟩
  · rcases bad with ⟨field, rfl⟩ | ⟨cell, fields, refused⟩
    · exact answeredOnly_of_badCell (execKeyPart.eq_def s) taken field
    · rcases opened : s.keys.load with _ | l'
      · obtain rfl := refused.first opened
        exact keyPart_noLoad taken cell fields opened
      · exact answeredOnly_of_checks (exec_keyPart taken cell fields opened) (partChecks_agree opened c)
          (refused.rest (by simp [opened]))
  · have done := keyPart_done ready
    rw [fillPart_part part, partBody_part part] at done
    exact done
  · have done := keyPart_done ready
    rw [fillPart_last last, partBody_last last] at done
    exact done

/-! ### KEY_CLEAR (R57, R58) -/

/-- The checks of KEY_CLEAR on the group that holds the cell (R57). -/
def clearChecks (c b : CellId) (g : GroupRec) : List (Bool × Status) :=
  [(b != c, .badGroup), (g.bound.isSome, .bound), (g.state == .retiring, .busy)]

theorem exec_keyClear_held {s : State} {r : Record} {c b : CellId} {g : GroupRec} (h : ClearTaken s r c)
    (held : groupHolding s.keys c = some (b, g)) :
    exec .keyClear s = .next (decideRecord .s r (clearChecks c b g) (takeRecord s .s)
      (clearGroup (takeRecord s .s) r c g)) := by
  obtain ⟨taken, cell, fields⟩ := h
  show execKeyClear s = _
  rw [execKeyClear, onRecord_taken _ taken, withCell_some cell fields, takeRecord_keys, held]
  rfl

theorem exec_keyClear_empty {s : State} {r : Record} {c : CellId} (h : ClearTaken s r c)
    (empty : groupHolding s.keys c = none) :
    exec .keyClear s = .next (answerRecord (takeRecord s .s) .s r .ok .empty) := by
  obtain ⟨taken, cell, fields⟩ := h
  show execKeyClear s = _
  rw [execKeyClear, onRecord_taken _ taken, withCell_some cell fields, takeRecord_keys, empty]

/-- On the base cell of a group, KEY_CLEAR makes the checks of its table. -/
theorem clearChecks_agree {s : State} {c : CellId} {g : GroupRec} (held : groupHolding s.keys c = some (c, g)) :
    ChecksAgree (clearChecks c c g) (clearTable s c) := by
  refine .cons ⟨?_, rfl⟩ (.cons ⟨?_, rfl⟩ (.cons ⟨?_, rfl⟩ .nil))
  · simp [held]
  · simp [held, Option.isSome_iff_ne_none]
  · simp [held]

/-- An EMPTY cell of no group is refused by no check (R57). -/
theorem clearTable_empty {s : State} {c : CellId} (empty : groupHolding s.keys c = none) {st : Status} :
    ¬ Refuses (clearTable s c) st := by
  simp [clearTable, Refuses, empty]

/-- KEY_CLEAR is refused as its table says: BAD_GROUP on a cell that is not its group's base, and else by the checks on
the group (R57). -/
theorem keyClear_refused {s : State} {r : Record} {c : CellId} {st : Status} (h : ClearTaken s r c)
    (refused : Refuses (clearTable s c) st) : AnsweredOnly .keyClear s .s r st .empty := by
  rcases held : groupHolding s.keys c with _ | ⟨b, g⟩
  · exact absurd refused (clearTable_empty held)
  · by_cases base : b = c
    · subst base
      exact answeredOnly_of_checks (exec_keyClear_held h held) (clearChecks_agree held) refused
    · obtain rfl := refused.first ⟨b, g, held, base⟩
      refine answeredOnly_of_exec ((exec_keyClear_held h held).trans ?_)
      simp [decideRecord, clearChecks, firstRefusal_cons, base]

/-- On an unbound group that is not RETIRING, KEY_CLEAR clears (R57). -/
theorem exec_keyClear_clears {s : State} {r : Record} {c : CellId} {g : GroupRec} (h : ClearTaken s r c)
    (held : groupHolding s.keys c = some (c, g)) (unbound : g.bound = none) (state : g.state ≠ .retiring) :
    exec .keyClear s = .next (clearGroup (takeRecord s .s) r c g) := by
  refine (exec_keyClear_held h held).trans ?_
  rw [decideRecord_accept (by simp [clearChecks, firstRefusal_cons, unbound, state])]

theorem abandonLoad_some {k : KeyStore} {l : OpenLoad} (h : k.load = some l) : k.abandonLoad =
    { cells := emptyCells k.cells l.base l.strength, groups := put k.groups l.base none, load := none } := by
  simp only [KeyStore.abandonLoad, h, KeyStore.removeGroup]

/-- A record taken with a change of the Key Store and no completion yet. -/
theorem takenOnly_of_exec {c : Instr} {s u : State} {p : Port} (runs : exec c s = .next (takeRecord u p))
    (memory : u.buffer = s.buffer) : ∃ t, exec c s = .next t ∧ SameMemory s t ∧ t = takenOnly u p :=
  ⟨_, runs, sameMemory_of_buffer (by rw [takeRecord_buffer, memory]), rfl⟩

/-- Settles O18: what emptying does to each cell, the refusals, and one effect for each state of the group. -/
theorem keyClearByGroupState : Obligations.KeyClearByGroupState := by
  refine ⟨emptyCells_get, fun s r c => ⟨fun taken field => ?_, fun st => keyClear_refused, fun h =>
    ⟨fun empty => ?_, fun g l held unbound state opened => ?_, fun g held unbound state free => ?_,
      fun g held unbound state pinned => ?_⟩⟩⟩
  · exact answeredOnly_of_badCell (execKeyClear.eq_def s) taken field
  · exact completed_of_exec (exec_keyClear_empty h empty) rfl
  · have runs := exec_keyClear_clears h held unbound (by simp [state])
    refine completed_of_exec (runs.trans ?_) (State.setKeys_buffer ..)
    simp only [clearGroup, state, takeRecord_keys, abandonLoad_some opened, setKeys_takeRecord]
  · have runs := exec_keyClear_clears h held unbound (by simp [state])
    refine completed_of_exec (runs.trans ?_) (State.setKeys_buffer ..)
    simp only [clearGroup, state, free, if_true, takeRecord_keys, KeyStore.removeGroup, setKeys_takeRecord]
  · have runs := exec_keyClear_clears h held unbound (by simp [state])
    obtain ⟨⟨stands, -⟩, -⟩ := groupHolding_iff.mp held
    refine takenOnly_of_exec (runs.trans ?_) (State.setKeys_buffer ..)
    simp only [clearGroup, state, if_neg pinned, takeRecord_keys, KeyStore.changeGroup, stands, Option.map_some,
      setKeys_takeRecord]

/-! ### Waiting Key Clears (R58) -/

/-- A waiting Key Clear done leaves the records of the other groups as they were. -/
theorem finishKeyClear_others (s : State) {g g' : CellId} (h : g' ≠ g) :
    (finishKeyClear s g).keys.groups.get g' = s.keys.groups.get g' := by
  rw [finishKeyClear_eq, heldPosted_keys, State.setKeys_keys, clearOne_groups, if_neg h]

/-- Groups that are not released are passed over. -/
theorem foldl_finishKeyClear_quiet {s : State} {L : List CellId}
    (h : ∀ g ∈ L, ∀ e ∈ (s.keys.groups.get g).toList, e.state = .retiring → e.pins ≠ 0) :
    L.foldl finishKeyClear s = s := by
  induction L with
  | nil => rfl
  | cons g L ih =>
    obtain ⟨quiet, rest⟩ := List.forall_mem_cons.mp h
    rw [List.foldl_cons, finishKeyClear_quiet quiet, ih rest]

/-- Where no group but one can be released, that one alone is looked at. -/
theorem finishKeyClears_single {s : State} {g : CellId}
    (others : ∀ g' : CellId, g' ≠ g → ∀ e' ∈ (s.keys.groups.get g').toList, e'.state = .retiring → e'.pins ≠ 0) :
    finishKeyClears s = finishKeyClear s g := by
  obtain ⟨before, after, split⟩ := List.append_of_mem (List.mem_finRange g)
  have distinct := List.nodup_finRange 64
  rw [split, List.nodup_middle, List.nodup_cons, List.mem_append, not_or] at distinct
  obtain ⟨⟨notBefore, notAfter⟩, -⟩ := distinct
  have below : before.foldl finishKeyClear s = s :=
    foldl_finishKeyClear_quiet fun g' hg' => others g' fun e => notBefore (e ▸ hg')
  have above : after.foldl finishKeyClear (finishKeyClear s g) = finishKeyClear s g :=
    foldl_finishKeyClear_quiet fun g' hg' => by
      have ne : g' ≠ g := fun e => notAfter (e ▸ hg')
      rw [finishKeyClear_others s ne]
      exact others g' ne
  rw [finishKeyClears, split, List.foldl_append, below, List.foldl_cons, above]

/-- A released group is emptied, its record removed, and the waiting Key Clear completes with its tag (R58). -/
theorem finishKeyClear_released {s : State} {g : CellId} {e : GroupRec} {tag : Tag}
    (stands : s.keys.groups.get g = some e) (retiring : e.state = .retiring) (free : e.pins = 0)
    (waiting : e.waitingClear = some tag) : finishKeyClear s g =
      post (s.setKeys (s.keys.removeGroup g e.strength)) .s (heldCompletion .keyClear tag .empty) := by
  simp only [finishKeyClear, stands, retiring, free, waiting, and_self, if_true]

theorem finishKeyClears_buffer (s : State) : (finishKeyClears s).buffer = s.buffer := by
  obtain ⟨posted, -⟩ := finishKeyClears_done s
  rw [posted, heldPosted_buffer, State.setKeys_buffer]

/-- Settles O19: all the Key Clears by what the fold over the cells does, and the one by its own step. -/
theorem deferredKeyClearCompletes : Obligations.DeferredKeyClearCompletes := by
  refine ⟨fun s => ⟨_, rfl, sameMemory_of_buffer (finishKeyClears_buffer s), finishKeyClears_done s⟩,
    fun s g e tag stands retiring free waiting place others => ?_⟩
  refine ⟨_, rfl, sameMemory_of_buffer (finishKeyClears_buffer s), ?_⟩
  rw [finishKeyClears_single others, finishKeyClear_released stands retiring free waiting,
    post_eq (s.setKeys (s.keys.removeGroup g e.strength)) .s _ place]
  rfl

end Sys2Proof.Machine
end
section
/-! PROOFS. The state with other key cells (R45): each named update of another part, and each shared operation made of
them, is the same change with the cells to the side. -/

namespace Sys2Proof.Machine

/-! ### Other cells in the Key Store -/

/-- The Key Store with other cells. -/
def KeyStore.withCells (k : KeyStore) (v : Vector KeyCell 64) : KeyStore := { k with cells := v }

/-- The state with other key cells. -/
def State.withCells (s : State) (v : Vector KeyCell 64) : State := { s with keys := s.keys.withCells v }

/-- A key cell that is EMPTY (R45). -/
abbrev KeyCell.empty : KeyCell := { filled := false, bits := 0 }

/-- The same cells of two stores are FILLED. -/
def SameFilled (v w : Vector KeyCell 64) : Prop := ∀ c, (v.get c).filled = (w.get c).filled

/-- Each cell keeps its bits or is EMPTY. -/
def CellsEmptied (v w : Vector KeyCell 64) : Prop := ∀ c, w.get c = v.get c ∨ w.get c = .empty

theorem SameFilled.refl (v : Vector KeyCell 64) : SameFilled v v := fun _ => rfl

theorem CellsEmptied.refl (v : Vector KeyCell 64) : CellsEmptied v v := fun _ => .inl rfl

theorem CellsEmptied.trans {u v w : Vector KeyCell 64} (h : CellsEmptied u v) (h' : CellsEmptied v w) :
    CellsEmptied u w := fun c => by
  rcases h' c with e | e
  · rcases h c with e' | e'
    · exact .inl (e.trans e')
    · exact .inr (e.trans e')
  · exact .inr e

@[simp] theorem State.withCells_self (s : State) : s.withCells s.keys.cells = s := rfl
@[simp] theorem State.withCells_withCells (s : State) (v w : Vector KeyCell 64) :
    (s.withCells v).withCells w = s.withCells w := rfl

@[simp] theorem ite_withCells (p : Prop) [Decidable p] (s t : State) (v : Vector KeyCell 64) :
    (if p then s else t).withCells v = if p then s.withCells v else t.withCells v :=
  apply_ite (State.withCells · v) p s t

section
variable (s : State) (v : Vector KeyCell 64)

@[simp] theorem State.withCells_ports : (s.withCells v).ports = s.ports := rfl
@[simp] theorem State.withCells_table : (s.withCells v).table = s.table := rfl
@[simp] theorem State.withCells_keys : (s.withCells v).keys = s.keys.withCells v := rfl
@[simp] theorem State.withCells_jobs : (s.withCells v).jobs = s.jobs := rfl
@[simp] theorem State.withCells_arbiter : (s.withCells v).arbiter = s.arbiter := rfl
@[simp] theorem State.withCells_lanes : (s.withCells v).lanes = s.lanes := rfl
@[simp] theorem State.withCells_bufferPort : (s.withCells v).bufferPort = s.bufferPort := rfl
@[simp] theorem State.withCells_sweep : (s.withCells v).sweep = s.sweep := rfl
@[simp] theorem State.withCells_stage : (s.withCells v).stage = s.stage := rfl
@[simp] theorem State.withCells_buffer : (s.withCells v).buffer = s.buffer := rfl
@[simp] theorem State.withCells_answer : (s.withCells v).answer = s.answer := rfl
@[simp] theorem State.withCells_draws : (s.withCells v).draws = s.draws := rfl
@[simp] theorem State.withCells_pending : (s.withCells v).pending = s.pending := rfl
@[simp] theorem State.withCells_port (p : Port) : (s.withCells v).port p = s.port p := by cases p <;> rfl

/-! Each named update of another part, and each shared operation made of them, leaves the cells to the side. -/

@[simp] theorem setPort_withCells (p : Port) (q : PortQueues) :
    (s.withCells v).setPort p q = (s.setPort p q).withCells v := by cases p <;> rfl
@[simp] theorem setEvents_withCells (e : EventSet) : (s.withCells v).setEvents e = (s.setEvents e).withCells v := rfl
@[simp] theorem setRange_withCells (r : RangeId) (e : RangeRec) :
    (s.withCells v).setRange r e = (s.setRange r e).withCells v := rfl
@[simp] theorem setSweep_withCells (w : SweepUnit) : (s.withCells v).setSweep w = (s.setSweep w).withCells v := rfl
@[simp] theorem setBufferPort_withCells (b : BufferPort) :
    (s.withCells v).setBufferPort b = (s.setBufferPort b).withCells v := rfl
@[simp] theorem setLane_withCells (l : LaneId) (x : Lane) :
    (s.withCells v).setLane l x = (s.setLane l x).withCells v := rfl
@[simp] theorem setStage_withCells (c : StageController) :
    (s.withCells v).setStage c = (s.setStage c).withCells v := rfl
@[simp] theorem setAnswer_withCells (a : Answer) : (s.withCells v).setAnswer a = (s.setAnswer a).withCells v := rfl
@[simp] theorem setJob_withCells (side : Side) (k : Nat) (j : Option Job) :
    setJob (s.withCells v) side k j = (setJob s side k j).withCells v := by cases side <;> rfl
@[simp] theorem mapJobs_withCells (side : Side) (f : Job → Job) :
    mapJobs (s.withCells v) side f = (mapJobs s side f).withCells v := by cases side <;> rfl
@[simp] theorem jobAt_withCells : jobAt (s.withCells v) = jobAt s := rfl
@[simp] theorem takeRecord_withCells (p : Port) : takeRecord (s.withCells v) p = (takeRecord s p).withCells v := by
  simp [takeRecord]
@[simp] theorem post_withCells (p : Port) (c : Completion) : post (s.withCells v) p c = (post s p c).withCells v := by
  simp [post]
@[simp] theorem postFree_withCells (p : Port) (c : Completion) :
    postFree (s.withCells v) p c = (postFree s p c).withCells v := by simp [postFree]
@[simp] theorem answerRecord_withCells (p : Port) (r : Record) (st : Status) (b : Body) :
    answerRecord (s.withCells v) p r st b = (answerRecord s p r st b).withCells v := by simp [answerRecord]
@[simp] theorem setKeys_withCells (k : KeyStore) : s.setKeys (k.withCells v) = (s.setKeys k).withCells v := rfl
@[simp] theorem State.setKeys_setKeys (k k' : KeyStore) : (s.setKeys k).setKeys k' = s.setKeys k' := rfl
@[simp] theorem State.setKeys_self : s.setKeys s.keys = s := rfl
@[simp] theorem withCells_setKeys (k : KeyStore) : (s.withCells v).setKeys k = s.setKeys k := rfl

end

section
variable (k : KeyStore) (v : Vector KeyCell 64)

@[simp] theorem KeyStore.withCells_groups : (k.withCells v).groups = k.groups := rfl
@[simp] theorem KeyStore.withCells_load : (k.withCells v).load = k.load := rfl
@[simp] theorem KeyStore.withCells_cells : (k.withCells v).cells = v := rfl
@[simp] theorem changeGroup_withCells (g : CellId) (f : GroupRec → GroupRec) :
    (k.withCells v).changeGroup g f = (k.changeGroup g f).withCells v := rfl
@[simp] theorem setBound_withCells (g : CellId) (b : Option BoundTo) :
    (k.withCells v).setBound g b = (k.setBound g b).withCells v := rfl
@[simp] theorem unbind_withCells (b : Option Binding) : (k.withCells v).unbind b = (k.unbind b).withCells v := by
  cases b <;> rfl
@[simp] theorem pin_withCells (gs : List CellId) : (k.withCells v).pin gs = (k.pin gs).withCells v :=
  List.foldl_hom (KeyStore.withCells · v) fun _ _ => rfl
@[simp] theorem unpin_withCells (gs : List CellId) : (k.withCells v).unpin gs = (k.unpin gs).withCells v :=
  List.foldl_hom (KeyStore.withCells · v) fun _ _ => rfl
@[simp] theorem removeGroup_withCells (g : CellId) (st : Strength) :
    (k.withCells v).removeGroup g st = (k.removeGroup g st).withCells (emptyCells v g st) := rfl
@[simp] theorem groupHolding_withCells : groupHolding (k.withCells v) = groupHolding k := rfl

end

theorem SameFilled.emptyCells {v w : Vector KeyCell 64} (h : SameFilled v w) (g : CellId) (st : Strength) :
    SameFilled (emptyCells v g st) (emptyCells w g st) := fun c => by
  simp only [Machine.emptyCells, Vector.get_ofFn]
  split
  · rfl
  · exact h c

theorem cellsEmptied_emptyCells (v : Vector KeyCell 64) (g : CellId) (st : Strength) :
    CellsEmptied v (emptyCells v g st) := fun c => by
  simp only [emptyCells, Vector.get_ofFn]
  split
  · exact .inr rfl
  · exact .inl rfl

theorem sameButKeyBits_iff {s t : State} :
    SameButKeyBits s t ↔ ∃ v, SameFilled s.keys.cells v ∧ t = s.withCells v := by
  constructor
  · exact fun ⟨filled, same⟩ => ⟨t.keys.cells, filled, same.symm⟩
  · rintro ⟨v, filled, rfl⟩
    exact ⟨filled, rfl⟩

section
variable (s : State) (v : Vector KeyCell 64)

/-! ### Operations that leave the cells alone -/

@[simp] theorem countRefusal_withCells (r : RangeId) :
    countRefusal (s.withCells v) r = (countRefusal s r).withCells v := by
  by_cases h : (s.table.entry r).refusals = 0 <;> simp [countRefusal, raiseRangeRefused, h]

@[simp] theorem endSweep_withCells (r : RangeId) : endSweep (s.withCells v) r = (endSweep s r).withCells v := by
  simp [endSweep, raiseSweepDone]

@[simp] theorem advanceMark_withCells (r : RangeId) :
    advanceMark (s.withCells v) r = (advanceMark s r).withCells v := by
  rcases h : s.sweep.marks.get r with _ | mark <;> simp [advanceMark, h]

@[simp] theorem askAccess_withCells (a : Access) : askAccess (s.withCells v) a = (askAccess s a).withCells v := by
  by_cases h : s.bufferPort.faulted = true <;> simp [askAccess, h]

@[simp] theorem accessOf_withCells : accessOf (s.withCells v) = accessOf s := rfl

@[simp] theorem clearAccess_withCells (who : Requester) :
    clearAccess (s.withCells v) who = (clearAccess s who).withCells v := rfl

@[simp] theorem landWrite_withCells (a : Access) : landWrite (s.withCells v) a = (landWrite s a).withCells v := rfl

@[simp] theorem placeBytes_withCells (a : Access) (placed : List Byte) :
    placeBytes (s.withCells v) a placed = (placeBytes s a placed).withCells v := rfl

@[simp] theorem cutWrite_withCells (a : Access) : cutWrite (s.withCells v) a = (cutWrite s a).withCells v := by
  simp only [cutWrite, ite_withCells]
  rfl

/-- Operations one after the other that each leave the cells alone. -/
theorem foldl_withCells {α : Type} {f : State → α → State} (h : ∀ u a, f (u.withCells v) a = (f u a).withCells v)
    (L : List α) : L.foldl f (s.withCells v) = (L.foldl f s).withCells v :=
  List.foldl_hom (State.withCells · v) h

@[simp] theorem dropAll_withCells : dropAll (s.withCells v) = (dropAll s).withCells v := by
  simp only [dropAll, State.withCells_bufferPort]
  rw [foldl_withCells s v fun u a => cutWrite_withCells u v a]
  rfl

@[simp] theorem freeLane_withCells (l : LaneId) : freeLane (s.withCells v) l = (freeLane s l).withCells v := rfl

@[simp] theorem setWork_withCells (l : LaneId) (w : Work) :
    setWork (s.withCells v) l w = (setWork s l w).withCells v := rfl

@[simp] theorem startWriting_withCells (l : LaneId) (w : Work) (result : List Byte) :
    startWriting (s.withCells v) l w result = (startWriting s l w result).withCells v := by simp [startWriting]

@[simp] theorem endSector_withCells (side : Side) (k lba : Nat) (verdict : Verdict) :
    endSector (s.withCells v) side k lba verdict = (endSector s side k lba verdict).withCells v := by
  rcases h : jobAt s side k with _ | j <;> simp [endSector, h]

@[simp] theorem abandonSector_withCells (l : LaneId) :
    abandonSector (s.withCells v) l = (abandonSector s l).withCells v := by
  rcases h : (s.lanes.get l).work with _ | w <;> simp [abandonSector, h]

@[simp] theorem abandonUnlessWriting_withCells (l : LaneId) :
    abandonUnlessWriting (s.withCells v) l = (abandonUnlessWriting s l).withCells v := by
  rcases h : (s.lanes.get l).work with _ | w <;> simp [abandonUnlessWriting, h]

@[simp] theorem abandonAll_withCells : abandonAll (s.withCells v) = (abandonAll s).withCells v :=
  foldl_withCells s v (fun u l => abandonSector_withCells u v l) _

/-! ### The end of a job -/

@[simp] theorem claimOfJob_withCells : claimOfJob (s.withCells v) = claimOfJob s := rfl

@[simp] theorem changeClaimOfJob_withCells (k : Nat) (f : Claim → Claim) :
    changeClaimOfJob (s.withCells v) k f = (changeClaimOfJob s k f).withCells v := rfl

@[simp] theorem settleClaim_withCells (k : Nat) (cause : Option EndCause) :
    settleClaim (s.withCells v) k cause = (settleClaim s k cause).withCells v := by
  simp only [settleClaim, claimOfJob_withCells]
  rcases claimOfJob s k with _ | c
  · rfl
  · rcases cause with _ | cause
    · simp
    · cases cause with
      | busFault => simp
      | aborted => rfl
      | zeroized => rfl
      | sweepCancelled => rfl

@[simp] theorem postJob_withCells (side : Side) (k : Nat) (j : Job) :
    postJob (s.withCells v) side k j = (postJob s side k j).withCells v := by simp [postJob_eq]

@[simp] theorem listOrPost_withCells (side : Side) (k : Nat) (j : Job) :
    listOrPost (s.withCells v) side k j = (listOrPost s side k j).withCells v := by
  simp only [listOrPost]
  split
  · split <;> simp
  · simp

@[simp] theorem endJob_withCells (side : Side) (k : Nat) (j : Job) :
    endJob (s.withCells v) side k j = (endJob s side k j).withCells v := by
  simp only [endJob]
  split <;> simp

@[simp] theorem closeJob_withCells (side : Side) (k : Nat) :
    closeJob (s.withCells v) side k = (closeJob s side k).withCells v := by
  rcases h : jobAt s side k with _ | j <;> simp [closeJob, h]

@[simp] theorem reportSector_withCells (l : LaneId) (verdict : Verdict) :
    reportSector (s.withCells v) l verdict = (reportSector s l verdict).withCells v := by
  rcases h : (s.lanes.get l).work with _ | w <;> simp [reportSector, h]

@[simp] theorem endOnFault_withCells (side : Side) (k : Nat) :
    endOnFault side (s.withCells v) k = (endOnFault side s k).withCells v := by
  rcases h : jobAt s side k with _ | j
  · simp [endOnFault, h]
  · simp only [endOnFault, jobAt_withCells, h]
    split <;> simp

/-! ### The Stage Controller and the ends of a drain and a reset -/

@[simp] theorem tableEmpty_withCells : tableEmpty (s.withCells v) = tableEmpty s := rfl

@[simp] theorem restartTimer_withCells : restartTimer (s.withCells v) = (restartTimer s).withCells v := rfl

@[simp] theorem jobAccepted_withCells (side : Side) :
    jobAccepted (s.withCells v) side = (jobAccepted s side).withCells v := by
  cases side with
  | i => rfl
  | m => by_cases h : s.stage.mediaCounts = true <;> simp [jobAccepted, h]

@[simp] theorem wakePart_withCells (cause : TestCause) (tag : Option Tag) :
    wakePart (s.withCells v) cause tag = (wakePart s cause tag).withCells v := rfl

@[simp] theorem recordWaits_withCells : recordWaits (s.withCells v) = recordWaits s := by
  funext side
  cases side <;> rfl

@[simp] theorem wakeByRecord_withCells : wakeByRecord (s.withCells v) = (wakeByRecord s).withCells v := by
  simp [wakeByRecord]

@[simp] theorem retainEntry_withCells (cause : RetainCause) :
    retainEntry (s.withCells v) cause = (retainEntry s cause).withCells v := rfl

@[simp] theorem endDrain_withCells : endDrain (s.withCells v) = (endDrain s).withCells v := by
  rcases h : s.stage.waitingRetain with _ | tag <;> simp [endDrain, h]

@[simp] theorem expireTimer_withCells : expireTimer (s.withCells v) = (expireTimer s).withCells v := by
  simp [expireTimer]

@[simp] theorem timerSecond_withCells : timerSecond (s.withCells v) = (timerSecond s).withCells v := by
  simp [timerSecond]

@[simp] theorem completeReset_withCells (r : ResetRun) :
    completeReset (s.withCells v) r = (completeReset s r).withCells v := rfl

@[simp] theorem resetPortAndArbiter_withCells :
    resetPortAndArbiter (s.withCells v) = (resetPortAndArbiter s).withCells v := rfl

@[simp] theorem resetClear_withCells : resetClear (s.withCells v) = resetClear s := rfl

@[simp] theorem endEngineReset_withCells : endEngineReset (s.withCells v) = (endEngineReset s).withCells v := by
  rcases h : s.ports.reset with _ | run
  · simp [endEngineReset, h]
  · by_cases ends : run.kind = .engine ∧ resetClear s run = true <;> simp [endEngineReset, h, ends]

end

end Sys2Proof.Machine
end
section
/-! PROOFS. Changes and commands that are blind to key bits (R45): what they answer depends on which cells are FILLED
alone, and they write no FILLED cell but to empty it. Each shared operation that empties cells is one, and each way of
deciding a record leads to one. -/

namespace Sys2Proof.Machine

/-! ### Changes blind to key bits (R45) -/

/-- A change of the part that is blind to key bits: with the same cells FILLED but other bits in them it answers the
same state but for the cells, and it writes no cell but to empty it. -/
def Blind (f : State → State) : Prop :=
  ∀ s v, SameFilled s.keys.cells v →
    ∃ w, CellsEmptied v w ∧ SameFilled (f s).keys.cells w ∧ f (s.withCells v) = (f s).withCells w

/-- A change that leaves the cells alone is blind, even where it looks at which of them are FILLED. -/
theorem Blind.of_filled {f : State → State}
    (h : ∀ (s : State) v, SameFilled s.keys.cells v → f (s.withCells v) = (f s).withCells v) : Blind f :=
  fun s v filled => by
    have own : f s = (f s).withCells s.keys.cells := h s s.keys.cells (.refl _)
    refine ⟨v, .refl v, ?_, h s v filled⟩
    rw [own]
    exact filled

theorem Blind.of_eq {f : State → State} (h : ∀ s v, f (s.withCells v) = (f s).withCells v) : Blind f :=
  .of_filled fun s v _ => h s v

theorem Blind.id : Blind fun s => s := .of_eq fun _ _ => rfl

/-- One blind change after another. -/
theorem Blind.comp {f g : State → State} (hf : Blind f) (hg : Blind g) : Blind fun s => g (f s) := fun s v filled => by
  obtain ⟨w, emptied, same, run⟩ := hf s v filled
  obtain ⟨w', emptied', same', run'⟩ := hg (f s) w same
  exact ⟨w', emptied.trans emptied', same', (congrArg g run).trans run'⟩

theorem Blind.foldl {α : Type} {f : State → α → State} (h : ∀ a, Blind fun s => f s a) :
    ∀ L : List α, Blind fun s => L.foldl f s
  | [] => .id
  | a :: L => (h a).comp (Blind.foldl h L)

/-- In each state the change is one that is blind, the same for all bits of the cells. -/
theorem Blind.of_cases {f : State → State}
    (h : ∀ s : State, ∃ g, Blind g ∧ ∀ v, SameFilled s.keys.cells v → f (s.withCells v) = g (s.withCells v)) :
    Blind f := fun s v filled => by
  obtain ⟨g, blind, eq⟩ := h s
  have own : f s = g s := eq s.keys.cells (.refl _)
  rw [own, eq v filled]
  exact blind s v filled

theorem answerRecord_blind (p : Port) (r : Record) (st : Status) (b : Body) :
    Blind fun s => answerRecord s p r st b := .of_eq fun _ _ => by simp

theorem Blind.answered {f : State → State} (h : Blind f) (p : Port) (r : Record) (st : Status) (b : Body) :
    Blind fun s => answerRecord (f s) p r st b := h.comp (answerRecord_blind p r st b)

/-! ### Cells emptied -/

theorem removeGroup_blind (g : CellId) (st : Strength) : Blind fun s => s.setKeys (s.keys.removeGroup g st) :=
  fun _ v filled => ⟨emptyCells v g st, cellsEmptied_emptyCells v g st, filled.emptyCells g st, rfl⟩

theorem abandonLoad_blind : Blind fun s => s.setKeys s.keys.abandonLoad := .of_cases fun s => by
  rcases h : s.keys.load with _ | l
  · exact ⟨_, .id, fun _ _ => by simp [KeyStore.abandonLoad, h]⟩
  · refine ⟨_, (removeGroup_blind l.base l.strength).comp
      (g := fun s => s.setKeys { s.keys with load := none }) (.of_eq fun _ _ => rfl), fun v _ => ?_⟩
    simp [KeyStore.abandonLoad, h]

/-- A waiting Key Clear looks at its group's record alone (R58). -/
theorem finishKeyClear_blind (g : CellId) : Blind fun s => finishKeyClear s g := .of_cases fun s => by
  rcases h : s.keys.groups.get g with _ | e
  · exact ⟨_, .id, fun v _ => by simp [finishKeyClear, h]⟩
  · by_cases done : e.state = .retiring ∧ e.pins = 0
    · rcases waiting : e.waitingClear with _ | tag
      · exact ⟨_, removeGroup_blind g e.strength, fun v _ => by simp [finishKeyClear, h, done, waiting]⟩
      · exact ⟨_, (removeGroup_blind g e.strength).comp
          (g := fun s => post s .s (heldCompletion .keyClear tag .empty)) (.of_eq fun _ _ => by simp),
          fun v _ => by simp [finishKeyClear, h, done, waiting]⟩
    · exact ⟨_, .id, fun v _ => by simp [finishKeyClear, h, done]⟩

theorem finishKeyClears_blind : Blind finishKeyClears := .foldl finishKeyClear_blind _

/-- Every cell emptied (R166, R168). -/
theorem cellsEmptied_cleared (v : Vector KeyCell 64) : CellsEmptied v KeyStore.cleared.cells := fun c =>
  .inr (by simp [KeyStore.cleared, Vector.get])

theorem zeroizeClear_blind : Blind zeroizeClear := fun _ v _ =>
  ⟨KeyStore.cleared.cells, cellsEmptied_cleared v, .refl _, rfl⟩

theorem endZeroize_blind : Blind endZeroize := .of_cases fun s => by
  rcases h : s.ports.reset with _ | run
  · exact ⟨_, .id, fun v _ => by simp [endZeroize, h]⟩
  · by_cases ends : run.kind = .zeroize ∧ resetClear s run = true
    · exact ⟨_, zeroizeClear_blind.comp (g := fun s => completeReset (resetPortAndArbiter s) run)
        (.of_eq fun _ _ => by simp), fun v _ => by simp [endZeroize, h, ends]⟩
    · exact ⟨_, .id, fun v _ => by simp [endZeroize, h, ends]⟩

theorem endDrain_blind : Blind endDrain := .of_eq endDrain_withCells

theorem endEngineReset_blind : Blind endEngineReset := .of_eq endEngineReset_withCells

theorem settle_blind : Blind settle := by
  have drained := finishKeyClears_blind.comp endDrain_blind
  have reset := drained.comp endEngineReset_blind
  have zeroized := reset.comp endZeroize_blind
  exact zeroized

/-! ### Commands blind to key bits -/

/-- Each cell keeps its bits, is emptied, or is filled where it was EMPTY (R45). -/
def CellsWritten (v w : Vector KeyCell 64) : Prop :=
  ∀ c, w.get c = v.get c ∨ w.get c = .empty ∨ (v.get c).filled = false ∧ (w.get c).filled = true

theorem CellsEmptied.written {v w : Vector KeyCell 64} (h : CellsEmptied v w) : CellsWritten v w := fun c =>
  (h c).imp_right .inl

/-- A command that is blind to key bits in a state: with the same cells FILLED but other bits in them it answers the
same state but for the cells, and it writes no FILLED cell but to empty it. -/
def BlindAt (e : State → Host.Outcome State Fault Refusal) (s : State) : Prop :=
  ∀ t v, e s = .next t → SameFilled s.keys.cells v →
    ∃ w, CellsWritten v w ∧ SameFilled t.keys.cells w ∧ e (s.withCells v) = .next (t.withCells w)

/-- A command that is blind to key bits in every state. -/
def BlindCommand (e : State → Host.Outcome State Fault Refusal) : Prop := ∀ s, BlindAt e s

/-- In this state the command is a change that is blind, the same for all bits of the cells. -/
theorem Blind.blindAt {f : State → State} (blind : Blind f) {e : State → Host.Outcome State Fault Refusal} {s : State}
    (eq : ∀ v, SameFilled s.keys.cells v → e (s.withCells v) = .next (f (s.withCells v))) : BlindAt e s :=
  fun t v run filled => by
    have own : e s = .next (f s) := eq s.keys.cells (.refl _)
    obtain rfl : f s = t := Host.Outcome.next.inj (own.symm.trans run)
    obtain ⟨w, emptied, same, run'⟩ := blind s v filled
    exact ⟨w, emptied.written, same, by rw [eq v filled, run']⟩

/-- In this state the command changes nothing, whatever bits the cells hold. -/
theorem BlindAt.idle {e : State → Host.Outcome State Fault Refusal} {s : State}
    (eq : ∀ v, e (s.withCells v) = .next (s.withCells v)) : BlindAt e s := Blind.id.blindAt fun v _ => eq v

/-- What a command that is blind writes of the cells. -/
theorem BlindAt.writes {e : State → Host.Outcome State Fault Refusal} {s t : State} (h : BlindAt e s)
    (run : e s = .next t) : CellsWritten s.keys.cells t.keys.cells := by
  obtain ⟨w, written, -, again⟩ := h t s.keys.cells run (.refl _)
  have own : t = t.withCells w := Host.Outcome.next.inj (run.symm.trans again)
  have cells : t.keys.cells = w := congrArg (fun t : State => t.keys.cells) own
  rwa [cells]

theorem BlindCommand.of_blind {f : State → State} (h : Blind f) : BlindCommand fun s => .next (f s) := fun _ =>
  h.blindAt fun _ _ => rfl

@[simp] theorem offered_withCells (s : State) (v : Vector KeyCell 64) : offered (s.withCells v) = offered s := by
  funext p
  cases p <;> rfl

theorem takeRecord_blind (p : Port) : Blind fun s => takeRecord s p := .of_eq fun _ _ => by simp

/-- Whether a port takes a record of a kind depends on no key cell. -/
theorem onRecord_blind {p : Port} {k : Kind} {f : Record → State → State} (h : ∀ r, Blind (f r)) :
    BlindCommand fun s => onRecord p k s f := fun s => by
  rcases ho : offered s p with _ | r
  · exact .idle fun _ => by simp [onRecord, ho]
  · by_cases hk : kindCode r = k.code
    · exact ((takeRecord_blind p).comp (h r)).blindAt fun _ _ => by simp [onRecord, ho, hk]
    · exact .idle fun _ => by simp [onRecord, ho, hk]

/-- Checks that look at no key bit. -/
theorem decideRecord_blind {p : Port} {r : Record} {checks : State → List (Bool × Status)} {accept : State → State}
    (reads : ∀ (s : State) v, SameFilled s.keys.cells v → checks (s.withCells v) = checks s) (h : Blind accept) :
    Blind fun s => decideRecord p r (checks s) s (accept s) := .of_cases fun s => by
  rcases hc : firstRefusal (checks s) with _ | st
  · exact ⟨accept, h, fun v filled => by simp only [decideRecord, reads s v filled, hc]⟩
  · exact ⟨_, answerRecord_blind p r st .empty, fun v filled => by simp only [decideRecord, reads s v filled, hc]⟩

theorem withRange_blind {p : Port} {r : Record} {assigned : List Nat} {f : RangeId → State → State}
    (h : ∀ x, Blind (f x)) : Blind fun s => withRange p r assigned s fun x => f x s := .of_cases fun s => by
  by_cases bad : rangeOf r = none ∨ reservedZero r assigned = false
  · exact ⟨_, answerRecord_blind p r .badField .empty, fun _ _ => withRange_bad bad⟩
  · obtain ⟨⟨x, hx⟩, fields⟩ := not_or.mp bad |>.imp Option.ne_none_iff_exists'.mp Bool.eq_true_of_not_eq_false
    exact ⟨f x, h x, fun _ _ => withRange_some hx fields⟩

theorem withGroup_blind {r : Record} {f : CellId → State → State} (h : ∀ g, Blind (f g)) :
    Blind fun s => withGroup r s fun g => f g s := .of_cases fun s => by
  rcases hg : cellOf (groupByte r) with _ | g
  · exact ⟨_, answerRecord_blind .s r .badField .empty, fun _ _ => by simp [withGroup, hg]⟩
  · exact ⟨f g, h g, fun _ _ => withGroup_some hg⟩

theorem withCell_blind {r : Record} {assigned : List Nat} {f : CellId → State → State} (h : ∀ c, Blind (f c)) :
    Blind fun s => withCell r assigned s fun c => f c s := .of_cases fun s => by
  by_cases bad : cellOf (recordField r 4 1) = none ∨ reservedZero r assigned = false
  · exact ⟨_, answerRecord_blind .s r .badField .empty, fun _ _ => withCell_bad bad⟩
  · obtain ⟨⟨c, hc⟩, fields⟩ := not_or.mp bad |>.imp Option.ne_none_iff_exists'.mp Bool.eq_true_of_not_eq_false
    exact ⟨f c, h c, fun _ _ => withCell_some hc fields⟩

end Sys2Proof.Machine
end
section
/-! PROOFS. Every command but the end of a transform is blind to key bits (O60), and no step writes a FILLED key cell
(O55). -/

namespace Sys2Proof.Machine

/-! ### The Range Table's requests -/

theorem execRangeDefine_blind : BlindCommand execRangeDefine :=
  onRecord_blind fun r => withRange_blind fun x => decideRecord_blind (fun _ _ _ => rfl) <| .of_eq fun _ _ => by simp

theorem execRangeDelete_blind : BlindCommand execRangeDelete :=
  onRecord_blind fun r => withRange_blind fun x => decideRecord_blind (fun _ _ _ => rfl) <| .of_eq fun _ _ => by simp

theorem execRangeLocks_blind : BlindCommand execRangeLocks :=
  onRecord_blind fun r => withRange_blind fun x => decideRecord_blind (fun _ _ _ => rfl) <| .of_eq fun _ _ => by simp

theorem execCountClear_blind : BlindCommand execCountClear :=
  onRecord_blind fun r => withRange_blind fun x => decideRecord_blind (fun _ _ _ => rfl) <| .of_eq fun _ _ => by simp

theorem execRangeQuery_blind : BlindCommand execRangeQuery :=
  onRecord_blind fun r => withRange_blind fun x => .of_eq fun _ _ => by simp

theorem execSweepQuery_blind (p : QueryPort) : BlindCommand (execSweepQuery p) :=
  onRecord_blind fun r => withRange_blind fun x => decideRecord_blind (fun _ _ _ => rfl) <|
    .of_eq fun s v => answerRecord_withCells s v (queryPort p) r .ok (.sweep (sweepReport s p x))

theorem bindCurrent_withCells (s : State) (v : Vector KeyCell 64) (x : RangeId) (b : Binding) :
    bindCurrent (s.withCells v) x b = (bindCurrent s x b).withCells v := by simp [bindCurrent]

theorem execRangeBind_blind : BlindCommand execRangeBind :=
  onRecord_blind fun r => withRange_blind fun x => withGroup_blind fun g => decideRecord_blind (fun _ _ _ => rfl) <|
    .of_eq fun _ _ => by simp [bindCurrent_withCells]

theorem startSweep_withCells (s : State) (v : Vector KeyCell 64) (x : RangeId) (b : Binding) :
    startSweep (s.withCells v) x b = (startSweep s x b).withCells v := by
  rcases h : (s.table.entry x).current with _ | old <;> simp [startSweep, h]

theorem rekeyRange_withCells (s : State) (v : Vector KeyCell 64) (x : RangeId) (b : Binding) :
    rekeyRange (s.withCells v) x b = (rekeyRange s x b).withCells v := by
  simp only [rekeyRange, startSweep_withCells, State.withCells_table]
  split <;> simp

theorem execRangeRekey_blind : BlindCommand execRangeRekey :=
  onRecord_blind fun r => withRange_blind fun x => withGroup_blind fun g => decideRecord_blind (fun _ _ _ => rfl) <|
    .of_eq fun _ _ => by simp [rekeyRange_withCells]

theorem replaceBindings_withCells (s : State) (v : Vector KeyCell 64) (x : RangeId) (b : Binding) :
    replaceBindings (s.withCells v) x b = (replaceBindings s x b).withCells v := by simp [replaceBindings]

theorem cancelSweep_withCells (s : State) (v : Vector KeyCell 64) (x : RangeId) :
    cancelSweep (s.withCells v) x = (cancelSweep s x).withCells v := rfl

theorem cancelJob_withCells (s : State) (v : Vector KeyCell 64) (k : Nat) :
    cancelJob (s.withCells v) k = (cancelJob s k).withCells v := by
  rcases h : jobAt s .m k with _ | j <;> simp [cancelJob, h]

/-- Which jobs an erase ends is told from the claims as they stand before it (R118). -/
theorem eraseRange_blind (x : RangeId) (b : Binding) : Blind fun s => eraseRange s x b := .of_cases fun s => by
  have ends : ∀ k, Blind fun t => if erasesJob s x k = true then cancelJob t k else t := fun k => by
    split
    · exact .of_eq fun _ _ => cancelJob_withCells ..
    · exact .id
  have erased : Blind fun t => cancelSweep (replaceBindings t x b) x :=
    .of_eq fun _ _ => by rw [replaceBindings_withCells, cancelSweep_withCells]
  exact ⟨_, (erased.comp (.foldl ends (List.range Side.m.slots))).comp settle_blind, fun _ _ => rfl⟩

theorem execRangeErase_blind : BlindCommand execRangeErase :=
  onRecord_blind fun r => withRange_blind fun x => withGroup_blind fun g => decideRecord_blind (fun _ _ _ => rfl) <|
    (eraseRange_blind x { group := g, epoch := epochOf r }).answered .s r .ok .empty

/-! ### Format, admission and resets -/

theorem execFormatSet_blind : BlindCommand execFormatSet := onRecord_blind fun r => by
  rcases h : formatFields r with _ | ⟨capacity, u⟩
  · exact answerRecord_blind .s r .badField .empty
  · exact decideRecord_blind (fun _ _ _ => rfl) <| .of_eq fun _ _ => rfl

theorem execAdmitRequest_blind : BlindCommand execAdmitRequest :=
  onRecord_blind fun _ => decideRecord_blind (fun _ _ _ => rfl) <| .of_eq fun _ _ => rfl

theorem execSealRequest_blind : BlindCommand execSealRequest :=
  onRecord_blind fun _ => decideRecord_blind (fun _ _ _ => rfl) <| .of_eq fun _ _ => rfl

theorem takenState_withCells (kind : ResetKind) (tag : Tag) (s : State) (v : Vector KeyCell 64) :
    takenState kind tag (s.withCells v) = (takenState kind tag s).withCells v := by
  have quit := foldl_withCells
    (mapJobs (mapJobs { s with ports := { s.ports with reset := some (newReset s kind tag) } } .i
      (Job.stop kind.cause)) .m (Job.stop kind.cause)) v
    (fun u l => abandonUnlessWriting_withCells u v l) (List.finRange 4)
  exact congrArg (fun t : State => t.setSweep (t.sweep.filterClaims fun c => c.state == .reciphering)) quit

theorem takeReset_blind (kind : ResetKind) (r : Record) : Blind (takeReset kind r) := by
  have closed : ∀ side k, Blind fun s => closeJob s side k := fun side k =>
    .of_eq fun s v => closeJob_withCells s v side k
  have taken : Blind (takenState kind (recordTag r)) := .of_eq (takenState_withCells kind (recordTag r))
  have ended := (taken.comp (.foldl (closed .i) (List.range 32))).comp (.foldl (closed .m) (List.range 16))
  have settled := ended.comp settle_blind
  exact settled

theorem execEngineReset_blind : BlindCommand execEngineReset :=
  onRecord_blind fun r => decideRecord_blind (fun _ _ _ => rfl) (takeReset_blind .engine r)

theorem execZeroize_blind : BlindCommand execZeroize :=
  onRecord_blind fun r => decideRecord_blind (fun _ _ _ => rfl) (takeReset_blind .zeroize r)

/-- A power-on reset empties every cell (R168). -/
theorem execPowerOnReset_blind : BlindCommand execPowerOnReset := .of_blind fun s v _ =>
  ⟨KeyStore.cleared.cells, cellsEmptied_cleared v, .refl _, by rw [dropAll_withCells]; rfl⟩

/-! ### Data requests -/

theorem acceptJob_withCells (s : State) (v : Vector KeyCell 64) (side : Side) (j : Job) :
    acceptJob (s.withCells v) side j = (acceptJob s side j).withCells v := by
  have slot : freeSlot (s.withCells v) side = freeSlot s side := rfl
  simp [acceptJob, slot]

theorem refuseIo_withCells (s : State) (v : Vector KeyCell 64) (k : JobKind) (r : Record) (st : Status) :
    refuseIo (s.withCells v) k r st = (refuseIo s k r st).withCells v := by
  have locked : lockedSegment (s.withCells v) k r = lockedSegment s k r := rfl
  simp only [refuseIo, locked]
  split <;> simp

theorem execRead_blind : BlindCommand execRead := onRecord_blind fun r => .of_eq fun s v => by
  have checks : ioChecks (s.withCells v) .read r = ioChecks s .read r := rfl
  rcases h : firstRefusal (ioChecks s .read r) with _ | st
  · simp only [checks, h]
    exact acceptJob_withCells s v .i _
  · simp only [checks, h]
    exact refuseIo_withCells s v .read r st

theorem execWrite_blind : BlindCommand execWrite := onRecord_blind fun r => .of_eq fun s v => by
  have checks : ioChecks (s.withCells v) .write r = ioChecks s .write r := rfl
  rcases h : firstRefusal (ioChecks s .write r) with _ | st
  · simp only [checks, h]
    exact congrArg (markOvertaken · r) (acceptJob_withCells s v .i _)
  · simp only [checks, h]
    exact refuseIo_withCells s v .write r st

theorem answerClaim_withCells (s : State) (v : Vector KeyCell 64) (r : Record) (x : RangeId) (st : Status) :
    answerClaim (s.withCells v) r x st = (answerClaim s r x st).withCells v := answerRecord_withCells s v .m r st _

theorem execClaim_blind : BlindCommand execClaim :=
  onRecord_blind fun r => withRange_blind fun x => .of_eq fun s v => by
    have checks : claimChecks (s.withCells v) x = claimChecks s x := rfl
    simp only [checks, ite_withCells]
    split
    · simp
    · split
      · exact answerClaim_withCells s v r x _
      · exact answerClaim_withCells (appendClaim s (newClaim x (claimFirst r) (claimCount r))) v r x .ok

theorem execRelease_blind : BlindCommand execRelease :=
  onRecord_blind fun r => withRange_blind fun x => .of_eq fun s v => by
    have checks : releaseChecks (s.withCells v) x = releaseChecks s x := rfl
    simp only [checks]
    split
    · exact answerClaim_withCells s v r x _
    · exact answerClaim_withCells (s.setSweep (s.sweep.setClaims x (s.sweep.claims.get x).dropLast)) v r x .ok

theorem execRecipher_blind : BlindCommand execRecipher := onRecord_blind fun r => .of_eq fun s v => by
  have checks : recipherChecks (s.withCells v) r = recipherChecks s r := rfl
  have claim : matchingClaim (s.withCells v) r = matchingClaim s r := rfl
  simp only [checks, claim]
  split
  · next c _ _ => exact acceptJob_withCells (startClaim s r c.range ((freeSlot s .m).getD 0)) v .m _
  · simp
  · simp

theorem execScreen_blind : BlindCommand execScreen := onRecord_blind fun r => .of_eq fun s v => by
  have checks : screenChecks (s.withCells v) r = screenChecks s r := rfl
  simp only [checks]
  split
  · simp
  · exact acceptJob_withCells s v .m _

/-! ### The Key Store's requests -/

/-- Check 2 of Key Open looks at which cells are FILLED (R51). -/
theorem cellsOccupied_withCells {k : KeyStore} {v : Vector KeyCell 64} (filled : SameFilled k.cells v) (base : CellId)
    (st : Strength) : cellsOccupied (k.withCells v) base st = cellsOccupied k base st := by
  simp only [cellsOccupied, groupHolding_withCells, KeyStore.withCells_cells, fun c => (filled c).symm]

/-- A load opened with no bit read (R52). -/
theorem openLoad_blind (base : CellId) (st : Strength) : Blind fun s => s.setKeys (openLoad s.keys base st) :=
  abandonLoad_blind.comp (g := fun s => s.setKeys { s.keys with
    groups := put s.keys.groups base (some (openedGroup st)),
    load := some { base := base, strength := st, parts := [] } }) (.of_eq fun _ _ => rfl)

theorem execKeyOpen_blind : BlindCommand execKeyOpen := onRecord_blind fun r => withCell_blind fun base => by
  rcases strengthOfCode (recordField r 5 1) with _ | st
  · exact answerRecord_blind .s r .badField .empty
  · refine decideRecord_blind (fun s v filled => ?_) (.of_cases fun s => ?_)
    · rw [State.withCells_keys, cellsOccupied_withCells filled]
    · exact ⟨_, (openLoad_blind base st).answered .s r .ok (.keyLoad s.keys.load.isSome false 0), fun _ _ => rfl⟩

/-- Key Clear by the state of the group (R57, R58). -/
theorem clearGroup_blind (r : Record) (c : CellId) (g : GroupRec) : Blind fun s => clearGroup s r c g := by
  rcases g with ⟨state, strength, bound, pins, waiting⟩
  cases state with
  | loading => exact abandonLoad_blind.answered .s r .ok .empty
  | filled =>
    by_cases free : pins = 0
    · simp only [clearGroup, free, if_true]
      exact (removeGroup_blind c strength).answered .s r .ok .empty
    · simp only [clearGroup, free, if_false]
      exact .of_eq fun _ _ => by simp
  | retiring => exact answerRecord_blind .s r .busy .empty

theorem execKeyClear_blind : BlindCommand execKeyClear :=
  onRecord_blind fun r => withCell_blind fun c => .of_cases fun s => by
    rcases h : groupHolding s.keys c with _ | ⟨b, g⟩
    · exact ⟨_, answerRecord_blind .s r .ok .empty, fun _ _ => by simp [h]⟩
    · refine ⟨_, decideRecord_blind (p := .s) (r := r) (checks := fun _ => clearChecks c b g) (fun _ _ _ => rfl)
        (clearGroup_blind r c g), fun _ _ => ?_⟩
      simp only [State.withCells_keys, groupHolding_withCells, h]
      rfl

/-- A Key Query tells which cells are FILLED and no bit of one (R60). -/
theorem keyReport_withCells {k : KeyStore} {v : Vector KeyCell 64} (filled : SameFilled k.cells v) (c : CellId) :
    keyReport (k.withCells v) c = keyReport k c := by
  simp only [keyReport, cellsFilled, groupHolding_withCells, KeyStore.withCells_cells, fun c => (filled c).symm]

theorem execKeyQuery_blind : BlindCommand execKeyQuery :=
  onRecord_blind fun r => withCell_blind fun c => .of_filled fun s v filled => by
    rw [State.withCells_keys, keyReport_withCells filled, answerRecord_withCells]

/-! ### The arbiter, the lanes and the Buffer Port -/

theorem execClassSet_blind : BlindCommand execClassSet := onRecord_blind fun r => .of_eq fun s v => by
  dsimp only
  split
  · rfl
  · exact answerRecord_withCells ..

theorem execBusRecover_blind : BlindCommand execBusRecover :=
  onRecord_blind fun _ => decideRecord_blind (fun _ _ _ => rfl) <| .of_eq fun _ _ => rfl

theorem grantSector_withCells (s : State) (v : Vector KeyCell 64) (l : LaneId) (side : Side) (k : Nat) (j : Job)
    (lba : Nat) : grantSector (s.withCells v) l side k j lba = (grantSector s l side k j lba).withCells v := by
  simp [grantSector]

theorem setArbiter_blind (a : Arbiter) : Blind fun s => { s with arbiter := a } := .of_eq fun _ _ => rfl

theorem execGrant_blind : BlindCommand execGrant := fun s => by
  have lane : ∀ v, eligibleLane (s.withCells v) = eligibleLane s := fun _ => rfl
  have offers : ∀ v, offerOf (s.withCells v) = offerOf s := fun _ => rfl
  rcases hl : eligibleLane s with _ | l
  · exact .idle fun v => by simp only [execGrant, lane, hl]
  rcases hc : chooseGrant s.arbiter (fun side => (offerOf s side).isSome) with _ | ⟨side, count⟩
  · exact .idle fun v => by simp only [execGrant, lane, offers, hl, State.withCells_arbiter, hc]
  rcases ho : offerOf s side with _ | ⟨k, j⟩
  · exact .idle fun v => by simp only [execGrant, lane, offers, hl, State.withCells_arbiter, hc, ho]
  rcases hn : j.next with _ | lba
  · exact .idle fun v => by simp only [execGrant, lane, offers, hl, State.withCells_arbiter, hc, ho, hn]
  · have granted : Blind fun t => grantSector t l side k j lba :=
      .of_eq fun t v => grantSector_withCells t v l side k j lba
    refine (granted.comp (setArbiter_blind { s.arbiter with count := count, last := some side })).blindAt fun v _ => ?_
    simp only [execGrant, lane, offers, hl, State.withCells_arbiter, hc, ho, hn]

theorem reportSector_blind (l : LaneId) (verdict : Verdict) : Blind fun s => reportSector s l verdict :=
  .of_eq fun s v => reportSector_withCells s v l verdict

/-- A sector's end and what follows in the same step. -/
theorem sectorEnd_blind (l : LaneId) (verdict : Verdict) : Blind fun s => settle (reportSector s l verdict) :=
  (reportSector_blind l verdict).comp settle_blind

theorem afterTrailer_blind (l : LaneId) (w : Work) (c : Classified) : Blind fun s => afterTrailer s l w c := by
  cases c with
  | choose g => exact .of_eq fun _ _ => by simp [afterTrailer]
  | zeros => exact .of_eq fun _ _ => by simp [afterTrailer]
  | ends verdict => exact sectorEnd_blind l verdict

/-- A read delivered: memory as the other masters have placed it, the access no longer outstanding (log entry 5). -/
theorem delivered_blind (a : Access) (placed : List Byte) (who : Requester) :
    Blind fun s => clearAccess (placeBytes s a placed) who := .of_eq fun _ _ => rfl

/-- A write landed: its bytes in memory, the access no longer outstanding (R15, R80). -/
theorem landed_blind (a : Access) (who : Requester) : Blind fun s => clearAccess (landWrite s a) who :=
  .of_eq fun _ _ => rfl

/-- Memory as a read meets it holds no key bit. -/
theorem delivered_buffer (s : State) (v : Vector KeyCell 64) (a : Access) (placed : List Byte) (who : Requester) :
    (clearAccess (placeBytes (s.withCells v) a placed) who).buffer = memoryAt s a placed := rfl

theorem execTrailerReadDone_blind (l : LaneId) (placed : List Byte) :
    BlindCommand (execTrailerReadDone l placed) := fun s => by
  rcases hw : (s.lanes.get l).work with _ | w
  · exact .idle fun _ => by simp [execTrailerReadDone, hw]
  rcases ha : accessOf s (.lane l) with _ | a
  · exact .idle fun _ => by simp [execTrailerReadDone, hw, ha]
  by_cases reads : w.phase = .reading ∧ a.kind = .trailerRead
  · rcases hc : classify w (trailerOf (readBytes (memoryAt s a placed) a.addr 8)).epoch with _ | c
    · exact .idle fun v => by
        simp only [execTrailerReadDone, State.withCells_lanes, hw, accessOf_withCells, ha, if_pos reads,
          delivered_buffer, hc]
    · have goesOn := afterTrailer_blind l
        { w with trailer := some (trailerOf (readBytes (memoryAt s a placed) a.addr 8)) } c
      exact ((delivered_blind a placed (.lane l)).comp goesOn).blindAt fun v _ => by
        simp only [execTrailerReadDone, State.withCells_lanes, hw, accessOf_withCells, ha, if_pos reads,
          delivered_buffer, hc]
  · exact .idle fun _ => by simp [execTrailerReadDone, hw, ha, reads]

theorem execDataUnitReadDone_blind (l : LaneId) (placed : List Byte) :
    BlindCommand (execDataUnitReadDone l placed) := fun s => by
  rcases hw : (s.lanes.get l).work with _ | w
  · exact .idle fun _ => by simp [execDataUnitReadDone, hw]
  rcases ha : accessOf s (.lane l) with _ | a
  · exact .idle fun _ => by simp [execDataUnitReadDone, hw, ha]
  by_cases reads : w.phase = .reading ∧ a.kind = .dataRead
  · have held : Blind fun t => setWork t l
        { w with phase := .transforming, held := readBytes (memoryAt s a placed) a.addr a.len } := .of_eq fun _ _ => rfl
    exact ((delivered_blind a placed (.lane l)).comp held).blindAt fun _ _ => by
      simp only [execDataUnitReadDone, State.withCells_lanes, hw, accessOf_withCells, ha, if_pos reads,
        delivered_buffer]
  · exact .idle fun _ => by simp [execDataUnitReadDone, hw, ha, reads]

theorem execResultWriteDone_blind (l : LaneId) : BlindCommand (execResultWriteDone l) := fun s => by
  rcases hw : (s.lanes.get l).work with _ | w
  · exact .idle fun _ => by simp [execResultWriteDone, hw]
  rcases ha : accessOf s (.lane l) with _ | a
  · exact .idle fun _ => by simp [execResultWriteDone, hw, ha]
  by_cases writes : w.phase = .writing ∧ a.kind = .resultWrite
  · rcases hv : writtenVerdict w with _ | verdict
    · exact .idle fun _ => by simp [execResultWriteDone, hw, ha, writes, hv]
    · exact ((landed_blind a (.lane l)).comp (sectorEnd_blind l verdict)).blindAt fun _ _ => by
        simp only [execResultWriteDone, State.withCells_lanes, hw, accessOf_withCells, ha, if_pos writes, hv]
  · exact .idle fun _ => by simp [execResultWriteDone, hw, ha, writes]

theorem postJob_blind (side : Side) (k : Nat) (j : Job) : Blind fun s => postJob s side k j :=
  .of_eq fun s v => postJob_withCells s v side k j

theorem execVerdictListWriteDone_blind (side : Side) (slot : Nat) : BlindCommand (execVerdictListWriteDone side slot) :=
  fun s => by
    rcases hj : jobAt s side slot with _ | j
    · exact .idle fun _ => by simp [execVerdictListWriteDone, hj]
    rcases ha : accessOf s (.list side slot) with _ | a
    · exact .idle fun _ => by simp [execVerdictListWriteDone, hj, ha]
    by_cases lists : j.phase = .listing ∧ a.kind = .listWrite
    · have posted := (landed_blind a (.list side slot)).comp (postJob_blind side slot j)
      exact (posted.comp settle_blind).blindAt fun _ _ => by
        simp only [execVerdictListWriteDone, jobAt_withCells, hj, accessOf_withCells, ha, if_pos lists]
    · exact .idle fun _ => by simp [execVerdictListWriteDone, hj, ha, lists]

/-- A bus fault, one of its effects after another (R98 to R101). -/
theorem busFault_blind (a : Access) : Blind fun s => busFault s a := by
  have dropped : Blind dropAll := .of_eq dropAll_withCells
  have faulted : Blind fun s => s.setBufferPort { s.bufferPort with faulted := true, faultAddr := a.addr } :=
    .of_eq fun _ _ => rfl
  have abandoned : Blind abandonAll := .of_eq abandonAll_withCells
  have stopped : Blind fun s => mapJobs (mapJobs s .i Job.busFault) .m Job.busFault := .of_eq fun _ _ => by simp
  have ends : ∀ side, Blind fun s => forEachSlot side (endOnFault side) s := fun side =>
    .foldl (fun k => .of_eq fun s v => endOnFault_withCells s v side k) (List.range side.slots)
  have raised : Blind raiseBusFault := .of_eq fun _ _ => rfl
  have fault := (((((dropped.comp faulted).comp abandoned).comp stopped).comp (ends .i)).comp (ends .m)).comp
    (raised.comp settle_blind)
  exact fault

theorem execBusErrorResponse_blind (who : Requester) : BlindCommand (execBusErrorResponse who) := fun s => by
  rcases ha : accessOf s who with _ | a
  · exact .idle fun _ => by simp [execBusErrorResponse, ha]
  · by_cases faulted : s.bufferPort.faulted = true
    · exact .idle fun _ => by simp [execBusErrorResponse, ha, faulted]
    · exact (busFault_blind a).blindAt fun _ _ => by simp [execBusErrorResponse, ha, faulted]

/-! ### The windows and the Port Block -/

theorem setAnswer_blind (a : Answer) : Blind fun s => s.setAnswer a := .of_eq fun _ _ => rfl

theorem setPort_blind (p : Port) (q : PortQueues) : Blind fun s => s.setPort p q :=
  .of_eq fun s v => setPort_withCells s v p q

theorem execRequestWindowWrite_blind (p : Port) (r : Record) :
    BlindCommand (execRequestWindowWrite p r) := fun s => by
  have queued := (setPort_blind p { s.port p with requests := (s.port p).requests ++ [r] }).comp
    (setAnswer_blind (.written p))
  by_cases room : (s.port p).requests.length < Config.requestPlaces
  · by_cases own : p = .s
    · exact queued.blindAt fun _ _ => by simp [execRequestWindowWrite, ← own, room]
    · exact (queued.comp (.of_eq wakeByRecord_withCells)).blindAt fun _ _ => by
        simp [execRequestWindowWrite, room, own]
  · exact (setAnswer_blind (.error p)).blindAt fun _ _ => by simp [execRequestWindowWrite, room]

theorem execCompletionWindowRead_blind (p : Port) : BlindCommand (execCompletionWindowRead p) := fun s => by
  rcases h : (s.port p).filled with _ | ⟨c, cs⟩
  · exact (setAnswer_blind (.record p 0)).blindAt fun _ _ => by simp [execCompletionWindowRead, h]
  · have taken := (setPort_blind p { s.port p with filled := cs }).comp (setAnswer_blind (.record p c.record))
    exact taken.blindAt fun _ _ => by simp [execCompletionWindowRead, h]

/-- An access that is answered from the port's queues and changes nothing else (R169, R170). -/
theorem execBadWindowAccess_blind (p : Port) (a : WindowAccess) : BlindCommand (execBadWindowAccess p a) := fun s => by
  rcases h : a.kind
  case bad => exact (setAnswer_blind (.error p)).blindAt fun _ _ => by simp only [execBadWindowAccess, h]
  case freePlacesRead =>
    exact (setAnswer_blind (.count p (freePlaces (s.port p)))).blindAt fun _ _ => by
      simp only [execBadWindowAccess, h, State.withCells_port]
  case waitingRead =>
    exact (setAnswer_blind (.count p (completionsWaiting (s.port p)))).blindAt fun _ _ => by
      simp only [execBadWindowAccess, h, State.withCells_port]
  case requestWrite => exact .idle fun _ => by simp only [execBadWindowAccess, h]
  case completionRead => exact .idle fun _ => by simp only [execBadWindowAccess, h]

theorem execUnknownKindRecord_blind (p : Port) : BlindCommand (execUnknownKindRecord p) := fun s => by
  rcases ho : offered s p with _ | r
  · exact .idle fun _ => by simp [execUnknownKindRecord, ho]
  · by_cases known : portTakesCode p (kindCode r) = true
    · exact .idle fun _ => by simp [execUnknownKindRecord, ho, known]
    · exact ((takeRecord_blind p).answered p r .badKind .empty).blindAt fun _ _ => by
        simp [execUnknownKindRecord, ho, known]

theorem execStatus_blind : BlindCommand execStatus :=
  onRecord_blind fun r => decideRecord_blind (fun _ _ _ => rfl) <|
    .of_eq fun s v => answerRecord_withCells s v .s r .ok (.status (statusReport s))

theorem execEventPost_blind : BlindCommand execEventPost := fun s => by
  have first : ∀ v, firstEvent (s.withCells v) = firstEvent s := fun _ => rfl
  rcases h : firstEvent s with _ | ⟨event, left⟩
  · exact .idle fun v => by simp only [execEventPost, first, h]
  · by_cases room : hasPlace s.ports.s = true
    · have posted : Blind fun t => postFree (t.setEvents left) .s (eventCompletion event) := .of_eq fun _ _ => by simp
      exact posted.blindAt fun _ _ => by simp [execEventPost, first, h, room]
    · exact .idle fun _ => by simp [execEventPost, first, h, room]

theorem answerQuota_withCells (s : State) (v : Vector KeyCell 64) (side : Side) (reset : ResetRun) (r : Record) :
    answerQuota (s.withCells v) side reset r = (answerQuota s side reset r).withCells v := by
  simp only [answerQuota, State.withCells_port, setPort_withCells, postFree_withCells]
  rfl

theorem quotaOf_withCells (s : State) (v : Vector KeyCell 64) : quotaOf (s.withCells v) = quotaOf s := by
  funext side
  cases side <;> rfl

theorem execAbortQuotaAnswer_blind (side : Side) : BlindCommand (execAbortQuotaAnswer side) := fun s => by
  rcases hr : s.ports.reset with _ | reset
  · exact .idle fun _ => by simp [execAbortQuotaAnswer, hr]
  rcases hq : (s.port (sidePort side)).requests with _ | ⟨r, rest⟩
  · exact .idle fun _ => by simp [execAbortQuotaAnswer, hr, hq]
  by_cases answers : quotaOf s side ≠ 0 ∧ hasPlace (s.port (sidePort side)) = true
  · have answered : Blind fun t => answerQuota t side reset r :=
      .of_eq fun t v => answerQuota_withCells t v side reset r
    exact (answered.comp settle_blind).blindAt fun v _ => by
      simp only [execAbortQuotaAnswer, State.withCells_ports, hr, State.withCells_port, hq, quotaOf_withCells,
        if_pos answers]
  · exact .idle fun v => by
      simp only [execAbortQuotaAnswer, State.withCells_ports, hr, State.withCells_port, hq, quotaOf_withCells,
        if_neg answers]

/-! ### The Stage Controller's commands -/

theorem expireTimer_blind : Blind expireTimer := .of_eq expireTimer_withCells

theorem timerSecond_blind : Blind timerSecond := .of_eq timerSecond_withCells

theorem execInactivityTick_blind : BlindCommand execInactivityTick := fun s => by
  have runs : ∀ v, timerRuns (s.withCells v) = timerRuns s := fun _ => rfl
  by_cases h : timerRuns s = true
  · exact timerSecond_blind.blindAt fun v _ => by simp only [execInactivityTick, runs, if_pos h]
  · exact .idle fun v => by simp only [execInactivityTick, runs, if_neg h]

theorem execInactivityExpiry_blind : BlindCommand execInactivityExpiry := fun s => by
  have runs : ∀ v, timerRuns (s.withCells v) = timerRuns s := fun _ => rfl
  by_cases h : timerRuns s = true ∧ s.stage.remaining ≤ 1
  · exact expireTimer_blind.blindAt fun v _ => by
      simp only [execInactivityExpiry, runs, State.withCells_stage, if_pos h]
  · exact .idle fun v => by simp only [execInactivityExpiry, runs, State.withCells_stage, if_neg h]

theorem execInactivitySet_blind : BlindCommand execInactivitySet := onRecord_blind fun r => .of_eq fun s v => by
  dsimp only
  split
  · rfl
  · exact answerRecord_withCells ..

theorem retainAtOnce_withCells (s : State) (v : Vector KeyCell 64) (r : Record) :
    retainAtOnce (s.withCells v) r = (retainAtOnce s r).withCells v := by simp [retainAtOnce]

theorem retainByStage_withCells (r : Record) (s : State) (v : Vector KeyCell 64) :
    retainByStage r (s.withCells v) = (retainByStage r s).withCells v := by
  have service : anyInService (s.withCells v) = anyInService s := rfl
  simp only [retainByStage, State.withCells_stage, tableEmpty_withCells, service]
  split
  · split
    · exact retainAtOnce_withCells s v r
    · split
      · rfl
      · exact answerRecord_withCells ..
  · exact retainAtOnce_withCells s v r
  · exact answerRecord_withCells ..
  · exact answerRecord_withCells ..
  · exact answerRecord_withCells ..

theorem execRetain_blind : BlindCommand execRetain :=
  onRecord_blind fun r => decideRecord_blind (fun _ _ _ => rfl) (.of_eq (retainByStage_withCells r))

theorem wakeByStage_withCells (r : Record) (s : State) (v : Vector KeyCell 64) :
    wakeByStage r (s.withCells v) = (wakeByStage r s).withCells v := by
  simp only [wakeByStage, State.withCells_stage, answerRecord_withCells, wakePart_withCells]
  split <;> rfl

theorem execWake_blind : BlindCommand execWake :=
  onRecord_blind fun r => decideRecord_blind (fun _ _ _ => rfl) (.of_eq (wakeByStage_withCells r))

theorem laneTestByStage_withCells (r : Record) (s : State) (v : Vector KeyCell 64) :
    laneTestByStage r (s.withCells v) = (laneTestByStage r s).withCells v := by
  simp only [laneTestByStage, State.withCells_stage, answerRecord_withCells, wakePart_withCells]
  split <;> rfl

theorem execLaneTest_blind : BlindCommand execLaneTest :=
  onRecord_blind fun r => decideRecord_blind (fun _ _ _ => rfl) (.of_eq (laneTestByStage_withCells r))

theorem endTestRun_withCells (s : State) (v : Vector KeyCell 64) (t : TestRun) :
    endTestRun (s.withCells v) t = (endTestRun s t).withCells v := by
  rcases h : s.stage.waitingLaneTest with _ | tag <;> simp [endTestRun, raiseSelfTest, h]

theorem endLaneTest_withCells (s : State) (v : Vector KeyCell 64) (l : LaneId) (t : TestRun) (passed : Bool) :
    endLaneTest (s.withCells v) l t passed = (endLaneTest s l t passed).withCells v := by
  simp only [endLaneTest, State.withCells_lanes, setLane_withCells, State.withCells_stage, setStage_withCells,
    ite_withCells, endTestRun_withCells]

theorem execLaneSelfTestEnd_blind (l : LaneId) (encOk decOk : Bool) :
    BlindCommand (execLaneSelfTestEnd l encOk decOk) := fun s => by
  rcases h : s.stage.testRun with _ | t
  · exact .idle fun _ => by simp [execLaneSelfTestEnd, h]
  · by_cases tests : t.under.get l = true ∧ (s.lanes.get l).testHold = true
    · have ended : Blind fun s => endLaneTest s l t (encOk && decOk) :=
        .of_eq fun s v => endLaneTest_withCells s v l t (encOk && decOk)
      exact ended.blindAt fun _ _ => by simp [execLaneSelfTestEnd, h, tests]
    · exact .idle fun _ => by simp [execLaneSelfTestEnd, h, tests]

/-! ### KEY_PART, which writes a cell (R54) -/

theorem fillPart_withCells (k : KeyStore) (v : Vector KeyCell 64) (l : OpenLoad) (c : CellId) (bits : Block) :
    fillPart (k.withCells v) l c bits =
      (fillPart k l c bits).withCells (put v c { filled := true, bits := bits }) := by
  by_cases last : (addPart l.parts c).length = l.strength.size
  · rw [fillPart_last last, fillPart_last last]; rfl
  · rw [fillPart_part last, fillPart_part last]; rfl

theorem fillPart_cells (k : KeyStore) (l : OpenLoad) (c : CellId) (bits : Block) :
    (fillPart k l c bits).cells = put k.cells c { filled := true, bits := bits } := by
  by_cases last : (addPart l.parts c).length = l.strength.size
  · rw [fillPart_last last]
  · rw [fillPart_part last]

/-- The checks of a KEY_PART look at which cell is FILLED (R54). -/
theorem partChecks_withCells {k : KeyStore} {v : Vector KeyCell 64} (filled : SameFilled k.cells v) (l : OpenLoad)
    (c : CellId) : partChecks (k.withCells v) l c = partChecks k l c := by
  rw [partChecks, KeyStore.withCells_cells, ← filled c, partChecks]

theorem SameFilled.put {v w : Vector KeyCell 64} (h : SameFilled v w) (c : CellId) (x : KeyCell) :
    SameFilled (put v c x) (put w c x) := fun c' => by
  rw [get_put, get_put]
  split
  · rfl
  · exact h c'

/-- An EMPTY cell filled. -/
theorem cellsWritten_put {v : Vector KeyCell 64} {c : CellId} (empty : (v.get c).filled = false) (bits : Block) :
    CellsWritten v (put v c { filled := true, bits := bits }) := fun c' => by
  rw [get_put]
  split
  · next same => exact .inr (.inr ⟨same ▸ empty, rfl⟩)
  · exact .inl rfl

/-- A KEY_PART whose checks all pass fills an EMPTY cell with the record's bytes, whatever the other cells hold. -/
theorem keyPart_fills {s : State} {r : Record} {c : CellId} {l : OpenLoad} (taken : Taken s .s r .keyPart)
    (cell : cellOf (recordField r 4 1) = some c) (fields : reservedZero r partBytes = true)
    (opened : s.keys.load = some l) (passed : firstRefusal (partChecks s.keys l c) = none) :
    BlindAt (exec .keyPart) s := fun t v run filled => by
  have empty : (s.keys.cells.get c).filled = false := by
    have all := (firstRefusal_eq_none _).mp passed
    simp only [partChecks, List.forall_mem_cons, Bool.or_eq_false_iff] at all
    exact all.2.1.2
  have fills : exec .keyPart s = _ :=
    (exec_keyPart taken cell fields opened).trans (congrArg _ (decideRecord_accept passed))
  have fills' : exec .keyPart (s.withCells v) = _ :=
    (exec_keyPart (s := s.withCells v) taken cell fields opened).trans
      (congrArg _ (decideRecord_accept ((congrArg _ (partChecks_withCells filled l c)).trans passed)))
  obtain rfl := Host.Outcome.next.inj (run.symm.trans fills)
  refine ⟨_, cellsWritten_put (c := c) ((filled c).symm.trans empty) (r.extractLsb' 128 128), ?_, fills'.trans ?_⟩
  · rw [answerRecord_keys, takeRecord_keys, State.setKeys_keys, fillPart_cells]
    exact filled.put c _
  · rw [State.withCells_keys, fillPart_withCells, withCells_setKeys, setKeys_withCells, takeRecord_withCells,
      answerRecord_withCells]

theorem execKeyPart_blind : BlindCommand (exec .keyPart) := fun s => by
  have answered : ∀ r st, Blind fun t => answerRecord (takeRecord t .s) .s r st .empty := fun r st =>
    (takeRecord_blind .s).answered .s r st .empty
  have idle : ∀ v, exec .keyPart (s.withCells v) = execKeyPart (s.withCells v) := fun _ => rfl
  rcases ho : offered s .s with _ | r
  · exact Blind.id.blindAt fun v _ => by rw [idle]; simp only [execKeyPart, onRecord, offered_withCells, ho]
  by_cases hk : kindCode r = Kind.keyPart.code
  · have taken : Taken s .s r .keyPart := taken_of_offered ho hk
    have taken' : ∀ v, Taken (s.withCells v) .s r .keyPart := fun _ => taken
    by_cases bad : cellOf (recordField r 4 1) = none ∨ reservedZero r partBytes = false
    · refine (answered r .badField).blindAt fun v _ => ?_
      rw [idle, execKeyPart, onRecord_taken _ (taken' v), withCell_bad bad]
    · obtain ⟨⟨c, cell⟩, fields⟩ := not_or.mp bad |>.imp Option.ne_none_iff_exists'.mp Bool.eq_true_of_not_eq_false
      rcases opened : s.keys.load with _ | l
      · refine (answered r .noLoad).blindAt fun v _ => ?_
        rw [idle, execKeyPart, onRecord_taken _ (taken' v), withCell_some cell fields]
        simp only [takeRecord_keys, State.withCells_keys, KeyStore.withCells_load, opened]
      · rcases refusal : firstRefusal (partChecks s.keys l c) with _ | st
        · exact keyPart_fills taken cell fields opened refusal
        · refine (answered r st).blindAt fun v filled => ?_
          rw [exec_keyPart (taken' v) cell fields opened, decideRecord, State.withCells_keys,
            partChecks_withCells filled, refusal]
  · exact Blind.id.blindAt fun v _ => by rw [idle]; simp only [execKeyPart, onRecord, offered_withCells, ho, if_neg hk]

/-! ### Every command -/

/-- No command but the end of a transform reads a key bit (R45). -/
theorem exec_blind {c : Instr} (other : ∀ l, c ≠ .transformEnd l) : BlindCommand (exec c) := by
  cases c with
  | powerOnReset => exact execPowerOnReset_blind
  | inactivityTick => exact execInactivityTick_blind
  | inactivityExpiry => exact execInactivityExpiry_blind
  | requestWindowWrite p r => exact execRequestWindowWrite_blind p r
  | completionWindowRead p => exact execCompletionWindowRead_blind p
  | badWindowAccess p a => exact execBadWindowAccess_blind p a
  | read => exact execRead_blind
  | write => exact execWrite_blind
  | claim => exact execClaim_blind
  | release => exact execRelease_blind
  | sweepQuery p => exact execSweepQuery_blind p
  | recipher => exact execRecipher_blind
  | screen => exact execScreen_blind
  | unknownKindRecord p => exact execUnknownKindRecord_blind p
  | status => exact execStatus_blind
  | formatSet => exact execFormatSet_blind
  | admitRequest => exact execAdmitRequest_blind
  | sealRequest => exact execSealRequest_blind
  | engineReset => exact execEngineReset_blind
  | zeroize => exact execZeroize_blind
  | rangeDefine => exact execRangeDefine_blind
  | rangeDelete => exact execRangeDelete_blind
  | rangeLocks => exact execRangeLocks_blind
  | rangeBind => exact execRangeBind_blind
  | rangeRekey => exact execRangeRekey_blind
  | rangeErase => exact execRangeErase_blind
  | rangeQuery => exact execRangeQuery_blind
  | countClear => exact execCountClear_blind
  | keyOpen => exact execKeyOpen_blind
  | keyPart => exact execKeyPart_blind
  | keyClear => exact execKeyClear_blind
  | keyQuery => exact execKeyQuery_blind
  | classSet => exact execClassSet_blind
  | busRecover => exact execBusRecover_blind
  | inactivitySet => exact execInactivitySet_blind
  | retain => exact execRetain_blind
  | wake => exact execWake_blind
  | laneTest => exact execLaneTest_blind
  | abortQuotaAnswer side => exact execAbortQuotaAnswer_blind side
  | grant => exact execGrant_blind
  | trailerReadDone l placed => exact execTrailerReadDone_blind l placed
  | dataUnitReadDone l placed => exact execDataUnitReadDone_blind l placed
  | transformEnd l => exact absurd rfl (other l)
  | resultWriteDone l => exact execResultWriteDone_blind l
  | verdictListWriteDone side slot => exact execVerdictListWriteDone_blind side slot
  | busErrorResponse who => exact execBusErrorResponse_blind who
  | droppedAccessResponse who kind => exact .of_blind .id
  | laneSelfTestEnd l encOk decOk => exact execLaneSelfTestEnd_blind l encOk decOk
  | eventPost => exact execEventPost_blind
  | drainEnd => exact .of_blind endDrain_blind
  | keyClearDeferredDone => exact .of_blind finishKeyClears_blind
  | engineResetEnd => exact .of_blind endEngineReset_blind
  | zeroizeClearing => exact .of_blind endZeroize_blind

/-- Settles O60: every other command is blind to key bits, in every state. -/
theorem keyBitsReadByTransformAlone : Obligations.KeyBitsReadByTransformAlone := by
  intro c s s' t other same run
  obtain ⟨v, filled, rfl⟩ := sameButKeyBits_iff.mp same
  obtain ⟨w, -, filled', run'⟩ := exec_blind other s t v run filled
  exact ⟨_, run', sameButKeyBits_iff.mpr ⟨w, filled', rfl⟩⟩

/-! ### What a step writes of the key cells (R45) -/

theorem Blind.empties {f : State → State} (h : Blind f) (s : State) : CellsEmptied s.keys.cells (f s).keys.cells := by
  obtain ⟨w, emptied, -, own⟩ := h s s.keys.cells (.refl _)
  have cells : (f s).keys.cells = w := congrArg (fun t : State => t.keys.cells) own
  rwa [cells]

/-- The end of a transform reads key bits and writes none: what follows the sector's end may empty cells. -/
theorem execTransformEnd_writes {s t : State} {l : LaneId} (run : exec (.transformEnd l) s = .next t) :
    CellsWritten s.keys.cells t.keys.cells := by
  replace run : execTransformEnd l s = .next t := run
  have idle : (.next s : Host.Outcome State Fault Refusal) = .next t → CellsWritten s.keys.cells t.keys.cells :=
    fun h => Host.Outcome.next.inj h ▸ (CellsEmptied.refl _).written
  simp only [execTransformEnd] at run
  split at run
  · next w _ =>
    split at run
    · split at run
      · next bytes _ =>
        have writing : Blind fun s => startWriting s l w bytes := .of_eq fun s v => startWriting_withCells s v l w bytes
        exact Host.Outcome.next.inj run ▸ (writing.empties s).written
      · next verdict _ => exact Host.Outcome.next.inj run ▸ ((sectorEnd_blind l verdict).empties s).written
      · exact idle run
    · exact idle run
  · exact idle run

theorem exec_writes {c : Instr} {s t : State} (run : exec c s = .next t) : CellsWritten s.keys.cells t.keys.cells := by
  by_cases transform : ∃ l, c = .transformEnd l
  · obtain ⟨l, rfl⟩ := transform
    exact execTransformEnd_writes run
  · exact (exec_blind (fun l e => transform ⟨l, e⟩) s).writes run

theorem step_writes {s t : State} (run : step s = .next t) : CellsWritten s.keys.cells t.keys.cells := by
  simp only [step] at run
  split at run
  · exact Host.Outcome.next.inj run ▸ (CellsEmptied.refl _).written
  · next c rest _ => exact exec_writes (s := { s with pending := rest }) run

/-- Settles O55: each cell keeps its bits, is emptied, or is filled where it was EMPTY. -/
theorem stepNeverRewritesFilledCell : Obligations.StepNeverRewritesFilledCell := by
  refine ⟨fun s t zero run c unfilled => ?_, fun s t c run filled => ?_⟩
  · rcases step_writes run c with same | emptied | ⟨-, fills⟩
    · rw [same] at unfilled ⊢
      exact zero c unfilled
    · rw [emptied]
    · rw [unfilled] at fills
      cases fills
  · rcases step_writes run c with same | emptied | ⟨empty, -⟩
    · exact .inl same
    · exact .inr emptied
    · rw [filled] at empty
      cases empty

end Sys2Proof.Machine
end

section
/-! PROOFS. The requests that become jobs (R67 to R74, R130, R137): an accepted READ or WRITE in its slot, with its pins and
what a WRITE overtakes, and the refusals of READ, WRITE, RECIPHER and SCREEN. -/

namespace Sys2Proof.Machine

/-! ### Acceptance (R55, R64, R73) -/

theorem pinnedGroups_nodup (kind : JobKind) (segs : List Segment) : (pinnedGroups kind segs).Nodup := by
  cases kind
  case screen => exact List.nodup_nil
  all_goals exact groupsOf_nodup _

/-- A READ pins the current and the previous groups of its segments (R55). -/
theorem mem_pinnedGroups_read (segs : List Segment) (g : CellId) :
    g ∈ pinnedGroups .read segs ↔ ∃ seg ∈ segs,
      seg.current.map Binding.group = some g ∨ seg.previous.map Binding.group = some g := by
  simp only [pinnedGroups, mem_groupsOf, List.mem_map, List.mem_flatMap, List.mem_append, Option.mem_toList,
    Option.map_eq_some_iff]
  grind

/-- A WRITE pins the current groups of its segments alone (R55). -/
theorem mem_pinnedGroups_write (segs : List Segment) (g : CellId) :
    g ∈ pinnedGroups .write segs ↔ ∃ seg ∈ segs, seg.current.map Binding.group = some g := by
  simp only [pinnedGroups, mem_groupsOf, List.mem_map, List.mem_flatMap, Option.mem_toList, Option.map_eq_some_iff]
  grind

/-- The state with the READ or WRITE taken and accepted in slot `k`: its job there, its groups pinned, the timer restarted. -/
def ioAccepted (s : State) (kind : JobKind) (r : Record) (k : Nat) : State :=
  let segs := requestSegments s r
  restartTimer ((setJob (takenOnly s .i) .i k
    (some (acceptedJob s .i kind r segs (pinnedGroups kind segs) none))).setKeys (s.keys.pin (pinnedGroups kind segs)))

theorem acceptJob_eq_ioAccepted {s : State} {k : Nat} (kind : JobKind) (r : Record) (free : LowestFree s .i k) :
    acceptJob (takeRecord s .i) .i (newJob (takeRecord s .i) .i kind r (requestSegments s r) none) =
      ioAccepted s kind r k := by
  have slot : freeSlot (takeRecord s .i) .i = some k := freeSlot_iff.mpr free
  simp only [acceptJob, slot, Option.getD_some]
  rfl

theorem ioChecks_takeRecord (s : State) (kind : JobKind) (r : Record) :
    ioChecks (takeRecord s .i) kind r = ioChecks s kind r := rfl

/-! ### READ (R68, R73) -/

theorem exec_read_accepted {s : State} {r : Record} {k : Nat} (ready : ReadReady s r k) :
    exec .read s = .next (ioAccepted s .read r k) := by
  obtain ⟨taken, fields, regions, path, table, segments, free⟩ := ready
  have regions' : RegionsGood (jobRegions s.table.dataUnit .read r) := by rwa [jobRegions, listRegion_eq]
  have passes : firstRefusal (ioChecks s .read r) = none :=
    ioChecks_pass fields regions' path table segments free
  show execRead s = _
  rw [execRead, onRecord_taken _ taken]
  simp only [ioChecks_takeRecord, passes]
  exact congrArg _ (acceptJob_eq_ioAccepted .read r free)

/-- Settles O20: the accepted job by its slot and its pins. -/
theorem readAcceptedBecomesJob : Obligations.ReadAcceptedBecomesJob := fun s _ _ ready =>
  ⟨nextAcceptance_above s .i, _, exec_read_accepted ready, sameMemory_of_buffer rfl, _,
    pin_pinnedOnce _ (pinnedGroups_nodup .read _) s.keys, mem_pinnedGroups_read _, rfl⟩

/-! ### WRITE (R68, R73, R74) -/

theorem exec_write_accepted {s : State} {r : Record} {k : Nat} (ready : WriteReady s r k) :
    exec .write s = .next (markOvertaken (ioAccepted s .write r k) r) := by
  obtain ⟨taken, fields, regions, path, table, segments, free⟩ := ready
  have regions' : RegionsGood (jobRegions s.table.dataUnit .write r) := by rwa [jobRegions, listRegion_eq]
  have passes : firstRefusal (ioChecks s .write r) = none :=
    ioChecks_pass fields regions' path table segments free
  show execWrite s = _
  rw [execWrite, onRecord_taken _ taken]
  simp only [ioChecks_takeRecord, passes]
  exact congrArg (fun t => Host.Outcome.next (markOvertaken t r)) (acceptJob_eq_ioAccepted .write r free)

/-- An accepted WRITE changes nothing of a claim but its overtaken set (R74). -/
theorem overtakeClaim_frame (start n : Nat) (c : Claim) :
    overtakeClaim start n c = { c with overtaken := (overtakeClaim start n c).overtaken } := by
  simp only [overtakeClaim]
  split <;> rfl

/-- A claim that is DONE or whose set is frozen is not marked (R74, R132). -/
theorem overtakeClaim_closed {start n : Nat} {c : Claim} (closed : c.state = .done ∨ c.frozen = true) :
    overtakeClaim start n c = c := if_pos closed

/-- Another claim's set gains those of the WRITE's LBAs that lie in the claim (R74). -/
theorem mem_overtakeClaim {start n : Nat} {c : Claim} (undone : c.state ≠ .done) (unfrozen : c.frozen = false) (y : Nat) :
    y ∈ (overtakeClaim start n c).overtaken ↔
      (c.first ≤ y ∧ y < c.first + c.count) ∧ (y ∈ c.overtaken ∨ (start ≤ y ∧ y < start + n)) := by
  rw [overtakeClaim, if_neg (by simp [undone, unfrozen])]
  simp [List.mem_range'_1]

theorem mapClaims_claims (w : SweepUnit) (f : Claim → Claim) (x : RangeId) :
    (w.mapClaims f).claims.get x = (w.claims.get x).map f := get_map ..

/-- The claims of two Sweep Units at one place, where the second is the first with a function applied to each claim. -/
theorem mapClaims_same_place {w : SweepUnit} {f : Claim → Claim} {c c' : Claim}
    (place : (∃ x : RangeId, ∃ i : Nat, (w.claims.get x)[i]? = some c ∧ ((w.mapClaims f).claims.get x)[i]? = some c') ∨
      ∃ i : Nat, w.cancelled[i]? = some c ∧ (w.mapClaims f).cancelled[i]? = some c') : c' = f c := by
  obtain ⟨x, i, before, after⟩ | ⟨i, before, after⟩ := place
  · rw [mapClaims_claims, List.getElem?_map, before] at after
    exact (Option.some.inj after).symm
  · rw [SweepUnit.mapClaims, List.getElem?_map, before] at after
    exact (Option.some.inj after).symm

/-- Settles O21: the accepted job as a READ's, then claim by claim what is overtaken. -/
theorem writeAcceptedMarksOvertaken : Obligations.WriteAcceptedMarksOvertaken := fun s r _ ready =>
  ⟨nextAcceptance_above s .i, _, exec_write_accepted ready, sameMemory_of_buffer rfl,
    ⟨_, pin_pinnedOnce _ (pinnedGroups_nodup .write _) s.keys, mem_pinnedGroups_write _, rfl⟩, rfl,
    fun x => (congrArg List.length (mapClaims_claims s.sweep _ x)).trans (List.length_map _),
    List.length_map _, fun c c' place => by
      have marked : c' = overtakeClaim (startOf r) (countOf r) c := mapClaims_same_place place
      subst marked
      exact ⟨overtakeClaim_frame _ _ c, overtakeClaim_closed, mem_overtakeClaim⟩⟩

/-! ### Refusals of READ and WRITE (R31, R67, R68) -/

/-- A table refuses with the status of one of its conditions that holds. -/
theorem Refuses.mem {t : List (Prop × Status)} {st : Status} (h : Refuses t st) : ∃ c ∈ t, c.1 ∧ c.2 = st := by
  induction t with
  | nil => cases h
  | cons c t ih =>
    obtain ⟨holds, status⟩ | ⟨-, rest⟩ := h
    · exact ⟨c, List.mem_cons_self, holds, status.symm⟩
    · obtain ⟨d, mem, hd⟩ := ih rest
      exact ⟨d, List.mem_cons_of_mem _ mem, hd⟩

/-- Of the checks of R68 the twelfth alone refuses LOCKED. -/
theorem locked_of_refuses {s : State} {kind : JobKind} {r : Record} (h : Refuses (ioTable s kind r) .locked) :
    ∃ g ∈ requestSegments s r, directionLock kind (s.table.entry g.range) = true := by
  simpa [ioTable, earlyTable, lookupTable, lockTable] using h.mem

/-- The locked segment found is a locked one, and of the locked segments the lowest (R31). -/
theorem lockedSegment_lowest {s : State} {kind : JobKind} {r : Record} {g : Segment}
    (found : lockedSegment s kind r = some g) :
    g ∈ requestSegments s r ∧ directionLock kind (s.table.entry g.range) = true ∧
      ∀ g' ∈ requestSegments s r, directionLock kind (s.table.entry g'.range) = true → g.first ≤ g'.first := by
  obtain ⟨locked, before, after, split, unlocked⟩ := List.find?_eq_some_iff_append.mp found
  refine ⟨List.mem_of_find?_eq_some found, locked, fun g' mem locked' => ?_⟩
  have sorted := (segmentsOf_sorted s.table (countOf r) (startOf r)).2
  change (requestSegments s r).Pairwise _ at sorted
  rw [split] at sorted mem
  rcases List.mem_append.mp mem with mem | mem
  · exact absurd locked' (by simpa using unlocked g' mem)
  · rcases List.mem_cons.mp mem with rfl | mem
    · exact Nat.le_refl _
    · exact (List.pairwise_cons.mp (List.pairwise_append.mp sorted).2.1).1 g' mem

/-- A LOCKED refusal counted: the range's count, and the event where it was 0 (R31). -/
theorem countRefusal_eq (s : State) (x : RangeId) : countRefusal s x =
    (s.setRange x { s.table.entry x with refusals := min ((s.table.entry x).refusals + 1) 65535 }).setEvents
      (if (s.table.entry x).refusals = 0 then
        { s.ports.events with rangeRefused := put s.ports.events.rangeRefused x true } else s.ports.events) := by
  simp only [countRefusal, raiseRangeRefused]
  split <;> rfl

theorem countRefusal_takeRecord (s : State) (p : Port) (x : RangeId) :
    countRefusal (takeRecord s p) x = takeRecord (countRefusal s x) p := by
  cases p <;> simp only [countRefusal_eq] <;> rfl

theorem countRefusal_buffer (s : State) (x : RangeId) : (countRefusal s x).buffer = s.buffer := by
  rw [countRefusal_eq]
  rfl

/-- A READ or WRITE that a check refuses (R67). -/
theorem exec_io_refused {s : State} {r : Record} {kind : JobKind} {c : Instr} {st : Status}
    (taken : (kind = .read ∧ c = .read ∧ Taken s .i r .read) ∨ (kind = .write ∧ c = .write ∧ Taken s .i r .write))
    (refuses : Refuses (ioTable s kind r) st) : exec c s = .next (refuseIo (takeRecord s .i) kind r st) := by
  obtain ⟨rfl, rfl, taken⟩ | ⟨rfl, rfl, taken⟩ := taken
  · have refused := firstRefusal_of_refuses (ioChecks_agree s .read (.inl rfl) r) refuses
    show execRead s = _
    rw [execRead, onRecord_taken _ taken]
    simp only [ioChecks_takeRecord, refused]
  · have refused := firstRefusal_of_refuses (ioChecks_agree s .write (.inr rfl) r) refuses
    show execWrite s = _
    rw [execWrite, onRecord_taken _ taken]
    simp only [ioChecks_takeRecord, refused]

theorem refuseIo_unlocked {st : Status} (h : st ≠ .locked) (s : State) (kind : JobKind) (r : Record) :
    refuseIo s kind r st = answerRecord s .i r st .empty := by
  simp only [refuseIo]
  split
  · exact absurd rfl h
  · rfl

theorem refuseIo_locked {s : State} {kind : JobKind} {r : Record} {g : Segment} (found : lockedSegment s kind r = some g) :
    refuseIo s kind r .locked = answerRecord (countRefusal s g.range) .i r .locked .empty := by
  simp only [refuseIo, found]

/-! ### Refusals of RECIPHER and SCREEN (R130, R137) -/

theorem matchingClaim_isNone_iff (s : State) (r : Record) : (matchingClaim s r).isNone = true ↔
    ¬ ∃ (x : RangeId) (c : Claim), c ∈ s.sweep.claims.get x ∧ c.state = .claimed ∧ c.first = startOf r ∧
      c.count = countOf r := by
  have listed (c : Claim) : c ∈ s.sweep.claims.toList.flatten ↔ ∃ x, c ∈ s.sweep.claims.get x := by
    simpa [SweepUnit.allClaims] using mem_allClaims { s.sweep with cancelled := [] } c
  simp only [matchingClaim, Option.isNone_iff_eq_none, List.find?_eq_none, listed, claimMatches]
  grind

/-- The checks of a RECIPHER (R130). -/
theorem recipherChecks_agree (s : State) (r : Record) : ChecksAgree (recipherChecks s r) (recipherTable s r) :=
  .append (listRegion_eq r ▸ earlyChecks_agree (jobFieldBad_iff r) _)
    (.cons ⟨matchingClaim_isNone_iff s r, rfl⟩
      (.cons ⟨by simp only [tableFull, Option.isNone_iff_eq_none, freeSlot_none], rfl⟩ .nil))

/-- The field check of a SCREEN (R137). -/
theorem screenFieldBad_iff (r : Record) : screenFieldBad r = true ↔
    ¬ (1 ≤ countOf r ∧ countOf r ≤ 256 ∧ flagsOk r = true ∧ listFlag r = true ∧
      reservedZero r ([1] ++ byteSpan 4 8 ++ byteSpan 10 16 ++ byteSpan 27 31) = true) := by
  simp only [screenFieldBad, countBad, Config.maxCount, screenBytes, Bool.or_eq_true, beq_iff_eq, Bool.not_eq_true']
  grind

/-- The checks of a SCREEN (R137). -/
theorem screenChecks_agree (s : State) (r : Record) : ChecksAgree (screenChecks s r) (screenTable s r) :=
  .append (.append (listRegion_eq r ▸ earlyChecks_agree (screenFieldBad_iff r) _) (tableChecks_agree s r))
    (.cons ⟨by simp only [tableFull, Option.isNone_iff_eq_none, freeSlot_none], rfl⟩ .nil)

theorem recipher_refused {s : State} {r : Record} {st : Status} (taken : Taken s .m r .recipher)
    (refuses : Refuses (recipherTable s r) st) : AnsweredOnly .recipher s .m r st .empty := by
  have refused : firstRefusal (recipherChecks (takeRecord s .m) r) = some st :=
    firstRefusal_of_refuses (recipherChecks_agree s r) refuses
  refine answeredOnly_of_exec ?_
  show execRecipher s = _
  rw [execRecipher, onRecord_taken _ taken]
  simp only [refused]

theorem screen_refused {s : State} {r : Record} {st : Status} (taken : Taken s .m r .screen)
    (refuses : Refuses (screenTable s r) st) : AnsweredOnly .screen s .m r st .empty := by
  have refused : firstRefusal (screenChecks (takeRecord s .m) r) = some st :=
    firstRefusal_of_refuses (screenChecks_agree s r) refuses
  refine answeredOnly_of_exec ?_
  show execScreen s = _
  rw [execScreen, onRecord_taken _ taken]
  simp only [refused]

/-- Settles O22: the checks agree with the tables, and LOCKED is answered after it is counted against the lowest locked
segment's range. -/
theorem refusedDataRequestLeavesNoTrace : Obligations.RefusedDataRequestLeavesNoTrace := by
  refine ⟨fun s r kind c taken => ⟨fun st refuses other => ?_, fun refuses => ?_⟩,
    fun s r st => ⟨recipher_refused, screen_refused⟩⟩
  · exact answeredOnly_of_exec (refuseIo_unlocked other (takeRecord s .i) kind r ▸ exec_io_refused taken refuses)
  · obtain ⟨g, found⟩ := Option.isSome_iff_exists.mp
      (List.find?_isSome.mpr (locked_of_refuses refuses) : (lockedSegment s kind r).isSome = true)
    have found' : lockedSegment (takeRecord s .i) kind r = some g := found
    obtain ⟨mem, locked, lowest⟩ := lockedSegment_lowest found
    have runs := exec_io_refused taken refuses
    rw [refuseIo_locked found', countRefusal_takeRecord] at runs
    exact ⟨g, mem, locked, lowest, countRefusal_eq s g.range ▸ completed_of_exec runs (countRefusal_buffer s g.range)⟩

end Sys2Proof.Machine
end

section
/-! PROOFS. The end of a sector at its job, the completion of each kind of job and its verdict list (R77 to R80, R132, R135,
R139), and the write of that list, which posts the completion (R78). -/

namespace Sys2Proof.Machine

/-! ### The end of a sector (R77) -/

theorem isFault_iff (v : Verdict) : v.isFault = true ↔ v = .retired ∨ v = .checkFail := by
  cases v <;> simp [Verdict.isFault]

/-- The first fault LBA after a fault: the lower of the two (R77). -/
theorem lowerFault_lowest (old : Option Nat) (lba : Nat) : ∃ low, lowerFault old lba = some low ∧ low ≤ lba ∧
    (∀ x, old = some x → low ≤ x) ∧ (low = lba ∨ old = some low) := by
  cases old with
  | none => exact ⟨lba, rfl, Nat.le_refl _, nofun, .inl rfl⟩
  | some x =>
    refine ⟨min x lba, rfl, Nat.min_le_right _ _, fun _ e => Option.some.inj e ▸ Nat.min_le_left _ _, ?_⟩
    rcases Nat.le_total x lba with le | le
    · exact .inr (by rw [Nat.min_eq_left le])
    · exact .inl (Nat.min_eq_right le)

/-- What a report of a sector's end leaves of the job, its sectors and their counts apart (R77). -/
theorem endSector_frame (j : Job) (lba : Nat) (v : Verdict) : j.endSector lba v =
    { j with sectors := (j.endSector lba v).sectors, done := (j.endSector lba v).done,
             blank := (j.endSector lba v).blank, fault := (j.endSector lba v).fault,
             firstFault := (j.endSector lba v).firstFault } := rfl

theorem endSector_sectors (j : Job) (lba : Nat) (v : Verdict) :
    (j.endSector lba v).sectors = j.sectors.set (lba - j.start) (.ended v) := rfl

/-- DONE, BLANK and a fault each add 1 to their count (R77). -/
theorem endSector_counts (j : Job) (lba : Nat) (v : Verdict) :
    (j.endSector lba v).done = j.done + (if v = .done then 1 else 0) ∧
    (j.endSector lba v).blank = j.blank + (if v = .blank then 1 else 0) ∧
    (j.endSector lba v).fault = j.fault + (if v = .retired ∨ v = .checkFail then 1 else 0) := by
  cases v <;> exact ⟨rfl, rfl, rfl⟩

theorem endSector_sound {j : Job} {lba : Nat} {v : Verdict} (sound : ¬ (v = .retired ∨ v = .checkFail)) :
    (j.endSector lba v).firstFault = j.firstFault ∧ (j.endSector lba v).fault = j.fault := by
  rw [← isFault_iff] at sound
  exact ⟨if_neg sound, if_neg sound⟩

theorem endSector_faulty {j : Job} {lba : Nat} {v : Verdict} (faulty : v = .retired ∨ v = .checkFail) :
    (j.endSector lba v).firstFault = lowerFault j.firstFault lba ∧ (j.endSector lba v).fault = j.fault + 1 := by
  rw [← isFault_iff] at faulty
  exact ⟨if_pos faulty, if_pos faulty⟩

/-- A first fault LBA stands exactly where a fault is counted, before a report and after it. -/
theorem endSector_firstFault_iff {j : Job} (h : j.fault = 0 ↔ j.firstFault = none) (lba : Nat) (v : Verdict) :
    (j.endSector lba v).fault = 0 ↔ (j.endSector lba v).firstFault = none := by
  by_cases faulty : v = .retired ∨ v = .checkFail
  · obtain ⟨low, first, -⟩ := lowerFault_lowest j.firstFault lba
    obtain ⟨lower, count⟩ := endSector_faulty (j := j) (lba := lba) faulty
    simp [lower, count, first]
  · obtain ⟨same, count⟩ := endSector_sound (j := j) (lba := lba) faulty
    rw [same, count, h]

/-! ### Counts of verdicts (R132, R139) -/

theorem countVerdict_eq_count (v : Verdict) (vs : List Verdict) : countVerdict v vs = vs.count v := by
  rw [countVerdict, ← List.countP_eq_length_filter]
  rfl

theorem faultCount_eq_count (vs : List Verdict) : faultCount vs = vs.count .retired + vs.count .checkFail := by
  rw [faultCount, ← List.countP_eq_length_filter]
  induction vs with
  | nil => rfl
  | cons v vs ih =>
    rw [List.countP_cons, List.count_cons, List.count_cons, ih]
    cases v <;> simp [Verdict.isFault] <;> omega

/-- Where no verdict is a fault there is no first fault LBA (R132). -/
theorem firstFaultOf_none {start : Nat} {vs : List Verdict} (h : faultCount vs = 0) : firstFaultOf start vs = 0 := by
  have sound : vs.findIdx? Verdict.isFault = none := by
    simpa [faultCount, List.findIdx?_eq_none_iff] using h
  rw [firstFaultOf, sound]

/-- The first fault LBA is that of the lowest sector whose verdict is a fault (R132). -/
theorem firstFaultOf_lowest (start : Nat) {vs : List Verdict} {i : Nat} {v : Verdict} (hv : vs[i]? = some v)
    (faulty : v.isFault = true) (lowest : ∀ m u, m < i → vs[m]? = some u → ¬ u.isFault = true) :
    firstFaultOf start vs = start + i := by
  obtain ⟨lt, at_i⟩ := List.getElem?_eq_some_iff.mp hv
  have found : vs.findIdx? Verdict.isFault = some i :=
    List.findIdx?_eq_some_iff_getElem.mpr ⟨lt, at_i ▸ faulty, fun m hm =>
      lowest m _ hm (List.getElem?_eq_getElem (Nat.lt_trans hm lt))⟩
  rw [firstFaultOf, found]

/-! ### Final verdicts and verdict lists (R80, R132) -/

/-- The final verdict of a sector: OVERTAKEN for an LBA of the claim's set, else the lane's (R132). -/
theorem finalVerdicts_get {j : Job} (whole : j.sectors.length = j.count) (overtaken : List Nat) {i : Nat} {v : Verdict}
    (ended : j.sectors[i]? = some (.ended v)) :
    (j.finalVerdicts overtaken)[i]? = some (if j.start + i ∈ overtaken then .overtaken else v) := by
  obtain ⟨lt, -⟩ := List.getElem?_eq_some_iff.mp ended
  have lba : (List.range' j.start j.count)[i]? = some (j.start + i) := by
    rw [List.getElem?_range' (whole ▸ lt), Nat.one_mul]
  have verdict : j.verdicts[i]? = some v := by
    rw [Job.verdicts, List.getElem?_map, ended]
    rfl
  rw [Job.finalVerdicts, List.getElem?_zipWith, lba, verdict]
  simp

/-- Byte `i` of a verdict list is the code of the list's verdict `i` (R80). -/
theorem listBytes_get {j : Job} {i : Nat} {v : Verdict} (h : j.listVerdicts[i]? = some v) :
    j.listBytes[i]? = some v.code := by
  rw [Job.listBytes, List.getElem?_map, h]
  rfl

theorem listVerdicts_recipher {j : Job} (kind : j.kind = .recipher) : j.listVerdicts = j.finals := by
  rw [Job.listVerdicts, kind]

theorem listVerdicts_other {j : Job} (kind : j.kind ≠ .recipher) : j.listVerdicts = j.verdicts := by
  cases hk : j.kind <;> simp_all [Job.listVerdicts]

/-! ### The completion (R79, R135, R139) -/

/-- The status follows from the end cause, and where there is none from the fault count (R79). -/
theorem status_eq {j : Job} {st : Status}
    (h : (j.cause = none ∧ j.faults = 0 ∧ st = .ok) ∨ (j.cause = none ∧ 0 < j.faults ∧ st = .partly) ∨
      (j.cause = some .aborted ∧ st = .aborted) ∨ (j.cause = some .zeroized ∧ st = .zeroized) ∨
      (j.cause = some .busFault ∧ st = .busFault) ∨
      (j.cause = some .sweepCancelled ∧ j.kind = .recipher ∧ st = .sweepCancelled)) : j.status = st := by
  obtain ⟨cause, faults, rfl⟩ | ⟨cause, faults, rfl⟩ | ⟨cause, rfl⟩ | ⟨cause, rfl⟩ | ⟨cause, rfl⟩ | ⟨cause, -, rfl⟩ := h <;>
    simp only [Job.status, cause]
  · exact if_pos faults
  · exact if_neg (Nat.pos_iff_ne_zero.mp faults)

/-- The completion of a READ or WRITE (R79). -/
theorem completion_io {j : Job} {code : Byte} {st : Status} (status : j.status = st)
    (kind : (j.kind = .read ∧ code = 0x01) ∨ (j.kind = .write ∧ code = 0x02))
    (first : j.fault = 0 → j.firstFault = none) :
    j.completion = { kind := code, status := st, tag := j.tag,
                     body := .data j.done j.blank j.fault (if j.fault = 0 then 0 else j.firstFault.getD 0) } := by
  have firstLba : j.firstFault.getD 0 = if j.fault = 0 then 0 else j.firstFault.getD 0 := by
    split
    · next none => rw [first none, Option.getD_none]
    · rfl
  rw [← firstLba]
  obtain ⟨kind, rfl⟩ | ⟨kind, rfl⟩ := kind <;>
    simp only [Job.completion, status, Job.body, kind, JobKind.code, Kind.code]

/-- The completion of a RECIPHER (R132, R135). -/
theorem completion_recipher {j : Job} {st : Status} (status : j.status = st) (kind : j.kind = .recipher) :
    j.completion = { kind := 0x13, status := st, tag := j.tag,
                     body := .recipher (j.finals.count .reciphered) (j.finals.count .alreadyCurrent)
                       (faultCount j.finals) (firstFaultOf j.start j.finals) (j.finals.count .overtaken) } := by
  simp only [Job.completion, status, Job.body, kind, JobKind.code, Kind.code, countVerdict_eq_count]

/-- The completion of a SCREEN (R139). -/
theorem completion_screen {j : Job} {st : Status} (status : j.status = st) (kind : j.kind = .screen) :
    j.completion = { kind := 0x14, status := st, tag := j.tag,
                     body := .screen (j.verdicts.count .liveCurrent + j.verdicts.count .livePrevious)
                       (j.verdicts.count .retired) } := by
  simp only [Job.completion, status, Job.body, kind, JobKind.code, Kind.code, countVerdict_eq_count]

/-- Settles O36: the end of a sector field by field, then the status and, for each kind of job, its completion and list. -/
theorem jobCompletionByKind : Obligations.JobCompletionByKind := by
  refine ⟨rfl, fun j lba v => ?_, fun j faults st cause => ⟨fun code kind count first => ?_,
    fun kind => ⟨fun overtaken i v whole => finalVerdicts_get whole overtaken, fun count => ?_, ?_, fun i v h => ?_⟩,
    fun kind none => ?_, fun kind => ⟨?_, fun i v h => ?_⟩⟩⟩
  · obtain ⟨done, blank, fault⟩ := endSector_counts j lba v
    refine ⟨endSector_frame j lba v, List.length_set .., fun inside => List.getElem?_set_self inside,
      fun i other => List.getElem?_set_ne other.symm, done, blank, fault, fun sound => (endSector_sound sound).1,
      fun faulty => ?_, fun h => endSector_firstFault_iff h lba v⟩
    rw [(endSector_faulty faulty).1]
    exact lowerFault_lowest j.firstFault lba
  · have faulted : j.faults = faults := by
      obtain ⟨kind, -⟩ | ⟨kind, -⟩ := kind <;> simp only [Job.faults, kind, count]
    exact completion_io (status_eq (faulted ▸ cause)) kind first
  · have faulted : j.faults = faults := by simp only [Job.faults, kind, count, faultCount_eq_count]
    rw [← faultCount_eq_count] at count
    refine ⟨firstFaultOf j.start j.finals, count ▸ completion_recipher (status_eq (faulted ▸ cause)) kind,
      fun none => firstFaultOf_none (count ▸ none), fun i v hv faulty lowest => ?_⟩
    simp only [← isFault_iff] at faulty lowest
    exact firstFaultOf_lowest j.start hv faulty lowest
  · rw [Job.listBytes, List.length_map, listVerdicts_recipher kind]
  · exact listBytes_get (listVerdicts_recipher kind ▸ h)
  · have faulted : j.faults = faults := by simp only [Job.faults, kind, none]
    exact completion_screen (status_eq (faulted ▸ cause)) kind
  · rw [Job.listBytes, List.length_map, listVerdicts_other kind, Job.verdicts, List.length_map]
  · refine listBytes_get ?_
    rw [listVerdicts_other kind, Job.verdicts, List.getElem?_map, h]
    rfl

/-! ### The write of a verdict list (R78, R80) -/

/-- The state as a completed verdict-list write leaves it, before the completion is posted: memory changed, the access gone. -/
def listLanded (s : State) (side : Side) (k : Nat) (a : Access) : State :=
  { s with buffer := writeBytes s.buffer a.addr a.bytes,
           bufferPort := { s.bufferPort with outstanding := without s (.list side k) } }

theorem exec_verdictListWriteDone {s : State} {side : Side} {k : Nat} {j : Job} {a : Access}
    (job : jobAt s side k = some j) (listing : j.phase = .listing) (access : accessOf s (.list side k) = some a)
    (kind : a.kind = .listWrite) :
    exec (.verdictListWriteDone side k) s = .next (settle (postJob (listLanded s side k a) side k j)) := by
  show execVerdictListWriteDone side k s = _
  simp only [execVerdictListWriteDone, job, access, listing, kind, and_self, if_true]
  rfl

/-- Settles O35: the bytes land, the completion is posted, and what follows comes about. -/
theorem verdictListWritePostsCompletion : Obligations.VerdictListWritePostsCompletion := by
  intro s side k j a job listing access kind reserved
  have port : (listLanded s side k a).port (sidePort side) = s.port (sidePort side) := by cases side <;> rfl
  have posted := postJob_posted (listLanded s side k a) side k j (port ▸ reserved)
  have buffer : (settle (postJob (listLanded s side k a) side k j)).buffer = writeBytes s.buffer a.addr a.bytes :=
    (settle_buffer _).trans (postJob_buffer _ side k j)
  refine ⟨_, exec_verdictListWriteDone job listing access kind, fun x outside => ?_, fun wf i b byte => ?_, ?_⟩
  · rw [buffer, readByte_writeBytes_outside _ _ _ _ outside]
  · rw [buffer, readByte_writeBytes _ _ _ _ _ wf byte]
  · rw [buffer]
    exact ⟨_, posted, settle_follows _⟩

end Sys2Proof.Machine
end

section
/-! PROOFS. The Dispatch Arbiter and its grants (R76, R87, R92 to R94): what the arbiter chooses, a grant's lane, sector and
first access, and grants in a row; then Class Set and Bus Recover (R95, R103). -/

namespace Sys2Proof.Machine

/-! ### The arbiter (R93, R94) -/

/-- While the classes differ the HIGH port is the one of the two that is HIGH (R93). -/
theorem highSide_of_differ {a : Arbiter} {h n : Side} (differ : a.iClass ≠ a.mClass)
    (high : (h = .i ∧ n = .m ∧ a.iClass = .high) ∨ (h = .m ∧ n = .i ∧ a.mClass = .high)) :
    highSide a = some h ∧ n = otherSide h := by
  rcases high with ⟨rfl, rfl, high⟩ | ⟨rfl, rfl, high⟩
  · have low : a.mClass = .normal := by
      cases hm : a.mClass
      · rfl
      · exact absurd (high.trans hm.symm) differ
    simp [highSide, high, low, otherSide]
  · have low : a.iClass = .normal := by
      cases hi : a.iClass
      · rfl
      · exact absurd (hi.trans high.symm) differ
    simp [highSide, high, low, otherSide]

theorem highSide_exists {a : Arbiter} (differ : a.iClass ≠ a.mClass) : ∃ h, highSide a = some h := by
  cases hi : a.iClass <;> cases hm : a.mClass <;> simp_all [highSide]

theorem highSide_of_equal {a : Arbiter} (equal : a.iClass = a.mClass) : highSide a = none := by
  simp only [highSide, equal]
  cases a.mClass <;> rfl

/-- The choice while one port is HIGH and the other NORMAL (R93). -/
theorem chooseGrant_differ {a : Arbiter} {h : Side} (high : highSide a = some h) (waits : Side → Bool) :
    chooseGrant a waits =
      if waits h = true then
        if waits (otherSide h) = true then if a.count < 8 then some (h, a.count + 1) else some (otherSide h, 0)
        else some (h, 0)
      else if waits (otherSide h) = true then some (otherSide h, 0) else none := by
  simp only [chooseGrant, high, Config.starvationLimit]
  cases waits h <;> cases waits (otherSide h) <;> rfl

/-- The choice while both ports are of one class (R94). -/
theorem chooseGrant_equal {a : Arbiter} (equal : a.iClass = a.mClass) (waits : Side → Bool) :
    chooseGrant a waits =
      if waits .i = true then if waits .m = true then some (alternate a.last, 0) else some (.i, 0)
      else if waits .m = true then some (.m, 0) else none := by
  simp only [chooseGrant, highSide_of_equal equal]
  cases waits .i <;> cases waits .m <;> rfl

/-- A grant goes to a port that waits (R92). -/
theorem chooseGrant_waits {a : Arbiter} {waits : Side → Bool} {side : Side} {count : Nat}
    (chosen : chooseGrant a waits = some (side, count)) : waits side = true := by
  by_cases equal : a.iClass = a.mClass
  · rw [chooseGrant_equal equal] at chosen
    split_ifs at chosen with i m m <;> cases chosen
    · cases alternate a.last <;> assumption
    · exact i
    · exact m
  · obtain ⟨h, high⟩ := highSide_exists equal
    rw [chooseGrant_differ high] at chosen
    split_ifs at chosen with high normal below normal <;> cases chosen
    · exact high
    · exact normal
    · exact high
    · exact normal

/-! ### The grant (R92) -/

theorem laneEligible_iff (s : State) (l : LaneId) : laneEligible s l = true ↔
    (s.stage.stage = .run ∨ s.stage.stage = .draining) ∧ (s.lanes.get l).inService = true ∧
      (s.lanes.get l).work = none ∧ (s.lanes.get l).testHold = false := by
  simp [laneEligible, and_assoc]

theorem eligibleLane_eq_none {s : State} : eligibleLane s = none ↔ ∀ l, laneEligible s l = false := by
  simp [eligibleLane]

/-- The lane found is the eligible one with the lowest number (R92). -/
theorem eligibleLane_eq_some {s : State} {l : LaneId} (eligible : laneEligible s l = true)
    (lowest : ∀ l', laneEligible s l' = true → l ≤ l') : eligibleLane s = some l := by
  rcases found : eligibleLane s with _ | l'
  · simp [eligibleLane_eq_none.mp found l] at eligible
  · obtain ⟨eligible', before, after, split, skipped⟩ := List.find?_eq_some_iff_append.mp found
    have rising := split ▸ List.pairwise_lt_finRange 4
    have least : l' ≤ l := by
      rcases List.mem_append.mp (split ▸ List.mem_finRange l) with mem | mem
      · exact absurd eligible (by simpa using skipped l mem)
      · rcases List.mem_cons.mp mem with rfl | mem
        · exact le_rfl
        · exact ((List.pairwise_cons.mp (List.pairwise_append.mp rising).2.1).1 l mem).le
    rw [le_antisymm least (lowest l' eligible')]

/-- With no lane eligible or no port waiting nothing is granted. -/
theorem exec_grant_idle {s : State} (idle : (∀ l, laneEligible s l = false) ∨ ∀ side, offerOf s side = none) :
    exec .grant s = .next s := by
  show execGrant s = _
  rcases idle with lanes | offers
  · simp only [execGrant, eligibleLane_eq_none.mpr lanes]
  · have chosen : chooseGrant s.arbiter (fun side => (offerOf s side).isSome) = none := by
      rw [Option.eq_none_iff_forall_ne_some]
      rintro ⟨side, count⟩ chosen
      simpa [offers side] using chooseGrant_waits chosen
    simp only [execGrant, chosen]
    cases eligibleLane s <;> rfl

/-- The offer of a side is a sector of the job accepted first of those that can offer one (R76). -/
theorem offerOf_offers {s : State} {side : Side} {k : Nat} {j : Job} (offer : offerOf s side = some (k, j)) :
    ∃ lba, Offers s side k j lba := by
  obtain ⟨offers, first⟩ := offerOf_lowest offer
  have can : ∀ k' j', jobAt s side k' = some j' → j'.cause = none → j'.next ≠ none →
      offering s side k' = some (k', j') := by
    intro k' j' job cause next
    simp [offering, job, cause, Option.isSome_iff_ne_none.mpr next]
  have job := offerOf_job offer
  have able : j.cause = none ∧ j.next.isSome = true := by
    simp only [offering, job] at offers
    by_contra h
    rw [if_neg h] at offers
    cases offers
  obtain ⟨lba, next⟩ := Option.isSome_iff_exists.mp able.2
  exact ⟨lba, job, able.1, next, fun k' j' job' cause' next' =>
    first k' (k', j') (slot_lt_of_jobAt job') (can k' j' job' cause' next')⟩

/-- With a lane eligible and a port waiting a grant is made (R92). -/
theorem exec_grant {s : State} {l : LaneId} {side : Side} {count k lba : Nat} {j : Job} (lane : eligibleLane s = some l)
    (chosen : chooseGrant s.arbiter (fun sd => (offerOf s sd).isSome) = some (side, count))
    (offer : offerOf s side = some (k, j)) (next : j.next = some lba) :
    exec .grant s = .next { grantSector s l side k j lba with
      arbiter := { s.arbiter with count := count, last := some side } } := by
  show execGrant s = _
  simp only [execGrant, lane, chosen, offer, next]

/-- A grant leaves its port and its count in the arbiter (R93, R94). -/
theorem grantRecords (s : State) : GrantRecords s := by
  rintro ⟨l, eligible⟩ side count chosen
  obtain ⟨l, lane⟩ : ∃ l, eligibleLane s = some l := by
    rw [← Option.ne_none_iff_exists']
    intro idle
    simp [eligibleLane_eq_none.mp idle l] at eligible
  obtain ⟨⟨k, j⟩, offer⟩ := Option.isSome_iff_exists.mp (chooseGrant_waits chosen)
  obtain ⟨lba, -, -, next, -⟩ := offerOf_offers offer
  exact ⟨_, exec_grant lane chosen offer next, rfl⟩

/-- The sector handed to a lane, its first access asked for at a NORMAL port (R12, R76). -/
theorem grantSector_normal {s : State} (l : LaneId) (side : Side) (k : Nat) (j : Job) (lba : Nat)
    (normal : s.bufferPort.faulted = false) :
    grantSector s l side k j lba =
      { setJob s side k (some (j.granted lba)) with
        lanes := put s.lanes l { s.lanes.get l with work := some (workOf s.table.dataUnit side k j lba) },
        bufferPort := { s.bufferPort with outstanding := s.bufferPort.outstanding ++
          [firstAccess s.table.dataUnit l (workOf s.table.dataUnit side k j lba)] } } := by
  rw [grantSector, askAccess_normal _ (by cases side <;> exact normal)]
  cases side <;> rfl

/-- The first access of a lane is the plain-form unit for a WRITE, else the trailer (R12, R96). -/
theorem firstAccess_workOf (u : DataUnit) (l : LaneId) (side : Side) (k : Nat) (j : Job) (lba : Nat) :
    firstAccess u l (workOf u side k j lba) =
      if j.kind = .write then
        { who := .lane l, kind := .dataRead, addr := (workOf u side k j lba).src, len := u.bytes, bytes := [] }
      else
        { who := .lane l, kind := .trailerRead, addr := (workOf u side k j lba).src + u.bytes, len := 8,
          bytes := [] } := by
  rcases j with ⟨tag, kind⟩
  cases kind <;> rfl

/-- Settles O28: when a lane is eligible and a table offers, and the grant to the lane and of the sector found. -/
theorem grantHandsOfferedSector : Obligations.GrantHandsOfferedSector := by
  refine ⟨fun s => ⟨laneEligible_iff s, offerOf_isSome s, exec_grant_idle⟩, ?_⟩
  intro s l side count k j lba lowest eligible chosen offer next normal
  obtain ⟨lba', job, cause, next', first⟩ := offerOf_offers offer
  refine ⟨⟨job, cause, next, first⟩, ?_⟩
  have runs := exec_grant (eligibleLane_eq_some eligible lowest) chosen offer next
  rw [grantSector_normal _ _ _ _ _ normal, firstAccess_workOf] at runs
  refine ⟨_, runs, sameMemory_of_buffer (setJob_buffer ..), ?_⟩
  rcases j with ⟨tag, kind⟩
  cases kind <;> rfl

/-! ### Grants in a row (R93, R94) -/

theorem alternate_some (side : Side) : alternate (some side) = otherSide side := by cases side <;> rfl

/-- Settles O30: the choice case by case; in a row the grants alternate, since each leaves its port as the last
granted. -/
theorem arbiterWhileClassesEqual : Obligations.ArbiterWhileClassesEqual := by
  intro a equal
  refine ⟨fun waits => ?_, fun grants lasts first runs => ?_, fun s _ => grantRecords s⟩
  · rw [chooseGrant_equal equal]
    refine ⟨?_, ?_, ?_, ?_, ?_, ?_⟩ <;> intros <;> simp [*, alternate]
  · have granted : ∀ i, grants i = alternate (lasts i) := by
      intro i
      have run := (runs i).1
      rw [chooseGrant_equal (by exact equal)] at run
      simpa using run.symm
    have turn : ∀ i, grants (i + 1) = otherSide (grants i) := by
      intro i
      rw [granted (i + 1), (runs i).2, alternate_some]
    refine ⟨?_, fun i => ⟨?_, ?_⟩⟩
    · rw [granted 0, first]
      rcases a.last with _ | _ | _ <;> simp [alternate]
    · rw [turn]
      cases grants i <;> simp [otherSide]
    · rw [turn, turn]
      cases grants i <;> rfl

/-- Of nine naturals in a row just one leaves remainder 8 at the division by nine. -/
theorem one_of_nine (c i : Nat) : ((List.range' i 9).filter (fun m => decide ((c + m) % 9 = 8))).length = 1 := by
  have periodic : Function.Periodic (fun m : Nat => m % 9 = 8) 9 := fun m => by simp
  have once := Nat.filter_multiset_Ico_card_eq_of_periodic (c + i) 9 (fun m => m % 9 = 8) periodic
  have window : Multiset.Ico (c + i) (c + i + 9) = (List.range' (c + i) 9 : List Nat) := by
    simp [Multiset.Ico, Finset.Ico, LocallyFiniteOrder.finsetIco]
  rw [window, Multiset.filter_coe, Multiset.coe_card, ← List.map_add_range', List.filter_map, List.length_map,
    show Nat.count (fun m => m % 9 = 8) 9 = 1 by decide] at once
  exact once

/-- With both ports waiting throughout, the count runs through 0 to 8 and round again, and at 8 the NORMAL port has the
grant (R93). -/
theorem counts_differ {a : Arbiter} {h : Side} (high : highSide a = some h) {grants : Nat → Side} {counts : Nat → Nat}
    (first : counts 0 = a.count) (start : a.count ≤ 8)
    (runs : ∀ i, chooseGrant { a with count := counts i } (fun _ => true) = some (grants i, counts (i + 1))) (i : Nat) :
    counts i = (a.count + i) % 9 ∧ (grants i = otherSide h ↔ counts i = 8) := by
  have run : ∀ i, (counts i < 8 ∧ grants i = h ∧ counts (i + 1) = counts i + 1) ∨
      (8 ≤ counts i ∧ grants i = otherSide h ∧ counts (i + 1) = 0) := by
    intro i
    have run := runs i
    rw [chooseGrant_differ (by exact high)] at run
    by_cases below : counts i < 8
    · simp only [below, if_true, Option.some.injEq, Prod.mk.injEq] at run
      exact .inl ⟨below, run.1.symm, run.2.symm⟩
    · simp only [below, if_true, if_false, Option.some.injEq, Prod.mk.injEq] at run
      exact .inr ⟨Nat.le_of_not_lt below, run.1.symm, run.2.symm⟩
  have count : ∀ i, counts i = (a.count + i) % 9 := by
    intro i
    induction i with
    | zero => omega
    | succ i ih => rcases run i with ⟨below, -, next⟩ | ⟨full, -, next⟩ <;> omega
  refine ⟨count i, ?_⟩
  have bound := count i
  rcases run i with ⟨below, granted, -⟩ | ⟨full, granted, -⟩
  · rw [granted]
    exact ⟨fun same => absurd same (by cases h <;> simp [otherSide]), fun eight => by omega⟩
  · exact ⟨fun _ => by omega, fun _ => granted⟩

/-- Settles O29: the choice case by case; in a row the count runs through the nine remainders, and at 8 the NORMAL
port is granted. -/
theorem arbiterWhileClassesDiffer : Obligations.ArbiterWhileClassesDiffer := by
  intro a h n differ sides
  obtain ⟨high, rfl⟩ := highSide_of_differ differ sides
  refine ⟨fun waits => ?_, fun grants counts first start runs i => ?_, fun s _ => grantRecords s⟩
  · rw [chooseGrant_differ high]
    refine ⟨?_, ?_, ?_, ?_, ?_⟩ <;> intros <;> simp [*]
    omega
  · have cycle := counts_differ high first start runs
    have normal : (fun m => grants m == otherSide h) = fun m => decide ((a.count + m) % 9 = 8) := by
      funext m
      rw [Bool.beq_eq_decide_eq, decide_eq_decide, (cycle m).2, (cycle m).1]
    refine ⟨by rw [(cycle i).1]; omega, ?_⟩
    rw [normal, one_of_nine]

/-! ### CLASS_SET and BUS_RECOVER (R95, R103) -/

theorem classOfCode_none {n : Nat} (h : 1 < n) : classOfCode n = none := by
  rw [classOfCode, if_neg (by omega), if_neg (by omega)]

/-- CLASS_SET with good fields sets the classes (R95). -/
theorem exec_classSet {s : State} {r : Record} {i m : PortClass} (taken : Taken s .s r .classSet)
    (hi : classOfCode (recordField r 4 1) = some i) (hm : classOfCode (recordField r 5 1) = some m)
    (fields : reservedZero r [4, 5] = true) :
    exec .classSet s = .next (answerRecord
      (takeRecord { s with arbiter := { iClass := i, mClass := m, count := 0, last := s.arbiter.last } } .s) .s r .ok
      .empty) := by
  show execClassSet s = _
  rw [execClassSet, onRecord_taken _ taken, hi, hm, fields]
  rfl

/-- CLASS_SET with a field that is not good is refused BAD_FIELD (R95). -/
theorem exec_classSet_bad {s : State} {r : Record} (taken : Taken s .s r .classSet)
    (bad : classOfCode (recordField r 4 1) = none ∨ classOfCode (recordField r 5 1) = none ∨
      reservedZero r [4, 5] = false) :
    exec .classSet s = .next (answerRecord (takeRecord s .s) .s r .badField .empty) := by
  show execClassSet s = _
  rw [execClassSet, onRecord_taken _ taken]
  split
  · next hi hm fields => simp [hi, hm, fields] at bad
  · rfl

/-- Settles O38: the effect of good fields and the refusal of the others. -/
theorem classSetSetsBothClasses : Obligations.ClassSetSetsBothClasses := by
  intro s r taken
  refine ⟨fun i m hi hm fields => completed_of_exec (exec_classSet taken hi hm fields) rfl, fun bad => ?_⟩
  exact completed_of_exec
    (exec_classSet_bad taken (bad.imp classOfCode_none (Or.imp_left classOfCode_none))) rfl

/-- BUS_RECOVER makes one check, of its reserved fields (R103). -/
theorem exec_busRecover {s : State} {r : Record} (taken : Taken s .s r .busRecover) :
    exec .busRecover s = .next (decideRecord .s r [(!reservedZero r [], .badField)] (takeRecord s .s)
      (answerRecord (takeRecord { s with bufferPort := { s.bufferPort with faulted := false } } .s) .s r .ok .empty)) := by
  show execBusRecover s = _
  rw [execBusRecover, onRecord_taken _ taken]
  rfl

/-- Settles O39: the effect where the one check passes, and its refusal. -/
theorem busRecoverReturnsToNormal : Obligations.BusRecoverReturnsToNormal := by
  intro s r taken
  have runs := exec_busRecover taken
  refine ⟨fun fields => ?_, fun bad => ?_⟩
  · rw [decideRecord_accept (by simp [firstRefusal_cons, fields])] at runs
    obtain ⟨t, ht, memory, rfl⟩ := completed_of_exec runs rfl
    exact ⟨_, ht, memory, rfl, rfl, rfl⟩
  · have refused : firstRefusal [(!reservedZero r [], Status.badField)] = some .badField := by
      simp [firstRefusal_cons, bad]
    rw [decideRecord, refused] at runs
    exact completed_of_exec runs rfl

end Sys2Proof.Machine
end

section
/-! PROOFS. The ends that a bus fault brings about (R98 to R101): what the dropped accesses leave of memory, the abandoned
lanes of the sectors, and the ends of all jobs of the queues and the claims. -/

namespace Sys2Proof.Machine

/-! ### The accesses dropped (R98) -/

/-- The address `b` lies in none of the writes among the accesses `as`. -/
def OutsideWrites (as : List Access) (b : Nat) : Prop :=
  ∀ x ∈ as, x.kind.isWrite = true → b < x.addr ∨ x.addr + x.bytes.length ≤ b

/-- Writes cut off change nothing but memory at their own bytes, and the count of draws. -/
theorem foldl_cutWrite (L : List Access) (u : State) : ∃ m d, L.foldl cutWrite u = { u with buffer := m, draws := d } ∧
    ∀ b, OutsideWrites L b → readByte m b = readByte u.buffer b := by
  induction L generalizing u with
  | nil => exact ⟨u.buffer, u.draws, rfl, fun _ _ => rfl⟩
  | cons x L ih =>
    obtain ⟨m, d, e, same⟩ := ih (cutWrite u x)
    have cut : cutWrite u x = { u with buffer := (cutWrite u x).buffer, draws := (cutWrite u x).draws } := by
      simp only [cutWrite]
      split <;> rfl
    have outside : ∀ b, OutsideWrites (x :: L) b → readByte (cutWrite u x).buffer b = readByte u.buffer b := by
      intro b hb
      simp only [cutWrite]
      split
      · next write => exact readByte_cutBytes_outside _ _ _ _ _ _ (hb x List.mem_cons_self write)
      · rfl
    refine ⟨m, d, ?_, fun b hb => ?_⟩
    · rw [List.foldl_cons, e, cut]
    · rw [same b fun y hy => hb y (List.mem_cons_of_mem _ hy), outside b hb]

/-- The port FAULTED with every access dropped; no other byte of memory than those of the writes in flight changes (R98). -/
theorem portFaulted_eq (s : State) (a : Access) : ∃ m d, portFaulted s a = { s with
      buffer := m, draws := d, bufferPort := { faulted := true, faultAddr := a.addr, outstanding := [] } } ∧
    ∀ b, OutsideWrites s.bufferPort.outstanding b → readByte m b = readByte s.buffer b := by
  obtain ⟨m, d, e, same⟩ := foldl_cutWrite s.bufferPort.outstanding s
  refine ⟨m, d, ?_, same⟩
  simp only [portFaulted, dropAll, e]
  rfl

/-! ### The lanes' sectors abandoned (R16, R99) -/

/-- Whether the lane `l` holds sector `i` of the job `j` in slot `k`. -/
def holdsSector (s : State) (l : LaneId) (side : Side) (k : Nat) (j : Job) (i : Nat) : Bool :=
  (s.lanes.get l).work.any (fun w => w.side == side && w.slot == k && w.lba - j.start == i)

theorem jobAt_endSector (u : State) (side : Side) (k lba : Nat) (v : Verdict) (side' : Side) (k' : Nat) :
    jobAt (endSector u side k lba v) side' k' =
      (jobAt u side' k').map (fun j => if side' = side ∧ k' = k then j.endSector lba v else j) := by
  simp only [endSector]
  split
  · next j hj =>
    rw [jobAt_setJob]
    by_cases at_slot : side' = side ∧ k' = k
    · obtain ⟨rfl, rfl⟩ := at_slot
      simp [hj, slot_lt_of_jobAt hj]
    · rw [if_neg fun h => at_slot ⟨h.1, h.2.1⟩]
      simp [at_slot]
  · next hj =>
    by_cases at_slot : side' = side ∧ k' = k
    · obtain ⟨rfl, rfl⟩ := at_slot
      simp [hj]
    · simp [at_slot]

/-- `v` is `u` with the sectors of the lanes `L` abandoned. -/
structure SectorsQuit (u v : State) (L : List LaneId) : Prop where
  job : ∀ side k, jobAt v side k =
    (jobAt u side k).map (fun j => j.notDoneAt (fun i => L.any (fun l => holdsSector u l side k j i)))
  work : ∀ l, (v.lanes.get l).work = if l ∈ L then none else (u.lanes.get l).work
  inService : ∀ l, (v.lanes.get l).inService = (u.lanes.get l).inService
  ports : v.ports = u.ports
  sweep : v.sweep = u.sweep
  buffer : v.buffer = u.buffer

theorem SectorsQuit.refl (u : State) : SectorsQuit u u [] :=
  ⟨fun side k => by simp [Job.notDoneAt_none], fun _ => by simp, fun _ => rfl, rfl, rfl, rfl⟩

theorem abandonSector_quits (u : State) (l : LaneId) : SectorsQuit u (abandonSector u l) [l] := by
  have work := (abandonSector_quit u l).2
  rcases hw : (u.lanes.get l).work with _ | w
  · have idle : abandonSector u l = u := by simp only [abandonSector, hw]
    have free : ∀ side k j i, holdsSector u l side k j i = false := by simp [holdsSector, hw]
    rw [idle] at work ⊢
    exact ⟨fun side k => by simp [free, Job.notDoneAt_none], fun l' => by simpa using work l', fun _ => rfl, rfl, rfl,
      rfl⟩
  · have e : abandonSector u l = endSector (clearAccess (freeLane u l) (.lane l)) w.side w.slot w.lba .notDone := by
      simp only [abandonSector, hw]
    have lanes : ∀ u' : State, (endSector u' w.side w.slot w.lba .notDone).lanes = u'.lanes ∧
        (endSector u' w.side w.slot w.lba .notDone).ports = u'.ports ∧
        (endSector u' w.side w.slot w.lba .notDone).sweep = u'.sweep := by
      intro u'
      simp only [endSector]
      split <;> simp
    obtain ⟨hlanes, hports, hsweep⟩ := lanes (clearAccess (freeLane u l) (.lane l))
    refine ⟨fun side k => ?_, fun l' => by simpa using work l', fun l' => ?_, ?_, ?_, ?_⟩
    · rw [e, jobAt_endSector, jobAt_congr (v := clearAccess (freeLane u l) (.lane l)) (u := u) rfl]
      congr 1
      funext j
      by_cases at_slot : side = w.side ∧ k = w.slot
      · obtain ⟨rfl, rfl⟩ := at_slot
        simp [Job.endSector_notDone, holdsSector, hw]
      · have other : (w.side == side && w.slot == k) = false := by
          rw [Bool.eq_false_iff]
          intro h
          simp only [Bool.and_eq_true, beq_iff_eq] at h
          exact at_slot ⟨h.1.symm, h.2.symm⟩
        simp [at_slot, holdsSector, hw, other, Job.notDoneAt_none]
    · rw [e, hlanes]
      show ((put u.lanes l _).get l').inService = _
      rw [get_put]
      split
      · next h => rw [h]
      · rfl
    · rw [e, hports]; rfl
    · rw [e, hsweep]; rfl
    · rw [e, endSector_buffer]; rfl

theorem SectorsQuit.cons {u v w : State} {a : LaneId} {L : List LaneId} (ha : a ∉ L) (h1 : SectorsQuit u v [a])
    (h2 : SectorsQuit v w L) : SectorsQuit u w (a :: L) := by
  have same : ∀ l ∈ L, ∀ side k (j : Job) f i,
      holdsSector v l side k (j.notDoneAt f) i = holdsSector u l side k j i := by
    intro l hl side k j f i
    have other : l ∉ [a] := fun h => ha (List.mem_singleton.mp h ▸ hl)
    simp only [holdsSector, h1.work, if_neg other]
    rfl
  refine ⟨fun side k => ?_, fun l => ?_, fun l => (h2.inService l).trans (h1.inService l), h2.ports.trans h1.ports,
    h2.sweep.trans h1.sweep, h2.buffer.trans h1.buffer⟩
  · rw [h2.job, h1.job, Option.map_map]
    congr 1
    funext j
    simp only [Function.comp_apply, Job.notDoneAt_notDoneAt, List.any_cons, List.any_nil, Bool.or_false]
    congr 1
    funext i
    congr 1
    rw [Bool.eq_iff_iff, List.any_eq_true, List.any_eq_true]
    exact exists_congr fun l => and_congr_right fun hl => by rw [same l hl]
  · rw [h2.work, h1.work]
    by_cases hl : l ∈ L <;> by_cases he : l = a <;> simp [hl, he]

theorem foldl_abandonSector_quits (L : List LaneId) (hL : L.Nodup) (u : State) :
    SectorsQuit u (L.foldl abandonSector u) L := by
  induction L generalizing u with
  | nil => exact .refl u
  | cons a L ih =>
    obtain ⟨ha, hL⟩ := List.nodup_cons.mp hL
    exact (abandonSector_quits u a).cons ha (ih hL _)

/-! ### The jobs before their ends (R82, R99) -/

/-- The job in slot `k` as a bus fault leaves it before its end is looked at: BUS_FAULT, and NOT_DONE for every sector that a
lane holds and every one not ended (R82, R99). -/
def faultCut (s : State) (side : Side) (k : Nat) (j : Job) : Job :=
  { j with
    cause := some .busFault, next := none,
    sectors := j.sectors.mapIdx (fun i (st : SectorState) =>
      .ended (if laneHolds s side k j i then .notDone else st.verdict)) }

theorem busFault_notDoneAt (j : Job) (f : Nat → Bool) : (j.notDoneAt f).busFault =
    { j with
      cause := some .busFault, next := none,
      sectors := j.sectors.mapIdx (fun i (st : SectorState) => .ended (if f i then .notDone else st.verdict)) } := by
  simp only [Job.busFault, Job.notDoneAt]
  congr 1
  apply List.ext_getElem?
  intro i
  simp only [List.getElem?_map, List.getElem?_mapIdx, Option.map_map]
  congr 1
  funext st
  cases f i <;> cases st <;> rfl

/-- The state in which the ends of the jobs are looked at: accesses dropped, lanes abandoned, jobs cut short. -/
def faultStopped (s : State) (a : Access) : State :=
  mapJobs (mapJobs (abandonAll (portFaulted s a)) .i Job.busFault) .m Job.busFault

theorem faultStopped_job (s : State) (a : Access) (side : Side) (k : Nat) :
    jobAt (faultStopped s a) side k = (jobAt s side k).map (faultCut s side k) := by
  obtain ⟨m, d, e, -⟩ := portFaulted_eq s a
  have quits := foldl_abandonSector_quits _ (List.nodup_finRange 4) (portFaulted s a)
  rw [faultStopped, jobAt_mapJobs, abandonAll, quits.job, Option.map_map, e]
  have same : ∀ b p, jobAt { s with buffer := m, draws := b, bufferPort := p } side k = jobAt s side k := fun _ _ => by
    cases side <;> rfl
  rw [same]
  congr 1
  funext j
  exact busFault_notDoneAt j _

theorem faultStopped_frame (s : State) (a : Access) :
    (faultStopped s a).ports = s.ports ∧ (faultStopped s a).sweep = s.sweep ∧
    (∀ l, ((faultStopped s a).lanes.get l).inService = (s.lanes.get l).inService) ∧
    ∀ b, OutsideWrites s.bufferPort.outstanding b → readByte (faultStopped s a).buffer b = readByte s.buffer b := by
  obtain ⟨m, d, e, same⟩ := portFaulted_eq s a
  have quits := foldl_abandonSector_quits _ (List.nodup_finRange 4) (portFaulted s a)
  rw [← abandonAll] at quits
  simp only [faultStopped, mapJobs_ports, mapJobs_sweep, mapJobs_lanes, mapJobs_buffer]
  refine ⟨?_, ?_, fun l => ?_, ?_⟩
  · rw [quits.ports, e]
  · rw [quits.sweep, e]
  · rw [quits.inService, e]
  · rw [quits.buffer, e]
    exact same

/-! ### What becomes of the claims (R100, R133, R135) -/

/-- The claims of the part that `f` keeps, changed as it says, the others removed. -/
def SweepUnit.keepClaims (w : SweepUnit) (f : Claim → Option Claim) : SweepUnit :=
  { w with claims := w.claims.map (List.filterMap f), cancelled := w.cancelled.filterMap f }

theorem mem_keepClaims {w : SweepUnit} {f : Claim → Option Claim} {x : RangeId} {d : Claim} :
    d ∈ (w.keepClaims f).claims.get x ↔ ∃ c ∈ w.claims.get x, f c = some d := by
  rw [SweepUnit.keepClaims, get_map, List.mem_filterMap]

theorem mem_keepClaims_cancelled {w : SweepUnit} {f : Claim → Option Claim} {d : Claim} :
    d ∈ (w.keepClaims f).cancelled ↔ ∃ c ∈ w.cancelled, f c = some d := List.mem_filterMap

theorem keepClaims_some (w : SweepUnit) : w.keepClaims some = w := by
  have id : (List.filterMap some : List Claim → List Claim) = id := funext fun _ => List.filterMap_some
  simp only [SweepUnit.keepClaims, id, Vector.map_id, id_eq]

theorem keepClaims_keepClaims (w : SweepUnit) (f g : Claim → Option Claim) :
    (w.keepClaims f).keepClaims g = w.keepClaims (fun c => (f c).bind g) := by
  simp only [SweepUnit.keepClaims, Vector.map_map, List.filterMap_filterMap]
  congr 2
  funext L
  simp [List.filterMap_filterMap]

theorem mapClaims_eq_keepClaims (w : SweepUnit) (f : Claim → Claim) :
    w.mapClaims f = w.keepClaims (fun c => some (f c)) := by
  have map : List.map f = List.filterMap (fun c => some (f c)) := funext fun L => by
    rw [← List.filterMap_eq_map]; rfl
  rw [SweepUnit.mapClaims, SweepUnit.keepClaims, map]

theorem filterClaims_eq_keepClaims (w : SweepUnit) (p : Claim → Bool) :
    w.filterClaims p = w.keepClaims (Option.guard p) := by
  have filter : List.filter p = List.filterMap (Option.guard p) := funext fun L => by
    rw [List.filterMap_eq_filter]
  rw [SweepUnit.filterClaims, SweepUnit.keepClaims, filter]

theorem allClaims_keepClaims (w : SweepUnit) (f : Claim → Option Claim) :
    (w.keepClaims f).allClaims = w.allClaims.filterMap f := by
  have lists : (w.claims.map (List.filterMap f)).toList = w.claims.toList.map (List.filterMap f) := Vector.toList_map
  simp only [SweepUnit.keepClaims, SweepUnit.allClaims, List.filterMap_append, List.filterMap_flatten, lists]

/-- A search for the claim of a slot meets the same claim where no claim of that slot is changed and none comes to it. -/
theorem find_filterMap_job {f : Claim → Option Claim} {k : Nat} (stays : ∀ c, c.job = some k → f c = some c)
    (comes : ∀ c d, f c = some d → d.job = some k → c.job = some k) (L : List Claim) :
    (L.filterMap f).find? (fun c => c.job == some k) = L.find? (fun c => c.job == some k) := by
  induction L with
  | nil => rfl
  | cons c L ih =>
    by_cases hc : c.job = some k
    · simp [stays c hc, hc]
    · rcases hd : f c with _ | d
      · simp [hd, hc, ih]
      · have hdk : d.job ≠ some k := fun h => hc (comes c d hd h)
        simp [hd, hc, hdk, ih]

/-- The claim of a RECIPHER job that a bus fault ends, CLAIMED again (R100). -/
def Claim.returned (c : Claim) : Claim := { c with state := .claimed, frozen := false, job := none }

/-- Whether a bus fault returns the claim of slot `k` to CLAIMED: it is not cancelled and no reset runs (R100, R141; log
entry 16). -/
def returnsClaim (u : State) (k : Nat) : Bool :=
  (claimOfJob u k).any (fun c => !c.cancelled) && u.ports.reset.isNone

theorem settleClaim_busFault (u : State) (k : Nat) : settleClaim u k (some .busFault) =
    if returnsClaim u k = true then changeClaimOfJob u k Claim.returned else u := by
  simp only [settleClaim]
  split
  · next none => simp [returnsClaim, none]
  · next c held =>
    have returns : returnsClaim u k = !(c.cancelled || u.ports.reset.isSome) := by
      cases hr : u.ports.reset <;> simp [returnsClaim, held, hr]
    cases hx : c.cancelled || u.ports.reset.isSome <;> rw [hx] at returns <;> rw [returns] <;> rfl

/-- What becomes of the claim `c` as the job in slot `k` of a table is ended by a bus fault (R100, R133). -/
def claimAtFault (u : State) (side : Side) (k : Nat) (c : Claim) : Option Claim :=
  match jobAt u side k with
  | none => some c
  | some j =>
      if j.kind = .recipher then
        if j.phase = .running ∧ returnsClaim u k = true then some c.returned else none
      else some c

/-- What becomes of the claim `c` as the jobs in the slots `L` of a table are ended by a bus fault. -/
def faultClaim (u : State) (side : Side) (L : List Nat) (c : Claim) : Option Claim :=
  match c.job with
  | none => some c
  | some k => if k ∈ L then claimAtFault u side k c else some c

theorem faultClaim_other {u : State} {side : Side} {L : List Nat} {c : Claim} (h : ∀ k ∈ L, c.job ≠ some k) :
    faultClaim u side L c = some c := by
  simp only [faultClaim]
  split
  · rfl
  · next k hk => rw [if_neg fun hL => h k hL hk]

theorem faultClaim_mem {u : State} {side : Side} {L : List Nat} {c : Claim} {k : Nat} (hk : c.job = some k) (hL : k ∈ L) :
    faultClaim u side L c = claimAtFault u side k c := by
  simp only [faultClaim, hk, if_pos hL]

theorem claimAtFault_some {u : State} {side : Side} {k : Nat} {c d : Claim} (h : claimAtFault u side k c = some d) :
    d = c ∨ d = c.returned ∧ u.ports.reset = none := by
  simp only [claimAtFault] at h
  split at h
  · exact .inl (Option.some.inj h).symm
  · split_ifs at h with kind returns
    · cases h
      simp only [returnsClaim, Bool.and_eq_true, Option.isNone_iff_eq_none] at returns
      exact .inr ⟨rfl, returns.2.2⟩
    · exact .inl (Option.some.inj h).symm

/-- A claim stays as it is, is returned, or is removed; none is returned while a reset runs (log entry 16). -/
theorem faultClaim_some {u : State} {side : Side} {L : List Nat} {c d : Claim} (h : faultClaim u side L c = some d) :
    d = c ∨ d = c.returned ∧ u.ports.reset = none := by
  simp only [faultClaim] at h
  split at h
  · exact .inl (Option.some.inj h).symm
  · split at h
    · exact claimAtFault_some h
    · exact .inl (Option.some.inj h).symm

/-- Ends after ends, told from the state before the first. -/
theorem faultClaim_cons {u v : State} {side : Side} {a : Nat} {L : List Nat} (ha : a ∉ L)
    (same : ∀ k ∈ L, ∀ c, claimAtFault v side k c = claimAtFault u side k c) (c : Claim) :
    (faultClaim u side [a] c).bind (faultClaim v side L) = faultClaim u side (a :: L) c := by
  rcases hc : c.job with _ | k
  · rw [faultClaim_other (by simp [hc]), faultClaim_other (by simp [hc])]
    exact faultClaim_other (by simp [hc])
  · by_cases hk : k = a
    · subst hk
      rw [faultClaim_mem hc List.mem_cons_self, faultClaim_mem hc List.mem_cons_self]
      rcases hd : claimAtFault u side k c with _ | d
      · rfl
      · refine faultClaim_other fun k' hk' hjob => ?_
        rcases claimAtFault_some hd with rfl | ⟨rfl, -⟩
        · rw [hc] at hjob
          cases hjob
          exact ha hk'
        · cases hjob
    · rw [faultClaim_other (by simpa [hc] using hk)]
      by_cases hL : k ∈ L
      · rw [faultClaim_mem hc (List.mem_cons_of_mem _ hL), ← same k hL, ← faultClaim_mem hc hL]
        rfl
      · rw [faultClaim_other (L := a :: L) fun k' hk' h => (List.mem_cons.mp hk').elim
          (fun e => hk (Option.some.inj (hc.symm.trans h) ▸ e)) fun hk' => hL (Option.some.inj (hc.symm.trans h) ▸ hk')]
        exact faultClaim_other fun k' hk' h => hL (Option.some.inj (hc.symm.trans h) ▸ hk')

/-! ### The end of one job (R82, R99, R133) -/

/-- The job whose completion a bus fault posts for slot `k`: a RUNNING RECIPHER's final verdicts are made (R132). -/
def atFault (u : State) (k : Nat) (j : Job) : Job :=
  if j.kind = .recipher ∧ j.phase = .running then { j with finals := j.finalVerdicts (overtakenOf u k) } else j

theorem atFault_kind (u : State) (k : Nat) (j : Job) : (atFault u k j).kind = j.kind := by
  simp only [atFault]
  split <;> rfl

/-- The claims once the claim of the job in slot `k` is settled: returned where the job is a RUNNING RECIPHER's (R100). -/
def settledAtFault (u : State) (k : Nat) (j : Job) : SweepUnit :=
  if j.kind = .recipher ∧ j.phase = .running ∧ returnsClaim u k = true then
    u.sweep.mapClaims (fun c => if c.job = some k then c.returned else c)
  else u.sweep

theorem listOrPost_busFault (b : State) (side : Side) (k : Nat) {F : Job} (cause : F.cause = some .busFault) :
    listOrPost b side k F = postJob b side k F := by
  simp only [listOrPost, cause, if_true]
  split <;> rfl

/-- The end of one job: its claim settled where it is a RUNNING RECIPHER's, then its completion posted. -/
theorem endOnFault_posts {u : State} {side : Side} {k : Nat} {j : Job} (hj : jobAt u side k = some j)
    (cause : j.cause = some .busFault) : ∃ b, endOnFault side u k = postJob b side k (atFault u k j) ∧
      b.ports = u.ports ∧ b.buffer = u.buffer ∧ b.sweep = settledAtFault u k j := by
  by_cases settles : j.kind = .recipher ∧ j.phase = .running
  · obtain ⟨kind, running⟩ := settles
    obtain ⟨F, hF⟩ : ∃ F, F = atFault u k j := ⟨_, rfl⟩
    have made : F = { j with finals := j.finalVerdicts (overtakenOf u k) } := by rw [hF, atFault, if_pos ⟨kind, running⟩]
    have causeF : F.cause = some .busFault := by rw [made]; exact cause
    have returns : returnsClaim (setJob u side k (some F)) k = returnsClaim u k := by cases side <;> rfl
    refine ⟨settleClaim (setJob u side k (some F)) k (some .busFault), ?_, ?_⟩
    · have ends : endOnFault side u k = endJob u side k j := by simp only [endOnFault, hj, running]
      rw [ends, endJob_recipher u side k j kind, ← hF, ← listOrPost_busFault _ _ _ causeF, ← cause, made]
    · rw [settleClaim_busFault, returns]
      by_cases h : returnsClaim u k = true
      · rw [if_pos h, settledAtFault, if_pos ⟨kind, running, h⟩]
        cases side <;> exact ⟨rfl, rfl, rfl⟩
      · rw [if_neg h, settledAtFault, if_neg fun h' => h h'.2.2]
        cases side <;> exact ⟨rfl, rfl, rfl⟩
  · refine ⟨u, ?_, rfl, rfl, by rw [settledAtFault, if_neg fun h => settles ⟨h.1, h.2.1⟩]⟩
    rw [atFault, if_neg settles]
    simp only [endOnFault, hj]
    split
    · next running =>
      have kind : j.kind ≠ .recipher := fun kind => settles ⟨kind, running⟩
      have ends : endJob u side k j = listOrPost u side k j := by
        cases hk : j.kind <;> simp_all [endJob]
      rw [ends, listOrPost_busFault _ _ _ cause]
    · rfl

/-- The completion that the end of slot `k` posts, if any. -/
def faultPost (u : State) (side : Side) (k : Nat) : Option Completion :=
  (jobAt u side k).map (fun j => (atFault u k j).completion)

/-- `v` is `u` with the jobs of the slots `L` of a table ended by a bus fault, their completions and claims told exactly. -/
structure FaultTells (u v : State) (side : Side) (L : List Nat) : Prop extends FaultEnds u v side L where
  port : ∀ p, v.port p =
    if p = sidePort side then filledWith (u.port p) (L.filterMap (faultPost u side)) else u.port p
  sweep : v.sweep = u.sweep.keepClaims (faultClaim u side L)
  buffer : v.buffer = u.buffer

/-- The claims once the job of one slot has ended: settled, and a RECIPHER's claim that is left removed (R135). -/
theorem settledAtFault_removed {u : State} {side : Side} {k : Nat} {j : Job} (hj : jobAt u side k = some j) :
    (if j.kind = .recipher then (settledAtFault u k j).filterClaims (fun c => c.job != some k)
      else settledAtFault u k j) = u.sweep.keepClaims (faultClaim u side [k]) := by
  have one : ∀ c, faultClaim u side [k] c = if c.job = some k then claimAtFault u side k c else some c := by
    intro c
    split
    · next hc => exact faultClaim_mem hc List.mem_cons_self
    · next hc => exact faultClaim_other (by simpa using hc)
  by_cases kind : j.kind = .recipher
  · by_cases returns : j.phase = .running ∧ returnsClaim u k = true
    · rw [if_pos kind, settledAtFault, if_pos ⟨kind, returns⟩, mapClaims_eq_keepClaims, filterClaims_eq_keepClaims,
        keepClaims_keepClaims]
      congr 1
      funext c
      rw [one]
      by_cases hc : c.job = some k
      · simp [claimAtFault, hj, kind, returns, hc, Option.guard, Claim.returned]
      · simp [hc, Option.guard]
    · rw [if_pos kind, settledAtFault, if_neg fun h => returns h.2, filterClaims_eq_keepClaims]
      congr 1
      funext c
      rw [one]
      by_cases hc : c.job = some k
      · simp [claimAtFault, hj, kind, returns, hc, Option.guard]
      · simp [hc, Option.guard]
  · have stay : faultClaim u side [k] = some := by
      funext c
      rw [one]
      simp [claimAtFault, hj, kind]
    rw [if_neg kind, settledAtFault, if_neg fun h => kind h.1, stay, keepClaims_some]

theorem endOnFault_tells (u : State) (side : Side) (k : Nat)
    (hc : ∀ j, jobAt u side k = some j → j.cause = some .busFault) : FaultTells u (endOnFault side u k) side [k] := by
  have ends := endOnFault_faultEnds u side k hc
  rcases hj : jobAt u side k with _ | j
  · have quiet : endOnFault side u k = u := by simp only [endOnFault, hj]
    have stay : faultClaim u side [k] = some := by
      funext c
      simp only [faultClaim, claimAtFault]
      split
      · rfl
      · next k' hk' =>
        split
        · next mem => rw [List.mem_singleton.mp mem, hj]
        · rfl
    rw [quiet] at ends ⊢
    refine { ends with port := fun p => ?_, sweep := ?_, buffer := rfl }
    · simp [faultPost, hj, filledWith]
    · rw [stay, keepClaims_some]
  · obtain ⟨b, e, ports, buffer, sweep⟩ := endOnFault_posts hj (hc j hj)
    rw [e] at ends ⊢
    refine { ends with port := fun p => ?_, sweep := ?_, buffer := ?_ }
    · have same : b.port p = u.port p := by cases p <;> simp only [State.port, ports]
      have post : [k].filterMap (faultPost u side) = [(atFault u k j).completion] := by simp [faultPost, hj]
      rw [postJob_eq, State.port_setSweep, port_setJob, State.port_setKeys, Machine.post, State.port_setPort, post]
      by_cases at_side : p = sidePort side
      · rw [if_pos at_side, if_pos at_side, ← at_side, same, fillReserved_eq]
      · rw [if_neg at_side, if_neg at_side, same]
    · rw [postJob_eq, State.setSweep_sweep, atFault_kind, sweep]
      exact settledAtFault_removed hj
    · rw [postJob_buffer, buffer]

/-! ### The ends of all jobs (R99, R135) -/

/-- The jobs and claims of the slots not yet ended are those before. -/
theorem FaultTells.slots {u v : State} {side : Side} {L : List Nat} (h : FaultTells u v side L) {k : Nat} (hk : k ∉ L) :
    jobAt v side k = jobAt u side k ∧ claimOfJob v k = claimOfJob u k := by
  refine ⟨by rw [h.job, if_neg fun h => hk h.2], ?_⟩
  rw [claimOfJob, h.sweep, allClaims_keepClaims]
  refine find_filterMap_job (fun c hc => faultClaim_other fun k' hk' hjob => ?_) (fun c d hcd hd => ?_) _
  · rw [hc] at hjob
    cases hjob
    exact hk hk'
  · rcases faultClaim_some hcd with rfl | ⟨rfl, -⟩
    · exact hd
    · cases hd

theorem FaultTells.refl (u : State) (side : Side) : FaultTells u u side [] := by
  have ends : FaultEnds u u side [] := by constructor <;> simp
  have stay : faultClaim u side [] = some := funext fun c => faultClaim_other (by simp)
  refine { ends with port := fun p => ?_, sweep := ?_, buffer := rfl }
  · simp [filledWith]
  · rw [stay, keepClaims_some]

theorem FaultTells.cons {u v w : State} {side : Side} {a : Nat} {L : List Nat} (ha : a ∉ L)
    (h1 : FaultTells u v side [a]) (h2 : FaultTells v w side L) : FaultTells u w side (a :: L) := by
  have slot : ∀ k ∈ L, jobAt v side k = jobAt u side k ∧ claimOfJob v k = claimOfJob u k :=
    fun k hk => h1.slots fun h => ha (List.mem_singleton.mp h ▸ hk)
  have posts : L.filterMap (faultPost v side) = L.filterMap (faultPost u side) :=
    List.filterMap_congr fun k hk => by
      simp only [faultPost, atFault, overtakenOf_eq, (slot k hk).1, (slot k hk).2]
  refine { FaultEnds.trans ha h1.toFaultEnds h2.toFaultEnds with port := fun p => ?_, sweep := ?_, buffer := ?_ }
  · rw [h2.port, h1.port, posts]
    split
    · rw [filledWith_append]
      congr 1
      cases post : faultPost u side a <;> simp [post]
    · rfl
  · rw [h2.sweep, h1.sweep, keepClaims_keepClaims]
    congr 1
    funext c
    refine faultClaim_cons ha (fun k hk c => ?_) c
    have returns : returnsClaim v k = returnsClaim u k := by rw [returnsClaim, (slot k hk).2, h1.reset]; rfl
    rw [claimAtFault, (slot k hk).1, returns]
    rfl
  · rw [h2.buffer, h1.buffer]

theorem foldl_endOnFault_tells (side : Side) (L : List Nat) (hL : L.Nodup) (u : State)
    (hc : ∀ k j, jobAt u side k = some j → j.cause = some .busFault) :
    FaultTells u (L.foldl (endOnFault side) u) side L := by
  induction L generalizing u with
  | nil => exact .refl u side
  | cons a L ih =>
    obtain ⟨ha, hL⟩ := List.nodup_cons.mp hL
    have h1 := endOnFault_tells u side a (hc a)
    refine h1.cons ha (ih hL _ fun k j hj => ?_)
    rw [h1.job] at hj
    split at hj
    · cases hj
    · exact hc k j hj

/-- The state after the ends of the I-table's jobs. -/
def faultEndedI (s : State) (a : Access) : State := (List.range 32).foldl (endOnFault .i) (faultStopped s a)

/-- The state after the ends of all jobs: the I-table's first, then the M-table's. -/
def faultEndedAll (s : State) (a : Access) : State := (List.range 16).foldl (endOnFault .m) (faultEndedI s a)

@[simp] theorem raiseBusFault_port (u : State) (p : Port) : (raiseBusFault u).port p = u.port p := by cases p <;> rfl

@[simp] theorem raiseBusFault_reset (u : State) : (raiseBusFault u).ports.reset = u.ports.reset := rfl

@[simp] theorem raiseBusFault_sweep (u : State) : (raiseBusFault u).sweep = u.sweep := rfl

theorem busFault_eq_settle (s : State) (a : Access) : busFault s a = settle (raiseBusFault (faultEndedAll s a)) := rfl

theorem faultStopped_cause {s : State} {a : Access} {side : Side} {k : Nat} {j : Job}
    (hj : jobAt (faultStopped s a) side k = some j) : j.cause = some .busFault := by
  rw [faultStopped_job, Option.map_eq_some_iff] at hj
  obtain ⟨j0, -, rfl⟩ := hj
  rfl

theorem faultEndedI_tells (s : State) (a : Access) :
    FaultTells (faultStopped s a) (faultEndedI s a) .i (List.range 32) :=
  foldl_endOnFault_tells .i (List.range 32) List.nodup_range _ fun _ _ => faultStopped_cause

theorem faultEndedI_job (s : State) (a : Access) (k : Nat) :
    jobAt (faultEndedI s a) .m k = (jobAt s .m k).map (faultCut s .m k) := by
  rw [(faultEndedI_tells s a).job, if_neg (by simp), faultStopped_job]

theorem faultEndedAll_tells (s : State) (a : Access) :
    FaultTells (faultEndedI s a) (faultEndedAll s a) .m (List.range 16) :=
  foldl_endOnFault_tells .m (List.range 16) List.nodup_range _ fun k j hj => by
    rw [faultEndedI_job, ← faultStopped_job s a] at hj
    exact faultStopped_cause hj

/-- With no RECIPHER in the table its jobs' ends leave the claims. -/
theorem FaultTells.sweep_eq {u v : State} {side : Side} {L : List Nat} (h : FaultTells u v side L)
    (kinds : ∀ k j, jobAt u side k = some j → j.kind ≠ .recipher) : v.sweep = u.sweep := by
  have stay : faultClaim u side L = some := by
    funext c
    simp only [faultClaim, claimAtFault]
    split
    · rfl
    · split
      · split
        · rfl
        · next j hj => rw [if_neg (kinds _ j hj)]
      · rfl
  rw [h.sweep, stay, keepClaims_some]

theorem faultEnded_eq (s : State) (side : Side) (k : Nat) (j : Job) :
    atFault s k (faultCut s side k j) = faultEnded s side k j := by
  by_cases made : j.kind = .recipher ∧ j.phase = .running
  · rw [atFault, if_pos (by exact made), faultEnded, if_pos made]
    rfl
  · rw [atFault, if_neg (by exact made), faultEnded, if_neg made]
    rfl

theorem faultStopped_recipher {s : State} (kinds : TablesByKind s) (a : Access) {k : Nat} {j : Job}
    (hj : jobAt (faultStopped s a) .i k = some j) : j.kind ≠ .recipher := by
  rw [faultStopped_job, Option.map_eq_some_iff] at hj
  obtain ⟨j0, hj0, rfl⟩ := hj
  intro kind
  rcases kinds.1 k j0 hj0 with h | h <;> cases h.symm.trans kind

/-- The claims of a part whose tables hold their own kinds alone are not touched by the I-table's ends. -/
theorem faultEndedI_sweep {s : State} (kinds : TablesByKind s) (a : Access) : (faultEndedI s a).sweep = s.sweep :=
  ((faultEndedI_tells s a).sweep_eq fun _ _ => faultStopped_recipher kinds a).trans (faultStopped_frame s a).2.1

theorem faultPosts_eq {s u : State} {a : Access} {side : Side} (sweep : u.sweep = s.sweep)
    (jobs : ∀ k, jobAt u side k = jobAt (faultStopped s a) side k) :
    (List.range side.slots).filterMap (faultPost u side) = faultPosts s side := by
  refine List.filterMap_congr fun k _ => ?_
  have overtaken : overtakenOf u k = overtakenOf s k := by rw [overtakenOf, sweep]; rfl
  rw [faultPost, jobs, faultStopped_job, Option.map_map]
  congr 1
  funext j
  rw [← faultEnded_eq]
  simp only [Function.comp_apply, atFault, overtaken]

/-- Each table's completions are posted BUS_FAULT in ascending order of slot, its requests wait on (R78, R99, R135). -/
theorem faultEndedAll_port {s : State} (kinds : TablesByKind s) (a : Access) (side : Side) :
    (faultEndedAll s a).port (sidePort side) = filledWith (s.port (sidePort side)) (faultPosts s side) := by
  have ends_i := (faultEndedI_tells s a).port
  have ends_m := (faultEndedAll_tells s a).port
  obtain ⟨ports, sweep, -⟩ := faultStopped_frame s a
  have port : ∀ p, (faultStopped s a).port p = s.port p := fun p => by cases p <;> simp only [State.port, ports]
  cases side with
  | i =>
    have other : Port.i ≠ sidePort .m := nofun
    rw [← faultPosts_eq sweep fun _ => rfl, sidePort, ends_m, if_neg other, ends_i, port]
    rfl
  | m =>
    have other : Port.m ≠ sidePort .i := nofun
    have jobs : ∀ k, jobAt (faultEndedI s a) .m k = jobAt (faultStopped s a) .m k := fun k => by
      rw [faultEndedI_job, faultStopped_job]
    rw [← faultPosts_eq (faultEndedI_sweep kinds a) jobs, sidePort, ends_m, ends_i, if_neg other, port]
    rfl

/-! ### The claims after all ends (R100, R133, R135, R141) -/

/-- What becomes of a claim in the ends of all jobs. -/
def claimAfterFault (s : State) (a : Access) (c : Claim) : Option Claim :=
  (faultClaim (faultStopped s a) .i (List.range 32) c).bind (faultClaim (faultEndedI s a) .m (List.range 16))

theorem faultEndedAll_sweep (s : State) (a : Access) :
    (faultEndedAll s a).sweep = s.sweep.keepClaims (claimAfterFault s a) := by
  rw [(faultEndedAll_tells s a).sweep, (faultEndedI_tells s a).sweep, keepClaims_keepClaims,
    (faultStopped_frame s a).2.1]
  rfl

theorem faultEndedI_reset (s : State) (a : Access) : (faultEndedI s a).ports.reset = s.ports.reset := by
  rw [(faultEndedI_tells s a).reset, (faultStopped_frame s a).1]

theorem faultEndedAll_reset (s : State) (a : Access) : (faultEndedAll s a).ports.reset = s.ports.reset := by
  rw [(faultEndedAll_tells s a).reset, faultEndedI_reset]

/-- A claim that records no job stays. -/
theorem claimAfterFault_free {s : State} {a : Access} {c : Claim} (free : c.job = none) :
    claimAfterFault s a c = some c := by
  have stays : ∀ u side L, faultClaim u side L c = some c := fun u side L => faultClaim_other (by simp [free])
  rw [claimAfterFault, stays]
  exact stays _ _ _

/-- Every claim left is a claim as it was, or, with no reset running, one returned to CLAIMED. -/
theorem claimAfterFault_some {s : State} {a : Access} {c d : Claim} (h : claimAfterFault s a c = some d) :
    d = c ∨ d = c.returned ∧ s.ports.reset = none := by
  obtain ⟨c', first, second⟩ := Option.bind_eq_some_iff.mp h
  rcases faultClaim_some first with rfl | ⟨rfl, reset⟩
  · rcases faultClaim_some second with rfl | ⟨rfl, reset⟩
    · exact .inl rfl
    · exact .inr ⟨rfl, (faultEndedI_reset s a).symm.trans reset⟩
  · rw [faultClaim_other (by simp [Claim.returned])] at second
    cases second
    rw [(faultStopped_frame s a).1] at reset
    exact .inr ⟨rfl, reset⟩

/-- The claim of a RECIPHER job does not stay as it was: its job has ended. -/
theorem claimAfterFault_recipher {s : State} {a : Access} {k : Nat} {j : Job} {c d : Claim} (hj : jobAt s .m k = some j)
    (kind : j.kind = .recipher) (h : claimAfterFault s a c = some d) : d.job ≠ some k := by
  intro hk
  have same : d = c := by
    rcases claimAfterFault_some h with same | ⟨rfl, -⟩
    · exact same
    · cases hk
  subst same
  obtain ⟨c', first, second⟩ := Option.bind_eq_some_iff.mp h
  have unreturned : d ≠ d.returned := fun e => by rw [e] at hk; cases hk
  have same : c' = d := by
    rcases faultClaim_some first with same | ⟨rfl, -⟩
    · exact same
    · rw [faultClaim_other (by simp [Claim.returned])] at second
      exact Option.some.inj second
  subst same
  have cut : jobAt (faultEndedI s a) .m k = some (faultCut s .m k j) := by rw [faultEndedI_job, hj]; rfl
  have slot : k ∈ List.range 16 := List.mem_range.mpr (slot_lt_of_jobAt hj)
  rw [faultClaim_mem hk slot, claimAtFault, cut] at second
  simp only [show (faultCut s .m k j).kind = .recipher from kind, if_true] at second
  split at second
  · exact unreturned (Option.some.inj second).symm
  · cases second

/-- With no reset running an uncancelled claim of a RUNNING RECIPHER job returns to CLAIMED (R100). -/
theorem claimAfterFault_returned {s : State} (kinds : TablesByKind s) (a : Access) {k : Nat} {j : Job} {c : Claim}
    (reset : s.ports.reset = none) (holds : HoldsClaim s k c) (hj : jobAt s .m k = some j) (kind : j.kind = .recipher)
    (running : j.phase = .running) (live : c.cancelled = false) : claimAfterFault s a c = some c.returned := by
  have hk : c.job = some k := holds.2.1
  have first : faultClaim (faultStopped s a) .i (List.range 32) c = some c := by
    by_cases hL : k ∈ List.range 32
    · rw [faultClaim_mem hk hL, claimAtFault]
      split
      · rfl
      · next j' hj' => rw [if_neg (faultStopped_recipher kinds a hj')]
    · exact faultClaim_other fun k' hk' h => hL (Option.some.inj (hk.symm.trans h) ▸ hk')
  have held : claimOfJob (faultEndedI s a) k = some c := by
    rw [claimOfJob, faultEndedI_sweep kinds]
    exact claimOfJob_of_holds holds
  have returns : returnsClaim (faultEndedI s a) k = true := by
    simp [returnsClaim, held, live, faultEndedI_reset, reset]
  have cut : jobAt (faultEndedI s a) .m k = some (faultCut s .m k j) := by rw [faultEndedI_job, hj]; rfl
  have slot : k ∈ List.range 16 := List.mem_range.mpr (slot_lt_of_jobAt hj)
  rw [claimAfterFault, first, Option.bind_some, faultClaim_mem hk slot, claimAtFault, cut]
  simp only [show (faultCut s .m k j).kind = .recipher from kind,
    show (faultCut s .m k j).phase = .running from running, returns, and_self, if_true]

end Sys2Proof.Machine
end

section
/-! PROOFS. The bus fault and what follows it in the same step (R98 to R104): what the Key Clears, a drain's end and a reset's
end leave as the fault has left it, and from these the clauses of the statement. -/

namespace Sys2Proof.Machine

/-! ### What follows in the same step (log entry 3) -/

/-- `t` is `p` with the Buffer Port, the arbiter, the job tables, the lanes in service and a pending BUS_FAULT as they
were. -/
structure PathKept (p t : State) : Prop where
  bufferPort : t.bufferPort = p.bufferPort
  arbiter : t.arbiter = p.arbiter
  jobs : t.jobs = p.jobs
  busFault : t.ports.events.busFault = p.ports.events.busFault
  inService : ∀ l, (t.lanes.get l).inService = (p.lanes.get l).inService

theorem PathKept.trans {p q t : State} (h : PathKept p q) (h' : PathKept q t) : PathKept p t :=
  ⟨h'.bufferPort.trans h.bufferPort, h'.arbiter.trans h.arbiter, h'.jobs.trans h.jobs, h'.busFault.trans h.busFault,
    fun l => (h'.inService l).trans (h.inService l)⟩

theorem finishKeyClears_path (p : State) : PathKept p (finishKeyClears p) := by
  obtain ⟨e, -⟩ := finishKeyClears_done p
  generalize (finishKeyClears p).keys = k at e
  rw [e]
  exact ⟨rfl, rfl, rfl, rfl, fun _ => rfl⟩

theorem wakeByRecord_path (p : State) : PathKept p (wakeByRecord p) ∧ (wakeByRecord p).keys = p.keys := by
  simp only [wakeByRecord]
  split
  · exact ⟨⟨rfl, rfl, rfl, rfl, fun l => by simp [wakePart]⟩, rfl⟩
  · exact ⟨⟨rfl, rfl, rfl, rfl, fun _ => rfl⟩, rfl⟩

theorem endDrain_path (p : State) : PathKept p (endDrain p) ∧ (endDrain p).keys = p.keys := by
  simp only [endDrain]
  split
  · obtain ⟨path, keys⟩ := wakeByRecord_path (match p.stage.waitingRetain with
      | some tag => post (retainEntry p (p.stage.drainCause.getD .request)) .s (heldCompletion .retain tag .empty)
      | none => retainEntry p (p.stage.drainCause.getD .request))
    refine ⟨PathKept.trans ?_ path, keys.trans ?_⟩
    · split <;> exact ⟨rfl, rfl, rfl, rfl, fun _ => rfl⟩
    · split <;> rfl
  · exact ⟨⟨rfl, rfl, rfl, rfl, fun _ => rfl⟩, rfl⟩

/-- The part after its Key Clears and the end of a drain, before the end of a reset is looked at. -/
theorem drained_path (p : State) : PathKept p (endDrain (finishKeyClears p)) :=
  (finishKeyClears_path p).trans (endDrain_path _).1

theorem settle_eq (p : State) : settle p = endZeroize (endEngineReset (endDrain (finishKeyClears p))) := rfl

/-- A reset ends or does not. -/
theorem endReset_cases (u : State) : endZeroize (endEngineReset u) = u ∨ ∃ run, u.ports.reset = some run ∧
    NothingInFlight u run ∧ endZeroize (endEngineReset u) =
      match run.kind with | .engine => resetEnded u run | .zeroize => resetEnded (zeroized u) run := by
  by_cases h : ∃ run, u.ports.reset = some run ∧ NothingInFlight u run
  · obtain ⟨run, running, quiet⟩ := h
    exact .inr ⟨run, running, quiet, (endReset_done u).2 run running quiet⟩
  · exact .inl ((endReset_done u).1 fun run running quiet => h ⟨run, running, quiet⟩)

/-- What follows keeps the fault address, the lanes in service and a pending BUS_FAULT (R101, R163). -/
theorem settle_keeps (p : State) : (settle p).bufferPort.faultAddr = p.bufferPort.faultAddr ∧
    (settle p).ports.events.busFault = p.ports.events.busFault ∧
    ∀ l, ((settle p).lanes.get l).inService = (p.lanes.get l).inService := by
  have path := drained_path p
  rw [settle_eq, ← path.bufferPort, ← path.busFault]
  simp only [← path.inService]
  generalize endDrain (finishKeyClears p) = u
  rcases endReset_cases u with e | ⟨run, -, -, e⟩
  · rw [e]
    exact ⟨rfl, rfl, fun _ => rfl⟩
  · rw [e]
    cases run.kind <;> exact ⟨rfl, rfl, fun _ => rfl⟩

/-- With no reset running what follows leaves the Buffer Port, the arbiter and the claims. -/
theorem settle_noReset {p : State} (reset : p.ports.reset = none) : (settle p).ports.reset = none ∧
    (settle p).bufferPort = p.bufferPort ∧ (settle p).arbiter = p.arbiter ∧ (settle p).sweep = p.sweep := by
  have path := drained_path p
  obtain ⟨sweep, kept, -⟩ := endDrain_frame (finishKeyClears p)
  obtain ⟨sweep', kept', -⟩ := finishKeyClears_frame p
  have none : (endDrain (finishKeyClears p)).ports.reset = none := by rw [kept, kept', reset]
  rw [settle_eq, endEngineReset_quiet (.inl none), endZeroize_quiet (.inl none)]
  exact ⟨none, path.bufferPort, path.arbiter, sweep.trans sweep'⟩

/-- With nothing in flight but an abort quota, a reset ends where both quotas are answered, and else goes on (R163). -/
theorem settle_running {p : State} {run : ResetRun} (running : p.ports.reset = some run) (jobs : NoJobs p)
    (work : ∀ l, (p.lanes.get l).work = none) (accesses : p.bufferPort.outstanding = []) :
    (run.iQuota = 0 ∧ run.mQuota = 0 → (settle p).ports.reset = none ∧ (settle p).bufferPort.faulted = false ∧
      (settle p).arbiter = { p.arbiter with count := 0, last := none }) ∧
    (run.iQuota ≠ 0 ∨ run.mQuota ≠ 0 → (settle p).ports.reset = some run ∧ (settle p).bufferPort = p.bufferPort ∧
      (settle p).arbiter = p.arbiter) := by
  have path := drained_path p
  obtain ⟨-, kept, free, -⟩ := endDrain_frame (finishKeyClears p)
  obtain ⟨-, kept', free', -⟩ := finishKeyClears_frame p
  have reset : (endDrain (finishKeyClears p)).ports.reset = some run := by rw [kept, kept', running]
  have quiet : NothingInFlight (endDrain (finishKeyClears p)) run ↔ run.iQuota = 0 ∧ run.mQuota = 0 := by
    refine ⟨fun h => ⟨h.2.1, h.2.2.1⟩, fun ⟨i, m⟩ => ⟨?_, i, m, fun l => ?_, ?_⟩⟩
    · rw [noJobs_iff] at jobs ⊢
      exact fun side k => (jobAt_congr path.jobs side k).trans (jobs side k)
    · rw [free, free', work]
    · rw [path.bufferPort, accesses]
  rw [settle_eq, ← path.arbiter, ← path.bufferPort]
  generalize endDrain (finishKeyClears p) = u at *
  obtain ⟨goes, ends⟩ := endReset_done u
  refine ⟨fun zero => ?_, fun left => ?_⟩
  · rw [ends run reset (quiet.mpr zero)]
    cases run.kind <;> exact ⟨rfl, rfl, rfl⟩
  · rw [goes fun run' reset' h => by
      obtain rfl : run = run' := Option.some.inj (reset.symm.trans reset')
      have := quiet.mp h
      omega]
    exact ⟨reset, rfl, rfl⟩

/-- Unless a Zeroize ends, what follows removes the released groups alone (R58). -/
theorem settle_groups {p : State} (engine : ∀ run, p.ports.reset = some run → run.kind = .engine) (g : CellId) :
    (settle p).keys.groups.get g = (p.keys.groups.get g).filter (fun e => !released e) := by
  obtain ⟨-, -, groups, -⟩ := finishKeyClears_done p
  obtain ⟨-, kept, -⟩ := endDrain_frame (finishKeyClears p)
  obtain ⟨-, kept', -⟩ := finishKeyClears_frame p
  rw [← groups, ← (endDrain_path (finishKeyClears p)).2, settle_eq]
  rw [← kept', ← kept] at engine
  generalize endDrain (finishKeyClears p) = u at *
  rcases endReset_cases u with e | ⟨run, running, -, e⟩
  · rw [e]
  · rw [e, engine run running]
    rfl

/-! ### The command, clause by clause (R98 to R101) -/

theorem exec_busErrorResponse {s : State} {who : Requester} {a : Access} (access : accessOf s who = some a)
    (normal : s.bufferPort.faulted = false) : exec (.busErrorResponse who) s = .next (busFault s a) := by
  show execBusErrorResponse who s = _
  simp [execBusErrorResponse, access, normal]

/-- With no access outstanding an error response meets none, and nothing changes (R97, R98). -/
theorem exec_busErrorResponse_dropped {s : State} (who : Requester) (quiet : s.bufferPort.outstanding = []) :
    exec (.busErrorResponse who) s = .next s := by
  show execBusErrorResponse who s = _
  simp [execBusErrorResponse, accessOf, quiet]

theorem busFault_memory (s : State) (a : Access) {b : Nat} (outside : OutsideWrites s.bufferPort.outstanding b) :
    readByte (busFault s a).buffer b = readByte s.buffer b := by
  rw [busFault_eq_settle, settle_buffer, raiseBusFault, State.setEvents_buffer, (faultEndedAll_tells s a).buffer,
    (faultEndedI_tells s a).buffer]
  exact (faultStopped_frame s a).2.2.2 b outside

theorem busFault_inService (s : State) (a : Access) (l : LaneId) :
    ((busFault s a).lanes.get l).inService = (s.lanes.get l).inService := by
  rw [busFault_eq_settle, (settle_keeps _).2.2, raiseBusFault, State.setEvents_lanes, (faultEndedAll_tells s a).lanes,
    (faultEndedI_tells s a).lanes]
  exact (faultStopped_frame s a).2.2.1 l

theorem busFault_port {s : State} (kinds : TablesByKind s) (a : Access) (side : Side) :
    (busFault s a).port (sidePort side) = filledWith (s.port (sidePort side)) (faultPosts s side) := by
  obtain ⟨-, i, m, -⟩ := settle_frame (raiseBusFault (faultEndedAll s a))
  rw [← faultEndedAll_port kinds a side, busFault_eq_settle,
    ← raiseBusFault_port (faultEndedAll s a)]
  generalize settle (raiseBusFault (faultEndedAll s a)) = t at *
  generalize raiseBusFault (faultEndedAll s a) = u at *
  cases side with
  | i => exact i
  | m => exact m

/-- The claims after a bus fault are those the ends have left, or, a Zeroize having ended, none. -/
theorem busFault_sweep (s : State) (a : Access) :
    (busFault s a).sweep = s.sweep.keepClaims (claimAfterFault s a) ∨
      s.ports.reset ≠ none ∧ (busFault s a).sweep = State.reset.sweep := by
  rw [busFault_eq_settle, ← faultEndedAll_sweep, ← faultEndedAll_reset s a,
    ← raiseBusFault_sweep (faultEndedAll s a), ← raiseBusFault_reset (faultEndedAll s a)]
  generalize raiseBusFault (faultEndedAll s a) = u
  rcases hr : u.ports.reset with _ | run
  · exact .inl (settle_noReset hr).2.2.2
  · rcases settle_reset hr with ⟨-, e⟩ | ⟨-, -, -, -, e | e, -⟩
    · exact .inl e
    · exact .inl e
    · exact .inr ⟨Option.some_ne_none run, e⟩

/-- Every claim left comes from one that stood. -/
theorem busFault_claim {s : State} {a : Access} :
    (∀ x, ∀ d ∈ (busFault s a).sweep.claims.get x, ∃ c ∈ s.sweep.claims.get x, claimAfterFault s a c = some d) ∧
    ∀ d ∈ (busFault s a).sweep.cancelled, ∃ c ∈ s.sweep.cancelled, claimAfterFault s a c = some d := by
  rcases busFault_sweep s a with e | ⟨-, e⟩ <;> rw [e]
  · exact ⟨fun _ _ => mem_keepClaims.mp, fun _ => mem_keepClaims_cancelled.mp⟩
  · exact ⟨fun x d hd => by simp [reset_claims] at hd, fun d hd => nomatch hd⟩

/-- Pins released from a group, and the group gone that was RETIRING and loses its last pin (R56, R58). -/
theorem filter_released (o : Option GroupRec) (n : Nat) :
    (o.map (fun e => { e with pins := e.pins - n })).filter (fun e => !released e) =
      o.bind (fun e => if e.state = .retiring ∧ e.pins ≤ n then none else some { e with pins := e.pins - n }) := by
  rcases o with _ | e
  · rfl
  · by_cases gone : e.state = .retiring ∧ e.pins ≤ n
    · have goes : released { e with pins := e.pins - n } = true := by
        rw [released_iff, Nat.sub_eq_zero_iff_le]
        exact gone
      rw [Option.map_some, Option.bind_some, if_pos gone, Option.filter, goes]
      rfl
    · have stays : released { e with pins := e.pins - n } = false := by
        rw [Bool.eq_false_iff, ne_eq, released_iff, Nat.sub_eq_zero_iff_le]
        exact gone
      rw [Option.map_some, Option.bind_some, if_neg gone, Option.filter, stays]
      rfl

/-- With no reset running the marks and the claims of no job stand; of the claims of the RECIPHER jobs an uncancelled one
whose job runs is CLAIMED again, and none stays as it was (R100, R133). -/
theorem busFault_claims {s : State} (a : Access) (noReset : s.ports.reset = none) :
    (busFault s a).sweep.marks = s.sweep.marks ∧
    (∀ x, ∀ c ∈ s.sweep.claims.get x, c.job = none → c ∈ (busFault s a).sweep.claims.get x) ∧
    ∀ c k j, TablesByKind s → HoldsClaim s k c → jobAt s .m k = some j → j.kind = .recipher →
      (c.cancelled = false → j.phase = .running → ∀ x, c ∈ s.sweep.claims.get x →
        c.returned ∈ (busFault s a).sweep.claims.get x) ∧
      (∀ x, c ∉ (busFault s a).sweep.claims.get x) ∧ c ∉ (busFault s a).sweep.cancelled := by
  have sweep := (busFault_sweep s a).resolve_right fun h => h.1 noReset
  obtain ⟨claims, cancelled⟩ := @busFault_claim s a
  refine ⟨by rw [sweep]; rfl, fun x c mem free => ?_, fun c k j kinds holds hj kind =>
    ⟨fun live running x mem => ?_, fun x mem => ?_, fun mem => ?_⟩⟩
  · rw [sweep]
    exact mem_keepClaims.mpr ⟨c, mem, claimAfterFault_free free⟩
  · rw [sweep]
    exact mem_keepClaims.mpr ⟨c, mem, claimAfterFault_returned kinds a noReset holds hj kind running live⟩
  · obtain ⟨d, -, becomes⟩ := claims x c mem
    exact claimAfterFault_recipher hj kind becomes holds.2.1
  · obtain ⟨d, -, becomes⟩ := cancelled c mem
    exact claimAfterFault_recipher hj kind becomes holds.2.1

/-- While a reset runs every claim left is one that stood, and none is a RECIPHER job's (R141; log entry 16). -/
theorem busFault_claims_reset {s : State} (a : Access) {run : ResetRun} (running : s.ports.reset = some run) {k : Nat}
    {j : Job} (hj : jobAt s .m k = some j) (kind : j.kind = .recipher) :
    (∀ x, ∀ d ∈ (busFault s a).sweep.claims.get x, d ∈ s.sweep.claims.get x ∧ d.job ≠ some k) ∧
    ∀ d ∈ (busFault s a).sweep.cancelled, d ∈ s.sweep.cancelled ∧ d.job ≠ some k := by
  obtain ⟨claims, cancelled⟩ := @busFault_claim s a
  have stays : ∀ {c d}, claimAfterFault s a c = some d → d = c := fun becomes =>
    (claimAfterFault_some becomes).resolve_right fun h => by rw [running] at h; cases h.2
  refine ⟨fun x d mem => ?_, fun d mem => ?_⟩
  · obtain ⟨c, stood, becomes⟩ := claims x d mem
    exact ⟨stays becomes ▸ stood, claimAfterFault_recipher hj kind becomes⟩
  · obtain ⟨c, stood, becomes⟩ := cancelled d mem
    exact ⟨stays becomes ▸ stood, claimAfterFault_recipher hj kind becomes⟩

/-- Settles O37: the state before what follows from its law, and each clause from what the ends have left and what follows
keeps of it. -/
theorem busErrorEndsEveryJob : Obligations.BusErrorEndsEveryJob := by
  refine ⟨fun s who kind => rfl, fun s who a access normal => ?_⟩
  obtain ⟨p, settled, jobs, work, bufferPort, stage, table, arbiter, ports, reset, i, m, events, cells, load, groups⟩ :=
    busFault_ended s a
  obtain ⟨tables, -, -, outstanding⟩ := settle_frame p
  obtain ⟨faultAddr, event, -⟩ := settle_keeps p
  rw [← settled] at tables outstanding faultAddr event
  have dropped : (busFault s a).bufferPort.outstanding = [] := by rw [outstanding, bufferPort]
  refine ⟨_, exec_busErrorResponse access normal, fun b => busFault_memory s a, fun side k => ?_,
    fun l => ⟨?_, busFault_inService s a l⟩, ?_, fun run => ?_, ?_, dropped, fun kinds side => ?_, fun engine g => ?_,
    fun noReset => ?_, fun run running => ?_, ?_, fun who' kind => ⟨rfl, exec_busErrorResponse_dropped who' dropped⟩⟩
  · rw [jobAt_congr tables]
    exact (noJobs_iff p).mp jobs side k
  · rw [settled, settle_work, work]
  · rw [event, events]
  · rw [settled, (settle_stage_lanes (by rwa [stage])).1, stage]
  · rw [faultAddr, bufferPort]
  · rw [busFault_port kinds]
    exact ⟨rfl, rfl⟩
  · rw [settled, settle_groups (by rwa [reset]), groups, filter_released]
  · obtain ⟨none, port, kept, -⟩ := settle_noReset (p := p) (by rw [reset, noReset])
    rw [← settled] at none port kept
    obtain ⟨marks, free, held⟩ := busFault_claims a noReset
    refine ⟨none, by rw [port, bufferPort], by rw [kept, arbiter], marks, free, fun c k j kinds holds hj kind => ?_⟩
    obtain ⟨returned, gone⟩ := held c k j kinds holds hj kind
    exact ⟨returned, fun _ => gone⟩
  · obtain ⟨zero, left⟩ := settle_running (p := p) (by rw [reset, running]) jobs work (by rw [bufferPort])
    rw [← settled, arbiter] at zero left
    refine ⟨fun k j hj kind => busFault_claims_reset a running hj kind, zero, fun quota => ?_⟩
    obtain ⟨goes, port, kept⟩ := left quota
    exact ⟨goes, by rw [port, bufferPort], kept⟩
  · exact ⟨p, jobs, work, bufferPort, stage, table, arbiter, ports, reset, i, m, events, cells, load, groups,
      settled ▸ settle_follows p⟩

end Sys2Proof.Machine
end
section
/-! PROOFS. Range Rekey (R109 to R111, R113): its checks, the sweep it begins, and the sweep that ends in the step of its
begin because the range has no LBA. -/

namespace Sys2Proof.Machine

/-! ### Records of RANGE_REKEY and RANGE_ERASE -/

/-- A number or a reserved byte that is not good is refused BAD_FIELD before all else (R108). -/
theorem answeredOnly_of_badBinding {c : Instr} {s : State} {k : Kind} {r : Record}
    {f : Record → State → RangeId → CellId → State}
    (runs : exec c s = onRecord .s k s (fun r s => withRange .s r bindBytes s (fun x => withGroup r s (f r s x))))
    (taken : Taken s .s r k) (bad : BindFieldsBad r) : AnsweredOnly c s .s r .badField .empty := by
  rcases index : rangeOf r with _ | x
  · exact answeredOnly_of_badRange runs taken (.inl index)
  rcases reserved : reservedZero r bindBytes with _ | _
  · exact answeredOnly_of_badRange runs taken (.inr reserved)
  have group : cellOf (groupByte r) = none := by
    rcases bad with h | h | h
    · rw [index] at h; cases h
    · exact h
    · exact nomatch reserved.symm.trans h
  exact answeredOnly_of_exec (by rw [runs, onRecord_taken _ taken, withRange_some index reserved, withGroup, group])

/-! ### The lowest LBA of a range does not depend on bindings (R27) -/

theorem boundedAt_congr {t t' : RangeTable} (rows : ∀ q y, boundsHold (t'.entry q) y = boundsHold (t.entry q) y)
    (y : Nat) : boundedAt t' y = boundedAt t y := by
  simp only [boundedAt, rows]

/-- The lowest LBA of a range depends on the capacity and on which ranges are PRESENT with which bounds alone. -/
theorem lowestAt_congr {t t' : RangeTable} (capacity : t'.capacity = t.capacity)
    (rows : ∀ q, (t'.entry q).present = (t.entry q).present ∧ (t'.entry q).first = (t.entry q).first ∧
      (t'.entry q).last = (t.entry q).last) (x : RangeId) (y : Nat) : lowestAt t' x y = lowestAt t x y := by
  have bounded : ∀ y, boundedAt t' y = boundedAt t y := boundedAt_congr fun q y => by
    obtain ⟨present, first, last⟩ := rows q
    simp only [boundsHold, present, first, last]
  have skip : ∀ n y, skipBounded t' n y = skipBounded t n y := by
    intro n
    induction n with
    | zero => exact fun _ => rfl
    | succ n ih =>
      intro y
      simp only [skipBounded, bounded]
      split
      · next q _ => rw [(rows q).2.2, ih]
      · rfl
  obtain ⟨present, first, last⟩ := rows x
  simp only [lowestAt, skip, capacity, present, first, last]

/-! ### RANGE_REKEY (R109 to R111, R113) -/

/-- The checks that RANGE_REKEY makes of a record whose numbers and reserved bytes are good (R109). -/
def rekeyChecks (s : State) (r : Record) (x : RangeId) (g : CellId) : List (Bool × Status) :=
  [(!(s.table.entry x).present, .badField), ((s.table.entry x).current.isNone, .noKey),
    (isSweeping s.table x, .sweepActive)] ++ bindingChecks s g (epochOf r)

theorem rekeyChecks_agree (s : State) (r : Record) (x : RangeId) (g : CellId) :
    ChecksAgree (rekeyChecks s r x g) (rekeyTable s r x g) :=
  .append (.cons ⟨by simp, rfl⟩ (.cons ⟨Option.isNone_iff_eq_none, rfl⟩
    (.cons ⟨Option.isSome_iff_ne_none, rfl⟩ .nil))) (bindingChecks_agree s r g)

/-- The LBA from which a rekey looks for one of the range: its first, or 0 for range 0 (R110). -/
abbrev sweepFrom (s : State) (x : RangeId) : Nat := if x = 0 then 0 else (s.table.entry x).first

theorem startSweep_lowestAt (s : State) (x : RangeId) (b : Binding) (y : Nat) :
    lowestAt (startSweep s x b).table x y = lowestAt s.table x y := by
  refine lowestAt_congr (t := s.table) (t' := (startSweep s x b).table) rfl (fun q => ?_) x y
  by_cases h : q = x
  · subst h
    have e : (startSweep s q b).table.entry q =
        { s.table.entry q with current := some b, previous := (s.table.entry q).current } := entry_setEntry_self ..
    rw [e]
    exact ⟨rfl, rfl, rfl⟩
  · have e : (startSweep s x b).table.entry q = s.table.entry q := entry_setEntry_ne _ _ h
    rw [e]
    exact ⟨rfl, rfl, rfl⟩

/-- A rekey begins a sweep, and ends it at once exactly where no LBA is left for it (R110, R111). -/
theorem rekeyRange_eq (s : State) (x : RangeId) (b : Binding) : rekeyRange s x b =
    if (lowestAt s.table x (sweepFrom s x)).isSome = true then startSweep s x b
    else endSweep (startSweep s x b) x := by
  simp only [rekeyRange, startSweep_lowestAt]
  cases lowestAt s.table x (sweepFrom s x) <;> rfl

/-- The taking of a record and a rekey are in either order. -/
theorem rekeyRange_takeRecord (s : State) (x : RangeId) (b : Binding) :
    rekeyRange (takeRecord s .s) x b = takeRecord (rekeyRange s x b) .s := by
  rw [rekeyRange_eq, rekeyRange_eq, apply_ite (takeRecord · .s)]
  rfl

theorem exec_rangeRekey {s : State} {r : Record} {x : RangeId} {g : CellId} (taken : Taken s .s r .rangeRekey)
    (fields : BindFields r x) (group : cellOf (groupByte r) = some g) :
    exec .rangeRekey s = .next (decideRecord .s r (rekeyChecks s r x g) (takeRecord s .s)
      (answerRecord (takeRecord (rekeyRange s x { group := g, epoch := epochOf r }) .s) .s r .ok .empty)) := by
  show execRangeRekey s = _
  obtain ⟨index, reserved⟩ := fields
  rw [execRangeRekey, onRecord_taken _ taken, withRange_some (as := bindBytes) index reserved, withGroup_some group,
    rekeyRange_takeRecord]
  rfl

/-- A RANGE_REKEY that is ready passes its checks. -/
theorem rekeyChecks_pass {s : State} {r : Record} {x : RangeId} {g : CellId} {ge : GroupRec} {old : Binding}
    (present : (s.table.entry x).present = true) (keyed : (s.table.entry x).current = some old)
    (settled : (s.table.entry x).previous = none) (binding : NewBinding s r g ge) :
    firstRefusal (rekeyChecks s r x g) = none := by
  rw [rekeyChecks, firstRefusal_append (by simp [firstRefusal_cons, present, keyed, isSweeping, settled]),
    bindingChecks_pass binding]

/-! ### What a rekey does -/

@[simp] theorem put_put_self {α : Type} {n : Nat} (v : Vector α n) (i : Fin n) (a b : α) :
    put (put v i a) i b = put v i b := vector_ext_get fun j => by simp only [get_put]; split <;> rfl

theorem put_comm {α : Type} {n : Nat} (v : Vector α n) {i j : Fin n} (h : i ≠ j) (a b : α) :
    put (put v i a) j b = put (put v j b) i a :=
  vector_ext_get fun k => by
    simp only [get_put]
    split
    · next hk => rw [if_neg (hk ▸ h.symm)]
    · rfl

/-- The groups after a rekey: the old one bound to the range in the slot given, the new one in slot CURRENT. -/
theorem setBound_setBound {k : KeyStore} {g old : CellId} {ge og : GroupRec} (apart : old ≠ g)
    (stands : k.groups.get g = some ge) (oldStands : k.groups.get old = some og) (b b' : Option BoundTo) :
    (k.setBound old b).setBound g b' = { k with
      groups := put (put k.groups old (some { og with bound := b })) g (some { ge with bound := b' }) } := by
  simp only [KeyStore.setBound, KeyStore.changeGroup, oldStands, Option.map_some, get_put_ne _ _ _ _ apart.symm, stands]

/-- The state in which the sweep of a rekey has begun (R110). -/
theorem startSweep_eq {s : State} {x : RangeId} {b old : Binding} {ge og : GroupRec}
    (keyed : (s.table.entry x).current = some old) (stands : s.keys.groups.get b.group = some ge)
    (oldStands : s.keys.groups.get old.group = some og) (apart : old.group ≠ b.group) :
    startSweep s x b = ((s.setKeys { s.keys with
        groups := put (put s.keys.groups old.group (some { og with bound := some { range := x, slot := .previous } }))
          b.group (some { ge with bound := some { range := x, slot := .current } }) }).setRange x
        { s.table.entry x with current := some b, previous := some old }).setSweep
      { s.sweep with marks := put s.sweep.marks x (some (if x = 0 then 0 else (s.table.entry x).first)) } := by
  simp only [startSweep, keyed, setBound_setBound apart stands oldStands]
  rfl

/-- The state in which the sweep of a rekey has begun and ended in one step (R111, R113). -/
theorem endSweep_startSweep {s : State} {x : RangeId} {b old : Binding} {ge og : GroupRec}
    (keyed : (s.table.entry x).current = some old) (stands : s.keys.groups.get b.group = some ge)
    (oldStands : s.keys.groups.get old.group = some og) (apart : old.group ≠ b.group) :
    endSweep (startSweep s x b) x = (((s.setKeys { s.keys with
        groups := put (put s.keys.groups old.group (some { og with bound := none }))
          b.group (some { ge with bound := some { range := x, slot := .current } }) }).setRange x
        { s.table.entry x with current := some b, previous := none }).setSweep
      { s.sweep with marks := put s.sweep.marks x none }).setEvents
        { s.ports.events with sweepDone := put s.ports.events.sweepDone x true } := by
  rw [startSweep_eq keyed stands oldStands apart]
  simp only [endSweep, State.setSweep_table, State.setRange_table, entry_setEntry_self, State.setSweep_keys,
    State.setRange_keys, State.setKeys_keys, KeyStore.unbind, KeyStore.setBound, KeyStore.changeGroup,
    put_comm _ apart, get_put_self, Option.map_some, put_put_self]
  simp only [raiseSweepDone, State.setEvents, State.setSweep, State.setRange, State.setKeys, SweepUnit.setMark,
    RangeTable.setEntry, put_put_self]

/-- Settles O13: the checks agree with the table, and the effect is the sweep begun, or begun and ended. -/
theorem rangeRekeyStartsSweep : Obligations.RangeRekeyStartsSweep := by
  intro s r x g ge old og start
  refine ⟨fun st taken bad => ?_, fun ready begins => ?_⟩
  · rcases bad with ⟨bad, rfl⟩ | ⟨fields, group, refused⟩
    · exact answeredOnly_of_badBinding (execRangeRekey.eq_def s) taken bad
    · exact answeredOnly_of_checks (exec_rangeRekey taken fields group) (rekeyChecks_agree s r x g) refused
  · obtain ⟨taken, fields, present, keyed, settled, binding, oldStands, apart⟩ := ready
    have passed := rekeyChecks_pass present keyed settled binding
    obtain ⟨group, stands, -⟩ := binding
    have runs := exec_rangeRekey taken fields group
    rw [decideRecord_accept passed, rekeyRange_eq, sweepFrom, ← begins] at runs
    refine ⟨fun left => ?_, fun ended => ?_⟩
    · rw [if_pos left, startSweep_eq (old := old) keyed stands oldStands apart, ← begins] at runs
      exact completed_of_exec runs rfl
    · rw [ended, if_neg (by simp), endSweep_startSweep keyed stands oldStands apart] at runs
      exact completed_of_exec runs rfl

end Sys2Proof.Machine
end
section
/-! PROOFS. Range Erase (R116 to R119, R132, R135): its checks, the bindings and the sweep it replaces, what the jobs cut
short can change whatever the tables hold, and what the step leaves of each claim and job. -/

namespace Sys2Proof.Machine

/-! ### The checks of RANGE_ERASE (R116) -/

/-- The checks that RANGE_ERASE makes of a record whose numbers and reserved bytes are good (R116). -/
def eraseChecks (s : State) (r : Record) (x : RangeId) (g : CellId) : List (Bool × Status) :=
  [(!(s.table.entry x).present, .badField), ((s.table.entry x).current.isNone, .noKey)] ++ bindingChecks s g (epochOf r)

theorem eraseChecks_agree (s : State) (r : Record) (x : RangeId) (g : CellId) :
    ChecksAgree (eraseChecks s r x g) (eraseTable s r x g) :=
  .append (.cons ⟨by simp, rfl⟩ (.cons ⟨Option.isNone_iff_eq_none, rfl⟩ .nil)) (bindingChecks_agree s r g)

/-- A RANGE_ERASE that is ready passes its checks. -/
theorem eraseChecks_pass {s : State} {r : Record} {x : RangeId} {g : CellId} {ge : GroupRec} {old : Binding}
    (present : (s.table.entry x).present = true) (keyed : (s.table.entry x).current = some old)
    (binding : NewBinding s r g ge) : firstRefusal (eraseChecks s r x g) = none := by
  rw [eraseChecks, firstRefusal_append (by simp [firstRefusal_cons, present, keyed]), bindingChecks_pass binding]

theorem exec_rangeErase {s : State} {r : Record} {x : RangeId} {g : CellId} (taken : Taken s .s r .rangeErase)
    (fields : BindFields r x) (group : cellOf (groupByte r) = some g) :
    exec .rangeErase s = .next (decideRecord .s r (eraseChecks s r x g) (takeRecord s .s)
      (answerRecord (eraseRange (takeRecord s .s) x { group := g, epoch := epochOf r }) .s r .ok .empty)) := by
  show execRangeErase s = _
  obtain ⟨index, reserved⟩ := fields
  rw [execRangeErase, onRecord_taken _ taken, withRange_some (as := bindBytes) index reserved, withGroup_some group]
  rfl

/-- No reset runs and no Retain request waits where the S-port takes a record (R162, R174). -/
theorem quiet_of_taken {s : State} {r : Record} {k : Kind} (taken : Taken s .s r k) :
    s.ports.reset = none ∧ s.stage.waitingRetain = none := by
  have free := (portPermits_iff s .s).mp taken.1
  simp only [PortHeld, not_or, not_not] at free
  exact ⟨free.1, free.2.1⟩

/-! ### The groups of the bindings replaced (R48, R117) -/

theorem boundTo_get (gs : Vector (Option GroupRec) 64) (g : CellId) (b : Option BoundTo) (h : CellId) :
    (boundTo gs g b).get h = (gs.get h).map (fun e => if h = g then { e with bound := b } else e) := by
  rw [boundTo, get_put]
  split
  · next e => rw [e]
  · exact Option.map_id'.symm

theorem unboundAll_get (gs : Vector (Option GroupRec) 64) (bs : List Binding) (h : CellId) :
    (unboundAll gs bs).get h =
      (gs.get h).map (fun e => if ∃ b ∈ bs, b.group = h then { e with bound := none } else e) := by
  induction bs generalizing gs with
  | nil => simp [unboundAll]
  | cons b bs ih =>
    show (unboundAll (boundTo gs b.group none) bs).get h = _
    rw [ih, boundTo_get, Option.map_map]
    refine congrFun (congrArg Option.map (funext fun e => ?_)) _
    by_cases here : h = b.group
    · simp [here]
    · simp [here, Ne.symm here]

/-- The groups once an erase of `x` has unbound the old ones and bound `g` (R117). -/
abbrev erasedGroups (s : State) (x : RangeId) (g : CellId) : Vector (Option GroupRec) 64 :=
  boundTo (unboundAll s.keys.groups (bindingsOf (s.table.entry x))) g (some { range := x, slot := .current })

/-- A group record after the bindings are replaced has the state and the pins it had. -/
theorem erasedGroups_from {s : State} {x : RangeId} {g h : CellId} {e : GroupRec}
    (stands : (erasedGroups s x g).get h = some e) :
    ∃ e0, s.keys.groups.get h = some e0 ∧ e.state = e0.state ∧ e.pins = e0.pins := by
  rw [boundTo_get, unboundAll_get, Option.map_map, Option.map_eq_some_iff] at stands
  obtain ⟨e0, before, rfl⟩ := stands
  refine ⟨e0, before, ?_⟩
  simp only [Function.comp_apply]
  split <;> split <;> exact ⟨rfl, rfl⟩

/-- The old groups are unbound (R117). -/
theorem erasedGroups_old {s : State} {x : RangeId} {g : CellId} {b : Binding} (mem : b ∈ bindingsOf (s.table.entry x))
    (other : b.group ≠ g) {e : GroupRec} (stands : (erasedGroups s x g).get b.group = some e) : e.bound = none := by
  rw [boundTo_get, unboundAll_get, Option.map_map, Option.map_eq_some_iff] at stands
  obtain ⟨e0, -, rfl⟩ := stands
  have unbinds : ∃ b' ∈ bindingsOf (s.table.entry x), b'.group = b.group := ⟨b, mem, rfl⟩
  simp only [Function.comp_apply, if_neg other, if_pos unbinds]

/-- The new group is bound to the range in slot CURRENT (R117). -/
theorem erasedGroups_new {s : State} {x : RangeId} {g : CellId} {ge : GroupRec}
    (stands : s.keys.groups.get g = some ge) : ∃ e, (erasedGroups s x g).get g = some e ∧ e.state = ge.state ∧
      e.bound = some { range := x, slot := .current } := by
  rw [boundTo_get, unboundAll_get, stands]
  refine ⟨_, rfl, ?_⟩
  simp only [if_true, and_true]
  split <;> rfl

/-! ### An erase that cancels no job -/

theorem erasesJob_eq_false {s : State} {x : RangeId} (calm : ∀ c ∈ s.sweep.claims.get x, c.state ≠ .reciphering)
    (k : Nat) : erasesJob s x k = false := by
  rw [erasesJob, List.any_eq_false]
  intro c mem
  simp [calm c mem]

/-- The bindings replaced and the sweep gone, no RECIPHERING claim among its claims (R117). -/
theorem cancelSweep_replaceBindings {s : State} {x : RangeId} {b old : Binding}
    (keyed : (s.table.entry x).current = some old) (calm : ∀ c ∈ s.sweep.claims.get x, c.state ≠ .reciphering) :
    cancelSweep (replaceBindings s x b) x =
      ((s.setKeys { s.keys with groups := erasedGroups s x b.group }).setRange x
        { s.table.entry x with current := some b, previous := none }).setSweep
        { s.sweep with marks := put s.sweep.marks x none, claims := put s.sweep.claims x [] } := by
  have going : (s.sweep.claims.get x).filter (fun c => c.state == .reciphering) = [] :=
    List.filter_eq_nil_iff.mpr fun c mem => by simp [calm c mem]
  have replaced : replaceBindings s x b = (s.setKeys { s.keys with groups := erasedGroups s x b.group }).setRange x
      { s.table.entry x with current := some b, previous := none } := by
    rw [← replaceBindings_groups keyed]
    rfl
  simp [cancelSweep, replaced, going, SweepUnit.setClaims, SweepUnit.setMark]

/-- An erase that cancels no job, with no Key Clear released and no drain to end, replaces the bindings and removes the
sweep alone. -/
theorem eraseRange_quiet {s : State} {x : RangeId} {b : Binding} {old : Binding}
    (keyed : (s.table.entry x).current = some old) (reset : s.ports.reset = none)
    (calm : ∀ c ∈ s.sweep.claims.get x, c.state ≠ .reciphering) (clears : NoReleasedClear s)
    (drain : s.stage.stage ≠ .draining ∨ ¬ NoJobs s) :
    eraseRange s x b = cancelSweep (replaceBindings s x b) x := by
  have same : forEachSlot .m (fun t k => if erasesJob s x k = true then cancelJob t k else t)
      (cancelSweep (replaceBindings s x b) x) = cancelSweep (replaceBindings s x b) x :=
    List.foldl_fixed' (fun k => if_neg (by simp [erasesJob_eq_false calm k])) _
  rw [eraseRange, same]
  refine settle_quiet (fun h e mem retiring => ?_) drain (.inl reset)
  have groups : (replaceBindings s x b).keys.groups = erasedGroups s x b.group := by rw [replaceBindings_groups keyed]
  have stands : (erasedGroups s x b.group).get h = some e := groups ▸ Option.mem_toList.mp mem
  obtain ⟨e0, before, state, pins⟩ := erasedGroups_from stands
  exact pins ▸ clears h e0 (by simp [before]) (state ▸ retiring)

/-! ### What the end of a job cut short can change -/

/-- What any number of jobs cut short keep as they end, whatever the tables hold: the Range Table, the marks, the reset, a
claim list that is empty, every group record but for its pins, and buffer memory. -/
structure CutKeeps (u v : State) : Prop where
  table : v.table = u.table
  reset : v.ports.reset = u.ports.reset
  marks : v.sweep.marks = u.sweep.marks
  claims : ∀ x, u.sweep.claims.get x = [] → v.sweep.claims.get x = []
  groups : ∀ g, ∃ n, v.keys.groups.get g = (u.keys.groups.get g).map (fun e => { e with pins := e.pins - n })
  buffer : v.buffer = u.buffer

theorem CutKeeps.refl (u : State) : CutKeeps u u := ⟨rfl, rfl, rfl, fun _ => id, fun _ => ⟨0, by simp⟩, rfl⟩

theorem CutKeeps.trans {u v w : State} (h : CutKeeps u v) (h' : CutKeeps v w) : CutKeeps u w where
  table := h'.table.trans h.table
  reset := h'.reset.trans h.reset
  marks := h'.marks.trans h.marks
  claims x e := h'.claims x (h.claims x e)
  groups g := by
    obtain ⟨n, e⟩ := h.groups g
    obtain ⟨n', e'⟩ := h'.groups g
    exact ⟨n + n', by rw [e', e, Option.map_map]; simp [Function.comp_def, Nat.sub_sub]⟩
  buffer := h'.buffer.trans h.buffer

theorem CutKeeps.foldl {α : Type} {f : State → α → State} (h : ∀ u a, CutKeeps u (f u a)) (L : List α) (u : State) :
    CutKeeps u (L.foldl f u) := by
  induction L generalizing u with
  | nil => exact .refl u
  | cons a L ih => exact (h u a).trans (ih _)

theorem setJob_cut (u : State) (side : Side) (k : Nat) (j : Option Job) : CutKeeps u (setJob u side k j) :=
  ⟨by simp, by simp, by simp, fun _ => by simp, fun _ => ⟨0, by simp⟩, by simp⟩

theorem askAccess_cut (u : State) (a : Access) : CutKeeps u (askAccess u a) := by
  obtain ⟨l, -, e⟩ := askAccess_frame u a
  rw [e]
  exact ⟨rfl, rfl, rfl, fun _ => id, fun _ => ⟨0, by simp⟩, rfl⟩

theorem mapClaims_cut (u : State) (f : Claim → Claim) : CutKeeps u (u.setSweep (u.sweep.mapClaims f)) :=
  ⟨rfl, rfl, rfl, fun x e => by simp [SweepUnit.mapClaims, e], fun _ => ⟨0, by simp⟩, rfl⟩

theorem filterClaims_cut (u : State) (f : Claim → Bool) : CutKeeps u (u.setSweep (u.sweep.filterClaims f)) :=
  ⟨rfl, rfl, rfl, fun x e => by simp [SweepUnit.filterClaims, e], fun _ => ⟨0, by simp⟩, rfl⟩

/-- A job with an end cause becomes no DONE claim, so no mark moves as its claim is settled (R132, R133). -/
theorem settleClaim_cutKeeps (u : State) (k : Nat) (c : EndCause) : CutKeeps u (settleClaim u k (some c)) := by
  have changed : ∀ f, CutKeeps u (changeClaimOfJob u k f) := fun f => mapClaims_cut u _
  simp only [settleClaim]
  split
  · exact .refl u
  · cases c with
    | busFault =>
      dsimp only
      split
      · exact .refl u
      · exact changed _
    | aborted => exact changed _
    | zeroized => exact changed _
    | sweepCancelled => exact changed _

theorem postJob_cut (u : State) (side : Side) (k : Nat) (j : Job) : CutKeeps u (postJob u side k j) := by
  have posted : CutKeeps u ((post u (sidePort side) j.completion).setKeys (u.keys.unpin j.pinned)) :=
    ⟨by simp, by simp, by simp, fun _ => by simp, fun g => ⟨_, (unpin_pinsReleased j.pinned u.keys).2.2 g⟩, by simp⟩
  have sweep : (setJob ((post u (sidePort side) j.completion).setKeys (u.keys.unpin j.pinned)) side k none).sweep =
      u.sweep := by simp
  rw [postJob_eq, ← sweep]
  refine (posted.trans (setJob_cut _ side k none)).trans ?_
  split
  · exact filterClaims_cut _ _
  · exact .refl _

theorem listOrPost_cut (u : State) (side : Side) (k : Nat) (j : Job) : CutKeeps u (listOrPost u side k j) := by
  simp only [listOrPost]
  split
  · split
    · exact postJob_cut u side k j
    · exact (setJob_cut u side k _).trans (askAccess_cut _ _)
  · exact postJob_cut u side k j

/-- The end of a job that has an end cause. -/
theorem endJob_cut (u : State) (side : Side) (k : Nat) {j : Job} (cut : j.cause ≠ none) :
    CutKeeps u (endJob u side k j) := by
  obtain ⟨c, hc⟩ := Option.ne_none_iff_exists'.mp cut
  simp only [endJob, hc]
  split
  · exact ((setJob_cut u side k _).trans (settleClaim_cutKeeps _ k c)).trans (listOrPost_cut _ side k _)
  all_goals exact listOrPost_cut u side k j

/-- The job of a claim that an erase cancels, cut short and ended where no sector of it is in a lane (R119). -/
theorem cancelJob_cut (u : State) (k : Nat) : CutKeeps u (cancelJob u k) := by
  simp only [cancelJob]
  split
  · next j hj =>
    refine (setJob_cut u .m k (some (j.stop .sweepCancelled))).trans ?_
    simp only [closeJob, jobAt_setJob, slot_lt_of_jobAt hj, and_self, if_true]
    split
    · exact endJob_cut _ .m k (Option.some_ne_none _)
    · exact .refl _
  · exact .refl u

/-! ### What follows where no reset runs -/

/-- The end of a drain sets locks alone in the Range Table (R38, R150). -/
theorem endDrain_row (q : State) (r : RangeId) : SameRow (q.table.entry r) ((endDrain q).table.entry r) ∧
    ((endDrain q).table.entry r).refusals = (q.table.entry r).refusals := by
  have woken : ∀ v : State, (wakeByRecord v).table = v.table := by
    intro v
    simp only [wakeByRecord]
    split <;> rfl
  have entered : ∀ cause, (retainEntry q cause).table.entry r = lockAtRetain (q.table.entry r) := fun _ => get_map _ _ _
  obtain ⟨same, refusals, -⟩ := lockAtRetain_same (q.table.entry r)
  simp only [endDrain]
  split
  · rw [woken]
    split
    · rw [post_table, entered]
      exact ⟨same, refusals⟩
    · rw [entered]
      exact ⟨same, refusals⟩
  · exact ⟨.refl _, rfl⟩

/-- With no reset running the Key Clears and the end of a drain are all that follows (log entry 3). -/
theorem settle_eq_endDrain {p : State} (reset : p.ports.reset = none) : settle p = endDrain (finishKeyClears p) := by
  obtain ⟨-, kept, -⟩ := endDrain_frame (finishKeyClears p)
  obtain ⟨-, kept', -⟩ := finishKeyClears_frame p
  have none : (endDrain (finishKeyClears p)).ports.reset = none := by rw [kept, kept', reset]
  rw [settle_eq, endEngineReset_quiet (.inl none), endZeroize_quiet (.inl none)]

theorem settle_row {p : State} (reset : p.ports.reset = none) (r : RangeId) :
    SameRow (p.table.entry r) ((settle p).table.entry r) ∧
      ((settle p).table.entry r).refusals = (p.table.entry r).refusals := by
  have table : (finishKeyClears p).table = p.table := by
    obtain ⟨e, -⟩ := finishKeyClears_done p
    generalize (finishKeyClears p).keys = k at e
    rw [e]
    rfl
  rw [settle_eq_endDrain reset, ← table]
  exact endDrain_row _ r

/-- With no Retain request waiting the S-port gets the completions of the Key Clears alone (R58, R172). -/
theorem settle_portS {p : State} (reset : p.ports.reset = none) (waiting : p.stage.waitingRetain = none) :
    (settle p).ports.s = filledWith p.ports.s (clearPosts p.keys) := by
  obtain ⟨-, -, -, stage⟩ := finishKeyClears_frame p
  rw [settle_eq_endDrain reset, (endDrain_ports (by rw [stage, waiting])).1]
  obtain ⟨e, -⟩ := finishKeyClears_done p
  generalize (finishKeyClears p).keys = k at e
  rw [e]
  rfl

/-! ### Any erase (R117, R118) -/

/-- `t` is `s` with the bindings of range `x` replaced by `b`, which is its current one, and its sweep gone; what else of
the part may have changed it does not say. -/
structure Replaced (s : State) (x : RangeId) (b : Binding) (t : State) : Prop where
  current : (t.table.entry x).current = some b
  previous : (t.table.entry x).previous = none
  mark : t.sweep.marks.get x = none
  claims : t.sweep.claims.get x = []
  first : (t.table.entry x).first = (s.table.entry x).first
  last : (t.table.entry x).last = (s.table.entry x).last
  refusals : (t.table.entry x).refusals = (s.table.entry x).refusals
  others : ∀ q, q ≠ x → bindingsOf (t.table.entry q) = bindingsOf (s.table.entry q)
  old : ∀ b' ∈ bindingsOf (s.table.entry x), b'.group ≠ b.group →
    ∀ e, t.keys.groups.get b'.group = some e → e.bound = none
  new : ∃ e, t.keys.groups.get b.group = some e ∧ e.state = .filled ∧ e.bound = some { range := x, slot := .current }
  buffer : t.buffer = s.buffer

/-- The state before what follows in the step of an erase: its jobs have been cut short, whatever they are. -/
def eraseEnds (s : State) (x : RangeId) (b : Binding) : State :=
  forEachSlot .m (fun t k => if erasesJob s x k = true then cancelJob t k else t) (cancelSweep (replaceBindings s x b) x)

theorem eraseRange_eq_settle (s : State) (x : RangeId) (b : Binding) : eraseRange s x b = settle (eraseEnds s x b) := rfl

theorem eraseEnds_keeps (s : State) (x : RangeId) (b : Binding) :
    CutKeeps (cancelSweep (replaceBindings s x b) x) (eraseEnds s x b) :=
  .foldl (fun u k => by
    split
    · exact cancelJob_cut u k
    · exact .refl u) _ _

/-- An erase replaces the bindings and removes the sweep whatever the tables and the claims hold: the ends of jobs and what
follows touch neither. -/
theorem eraseRange_replaced {s : State} {x : RangeId} {b old : Binding} {ge : GroupRec} (reset : s.ports.reset = none)
    (keyed : (s.table.entry x).current = some old) (stands : s.keys.groups.get b.group = some ge)
    (filled : ge.state = .filled) : Replaced s x b (eraseRange s x b) := by
  have kept := eraseEnds_keeps s x b
  have noReset : (eraseEnds s x b).ports.reset = none := kept.reset.trans reset
  have table : (eraseEnds s x b).table = s.table.setEntry x { s.table.entry x with current := some b, previous := none } :=
    kept.table
  have sweep := (settle_noReset noReset).2.2.2
  have row := settle_row noReset
  have groups : ∀ h, ∃ n, (settle (eraseEnds s x b)).keys.groups.get h = (((erasedGroups s x b.group).get h).map
      (fun e => { e with pins := e.pins - n })).filter (fun e => !released e) := fun h => by
    obtain ⟨n, e⟩ := kept.groups h
    refine ⟨n, ?_⟩
    rw [settle_groups (fun run h => by rw [noReset] at h; cases h), e,
      show (cancelSweep (replaceBindings s x b) x).keys = (replaceBindings s x b).keys from rfl,
      replaceBindings_groups keyed]
  simp only [table] at row
  have rowX := row x
  rw [entry_setEntry_self] at rowX
  obtain ⟨same, refusals⟩ := rowX
  rw [eraseRange_eq_settle]
  refine ⟨same.current, same.previous, ?_, ?_, same.first, same.last, refusals, fun q other => ?_,
    fun b' mem other e there => ?_, ?_, ?_⟩
  · rw [sweep, kept.marks]
    exact get_put_self _ _ _
  · rw [sweep]
    exact kept.claims x (get_put_self _ _ _)
  · have rowQ := (row q).1
    rw [entry_setEntry_ne _ _ other] at rowQ
    rw [bindingsOf, rowQ.current, rowQ.previous, bindingsOf]
  · obtain ⟨n, e'⟩ := groups b'.group
    rw [e', Option.filter_eq_some_iff, Option.map_eq_some_iff] at there
    obtain ⟨⟨e0, before, rfl⟩, -⟩ := there
    exact (erasedGroups_old mem other before : e0.bound = none)
  · obtain ⟨n, e'⟩ := groups b.group
    obtain ⟨e, here, state, bound⟩ := erasedGroups_new (x := x) stands
    refine ⟨{ e with pins := e.pins - n }, ?_, state.trans filled, bound⟩
    rw [e', here, Option.map_some, Option.filter_eq_some_iff]
    refine ⟨rfl, ?_⟩
    simp [released, state, filled]
  · rw [settle_buffer, kept.buffer]
    rfl

/-! ### What the step leaves of a cancelled claim and its job (R119, R132, R135) -/

/-- The job that a RECIPHERING claim of the range records is cut short. -/
theorem erasedJob_of_claim {s : State} {x : RangeId} {c : Claim} {k : Nat} {j : Job} (mem : c ∈ s.sweep.claims.get x)
    (reciphering : c.state = .reciphering) (job : c.job = some k) (hj : jobAt s .m k = some j) :
    erasedJob s x k = some (endedEarly .sweepCancelled j) := by
  have any : (s.sweep.claims.get x).any (fun c => c.state == .reciphering && c.job == some k) = true :=
    List.any_eq_true.mpr ⟨c, mem, by simp [reciphering, job]⟩
  rw [erasedJob, if_pos any, hj, Option.map_some]

/-- Cutting a job short leaves its sectors in the lanes there, and puts none there. -/
theorem inLane_endedEarly (cause : EndCause) (j : Job) :
    .inLane ∈ (endedEarly cause j).sectors ↔ .inLane ∈ j.sectors := by
  simp only [endedEarly, List.mem_map]
  constructor
  · rintro ⟨st, mem, e⟩
    split at e
    · cases e
    · exact e ▸ mem
  · exact fun mem => ⟨_, mem, by simp⟩

theorem erasedClaim_of_job {s : State} {x : RangeId} {c : Claim} {k : Nat} {j : Job} (job : c.job = some k)
    (cut : erasedJob s x k = some j) : erasedClaim s x c =
      if .inLane ∈ j.sectors then some c else if j.list = none then none else some { c with frozen := true } := by
  simp [erasedClaim, job, cut]

/-- The overtaken set that a job's final verdicts are made from is that of the one claim it has. -/
theorem overtakenOf_holds {s : State} {k : Nat} {c : Claim} (holds : HoldsClaim s k c) : overtakenOf s k = c.overtaken := by
  rw [overtakenOf_eq, claimOfJob_of_holds holds]

/-- The one claim of a range that records a slot is that of the job there. -/
theorem RecipheringHeld.holds {s : State} {x : RangeId} (held : RecipheringHeld s x) {c : Claim} {k : Nat}
    (mem : c ∈ s.sweep.claims.get x) (reciphering : c.state = .reciphering) (job : c.job = some k) :
    HoldsClaim s k c := by
  obtain ⟨k', j, holds, -⟩ := held c mem reciphering
  obtain rfl : k' = k := Option.some.inj (holds.2.1.symm.trans job)
  exact holds

/-- The state in which the record of an erase is taken, the bindings are replaced and the sweep is gone, its jobs still to
end. -/
abbrev erasing (s : State) (x : RangeId) (b : Binding) : State := cancelSweep (replaceBindings (takeRecord s .s) x b) x

/-- The jobs of an erase ended, in the terms of the state before its record was taken. -/
theorem eraseRange_taken {s : State} {x : RangeId} (b : Binding) (held : RecipheringHeld s x)
    (normal : s.bufferPort.faulted = false) :
    ∃ p, eraseRange (takeRecord s .s) x b = settle p ∧ EraseEnds s x (erasing s x b) p (List.range 16) := by
  obtain ⟨p, settled, e⟩ := eraseRange_ends (s := takeRecord s .s) b held normal
  exact ⟨p, settled, e.jobsI, e.job, e.cells, e.load, e.groups, e.marks, e.claims, e.cancelled, e.rest⟩

section
variable {s p : State} {x : RangeId} {b : Binding} (ends : EraseEnds s x (erasing s x b) p (List.range 16))
include ends

theorem erased_portM : p.ports.m = { s.ports.m with
    filled := s.ports.m.filled ++ (erasePosts s x).take s.ports.m.reserved,
    reserved := s.ports.m.reserved - (erasePosts s x).length } := by
  rw [ends.rest]
  rfl

theorem erased_portS : p.ports.s = (takenOnly s .s).ports.s := by
  rw [ends.rest]
  rfl

theorem erased_reset : p.ports.reset = s.ports.reset := by
  rw [ends.rest]
  rfl

theorem erased_stage : p.stage = s.stage := by
  rw [ends.rest]
  rfl

theorem erased_outstanding : p.bufferPort.outstanding = s.bufferPort.outstanding ++ eraseAsks s x := by
  rw [ends.rest]
  rfl

/-- A slot whose job the erase does not cancel keeps it. -/
theorem erased_otherJob {k : Nat} (other : erasedJob s x k = none) : jobAt p .m k = jobAt s .m k := by
  rw [ends.job, other]
  exact ite_self _

theorem erased_job {k : Nat} {j j' : Job} (hj : jobAt s .m k = some j) (cut : erasedJob s x k = some j') :
    jobAt p .m k = erasedSlot s k j' := by
  have slot : k ∈ List.range 16 := List.mem_range.mpr (slot_lt_of_jobAt hj)
  rw [ends.job, if_pos slot, cut]

theorem erased_claims (q : RangeId) : p.sweep.claims.get q =
    if q = x then [] else (s.sweep.claims.get q).filterMap (erasedClaim s x) := by
  rw [ends.claims, show claimAfter s x (List.range 16) = erasedClaim s x from funext (claimAfter_all s x),
    show (erasing s x b).sweep.claims = put s.sweep.claims x [] from rfl, get_put]
  split <;> rfl

theorem erased_cancelled : p.sweep.cancelled = (s.sweep.cancelled ++ eraseCancels s x).filterMap (erasedClaim s x) := by
  rw [ends.cancelled, show claimAfter s x (List.range 16) = erasedClaim s x from funext (claimAfter_all s x)]
  rfl

theorem erased_keys {old : Binding} (keyed : (s.table.entry x).current = some old) :
    p.keys.cells = s.keys.cells ∧ p.keys.load = s.keys.load ∧ ∀ h, p.keys.groups.get h =
      ((erasedGroups s x b.group).get h).map (fun e => { e with pins := e.pins - eraseUnpins s x h }) := by
  have keys : (erasing s x b).keys = { s.keys with groups := erasedGroups s x b.group } :=
    replaceBindings_groups (s := takeRecord s .s) keyed
  refine ⟨by rw [ends.cells, keys], by rw [ends.load, keys], fun h => ?_⟩
  rw [ends.groups, keys]
  rfl

/-- A cancelled claim stands among the cancelled ones as the erase leaves it (R119). -/
theorem erased_cancelled_mem {c d : Claim} (mem : c ∈ s.sweep.claims.get x) (reciphering : c.state = .reciphering)
    (becomes : erasedClaim s x { c with cancelled := true } = some d) : d ∈ p.sweep.cancelled := by
  rw [erased_cancelled ends, List.mem_filterMap]
  refine ⟨_, List.mem_append_right _ (List.mem_map.mpr ⟨c, List.mem_filter.mpr ⟨mem, ?_⟩, rfl⟩), becomes⟩
  simp [reciphering]

/-- The three ways in which the job of a cancelled claim is left: running on with a sector in a lane, its completion posted,
or its list asked for (R119, R132). -/
theorem erased_claim_job (held : RecipheringHeld s x) {c : Claim} (mem : c ∈ s.sweep.claims.get x)
    (reciphering : c.state = .reciphering) {k : Nat} {j : Job} (job : c.job = some k) (hj : jobAt s .m k = some j) :
    (.inLane ∈ j.sectors →
      jobAt p .m k = some (endedEarly .sweepCancelled j) ∧ { c with cancelled := true } ∈ p.sweep.cancelled) ∧
    (.inLane ∉ j.sectors → j.list = none →
      jobAt p .m k = none ∧ ∀ d ∈ p.sweep.cancelled, d.job ≠ some k) ∧
    (.inLane ∉ j.sectors → ∀ addr, j.list = some addr →
      let cut := endedEarly .sweepCancelled j
      let final := { cut with finals := cut.finalVerdicts c.overtaken, phase := .listing }
      jobAt p .m k = some final ∧ { c with cancelled := true, frozen := true } ∈ p.sweep.cancelled ∧
      { who := .list .m k, kind := .listWrite, addr := addr, len := j.count, bytes := final.listBytes }
        ∈ p.bufferPort.outstanding) := by
  have cut := erasedJob_of_claim mem reciphering job hj
  have slot := erased_job ends hj cut
  have claim := fun (d : Claim) (hd : d.job = some k) => erasedClaim_of_job hd cut
  rw [erasedSlot, overtakenOf_holds (held.holds mem reciphering job)] at slot
  rw [← inLane_endedEarly .sweepCancelled j]
  refine ⟨fun runs => ?_, fun idle noList => ?_, fun idle addr asked => ?_⟩
  · rw [if_pos runs] at slot
    refine ⟨slot, erased_cancelled_mem ends mem reciphering ?_⟩
    rw [claim { c with cancelled := true } job, if_pos runs]
  · have list : (endedEarly .sweepCancelled j).list = none := noList
    rw [if_neg idle, if_pos list] at slot
    refine ⟨slot, fun d there recorded => ?_⟩
    rw [erased_cancelled ends, List.mem_filterMap] at there
    obtain ⟨d0, -, becomes⟩ := there
    rw [claim d0 ((erasedClaim_job becomes).1 ▸ recorded), if_neg idle, if_pos list] at becomes
    cases becomes
  · have list : (endedEarly .sweepCancelled j).list = some addr := asked
    rw [if_neg idle, if_neg (by simp [list])] at slot
    refine ⟨slot, erased_cancelled_mem ends mem reciphering ?_, ?_⟩
    · rw [claim { c with cancelled := true } job, if_neg idle, if_neg (by simp [list])]
    · rw [erased_outstanding ends, eraseAsks]
      refine List.mem_append_right _ (List.mem_filterMap.mpr ⟨k, List.mem_range.mpr (slot_lt_of_jobAt hj), ?_⟩)
      rw [cut, Option.bind_some, if_pos idle, list, overtakenOf_holds (held.holds mem reciphering job)]
      rfl

end

/-! ### The erase's own completion -/

/-- The erase's own completion is posted last, in the place reserved as its record was taken (R172). -/
theorem answerRecord_held (s : State) (r : Record) (st : Status) (b : Body) :
    answerRecord s .s r st b = heldPosted s [answerOf r st b] := post_held s _

/-- With places for them the Key Clears' completions come before the erase's own (R58, R172; log entry 3). -/
theorem erased_posts {s p : State} {x : RangeId} {b : Binding} (ends : EraseEnds s x (erasing s x b) p (List.range 16))
    (reset : s.ports.reset = none) (waiting : s.stage.waitingRetain = none) (c : Completion)
    (places : (clearPosts p.keys).length ≤ s.ports.s.reserved) :
    (heldPosted (settle p) [c]).ports.s.filled = s.ports.s.filled ++ clearPosts p.keys ++ [c] := by
  have posted : (heldPosted (settle p) [c]).ports.s = filledWith (takenOnly s .s).ports.s (clearPosts p.keys ++ [c]) := by
    rw [← filledWith_append, ← erased_portS ends,
      ← settle_portS ((erased_reset ends).trans reset) ((congrArg _ (erased_stage ends)).trans waiting)]
    rfl
  have all : (clearPosts p.keys ++ [c]).take (s.ports.s.reserved + 1) = clearPosts p.keys ++ [c] :=
    List.take_of_length_le (by simpa using places)
  rw [posted, List.append_assoc]
  exact congrArg (s.ports.s.filled ++ ·) all

/-! ### The statement -/

/-- Settles O14: the checks agree with the table; with no job to cancel the bindings are replaced alone; in every state they
are replaced; and the jobs of the cancelled claims end before what follows and the erase's own completion. -/
theorem rangeEraseReplacesBindings : Obligations.RangeEraseReplacesBindings := by
  intro s r x g ge old
  refine ⟨fun st taken bad => ?_, fun ready => ?_⟩
  · rcases bad with ⟨bad, rfl⟩ | ⟨fields, group, refused⟩
    · exact answeredOnly_of_badBinding (execRangeErase.eq_def s) taken bad
    · exact answeredOnly_of_checks (exec_rangeErase taken fields group) (eraseChecks_agree s r x g) refused
  · obtain ⟨taken, fields, present, keyed, binding⟩ := ready
    have passed := eraseChecks_pass present keyed binding
    obtain ⟨group, stands, filled, -⟩ := binding
    obtain ⟨reset, waiting⟩ := quiet_of_taken taken
    have runs := exec_rangeErase taken fields group
    rw [decideRecord_accept passed] at runs
    refine ⟨fun calm clears drain => ?_, ?_⟩
    · rw [eraseRange_quiet (s := takeRecord s .s) keyed reset calm clears drain,
        cancelSweep_replaceBindings (s := takeRecord s .s) keyed calm] at runs
      exact completed_of_exec (u := ((s.setKeys { s.keys with groups := erasedGroups s x g }).setRange x
        { s.table.entry x with current := some { group := g, epoch := epochOf r }, previous := none }).setSweep
        { s.sweep with marks := put s.sweep.marks x none, claims := put s.sweep.claims x [] }) runs rfl
    · have replaced := eraseRange_replaced (s := takeRecord s .s) (b := { group := g, epoch := epochOf r }) reset keyed
        stands filled
      rw [answerRecord_held] at runs
      have ends := fun held normal => eraseRange_taken (s := s) (x := x) { group := g, epoch := epochOf r } held normal
      generalize eraseRange (takeRecord s .s) x { group := g, epoch := epochOf r } = u at *
      obtain ⟨current, previous, mark, claims, first, last, refusals, others, unbound, bound, buffer⟩ := replaced
      refine ⟨_, runs, sameMemory_of_buffer buffer, current, previous, mark, claims, first, last, refusals, others,
        unbound, bound, fun held normal => ?_, fun held normal => ?_⟩
      · obtain ⟨p, settled, ends⟩ := ends held normal
        obtain ⟨jobs, -, m, outstanding⟩ := settle_frame p
        have sweep := (settle_noReset ((erased_reset ends).trans reset)).2.2.2
        rw [← settled] at jobs m outstanding sweep
        refine ⟨?_, fun c mem reciphering k j job hj => ?_⟩
        · show u.ports.m.filled = _
          rw [m, erased_portM ends]
        · have left := erased_claim_job ends held mem reciphering job hj
          rw [← jobAt_congr jobs, ← sweep, ← outstanding] at left
          exact left
      · obtain ⟨p, settled, ends⟩ := ends held normal
        obtain ⟨cells, load, groups⟩ := erased_keys ends keyed
        have follows := settle_follows p
        have posts := erased_posts ends reset waiting (answerOf r .ok .empty)
        have jobs := (settle_frame p).1
        rw [← settled] at follows posts jobs
        exact ⟨p, u, follows, rfl, posts, jobs, ends.jobsI, fun k => erased_otherJob ends, cells, load, groups, ends.marks,
          erased_claims ends, erased_cancelled ends, ends.rest⟩

end Sys2Proof.Machine
end
section
/-! PROOFS. Claims and the requests that work on them (R124 to R131, R137, R138): CLAIM and RELEASE, which keep a range's
claims in order, and the RECIPHER and SCREEN that become jobs of the M-table. -/

namespace Sys2Proof.Machine

/-! ### Jobs accepted on the M-port (R55, R129, R131, R138) -/

/-- The state with the RECIPHER or SCREEN taken and accepted in slot `k`: its job there, its groups pinned, the timer
restarted where the M-port counts. -/
def mediaAccepted (s : State) (kind : JobKind) (r : Record) (k : Nat) (segs : List Segment) (claim : Option RangeId) :
    State :=
  { setJob (takenOnly s .m) .m k (some (acceptedJob s .m kind r segs (pinnedGroups kind segs) claim)) with
    keys := s.keys.pin (pinnedGroups kind segs),
    stage := if s.stage.mediaCounts = true then { s.stage with remaining := s.stage.delay } else s.stage }

theorem acceptJob_eq_mediaAccepted {s : State} {k : Nat} (kind : JobKind) (r : Record) (segs : List Segment)
    (claim : Option RangeId) (free : LowestFree s .m k) :
    acceptJob (takeRecord s .m) .m (newJob (takeRecord s .m) .m kind r segs claim) =
      mediaAccepted s kind r k segs claim := by
  have slot : freeSlot (takeRecord s .m) .m = some k := freeSlot_iff.mpr free
  have stage : (takeRecord s .m).stage = s.stage := rfl
  simp only [acceptJob, slot, Option.getD_some, jobAccepted, State.setKeys_stage, setJob_stage, stage, mediaAccepted]
  split <;> rfl

/-- A good record in a stage that lets it through meets none of checks 2 to 8 of R68. -/
theorem earlyTable_clear {s : State} {fieldsGood : Prop} {rs : List Region} (fields : fieldsGood)
    (regions : RegionsGood rs) (path : PathOpen s) : ∀ c ∈ earlyTable s fieldsGood rs, ¬ c.1 := by
  obtain ⟨inside, apart⟩ := regions
  obtain ⟨draining, failed, normal⟩ := path
  simp only [earlyTable, List.forall_mem_cons]
  exact ⟨not_not.mpr fields, fun ⟨a, mem, h⟩ => h (inside a mem).1, fun ⟨a, mem, h⟩ => absurd h (not_lt.mpr (inside a mem).2),
    not_not.mpr apart, draining, failed, by simp [normal], fun c hc => nomatch hc⟩

/-- Nor does an OPEN part with the LBAs in few enough segments meet checks 9 to 11. -/
theorem lookupTable_clear {s : State} {r : Record} (table : TableGood s r) : ∀ c ∈ lookupTable s r, ¬ c.1 := by
  obtain ⟨opened, below, few⟩ := table
  simp only [lookupTable, List.forall_mem_cons]
  exact ⟨by simp [opened], not_le.mpr below, not_lt.mpr few, fun c hc => nomatch hc⟩

theorem not_tableFull_of_lowestFree {s : State} {side : Side} {k : Nat} (free : LowestFree s side k) :
    ¬ TableFull s side := fun full => full k free.1 free.2.1

/-! ### SCREEN (R137, R138) -/

theorem screenTable_clear {s : State} {r : Record} {k : Nat} (ready : ScreenReady s r k) :
    ∀ c ∈ screenTable s r, ¬ c.1 := by
  obtain ⟨-, least, most, flags, list, reserved, regions, path, table, free⟩ := ready
  have regions' : RegionsGood ({ base := sourceOf r, len := countOf r * cipherBytes s } :: listRegions r) := by
    rwa [listRegions, if_pos list]
  simp only [screenTable, List.forall_mem_append]
  exact ⟨⟨earlyTable_clear ⟨least, most, flags, list, reserved⟩ regions' path, lookupTable_clear table⟩,
    List.forall_mem_singleton.mpr (not_tableFull_of_lowestFree free)⟩

theorem exec_screen_accepted {s : State} {r : Record} {k : Nat} (ready : ScreenReady s r k) :
    exec .screen s = .next (mediaAccepted s .screen r k (requestSegments s r) none) := by
  have passes : firstRefusal (screenChecks (takeRecord s .m) r) = none :=
    (screenChecks_agree s r).pass (screenTable_clear ready)
  obtain ⟨taken, -, -, -, -, -, -, -, -, free⟩ := ready
  show execScreen s = _
  rw [execScreen, onRecord_taken _ taken]
  simp only [passes]
  exact congrArg _ (acceptJob_eq_mediaAccepted .screen r (requestSegments s r) none free)

/-- Settles O27: the accepted job in its slot; a SCREEN's groups to pin are none. -/
theorem screenAcceptedPinsNothing : Obligations.ScreenAcceptedPinsNothing := fun s _ _ ready =>
  ⟨nextAcceptance_above s .m, _, exec_screen_accepted ready, sameMemory_of_buffer rfl, rfl⟩

/-! ### RECIPHER (R130, R131) -/

theorem claimMatches_iff (r : Record) (c : Claim) :
    claimMatches r c = true ↔ c.state = .claimed ∧ c.first = startOf r ∧ c.count = countOf r := by
  simp only [claimMatches, Bool.and_eq_true, beq_iff_eq, and_assoc]

/-- The claims of all lists are those of the ranges. -/
theorem mem_flatten_claims (w : SweepUnit) (c : Claim) : c ∈ w.claims.toList.flatten ↔ ∃ x, c ∈ w.claims.get x := by
  simpa [SweepUnit.allClaims] using mem_allClaims { w with cancelled := [] } c

/-- The claim found is a CLAIMED one of some range, with the request's first LBA and count (R130). -/
theorem matchingClaim_named {s : State} {r : Record} {c : Claim} (found : matchingClaim s r = some c) :
    (∃ x, c ∈ s.sweep.claims.get x) ∧ c.state = .claimed ∧ c.first = startOf r ∧ c.count = countOf r :=
  ⟨(mem_flatten_claims _ c).mp (List.mem_of_find?_eq_some found), (claimMatches_iff r c).mp (List.find?_some found)⟩

/-- Where one claim is named, some claim is found. -/
theorem matchingClaim_isSome {s : State} {r : Record} {c : Claim} {x : RangeId} (mem : c ∈ s.sweep.claims.get x)
    (named : c.state = .claimed ∧ c.first = startOf r ∧ c.count = countOf r) : ∃ d, matchingClaim s r = some d :=
  Option.isSome_iff_exists.mp
    (List.find?_isSome.mpr ⟨c, (mem_flatten_claims _ c).mpr ⟨x, mem⟩, (claimMatches_iff r c).mpr named⟩)

theorem recipherTable_clear {s : State} {r : Record} {c : Claim} {k : Nat} (ready : RecipherReady s r c k) :
    ∀ c ∈ recipherTable s r, ¬ c.1 := by
  obtain ⟨-, fields, regions, path, found, free⟩ := ready
  obtain ⟨⟨x, mem⟩, named⟩ := matchingClaim_named found
  simp only [recipherTable, List.forall_mem_append, List.forall_mem_cons]
  exact ⟨earlyTable_clear fields regions path, not_not.mpr ⟨x, c, mem, named⟩, not_tableFull_of_lowestFree free,
    fun c hc => nomatch hc⟩

theorem exec_recipher_accepted {s : State} {r : Record} {c : Claim} {k : Nat} (ready : RecipherReady s r c k) :
    exec .recipher s =
      .next (mediaAccepted (startClaim s r c.range k) .recipher r k [claimSegment s c] (some c.range)) := by
  have passes : firstRefusal (recipherChecks (takeRecord s .m) r) = none :=
    (recipherChecks_agree s r).pass (recipherTable_clear ready)
  obtain ⟨taken, -, -, -, found, free⟩ := ready
  have found' : matchingClaim (takeRecord s .m) r = some c := found
  have slot : freeSlot (takeRecord s .m) .m = some k := freeSlot_iff.mpr free
  have free' : LowestFree (startClaim s r c.range k) .m k := free
  show execRecipher s = _
  rw [execRecipher, onRecord_taken _ taken]
  simp only [passes, found', slot, Option.getD_some]
  exact congrArg _ (acceptJob_eq_mediaAccepted .recipher r [claimSegment s c] (some c.range) free')

/-- A RECIPHER pins its range's current and previous groups (R55). -/
theorem mem_pinnedGroups_recipher (segs : List Segment) (g : CellId) :
    g ∈ pinnedGroups .recipher segs ↔ ∃ seg ∈ segs,
      seg.current.map Binding.group = some g ∨ seg.previous.map Binding.group = some g :=
  mem_pinnedGroups_read segs g

/-- The claim a RECIPHER names becomes RECIPHERING, and the other claims stay (R131). -/
theorem startClaim_eq (s : State) (r : Record) (x : RangeId) (k : Nat) : startClaim s r x k =
    s.setSweep { s.sweep with claims := put s.sweep.claims x ((s.sweep.claims.get x).map (fun d =>
      if d.state = .claimed ∧ d.first = startOf r ∧ d.count = countOf r then
        { d with state := .reciphering, job := some k } else d)) } := by
  simp only [startClaim, claimMatches_iff]
  rfl

/-- Settles O26: the claim named is the one found, and the accepted job stands in its slot with its pins and its claim. -/
theorem recipherAcceptedStartsClaim : Obligations.RecipherAcceptedStartsClaim := by
  refine ⟨fun s r c => ⟨matchingClaim_named, fun ⟨⟨x, mem⟩, named⟩ only => ?_⟩, fun s r c k ready => ?_⟩
  · obtain ⟨d, found⟩ := matchingClaim_isSome mem named
    rw [found, only d (matchingClaim_named found)]
  · have runs := exec_recipher_accepted ready
    rw [startClaim_eq] at runs
    refine ⟨nextAcceptance_above s .m, _, runs, sameMemory_of_buffer rfl, _,
      pin_pinnedOnce _ (pinnedGroups_nodup .recipher _) s.keys, fun g => ?_, rfl⟩
    rw [mem_pinnedGroups_recipher]
    simp [claimSegment]

/-! ### Claims in order (R125, R126) -/

/-- Where the next claim begins depends on the mark and the Range Table alone (R126). -/
theorem startAfter_congr {s t : State} (marks : t.sweep.marks = s.sweep.marks) (table : t.table = s.table) (x : RangeId)
    (cs : List Claim) : startAfter t x cs = startAfter s x cs := by
  simp only [startAfter, marks, table]

theorem ClaimsInOrder.of_same {s t : State} {x : RangeId} {cs : List Claim} (h : ClaimsInOrder s x cs)
    (marks : t.sweep.marks = s.sweep.marks) (table : t.table = s.table) : ClaimsInOrder t x cs := by
  simpa only [ClaimsInOrder, startAfter_congr marks table] using h

theorem ClaimsInOrder.positive {s : State} {x : RangeId} {cs : List Claim} (h : ClaimsInOrder s x cs) :
    ∀ c ∈ cs, 1 ≤ c.count := by
  intro c mem
  obtain ⟨older, younger, split⟩ := List.append_of_mem mem
  exact (h older c younger split).1

/-- With a claim at the young end: the others are in order, and it begins where they let it. -/
theorem claimsInOrder_concat {s : State} {x : RangeId} {cs : List Claim} {c : Claim} :
    ClaimsInOrder s x (cs ++ [c]) ↔ ClaimsInOrder s x cs ∧ 1 ≤ c.count ∧ startAfter s x cs = some c.first := by
  constructor
  · exact fun h => ⟨fun older d younger split => h older d (younger ++ [c]) (by simp [split]), h cs c [] rfl⟩
  · rintro ⟨elders, youngest⟩ older d younger split
    rcases List.eq_nil_or_concat younger with rfl | ⟨between, y, rfl⟩
    · obtain ⟨rfl, same⟩ := List.append_inj' split rfl
      obtain rfl := List.singleton_inj.mp same
      exact youngest
    · rw [List.concat_eq_append, ← List.cons_append, ← List.append_assoc] at split
      exact elders older d between (List.append_inj' split rfl).1

/-! ### The completion of a CLAIM or RELEASE (R124, R127, R128) -/

/-- A SWEEPING range's next claim start is reported (R127, R128). -/
theorem claimBody_sweeping {s : State} {x : RangeId} (sweeping : (s.table.entry x).previous.isSome = true) :
    claimBody s x = .claim x (nextClaimStart s x) := by
  rw [claimBody, if_pos sweeping]

theorem completed_of_answerClaim {c : Instr} {s u : State} {r : Record} {x : RangeId}
    (runs : exec c s = .next (answerClaim (takeRecord u .m) r x .ok)) (memory : u.buffer = s.buffer)
    (sweeping : (u.table.entry x).previous.isSome = true) :
    ∃ t, exec c s = .next t ∧ SameMemory s t ∧ t = completed u .m (answerOf r .ok (.claim x (nextClaimStart u x))) :=
  completed_of_exec (claimBody_sweeping sweeping ▸ runs) memory

/-! ### CLAIM (R124, R127) -/

theorem countBad_iff (n : Nat) : countBad n = true ↔ n = 0 ∨ 256 < n := by
  simp [countBad, Config.maxCount]

theorem exec_claim {s : State} {r : Record} {x : RangeId} (taken : Taken s .m r .claim) (good : ¬ ClaimFieldsBad r)
    (index : rangeOf r = some x) :
    (∀ st, firstRefusal (claimChecks s x (claimFirst r) (claimCount r)) = some st →
      exec .claim s = .next (answerClaim (takeRecord s .m) r x st)) ∧
    (firstRefusal (claimChecks s x (claimFirst r) (claimCount r)) = none →
      exec .claim s = .next
        (answerClaim (takeRecord (appendClaim s (newClaim x (claimFirst r) (claimCount r))) .m) r x .ok)) := by
  simp only [ClaimFieldsBad, not_or, Bool.not_eq_false] at good
  obtain ⟨-, reserved, least, most⟩ := good
  have count : ¬ countBad (claimCount r) = true := fun h => ((countBad_iff _).mp h).elim least most
  have checks : claimChecks (takeRecord s .m) x (claimFirst r) (claimCount r) =
    claimChecks s x (claimFirst r) (claimCount r) := rfl
  show (∀ st, _ → execClaim s = _) ∧ (_ → execClaim s = _)
  rw [execClaim, onRecord_taken _ taken, withRange_some index reserved, if_neg count, checks]
  exact ⟨fun st refused => by rw [refused], fun passes => by rw [passes]; rfl⟩

/-- A CLAIM that is ready passes its field check (R124). -/
theorem claimFields_good {s : State} {r : Record} {x : RangeId} {mark : Nat} (ready : ClaimReady s r x mark) :
    ¬ ClaimFieldsBad r := by
  obtain ⟨-, index, reserved, least, most, -⟩ := ready
  rintro (outside | nonzero | zero | above)
  · exact nomatch index.symm.trans outside
  · exact nomatch reserved.symm.trans nonzero
  · omega
  · omega

theorem claimOutside_iff (t : RangeTable) (x : RangeId) (first n : Nat) : claimOutside t x first n = true ↔
    ∃ a, first ≤ a ∧ a < first + n ∧ (t.capacity ≤ a ∨ resolve t a ≠ x) := by
  simp [claimOutside, List.mem_range'_1, and_assoc]

theorem claimChecks_agree (s : State) (r : Record) (x : RangeId) :
    ChecksAgree (claimChecks s x (claimFirst r) (claimCount r)) (claimTable s r x) :=
  .cons ⟨beq_iff_eq, rfl⟩ (.cons ⟨by simp [isSweeping], rfl⟩
    (.cons ⟨by simp [Config.maxClaims, Config.maxRangeClaims], rfl⟩ (.cons ⟨bne_iff_ne, rfl⟩
      (.cons ⟨claimOutside_iff _ _ _ _, rfl⟩ .nil))))

theorem claimTable_clear {s : State} {r : Record} {x : RangeId} {mark : Nat} (ready : ClaimReady s r x mark) :
    ∀ c ∈ claimTable s r x, ¬ c.1 := by
  obtain ⟨-, -, -, -, -, stage, sweeping, -, device, range, starts, inside⟩ := ready
  simp only [claimTable, List.forall_mem_cons]
  refine ⟨stage, Option.isSome_iff_ne_none.mp sweeping, by omega, not_not.mpr starts, ?_, fun c hc => nomatch hc⟩
  rintro ⟨a, low, high, outside⟩
  obtain ⟨below, resolves⟩ := inside a (List.mem_range'_1.mpr ⟨low, high⟩)
  exact outside.elim (not_le.mpr below) (· resolves)

theorem claim_badField {s : State} {r : Record} (taken : Taken s .m r .claim) (bad : ClaimFieldsBad r) :
    AnsweredOnly .claim s .m r .badField .empty := by
  refine answeredOnly_of_exec ?_
  show execClaim s = _
  rw [execClaim, onRecord_taken _ taken]
  by_cases fields : rangeOf r = none ∨ reservedZero r ([4] ++ byteSpan 8 12 ++ byteSpan 14 15) = false
  · rw [withRange_bad fields]
  · have count : countBad (claimCount r) = true := (countBad_iff _).mpr ((or_assoc.mpr bad).resolve_left fields)
    obtain ⟨index, reserved⟩ := not_or.mp fields
    obtain ⟨x, index⟩ := Option.ne_none_iff_exists'.mp index
    rw [withRange_some index (Bool.not_eq_false _ ▸ reserved), if_pos count]

/-- The next claim start once a claim that holds LBAs is the youngest (R126). -/
theorem nextClaimStart_appendClaim {s : State} {x : RangeId} {mark first n : Nat}
    (stands : s.sweep.marks.get x = some mark) (holds : 1 ≤ n) :
    nextClaimStart (appendClaim s (newClaim x first n)) x = lowestAt s.table x (first + n) := by
  have youngest : ((appendClaim s (newClaim x first n)).sweep.claims.get x).getLast? = some (newClaim x first n) := by
    simp [appendClaim, SweepUnit.setClaims, newClaim]
  have marks : (appendClaim s (newClaim x first n)).sweep.marks = s.sweep.marks := rfl
  have past : (newClaim x first n).last + 1 = first + n := Nat.sub_add_cancel (by simp only [newClaim]; omega)
  simp only [nextClaimStart, youngest, marks, stands, past]
  rfl

/-- A CLAIM that is ready keeps the range's claims in order. -/
theorem claimsInOrder_appendClaim {s : State} {x : RangeId} {first n : Nat} (holds : 1 ≤ n)
    (starts : nextClaimStart s x = some first) (order : ClaimsInOrder s x (s.sweep.claims.get x)) :
    ClaimsInOrder s x (s.sweep.claims.get x ++ [newClaim x first n]) :=
  claimsInOrder_concat.mpr ⟨order, holds, (nextClaimStart_eq order.positive).symm.trans starts⟩

/-! ### RELEASE (R124, R128) -/

theorem exec_release {s : State} {r : Record} {x : RangeId} (taken : Taken s .m r .release)
    (index : rangeOf r = some x) (reserved : reservedZero r [4] = true) :
    (∀ st, firstRefusal (releaseChecks s x) = some st → exec .release s = .next (answerClaim (takeRecord s .m) r x st)) ∧
    (firstRefusal (releaseChecks s x) = none → exec .release s = .next (answerClaim
      (takeRecord (s.setSweep (s.sweep.setClaims x (s.sweep.claims.get x).dropLast)) .m) r x .ok)) := by
  have checks : releaseChecks (takeRecord s .m) x = releaseChecks s x := rfl
  show (∀ st, _ → execRelease s = _) ∧ (_ → execRelease s = _)
  rw [execRelease, onRecord_taken _ taken, withRange_some index reserved, checks]
  exact ⟨fun st refused => by rw [refused], fun passes => by rw [passes]; rfl⟩

theorem youngestClaimed_iff (s : State) (x : RangeId) : youngestClaimed s x = true ↔
    ∃ cs c, s.sweep.claims.get x = cs ++ [c] ∧ c.state = .claimed := by
  rw [youngestClaimed]
  rcases List.eq_nil_or_concat (s.sweep.claims.get x) with empty | ⟨cs, c, list⟩
  · simp [empty]
  · simp [list]

theorem releaseChecks_agree (s : State) (x : RangeId) : ChecksAgree (releaseChecks s x) (releaseTable s x) :=
  .cons ⟨beq_iff_eq, rfl⟩ (.cons ⟨by simp [isSweeping], rfl⟩
    (.cons ⟨by rw [Bool.not_eq_true', ← Bool.not_eq_true, youngestClaimed_iff], rfl⟩ .nil))

theorem releaseTable_clear {s : State} {r : Record} {x : RangeId} {cs : List Claim} {c : Claim}
    (ready : ReleaseReady s r x cs c) : ∀ c ∈ releaseTable s x, ¬ c.1 := by
  obtain ⟨-, -, -, stage, sweeping, list, claimed⟩ := ready
  simp only [releaseTable, List.forall_mem_cons]
  exact ⟨stage, Option.isSome_iff_ne_none.mp sweeping, not_not.mpr ⟨cs, c, list, claimed⟩, fun c hc => nomatch hc⟩

/-- The state with the claims of range `x` set to `cs`, those of a RELEASE without the youngest (R128). -/
abbrev withClaims (s : State) (x : RangeId) (cs : List Claim) : State :=
  s.setSweep { s.sweep with claims := put s.sweep.claims x cs }

/-- A claim that began where its elders let it gives its first LBA as the next claim start when it goes (R125, R126). -/
theorem nextClaimStart_released {s : State} {x : RangeId} {cs : List Claim} {c : Claim}
    (order : ClaimsInOrder s x (cs ++ [c])) : nextClaimStart (withClaims s x cs) x = some c.first := by
  obtain ⟨elders, -, starts⟩ := claimsInOrder_concat.mp order
  have left : (withClaims s x cs).sweep.claims.get x = cs := get_put_self ..
  rw [nextClaimStart_eq (left.symm ▸ elders.positive), left, ← starts]
  exact startAfter_congr rfl rfl x cs

/-- Settles O25: the next claim start, the refusals by the tables of the checks, and the two effects, which append and remove
the youngest claim. -/
theorem claimAndRelease : Obligations.ClaimAndRelease := by
  intro s r x
  refine ⟨nextClaimStart_eq, claim_badField, fun st taken good index refuses => ?_,
    fun taken bad => answeredOnly_of_badRange (execRelease.eq_def s) taken bad,
    fun st taken index reserved refuses => ?_, fun mark ready => ?_, fun cs c ready => ?_⟩
  · exact answeredOnly_of_exec
      ((exec_claim taken good index).1 st (firstRefusal_of_refuses (claimChecks_agree s r x) refuses))
  · exact answeredOnly_of_exec
      ((exec_release taken index reserved).1 st (firstRefusal_of_refuses (releaseChecks_agree s x) refuses))
  · have good := claimFields_good ready
    have passes := (claimChecks_agree s r x).pass (claimTable_clear ready)
    obtain ⟨taken, index, -, holds, -, -, sweeping, stands, -, -, starts, -⟩ := ready
    obtain ⟨t, runs, memory, rfl⟩ := completed_of_answerClaim ((exec_claim taken good index).2 passes) rfl sweeping
    rw [nextClaimStart_appendClaim stands holds] at runs memory
    refine ⟨_, runs, memory, fun order => ?_, rfl⟩
    show ClaimsInOrder _ x ((put s.sweep.claims x (s.sweep.claims.get x ++ [newClaim x _ _])).get x)
    rw [get_put_self]
    exact (claimsInOrder_appendClaim holds starts order).of_same rfl rfl
  · have passes := (releaseChecks_agree s x).pass (releaseTable_clear ready)
    obtain ⟨taken, index, reserved, -, sweeping, list, -⟩ := ready
    have runs := (exec_release taken index reserved).2 passes
    rw [list, List.dropLast_concat] at runs
    obtain ⟨t, runs, memory, rfl⟩ := completed_of_answerClaim runs rfl sweeping
    exact ⟨_, runs, memory, rfl, fun order =>
      ⟨(claimsInOrder_concat.mp order).1.of_same rfl rfl, nextClaimStart_released order⟩⟩

end Sys2Proof.Machine
end

section
/-! PROOFS. The Stage Controller (R143 to R158): the inactivity timer and its expiry, entries to RETAIN and the wake that a
held record brings about in the same step, the requests Retain, Wake and Lane Test by stage, a lane's self-test and the end
of its run, the end of a drain. -/

namespace Sys2Proof.Machine

/-! ### A change told, and the end of a step in RETAIN (R147, R150) -/

/-- A command that ends in a state with the same buffer memory. -/
theorem next_of_exec {c : Instr} {s u : State} (runs : exec c s = .next u) (memory : u.buffer = s.buffer) :
    ∃ t, exec c s = .next t ∧ SameMemory s t ∧ t = u := ⟨u, runs, sameMemory_of_buffer memory, rfl⟩

theorem wakeByRecord_buffer (s : State) : (wakeByRecord s).buffer = s.buffer := by
  simp only [wakeByRecord]
  split <;> rfl

/-- A command that enters RETAIN wakes the part in its own step where a record is held, and else leaves it in RETAIN. -/
theorem entered_of_exec {c : Instr} {s entered : State} (runs : exec c s = .next (wakeByRecord entered))
    (retain : entered.stage.stage = .retain) (memory : entered.buffer = s.buffer)
    (queues : RecordHeld entered ↔ RecordHeld s) :
    ∃ t, exec c s = .next t ∧ SameMemory s t ∧
      (RecordHeld s → t = woken entered .wake none) ∧ (¬ RecordHeld s → t = entered) := by
  obtain ⟨wakes, stays⟩ := wakeByRecord_retain retain
  exact ⟨_, runs, sameMemory_of_buffer ((wakeByRecord_buffer _).trans memory), fun held => wakes (queues.mpr held),
    fun free => stays (free ∘ queues.mp)⟩

/-- With empty queues no record is held, whatever quota a reset has left. -/
theorem not_recordHeld_of_queuesEmpty {s : State} (h : QueuesEmpty s) : ¬ RecordHeld s := by
  obtain ⟨i, m⟩ := h
  simp [RecordHeld, i, m]

/-- A held request's completion is posted in its reserved place (R172). -/
theorem heldPosted_reserved {s : State} (c : Completion) (h : s.ports.s.reserved ≠ 0) :
    heldPosted s [c] = s.setPort .s { s.ports.s with
      filled := s.ports.s.filled ++ [c], reserved := s.ports.s.reserved - 1 } :=
  (post_held s c).symm.trans (post_eq s .s c h)

/-- The check that a request with no fields beyond its header makes, passed (R32). -/
theorem decideRecord_header {r : Record} (s accept : State) (fields : reservedZero r [] = true) :
    decideRecord .s r [(!reservedZero r [], .badField)] s accept = accept :=
  decideRecord_accept (by simp [firstRefusal_cons, fields])

/-! ### The inactivity timer (R151, R153) -/

theorem timerRuns_iff (s : State) : timerRuns s = true ↔ TimerOn s := by
  cases media : s.stage.mediaCounts <;> simp [timerRuns, anyLaneBusy, TimerOn, and_assoc, media]

theorem exec_inactivityTick_on {s : State} (on : TimerOn s) : exec .inactivityTick s = .next (timerSecond s) := by
  show execInactivityTick s = _
  rw [execInactivityTick, if_pos ((timerRuns_iff s).mpr on)]

theorem exec_inactivityTick_off {s : State} (off : ¬ TimerOn s) : exec .inactivityTick s = .next s := by
  show execInactivityTick s = _
  rw [execInactivityTick, if_neg (fun runs => off ((timerRuns_iff s).mp runs))]

/-- The last second is the expiry, by either command (log entry 4). -/
theorem exec_lastSecond {s : State} {c : Instr} (hc : c = .inactivityTick ∨ c = .inactivityExpiry) (on : TimerOn s)
    (last : s.stage.remaining ≤ 1) : exec c s = .next (expireTimer s) := by
  rcases hc with rfl | rfl
  · rw [exec_inactivityTick_on on, timerSecond, if_pos last]
  · show execInactivityExpiry s = _
    rw [execInactivityExpiry, if_pos ⟨(timerRuns_iff s).mpr on, last⟩]

/-- An expiry with both tables empty enters RETAIN with cause INACTIVITY (R153). -/
theorem expireTimer_retains {s : State} (empty : NoJobs s) : expireTimer s =
    wakeByRecord (retained { s with stage := { s.stage with remaining := 0 } } .inactivity) :=
  if_pos (Bool.and_eq_true_iff.mpr empty)

/-- An expiry with a job in a table begins a drain with cause INACTIVITY (R153). -/
theorem expireTimer_drains {s : State} (jobs : ¬ NoJobs s) : expireTimer s = { s with
    stage := { s.stage with
      remaining := 0, stage := .draining, drainCause := some .inactivity, waitingRetain := none } } :=
  if_neg (fun empty => jobs (Bool.and_eq_true_iff.mp empty))

/-- Settles O40: a second before the last, the last one with and without a job, and a second of a timer that stands. -/
theorem inactivitySecondAndExpiry : Obligations.InactivitySecondAndExpiry := by
  intro s
  refine ⟨fun on more => ?_, fun c hc on last => ?_, exec_inactivityTick_off⟩
  · have runs := exec_inactivityTick_on on
    rw [timerSecond, if_neg (by omega)] at runs
    exact next_of_exec runs rfl
  · have runs := exec_lastSecond hc on last
    obtain ⟨-, -, -, iEmpty, -⟩ := on
    refine ⟨fun mEmpty => ?_, fun mJobs => ?_⟩
    · rw [expireTimer_retains ⟨iEmpty, mEmpty⟩] at runs
      exact entered_of_exec runs rfl rfl Iff.rfl
    · rw [expireTimer_drains (fun empty => Bool.false_ne_true (mJobs.symm.trans empty.2))] at runs
      exact next_of_exec runs rfl

/-! ### INACTIVITY_SET (R154) -/

theorem inactivityFields_good {r : Record} (delay : recordField r 4 2 ≤ 3600) (media : recordField r 6 1 ≤ 1)
    (fields : reservedZero r [4, 5, 6] = true) :
    inactivityFields r = some (recordField r 4 2, recordField r 6 1 == 1) := if_pos ⟨delay, media, fields⟩

theorem inactivityFields_bad {r : Record}
    (bad : 3600 < recordField r 4 2 ∨ 1 < recordField r 6 1 ∨ reservedZero r [4, 5, 6] = false) :
    inactivityFields r = none := by
  refine if_neg ?_
  rintro ⟨delay, media, fields⟩
  rcases bad with long | other | nonzero
  · exact absurd delay (Nat.not_le.mpr long)
  · exact absurd media (Nat.not_le.mpr other)
  · exact Bool.false_ne_true (nonzero.symm.trans fields)

/-- INACTIVITY_SET with good fields sets the delay, the flag and the remaining (R154). -/
theorem exec_inactivitySet {s : State} {r : Record} {delay : Nat} {media : Bool} (taken : Taken s .s r .inactivitySet)
    (fields : inactivityFields r = some (delay, media)) :
    exec .inactivitySet s = .next (answerRecord (takeRecord (s.setStage { s.stage with
      delay := delay, mediaCounts := media, remaining := delay }) .s) .s r .ok .empty) := by
  show execInactivitySet s = _
  rw [execInactivitySet, onRecord_taken _ taken, fields]
  rfl

/-- INACTIVITY_SET with a field that is not good is refused BAD_FIELD (R154). -/
theorem exec_inactivitySet_bad {s : State} {r : Record} (taken : Taken s .s r .inactivitySet)
    (fields : inactivityFields r = none) :
    exec .inactivitySet s = .next (answerRecord (takeRecord s .s) .s r .badField .empty) := by
  show execInactivitySet s = _
  rw [execInactivitySet, onRecord_taken _ taken, fields]

/-- Settles O41: the effect of good fields, delay 0 among them, and the refusal of the others. -/
theorem inactivitySetRestartsTimer : Obligations.InactivitySetRestartsTimer := by
  intro s r taken
  refine ⟨fun delay media fields => ?_, fun bad =>
    answeredOnly_of_exec (exec_inactivitySet_bad taken (inactivityFields_bad bad))⟩
  have runs := exec_inactivitySet taken (inactivityFields_good delay media fields)
  obtain ⟨t, ht, memory, rfl⟩ := completed_of_exec runs rfl
  exact ⟨_, ht, memory, fun never => exec_inactivityTick_off fun ⟨_, runsOn, _⟩ => runsOn never, rfl⟩

/-! ### RETAIN (R148, R150) -/

theorem exec_retain {s : State} {r : Record} (h : HeaderTaken s r .retain) :
    exec .retain s = .next (retainByStage r (takeRecord s .s)) := by
  show execRetain s = _
  rw [execRetain, onRecord_taken _ h.1, decideRecord_header _ _ h.2]

/-- RETAIN entered at once: the entry, its completion, and the wake by a held record. -/
theorem retainAtOnce_takeRecord (s : State) (r : Record) : retainAtOnce (takeRecord s .s) r =
    wakeByRecord (completed (retained s .request) .s (answerOf r .ok .empty)) :=
  congrArg wakeByRecord (answerRecord_takeRecord (retained s .request) .s r .ok .empty)

theorem anyInService_iff (s : State) : anyInService s = true ↔ ∃ l : LaneId, (s.lanes.get l).inService = true := by
  simp [anyInService]

/-- A Retain request in RUN (R148): RETAIN at once with no job; with one a drain, or BUSY where no lane could end it. -/
theorem retainByStage_run {s : State} {r : Record} (run : s.stage.stage = .run) :
    (NoJobs s → retainByStage r s = retainAtOnce s r) ∧
    (¬ NoJobs s → anyInService s = true → retainByStage r s = beginDrain s r) ∧
    (¬ NoJobs s → ¬ anyInService s = true → retainByStage r s = answerRecord s .s r .busy .empty) := by
  have tables : (tableEmpty s .i && tableEmpty s .m) = true ↔ NoJobs s := Bool.and_eq_true_iff
  simp only [retainByStage, run, tables]
  exact ⟨fun h => if_pos h, fun h service => (if_neg h).trans (if_pos service),
    fun h out => (if_neg h).trans (if_neg out)⟩

/-- Settles O42: the Retain request by stage, RUN by its jobs and lanes. -/
theorem retainRequestByStage : Obligations.RetainRequestByStage := by
  intro s r taken
  have runs := exec_retain taken
  refine ⟨fun idle => ?_, fun run jobs service => ?_, fun retain => ?_, fun busy => ?_⟩
  · have atOnce : retainByStage r (takeRecord s .s) = retainAtOnce (takeRecord s .s) r := by
      rcases idle with ⟨run, empty⟩ | failed
      · exact (retainByStage_run (s := takeRecord s .s) run).1 empty
      · simp only [retainByStage, takeRecord_stage, failed]
    rw [atOnce, retainAtOnce_takeRecord] at runs
    exact entered_of_exec runs rfl rfl Iff.rfl
  · obtain ⟨-, drains, -⟩ := retainByStage_run (s := takeRecord s .s) (r := r) run
    rw [drains jobs ((anyInService_iff _).mpr service)] at runs
    exact next_of_exec runs rfl
  · simp only [retainByStage, takeRecord_stage, retain] at runs
    exact answeredOnly_of_exec runs
  · refine answeredOnly_of_exec (runs.trans (congrArg _ ?_))
    rcases busy with waking | draining | ⟨run, jobs, out⟩
    · simp only [retainByStage, takeRecord_stage, waking]
    · simp only [retainByStage, takeRecord_stage, draining]
    · obtain ⟨-, -, refused⟩ := retainByStage_run (s := takeRecord s .s) (r := r) run
      refine refused jobs fun service => ?_
      obtain ⟨l, hl⟩ := (anyInService_iff _).mp service
      exact Bool.false_ne_true ((out l).symm.trans hl)

/-! ### WAKE and LANE_TEST (R147, R155, R156) -/

theorem exec_wake {s : State} {r : Record} (h : HeaderTaken s r .wake) :
    exec .wake s = .next (wakeByStage r (takeRecord s .s)) := by
  show execWake s = _
  rw [execWake, onRecord_taken _ h.1, decideRecord_header _ _ h.2]

theorem exec_laneTest {s : State} {r : Record} (h : HeaderTaken s r .laneTest) :
    exec .laneTest s = .next (laneTestByStage r (takeRecord s .s)) := by
  show execLaneTest s = _
  rw [execLaneTest, onRecord_taken _ h.1, decideRecord_header _ _ h.2]

/-! ### An Engine Reset and a test run (R89, R164 row 7) -/

theorem underTest_iff (s : State) (l : LaneId) :
    underTest s l = true ↔ ∃ run, s.stage.testRun = some run ∧ run.under.get l = true := by
  unfold underTest
  split <;> simp_all

/-- The taking of a reset leaves a lane's health, and holds beside the lanes already held those that abandon a sector
while they wait for their test (R88, R89). -/
theorem laneLeft_held (s : State) (l : LaneId) :
    (laneLeft s l).inService = (s.lanes.get l).inService ∧
    ((laneLeft s l).testHold = true ↔ (s.lanes.get l).testHold = true ∨
      ∃ w run, (s.lanes.get l).work = some w ∧ w.phase ≠ .writing ∧
        s.stage.testRun = some run ∧ run.under.get l = true) := by
  rcases hw : (s.lanes.get l).work with _ | w
  · simp [laneLeft, hw]
  · by_cases writing : w.phase = .writing
    · simp [laneLeft, hw, writing]
    · simp [laneLeft, hw, writing, laneFreed, underTest_iff]

/-- An Engine Reset taken outside a drain keeps the test run (R164 row 7). -/
theorem keepsTestRun_of_engineReset {s : State} {r : Record} (taken : HeaderTaken s r .engineReset)
    (stage : s.stage.stage ≠ .draining) :
    ∃ t, exec .engineReset s = .next t ∧ SameMemory s t ∧ KeepsTestRun s t := by
  obtain ⟨kept, lanes⟩ := takeReset_stage_lanes .engine r (s := takeRecord s .s) stage
  refine ⟨_, exec_engineReset taken, sameMemory_of_buffer (takeReset_buffer ..), kept, fun l => ?_⟩
  rw [lanes]
  exact laneLeft_held (takeRecord s .s) l

/-- Behind a Lane Test an Engine Reset is taken if the free value has it pass (log entry 32). -/
theorem engineReset_taken_of_passes {s : State} {r : Record} (h : ResetBehindLaneTest s r)
    (passes : Config.resetPassesLaneTest = true) : HeaderTaken s r .engineReset := by
  obtain ⟨reset, retain, -, place, oldest, kind, fields⟩ := h
  refine ⟨⟨(portPermits_iff s .s).mpr ?_, place, oldest, kind⟩, fields⟩
  rintro (held | held | ⟨-, other | stays⟩)
  · exact held reset
  · exact held retain
  · exact other r oldest kind
  · exact Bool.false_ne_true (stays.symm.trans passes)

/-- Settles O43: Wake and Lane Test stage by stage, and the Engine Reset that finds a test run. -/
theorem wakeAndLaneTestByStage : Obligations.WakeAndLaneTestByStage := by
  intro s r
  refine ⟨fun taken => ?wake, fun taken => ?laneTest,
    fun taken waking => keepsTestRun_of_engineReset taken (by simp [waking]),
    fun behind => ⟨fun passes stage => ?_, fun stays => ?_⟩⟩
  case wake =>
    have runs := exec_wake taken
    simp only [wakeByStage, takeRecord_stage] at runs
    refine ⟨fun retain => ?_, fun up => answeredOnly_of_exec ?_, fun draining => answeredOnly_of_exec ?_⟩
    · rw [retain] at runs
      rw [← answerRecord_takeRecord]
      exact next_of_exec runs (answerRecord_buffer ..)
    · rcases up with waking | run | failed
      · rwa [waking] at runs
      · rwa [run] at runs
      · rwa [failed] at runs
    · rwa [draining] at runs
  case laneTest =>
    have runs := exec_laneTest taken
    simp only [laneTestByStage, takeRecord_stage] at runs
    refine ⟨fun retain => ?_, fun up => ?_, fun busy => answeredOnly_of_exec ?_⟩
    · rw [retain] at runs
      exact next_of_exec runs rfl
    · have begins : exec .laneTest s = .next (beginLaneTest (takeRecord s .s) (recordTag r)) := by
        rcases up with run | failed
        · rwa [run] at runs
        · rwa [failed] at runs
      exact next_of_exec begins rfl
    · rcases busy with waking | draining
      · rwa [waking] at runs
      · rwa [draining] at runs
  · exact keepsTestRun_of_engineReset (engineReset_taken_of_passes behind passes) stage
  · obtain ⟨-, -, laneTest, -⟩ := behind
    have held : PortHeld s .s := .inr (.inr ⟨laneTest, .inr stays⟩)
    show execEngineReset s = _
    rw [execEngineReset, onRecord_nothing _ _ (.inl held)]

/-! ### The end of a lane's test and of a run (R145, R146, R156) -/

theorem laneSetNonempty_iff (v : Vector Bool 4) : laneSetNonempty v = true ↔ ∃ l, v.get l = true := by
  simp [laneSetNonempty]

/-- The Stage Controller once a run has ended: the stage by the run's result, the remaining at the full delay on an entry to
RUN, the record of the run (R145, R146, R152, R156). -/
def StageController.runEnded (c : StageController) (run : TestRun) : StageController :=
  { c with
    stage := stageAfterRun c.stage run.passed, testRun := none, waitingLaneTest := none,
    remaining := if (stageAfterRun c.stage run.passed == .run && c.stage != .run) = true then c.delay else c.remaining,
    selfTest := { runs := c.selfTest.runs + 1, cause := some run.cause, passed := run.passed } }

/-- From WAKING or FAILED a run with a lane passed leads to RUN, the timer at the full delay, and one without to FAILED; from
another stage the stage and the remaining stay. -/
theorem runEnded_stage (c : StageController) (run : TestRun) :
    (c.stage = .waking ∨ c.stage = .failed → (∃ l, run.passed.get l = true) →
      (c.runEnded run).stage = .run ∧ (c.runEnded run).remaining = c.delay) ∧
    (c.stage = .waking ∨ c.stage = .failed → ¬ (∃ l, run.passed.get l = true) →
      (c.runEnded run).stage = .failed ∧ (c.runEnded run).remaining = c.remaining) ∧
    (¬ (c.stage = .waking ∨ c.stage = .failed) →
      (c.runEnded run).stage = c.stage ∧ (c.runEnded run).remaining = c.remaining) := by
  simp only [StageController.runEnded, ← laneSetNonempty_iff]
  refine ⟨fun up passed => ?_, fun up failed => ?_, fun other => ?_⟩
  · rcases up with h | h <;> simp [h, stageAfterRun, passed]
  · rcases up with h | h <;> simp [h, stageAfterRun, failed]
  · cases h : c.stage <;> simp [h, stageAfterRun] at other ⊢

/-- The end of a run: the record and the stage, SELF_TEST pending, a waiting Lane Test completed (R146, R155). -/
theorem endTestRun_eq (s : State) (run : TestRun) : endTestRun s run =
    heldPosted (raiseSelfTest (s.setStage (s.stage.runEnded run))) (s.stage.waitingLaneTest.toList.map (fun tag =>
      { kind := 0x55, status := .ok, tag := tag, body := .laneTest run.passed (s.stage.selfTest.runs + 1) })) := by
  rcases waiting : s.stage.waitingLaneTest with _ | tag <;> simp only [endTestRun, waiting]
  · exact (heldPosted_nil _).symm
  · exact post_held _ _

/-- The state in which a lane under test has its health, its hold cleared, and is out of the run (R88, R89, R146). -/
def laneTested (s : State) (l : LaneId) (run : TestRun) (passed : Bool) : State :=
  (s.setLane l { s.lanes.get l with inService := passed, testHold := false }).setStage
    { s.stage with testRun := some (run.lane l passed) }

/-- A lane's test: the run goes on while another lane is under test, and else ends. -/
theorem exec_laneSelfTestEnd {s : State} {l : LaneId} {run : TestRun} (encOk decOk : Bool)
    (tests : s.stage.testRun = some run) (under : run.under.get l = true) (hold : (s.lanes.get l).testHold = true) :
    let tested := laneTested s l run (encOk && decOk)
    ((∃ l', l' ≠ l ∧ run.under.get l' = true) → exec (.laneSelfTestEnd l encOk decOk) s = .next tested) ∧
    ((∀ l', l' ≠ l → run.under.get l' = false) →
      exec (.laneSelfTestEnd l encOk decOk) s = .next (endTestRun tested (run.lane l (encOk && decOk)))) := by
  have runs : exec (.laneSelfTestEnd l encOk decOk) s = .next (endLaneTest s l run (encOk && decOk)) := by
    show execLaneSelfTestEnd l encOk decOk s = _
    simp only [execLaneSelfTestEnd, tests]
    exact if_pos ⟨under, hold⟩
  have others : laneSetNonempty (run.lane l (encOk && decOk)).under = true ↔
      ∃ l', l' ≠ l ∧ run.under.get l' = true := by
    simp [laneSetNonempty_iff, TestRun.lane, get_put]
  refine ⟨fun more => runs.trans (congrArg _ (if_pos (others.mpr more))),
    fun last => runs.trans (congrArg _ (if_neg fun more => ?_))⟩
  obtain ⟨l', other, still⟩ := others.mp more
  exact Bool.false_ne_true ((last l' other).symm.trans still)

/-- Settles O44: a lane's test with others to come, and the last one, whose run ends. -/
theorem laneSelfTestGivesHealth : Obligations.LaneSelfTestGivesHealth := by
  intro s l encOk decOk run tests under hold ok lanes run'
  obtain ⟨goesOn, ends⟩ := exec_laneSelfTestEnd encOk decOk tests under hold
  refine ⟨fun more => next_of_exec (goesOn more) rfl, fun last => ?_⟩
  have runs := ends last
  rw [endTestRun_eq] at runs
  obtain ⟨passes, fails, stays⟩ := runEnded_stage (laneTested s l run ok).stage run'
  refine ⟨_, runs, sameMemory_of_buffer rfl, rfl, rfl, rfl, rfl, rfl, passes, fails, stays, fun free => ?_,
    fun tag waiting place => ?_, rfl⟩
  · have free : (laneTested s l run (encOk && decOk)).stage.waitingLaneTest = none := free
    rw [free, Option.toList_none, List.map_nil, heldPosted_nil]
    rfl
  · have waiting : (laneTested s l run (encOk && decOk)).stage.waitingLaneTest = some tag := waiting
    rw [waiting, Option.toList_some, List.map_singleton]
    refine (congrArg (fun t => t.ports.s) (heldPosted_reserved _ ?_)).trans ?_
    · exact place
    · rfl

/-! ### DRAIN_END (R149, R150) -/

theorem endDrain_buffer (s : State) : (endDrain s).buffer = s.buffer := by
  simp only [endDrain]
  split
  · rw [wakeByRecord_buffer]
    split
    · exact post_buffer ..
    · rfl
  · rfl

/-- Settles O45: what the end of a drain does, and the state written out where no record waits. -/
theorem drainEndEntersRetain : Obligations.DrainEndEntersRetain := by
  have memory : ∀ s, SameMemory s (endDrain s) := fun s => sameMemory_of_buffer (endDrain_buffer s)
  refine ⟨fun s => ⟨_, rfl, memory s, endDrain_done s⟩, fun s cause draining empty why queues => ?_⟩
  obtain ⟨-, done⟩ := endDrain_done s
  have entered := (done cause draining empty why).2 (not_recordHeld_of_queuesEmpty queues)
  refine ⟨fun free => ⟨_, rfl, memory s, ?_⟩, fun tag waiting place => ⟨_, rfl, memory s, ?_⟩⟩
  · rw [entered, free, Option.toList_none, List.map_nil, heldPosted_nil]
  · rw [entered, waiting, Option.toList_some, List.map_singleton]
    exact heldPosted_reserved _ place

end Sys2Proof.Machine
end

section
/-! PROOFS. Admission, the ends of the resets and the values at power-on (R159 to R168): FORMAT_SET and the admission
requests as checks and one effect, a quota record's answer and what follows it, the end of a reset, the power-on values and
the laws that hold of them. -/

namespace Sys2Proof.Machine

/-! ### FORMAT_SET and the admission requests (R159, R160) -/

/-- The fields of a FORMAT_SET are refused exactly where the first condition of its table holds (R159). -/
theorem formatFields_eq_none {r : Record} : formatFields r = none ↔
    recordField r 4 6 = 0 ∨ 1099511627776 < recordField r 4 6 ∨ unitOfBytes (recordField r 10 2) = none ∨
      reservedZero r (byteSpan 4 11) = false := by
  simp only [formatFields, Config.maxCapacity, gt_iff_lt]
  split
  · next bad => exact iff_of_true rfl (by tauto)
  · next good =>
    rcases unit : unitOfBytes (recordField r 10 2) with _ | u
    · simp
    · simp only [reduceCtorEq, false_or, false_iff]
      exact good

/-- Fields that are not refused are the capacity and the data unit. -/
theorem formatFields_good {r : Record} {u : DataUnit} (low : 1 ≤ recordField r 4 6)
    (high : recordField r 4 6 ≤ 1099511627776) (unit : unitOfBytes (recordField r 10 2) = some u)
    (fields : reservedZero r (byteSpan 4 11) = true) : formatFields r = some (recordField r 4 6, u) := by
  have good : ¬ (recordField r 4 6 = 0 ∨ recordField r 4 6 > Config.maxCapacity ∨
      reservedZero r (byteSpan 4 11) = false) := by
    simp only [Config.maxCapacity, fields, reduceCtorEq, or_false]
    omega
  rw [formatFields, if_neg good, unit]

theorem formatFields_capacity {r : Record} {capacity : Nat} {u : DataUnit}
    (fields : formatFields r = some (capacity, u)) : capacity = recordField r 4 6 := by
  simp only [formatFields] at fields
  split at fields
  · cases fields
  · split at fields <;> cases fields
    rfl

/-- The checks that FORMAT_SET makes of a record whose fields are good (R159). -/
def formatChecks (s : State) (capacity : Nat) : List (Bool × Status) :=
  [(s.table.admission == .opened, .notSealed), (anySweeping s.table, .sweepActive),
   (!(tableEmpty s .i) || !(tableEmpty s .m), .busy), (rangePastCapacity s.table capacity, .rangeOverlap)]

theorem exec_formatSet {s : State} {r : Record} {capacity : Nat} {u : DataUnit} (taken : Taken s .s r .formatSet)
    (fields : formatFields r = some (capacity, u)) :
    exec .formatSet s = .next (decideRecord .s r (formatChecks s capacity) (takeRecord s .s)
      (answerRecord (takeRecord { s with table := { s.table with capacity := capacity, dataUnit := u } } .s)
        .s r .ok .empty)) := by
  show execFormatSet s = _
  rw [execFormatSet, onRecord_taken _ taken, fields]
  rfl

theorem exec_formatSet_bad {s : State} {r : Record} (taken : Taken s .s r .formatSet) (fields : formatFields r = none) :
    exec .formatSet s = .next (answerRecord (takeRecord s .s) .s r .badField .empty) := by
  show execFormatSet s = _
  rw [execFormatSet, onRecord_taken _ taken, fields]

theorem rangePastCapacity_iff (t : RangeTable) (n : Nat) : rangePastCapacity t n = true ↔
    ∃ q : RangeId, q ≠ 0 ∧ (t.entry q).present = true ∧ n ≤ (t.entry q).last := by
  simp only [rangePastCapacity, List.any_eq_true, mem_boundedRanges, Bool.and_eq_true, decide_eq_true_eq, ge_iff_le]

/-- The checks after the fields are those of the table after its first row (R159). -/
theorem formatChecks_agree (s : State) (r : Record) :
    ChecksAgree (formatChecks s (recordField r 4 6)) (formatSetTable s r).tail :=
  .cons ⟨beq_iff_eq, rfl⟩ (.cons ⟨anySweeping_iff _, rfl⟩ (.cons ⟨by simp [NoJobs, imp_iff_not_or], rfl⟩
    (.cons ⟨rangePastCapacity_iff _ _, rfl⟩ .nil)))

/-- A FORMAT_SET is refused as its table says (R159). -/
theorem formatSet_refused {s : State} {r : Record} {st : Status} (taken : Taken s .s r .formatSet)
    (refused : Refuses (formatSetTable s r) st) : AnsweredOnly .formatSet s .s r st .empty := by
  rcases fields : formatFields r with _ | ⟨capacity, u⟩
  · cases refused.first (formatFields_eq_none.mp fields)
    exact answeredOnly_of_exec (exec_formatSet_bad taken fields)
  · have good : ¬ formatFields r = none := fun refuses => nomatch fields.symm.trans refuses
    obtain rfl := formatFields_capacity fields
    exact answeredOnly_of_checks (exec_formatSet taken fields) (formatChecks_agree s r)
      (refused.rest (good ∘ formatFields_eq_none.mpr))

/-- The opening of the drive makes one check beyond the header's (R160). -/
theorem exec_admitRequest {s : State} {r : Record} (taken : HeaderTaken s r .admitRequest) :
    exec .admitRequest s = .next (decideRecord .s r
      [(s.table.admission == .sealed && s.table.capacity == 0, .formatUnset)] (takeRecord s .s)
      (answerRecord (takeRecord { s with table := { s.table with admission := .opened } } .s) .s r .ok .empty)) := by
  obtain ⟨taken, fields⟩ := taken
  show execAdmitRequest s = _
  rw [execAdmitRequest, onRecord_taken _ taken, fields]
  rfl

theorem exec_sealRequest {s : State} {r : Record} (taken : HeaderTaken s r .sealRequest) :
    exec .sealRequest s = .next
      (answerRecord (takeRecord { s with table := { s.table with admission := .sealed } } .s) .s r .ok .empty) := by
  show execSealRequest s = _
  rw [execSealRequest, onRecord_taken _ taken.1, decideRecord_header _ _ taken.2]
  rfl

/-- Settles O46: each command is its checks and its one effect. -/
theorem formatAdmitSeal : Obligations.FormatAdmitSeal := by
  intro s r
  refine ⟨fun u taken low high unit fields sealedNow quiet idle below => ?_, fun st => formatSet_refused,
    fun taken ready => ?_, fun taken sealedNow unset => ?_, fun taken => completed_of_exec (exec_sealRequest taken) rfl⟩
  · have clear : ∀ c ∈ (formatSetTable s r).tail, ¬ c.1 := by
      have nonePast : ¬ ∃ q : RangeId, q ≠ 0 ∧ (s.table.entry q).present = true ∧
          recordField r 4 6 ≤ (s.table.entry q).last :=
        fun ⟨q, bounded, present, past⟩ => absurd past (Nat.not_le.mpr (below q bounded present))
      simp only [formatSetTable, List.tail_cons, List.forall_mem_cons]
      exact ⟨by simp [sealedNow], not_not.mpr quiet, not_not.mpr idle, nonePast, fun c hc => nomatch hc⟩
    refine completed_of_exec ((exec_formatSet taken (formatFields_good low high unit fields)).trans ?_) rfl
    rw [decideRecord_accept ((formatChecks_agree s r).pass clear)]
  · refine completed_of_exec ((exec_admitRequest taken).trans ?_) rfl
    rw [decideRecord_accept]
    rcases ready with opened | capacity
    · simp [firstRefusal_cons, opened]
    · simp [firstRefusal_cons, capacity]
  · refine answeredOnly_of_exec ((exec_admitRequest taken).trans ?_)
    simp [decideRecord, firstRefusal_cons, sealedNow, unset]

/-! ### A quota record answered (R162) -/

/-- A quota record's answer changes nothing outside the Port Block, and there the reset's counts beside the side's port. -/
theorem answerQuota_frame (s : State) (side : Side) (run : ResetRun) (r : Record) :
    let t := answerQuota s side run r
    t.jobs = s.jobs ∧ t.lanes = s.lanes ∧ t.bufferPort = s.bufferPort ∧ t.keys = s.keys ∧ t.stage = s.stage ∧
      t.buffer = s.buffer ∧ t.ports.reset = some (run.answered side) := by
  cases side <;> exact ⟨rfl, rfl, rfl, rfl, rfl, rfl, rfl⟩

/-- The answer in the terms of the statement: the record has left its queue and its completion is the youngest. -/
theorem answerQuota_eq {s : State} {side : Side} {run : ResetRun} {r : Record} {rest : List Record}
    (oldest : (s.port (sidePort side)).requests = r :: rest) :
    let answered := s.setPort (sidePort side)
      { requests := rest,
        filled := (s.port (sidePort side)).filled ++ [answerOf r run.kind.quotaStatus .empty],
        reserved := (s.port (sidePort side)).reserved }
    answerQuota s side run r = { answered with ports := { answered.ports with reset := some (run.answered side) } } := by
  simp only [answerQuota, oldest, List.tail_cons]
  cases side <;> rfl

theorem noJobs_congr {s t : State} (jobs : t.jobs = s.jobs) : NoJobs t ↔ NoJobs s := by
  simp only [NoJobs, tableEmpty, jobAt, jobs]

/-- What is in flight is told from the job tables, the lanes and the Buffer Port. -/
theorem nothingInFlight_congr {s t : State} (run : ResetRun) (jobs : t.jobs = s.jobs) (lanes : t.lanes = s.lanes)
    (bufferPort : t.bufferPort = s.bufferPort) : NothingInFlight t run ↔ NothingInFlight s run := by
  simp only [NothingInFlight, noJobs_congr jobs, lanes, bufferPort]

theorem exec_abortQuotaAnswer {s : State} {side : Side} {run : ResetRun} {r : Record} {rest : List Record}
    (resets : s.ports.reset = some run) (oldest : (s.port (sidePort side)).requests = r :: rest)
    (place : (s.port (sidePort side)).filled.length + (s.port (sidePort side)).reserved < 32)
    (quota : quotaOf s side ≠ 0) : exec (.abortQuotaAnswer side) s = .next (settle (answerQuota s side run r)) := by
  show execAbortQuotaAnswer side s = _
  simp only [execAbortQuotaAnswer, resets, oldest]
  exact if_pos ⟨quota, decide_eq_true place⟩

/-- What follows an answered quota record where no Key Clear is released and no drain ends: the end of the reset alone. -/
theorem resetDone_answerQuota {s : State} (side : Side) (run : ResetRun) (r : Record) (clears : NoReleasedClear s)
    (drain : s.stage.stage ≠ .draining ∨ ¬ NoJobs s) :
    ResetDone (answerQuota s side run r) (settle (answerQuota s side run r)) := by
  obtain ⟨jobs, -, -, keys, stage, -, -⟩ := answerQuota_frame s side run r
  refine follows_reset (settle_follows _) (by rwa [NoReleasedClear, keys]) ?_
  rwa [stage, noJobs_congr jobs]

/-- Settles O8: the answer, what follows it, and the two cases of a reset that goes on and one that ends. -/
theorem quotaRecordAnsweredUnchecked : Obligations.QuotaRecordAnsweredUnchecked := by
  intro side run r rest s resets oldest place quota answered run' after
  have quota : quotaOf s side ≠ 0 := by cases side <;> simpa [quotaOf, resets] using quota
  have counts : run' = run.answered side := by cases side <;> rfl
  have kind : run'.kind = run.kind := by cases side <;> rfl
  have answer : after = answerQuota s side run r := by
    rw [answerQuota_eq oldest, ← counts]
    rfl
  obtain ⟨jobs, lanes, bufferPort, -, -, buffer, reset⟩ := answerQuota_frame s side run r
  have flight := nothingInFlight_congr run' jobs lanes bufferPort
  have ends := resetDone_answerQuota (s := s) side run r
  have runs := exec_abortQuotaAnswer resets oldest place quota
  rw [← counts] at reset
  rw [← answer] at runs reset flight ends buffer
  refine ⟨_, runs, sameMemory_of_buffer ((settle_buffer _).trans buffer), settle_follows _,
    fun clears drain goesOn => (ends clears drain).1 fun run'' h => ?_, fun clears stage quiet _ => ?_⟩
  · cases reset.symm.trans h
    rwa [flight]
  · have ended := (ends clears (.inl stage)).2 run' reset (flight.mpr quiet)
    rw [kind] at ended
    exact ended

/-! ### The end of a reset (R163, R166) -/

/-- A reset that ends posts its completion with its counts and leaves the S-port free (R163). -/
theorem completeReset_eq (s : State) (run : ResetRun) : completeReset (resetPortAndArbiter s) run = resetEnded s run := by
  rw [completeReset, post_held]
  cases kind : run.kind <;> simp [resetEnded, resetPortAndArbiter, heldCompletion, ResetKind.kind, Kind.code, kind]

theorem endEngineReset_ends {s : State} {run : ResetRun} (resets : s.ports.reset = some run) (quiet : NothingInFlight s run)
    (kind : run.kind = .engine) : endEngineReset s = resetEnded s run := by
  simp only [endEngineReset, resets]
  rw [if_pos ⟨kind, (resetClear_iff s run).mpr quiet⟩, completeReset_eq]

theorem endZeroize_ends {s : State} {run : ResetRun} (resets : s.ports.reset = some run) (quiet : NothingInFlight s run)
    (kind : run.kind = .zeroize) : endZeroize s = resetEnded (zeroized s) run := by
  simp only [endZeroize, resets]
  rw [if_pos ⟨kind, (resetClear_iff s run).mpr quiet⟩, completeReset_eq]
  rfl

/-- Settles O48: the end of each of the two resets. -/
theorem resetEndCompletes : Obligations.ResetEndCompletes := fun _ _ resets quiet _ =>
  ⟨fun kind => next_of_exec (congrArg _ (endEngineReset_ends resets quiet kind)) rfl,
    fun kind => next_of_exec (congrArg _ (endZeroize_ends resets quiet kind)) rfl⟩

/-! ### The power-on values (R168) -/

/-- At power-on no slot holds a job. -/
theorem jobAt_of_reset {t : State} (jobs : t.jobs = State.reset.jobs) (side : Side) (k : Nat) : jobAt t side k = none := by
  have empty : ∀ n, ((Vector.replicate n (none : Option Job))[k]?).join = none := fun n => by
    rw [Vector.getElem?_replicate]
    split <;> rfl
  cases side <;> simp only [jobAt, jobs]
  · exact empty 32
  · exact empty 16

/-- The power-on values stand in every state that differs from the reset state in buffer memory, draws and waiting
commands alone (log entry 17). -/
theorem powerOnValues_reset (m : Memory) (d : Nat) (cs : List Instr) :
    PowerOnValues { State.reset with buffer := m, draws := d, pending := cs } := by
  have absent : ∀ r : RangeId, r ≠ 0 → (rangesReset.get r).present = false := fun r bounded =>
    Bool.eq_false_iff.mpr fun present => bounded ((get_rangesReset_fields r).2.2 present)
  have cell := fun c : CellId => Vector.get_replicate 64 ({ filled := false, bits := 0 } : KeyCell) c
  have lane := fun l : LaneId => Vector.get_replicate 4 ({ inService := false, work := none, testHold := true } : Lane) l
  exact
    -- the ports and their interrupt lines, no reset, no event pending
    ⟨fun p => by cases p <;> exact ⟨rfl, rfl, rfl⟩, fun p => by cases p <;> rfl, rfl,
    fun r => ⟨Vector.get_replicate .., Vector.get_replicate ..⟩, rfl, rfl, rfl,
    -- the Range Table
    rfl, rfl, rfl, rfl, rfl, rfl, rfl, absent, rfl, rfl, rfl,
    -- the Key Store
    fun c => ⟨congrArg KeyCell.filled (cell c), congrArg KeyCell.bits (cell c)⟩, fun g => Vector.get_replicate .., rfl,
    -- jobs, arbiter, lanes, Buffer Port
    jobAt_of_reset rfl, rfl,
    fun l => ⟨congrArg Lane.work (lane l), congrArg Lane.inService (lane l), congrArg Lane.testHold (lane l)⟩, rfl,
    -- the Sweep Unit
    fun r => ⟨Vector.get_replicate .., Vector.get_replicate ..⟩, rfl,
    -- the Stage Controller with its test run
    rfl, rfl, rfl, rfl, rfl, rfl, rfl, rfl,
    ⟨_, rfl, rfl, fun l => ⟨Vector.get_replicate .., Vector.get_replicate ..⟩⟩, rfl, rfl, fun l => Vector.get_replicate ..⟩

/-- A power-on reset leaves every byte that no write was in flight to (R168; log entry 17). -/
theorem powerOnReset_memory (s : State) (a : Nat) (outside : OutsideWrites s.bufferPort.outstanding a) :
    readByte (dropAll s).buffer a = readByte s.buffer a := by
  obtain ⟨m, d, dropped, same⟩ := foldl_cutWrite s.bufferPort.outstanding s
  simp only [dropAll, dropped]
  exact same a outside

/-- Settles O2: the values right after reset and after the command, and the memory that no cut write touches. -/
theorem powerOnResetGivesPowerOnValues : Obligations.PowerOnResetGivesPowerOnValues :=
  ⟨powerOnValues_reset [] 0 [], fun s => ⟨_, rfl, powerOnValues_reset _ _ _, rfl, powerOnReset_memory s⟩⟩

/-! ### The laws at power-on -/

/-- No epoch is live at power-on. -/
theorem epochLaw_reset : EpochLaw State.reset := by
  have noneLive : liveEpochs State.reset.table = [] := by
    simp only [liveEpochs, List.flatMap_eq_nil_iff, List.map_eq_nil_iff]
    exact fun r _ => (get_rangesReset_fields r).1
  simp [EpochLaw, noneLive]

/-- Range 0 alone is PRESENT at power-on, no range sweeps and no mark stands. -/
theorem sweepLaw_reset : SweepLaw State.reset := by
  refine (sweepLaw_iff _).mpr fun r => ?_
  show SweepRow r (rangesReset.get r) ((Vector.replicate 16 none).get r)
  rw [get_rangesReset, Vector.get_replicate]
  split
  · exact ⟨fun _ => rfl, rfl, fun h => (nomatch h), fun h => (nomatch h)⟩
  · next bounded => exact ⟨fun h => absurd h bounded, rfl, fun h => (nomatch h), fun _ => rfl⟩

theorem boundsLaw_reset : BoundsLaw State.reset.table := by
  have present : ∀ r, (State.reset.table.entry r).present = true → r = 0 := fun r => (get_rangesReset_fields r).2.2
  exact ⟨fun r bounded h => absurd (present r h) bounded, fun r _ bounded _ _ h => absurd (present r h) bounded⟩

theorem countsWithin_reset : CountsWithin State.reset :=
  (countsWithin_iff _).mpr ⟨fun r => (get_rangesReset_fields r).2.1.trans_le (Nat.zero_le _), .of_reset rfl rfl,
    ⟨Nat.zero_le _, fun _ => rfl⟩, ⟨le_rfl, Nat.zero_le _⟩⟩

theorem tablesByKind_reset : TablesByKind State.reset :=
  (tablesByKind_iff _).mpr fun side k _ h => nomatch (jobAt_of_reset rfl side k).symm.trans h

/-- Settles O52: each law from the values at power-on. -/
theorem lawsHoldAtReset : Obligations.LawsHoldAtReset := by
  have ports : PortsWithin State.reset := fun p => by cases p <;> decide
  have cells : EmptyCellsZero State.reset := fun c _ => congrArg KeyCell.bits (Vector.get_replicate ..)
  have quiet : FaultedQuiet State.reset := fun faulted => nomatch faulted
  exact ⟨wf_reset, ports, cells, epochLaw_reset, sweepLaw_reset, boundsLaw_reset, countsWithin_reset, quiet,
    tablesByKind_reset⟩

end Sys2Proof.Machine
end
section
/-! PROOFS. The places of the ports (R169, R171): a queue grows where a record is written, taken or answered from a quota
and where an event is posted, each of which finds a place free; no other change of the part makes one longer. -/

namespace Sys2Proof.Machine

/-! ### Queues that grow no longer -/

/-- No request queue holds more records, and no completion queue has more places filled or reserved (R169). -/
structure QueuesNoLonger (s t : State) : Prop where
  requests : ∀ p, (t.port p).requests.length ≤ (s.port p).requests.length
  places : ∀ p, (t.port p).filled.length + (t.port p).reserved ≤ (s.port p).filled.length + (s.port p).reserved

namespace QueuesNoLonger

variable {s t u : State}

theorem of_port (same : ∀ p, t.port p = s.port p) : QueuesNoLonger s t :=
  ⟨fun p => by rw [same p], fun p => by rw [same p]⟩

theorem of_ports (same : t.ports = s.ports := by simp) : QueuesNoLonger s t :=
  .of_port fun p => by cases p <;> simp only [State.port, same]

theorem refl (s : State) : QueuesNoLonger s s := .of_ports rfl

theorem trans (h : QueuesNoLonger s t) (h' : QueuesNoLonger t u) : QueuesNoLonger s u :=
  ⟨fun p => (h'.requests p).trans (h.requests p), fun p => (h'.places p).trans (h.places p)⟩

theorem within (h : QueuesNoLonger s t) (law : PortsWithin s) : PortsWithin t := fun p =>
  ⟨(h.requests p).trans (law p).1, (h.places p).trans (law p).2⟩

/-- Operations one after the other. -/
theorem foldl {α : Type} {f : State → α → State} (h : ∀ v a, QueuesNoLonger v (f v a)) (L : List α) (s : State) :
    QueuesNoLonger s (L.foldl f s) := by
  induction L generalizing s with
  | nil => exact .refl s
  | cons a L ih => exact (h s a).trans (ih _)

/-- One port's queues replaced by no longer ones. -/
theorem setPort {p : Port} {q : PortQueues} (requests : q.requests.length ≤ (s.port p).requests.length)
    (places : q.filled.length + q.reserved ≤ (s.port p).filled.length + (s.port p).reserved) :
    QueuesNoLonger s (s.setPort p q) := by
  constructor <;> intro p' <;> rw [State.port_setPort] <;> split
  · next e => exact e ▸ requests
  · exact le_rfl
  · next e => exact e ▸ places
  · exact le_rfl

end QueuesNoLonger

/-- One port's queues replaced by ones within their places. -/
theorem PortsWithin.setPort {s : State} (h : PortsWithin s) {p : Port} {q : PortQueues}
    (requests : q.requests.length ≤ 16) (places : q.filled.length + q.reserved ≤ 32) :
    PortsWithin (s.setPort p q) := fun p' => by
  rw [State.port_setPort]
  split
  · exact ⟨requests, places⟩
  · exact h p'

/-- A record taken reserves a free place (R171). -/
theorem PortsWithin.takeRecord {s : State} (h : PortsWithin s) {p : Port}
    (place : (s.port p).filled.length + (s.port p).reserved < 32) : PortsWithin (takeRecord s p) :=
  h.setPort (by simpa using Nat.le_succ_of_le (h p).1) place

/-- A record posted into a free place (R162, R176). -/
theorem PortsWithin.postFree {s : State} (h : PortsWithin s) {p : Port}
    (place : (s.port p).filled.length + (s.port p).reserved < 32) (c : Completion) : PortsWithin (postFree s p c) := by
  refine h.setPort (h p).1 ?_
  simp only [List.length_append, List.length_singleton]
  omega

theorem hasPlace_iff (q : PortQueues) : hasPlace q = true ↔ q.filled.length + q.reserved < 32 := decide_eq_true_iff

/-! ### Completions and events (R172, R175) -/

/-- A completion fills the place reserved for it, so none more is taken (R172). -/
theorem post_noLonger (s : State) (p : Port) (c : Completion) : QueuesNoLonger s (post s p c) := by
  by_cases reserved : (s.port p).reserved = 0
  · have same : fillReserved (s.port p) c = s.port p := if_pos reserved
    exact .setPort (by rw [same]) (by rw [same])
  · rw [post_eq s p c reserved]
    refine .setPort le_rfl ?_
    simp only [List.length_append, List.length_singleton]
    omega

theorem answerRecord_noLonger (s : State) (p : Port) (r : Record) (st : Status) (b : Body) :
    QueuesNoLonger s (answerRecord s p r st b) := post_noLonger ..

/-- A change followed by the answer of the record. -/
theorem QueuesNoLonger.answered {s u : State} (h : QueuesNoLonger s u) (p : Port) (r : Record) (st : Status) (b : Body) :
    QueuesNoLonger s (answerRecord u p r st b) := h.trans (answerRecord_noLonger u p r st b)

/-- A change outside the Port Block followed by the answer of the record. -/
theorem QueuesNoLonger.answered_of_ports {s u : State} {p : Port} {r : Record} {st : Status} {b : Body}
    (same : u.ports = s.ports := by simp) : QueuesNoLonger s (answerRecord u p r st b) :=
  (QueuesNoLonger.of_ports same).answered p r st b

/-- A pending event takes no place. -/
theorem setEvents_noLonger (s : State) (e : EventSet) : QueuesNoLonger s (s.setEvents e) := .of_port fun p => by simp

theorem countRefusal_noLonger (s : State) (x : RangeId) : QueuesNoLonger s (countRefusal s x) := by
  simp only [countRefusal]
  split
  · exact QueuesNoLonger.trans (t := s.setRange x _) .of_ports (setEvents_noLonger _ _)
  · exact .of_ports

theorem endSweep_noLonger (s : State) (x : RangeId) : QueuesNoLonger s (endSweep s x) :=
  .of_port fun p => by cases p <;> rfl

/-! ### The end of a job (R15, R16, R78) -/

theorem setJob_noLonger (s : State) (side : Side) (k : Nat) (j : Option Job) : QueuesNoLonger s (setJob s side k j) :=
  .of_ports (by simp)

theorem mapBothJobs_noLonger (s : State) (f : Job → Job) : QueuesNoLonger s (mapJobs (mapJobs s .i f) .m f) :=
  .of_ports

theorem askAccess_noLonger (s : State) (a : Access) : QueuesNoLonger s (askAccess s a) := by
  obtain ⟨l, -, e⟩ := askAccess_frame s a
  rw [e]
  exact .of_ports

theorem endSector_noLonger (s : State) (side : Side) (k lba : Nat) (v : Verdict) :
    QueuesNoLonger s (endSector s side k lba v) := by
  simp only [endSector]
  split
  · exact setJob_noLonger ..
  · exact .refl s

theorem abandonSector_noLonger (s : State) (l : LaneId) : QueuesNoLonger s (abandonSector s l) := by
  simp only [abandonSector]
  split
  · exact QueuesNoLonger.trans (t := clearAccess (freeLane s l) (.lane l)) (.of_ports rfl) (endSector_noLonger ..)
  · exact .refl s

theorem abandonUnlessWriting_noLonger (s : State) (l : LaneId) : QueuesNoLonger s (abandonUnlessWriting s l) := by
  simp only [abandonUnlessWriting]
  split
  · split
    · exact .refl s
    · exact abandonSector_noLonger s l
  · exact .refl s

theorem settleClaim_noLonger (s : State) (k : Nat) (cause : Option EndCause) :
    QueuesNoLonger s (settleClaim s k cause) := .of_port (settleClaim_frame s k cause).1

theorem postJob_noLonger (s : State) (side : Side) (k : Nat) (j : Job) : QueuesNoLonger s (postJob s side k j) := by
  rw [postJob_eq]
  exact (post_noLonger s (sidePort side) j.completion).trans (.of_ports (by simp))

theorem listOrPost_noLonger (s : State) (side : Side) (k : Nat) (j : Job) :
    QueuesNoLonger s (listOrPost s side k j) := by
  simp only [listOrPost]
  split
  · split
    · exact postJob_noLonger ..
    · exact (setJob_noLonger ..).trans (askAccess_noLonger ..)
  · exact postJob_noLonger ..

theorem endJob_noLonger (s : State) (side : Side) (k : Nat) (j : Job) : QueuesNoLonger s (endJob s side k j) := by
  simp only [endJob]
  split
  · exact ((setJob_noLonger ..).trans (settleClaim_noLonger ..)).trans (listOrPost_noLonger ..)
  · exact listOrPost_noLonger ..
  · exact listOrPost_noLonger ..
  · exact listOrPost_noLonger ..

theorem closeJob_noLonger (s : State) (side : Side) (k : Nat) : QueuesNoLonger s (closeJob s side k) := by
  simp only [closeJob]
  split
  · split
    · exact endJob_noLonger ..
    · exact .refl s
  · exact .refl s

theorem reportSector_noLonger (s : State) (l : LaneId) (v : Verdict) : QueuesNoLonger s (reportSector s l v) := by
  simp only [reportSector]
  split
  · have freed : QueuesNoLonger s (freeLane s l) := .of_ports rfl
    exact (freed.trans (endSector_noLonger ..)).trans (closeJob_noLonger ..)
  · exact .refl s

theorem endOnFault_noLonger (side : Side) (s : State) (k : Nat) : QueuesNoLonger s (endOnFault side s k) := by
  simp only [endOnFault]
  split
  · split
    · exact endJob_noLonger ..
    · exact postJob_noLonger ..
  · exact .refl s

theorem cancelJob_noLonger (s : State) (k : Nat) : QueuesNoLonger s (cancelJob s k) := by
  simp only [cancelJob]
  split
  · exact (setJob_noLonger ..).trans (closeJob_noLonger ..)
  · exact .refl s

/-! ### Data requests and the lanes (R12 to R15, R31, R73) -/

theorem refuseIo_noLonger (s : State) (k : JobKind) (r : Record) (st : Status) :
    QueuesNoLonger s (refuseIo s k r st) := by
  simp only [refuseIo]
  split
  · exact (countRefusal_noLonger ..).answered ..
  · exact answerRecord_noLonger ..

theorem jobAccepted_noLonger (s : State) (side : Side) : QueuesNoLonger s (jobAccepted s side) := by
  cases side with
  | i => exact .of_ports rfl
  | m =>
    simp only [jobAccepted]
    split
    · exact .of_ports rfl
    · exact .refl s

theorem acceptJob_noLonger (s : State) (side : Side) (j : Job) : QueuesNoLonger s (acceptJob s side j) :=
  ((setJob_noLonger ..).trans (.of_ports (State.setKeys_ports ..))).trans (jobAccepted_noLonger ..)

theorem setWork_noLonger (s : State) (l : LaneId) (w : Work) : QueuesNoLonger s (setWork s l w) := .of_ports rfl

theorem grantSector_noLonger (s : State) (l : LaneId) (side : Side) (k : Nat) (j : Job) (lba : Nat) :
    QueuesNoLonger s (grantSector s l side k j lba) :=
  ((setJob_noLonger ..).trans (setWork_noLonger ..)).trans (askAccess_noLonger ..)

theorem startWriting_noLonger (s : State) (l : LaneId) (w : Work) (result : List Byte) :
    QueuesNoLonger s (startWriting s l w result) := (setWork_noLonger ..).trans (askAccess_noLonger ..)

/-- A write lands in buffer memory. -/
theorem writeLanded_noLonger (s : State) (a : Access) (who : Requester) :
    QueuesNoLonger s (clearAccess (landWrite s a) who) := .of_ports rfl

/-! ### Stages and resets (R147 to R153, R163, R166) -/

theorem wakeByRecord_noLonger (s : State) : QueuesNoLonger s (wakeByRecord s) := .of_ports (wakeByRecord_frame s).1

theorem retainEntry_noLonger (s : State) (cause : RetainCause) : QueuesNoLonger s (retainEntry s cause) :=
  .of_port fun p => by cases p <;> rfl

theorem endDrain_noLonger (s : State) : QueuesNoLonger s (endDrain s) := by
  simp only [endDrain]
  split
  · refine QueuesNoLonger.trans ?_ (wakeByRecord_noLonger _)
    split
    · exact (retainEntry_noLonger ..).trans (post_noLonger ..)
    · exact retainEntry_noLonger ..
  · exact .refl s

theorem expireTimer_noLonger (s : State) : QueuesNoLonger s (expireTimer s) := by
  simp only [expireTimer]
  split
  · exact (QueuesNoLonger.trans (t := s.setStage _) .of_ports (retainEntry_noLonger ..)).trans (wakeByRecord_noLonger _)
  · exact .of_ports

theorem timerSecond_noLonger (s : State) : QueuesNoLonger s (timerSecond s) := by
  simp only [timerSecond]
  split
  · exact expireTimer_noLonger s
  · exact .of_ports

theorem finishKeyClear_noLonger (s : State) (g : CellId) : QueuesNoLonger s (finishKeyClear s g) := by
  simp only [finishKeyClear]
  split
  · split
    · split
      · exact QueuesNoLonger.trans (t := s.setKeys _) .of_ports (post_noLonger ..)
      · exact .of_ports
    · exact .refl s
  · exact .refl s

theorem finishKeyClears_noLonger (s : State) : QueuesNoLonger s (finishKeyClears s) :=
  .foldl finishKeyClear_noLonger _ s

/-- A reset noted or gone takes no place. -/
theorem setReset_noLonger (s : State) (run : Option ResetRun) :
    QueuesNoLonger s { s with ports := { s.ports with reset := run } } := .of_port fun p => by cases p <;> rfl

theorem completeReset_noLonger (s : State) (run : ResetRun) : QueuesNoLonger s (completeReset s run) :=
  (setReset_noLonger s none).trans (post_noLonger ..)

theorem endEngineReset_noLonger (s : State) : QueuesNoLonger s (endEngineReset s) := by
  simp only [endEngineReset]
  split
  · split
    · exact QueuesNoLonger.trans (t := resetPortAndArbiter s) (.of_ports rfl) (completeReset_noLonger ..)
    · exact .refl s
  · exact .refl s

theorem endZeroize_noLonger (s : State) : QueuesNoLonger s (endZeroize s) := by
  simp only [endZeroize]
  split
  · split
    · exact QueuesNoLonger.trans (t := resetPortAndArbiter (zeroizeClear s)) (.of_ports rfl) (completeReset_noLonger ..)
    · exact .refl s
  · exact .refl s

theorem settle_noLonger (s : State) : QueuesNoLonger s (settle s) :=
  (((finishKeyClears_noLonger s).trans (endDrain_noLonger _)).trans (endEngineReset_noLonger _)).trans
    (endZeroize_noLonger _)

theorem takenState_noLonger (kind : ResetKind) (tag : Tag) (s : State) : QueuesNoLonger s (takenState kind tag s) := by
  have stopped := (setReset_noLonger s (some (newReset s kind tag))).trans (mapBothJobs_noLonger _ (Job.stop kind.cause))
  exact (stopped.trans (.foldl abandonUnlessWriting_noLonger _ _)).trans (.of_ports rfl)

theorem takeReset_noLonger (kind : ResetKind) (r : Record) (s : State) : QueuesNoLonger s (takeReset kind r s) := by
  rw [takeReset_eq]
  exact (((takenState_noLonger kind (recordTag r) s).trans (.foldl (fun u k => closeJob_noLonger u .i k) _ _)).trans
    (.foldl (fun u k => closeJob_noLonger u .m k) _ _)).trans (settle_noLonger _)

/-- A bus fault posts the completions of the jobs it ends, and raises one event (R98 to R101). -/
theorem busFault_noLonger (s : State) (a : Access) : QueuesNoLonger s (busFault s a) := by
  obtain ⟨m, d, faulted, -⟩ := portFaulted_eq s a
  have fault : QueuesNoLonger s (portFaulted s a) := faulted ▸ .of_ports rfl
  have abandoned : QueuesNoLonger s (abandonAll (portFaulted s a)) := fault.trans (.foldl abandonSector_noLonger _ _)
  have stopped := abandoned.trans (mapBothJobs_noLonger _ Job.busFault)
  have posted := (stopped.trans (.foldl (endOnFault_noLonger .i) (List.range Side.i.slots) _)).trans
    (.foldl (endOnFault_noLonger .m) (List.range Side.m.slots) _)
  exact (posted.trans (setEvents_noLonger _ _)).trans (settle_noLonger _)

/-! ### What commands do with a record or a result -/

theorem afterTrailer_noLonger (s : State) (l : LaneId) (w : Work) (c : Classified) :
    QueuesNoLonger s (afterTrailer s l w c) := by
  cases c with
  | choose g => exact (setWork_noLonger ..).trans (askAccess_noLonger ..)
  | zeros => exact startWriting_noLonger ..
  | ends v => exact (reportSector_noLonger ..).trans (settle_noLonger _)

theorem clearGroup_noLonger (s : State) (r : Record) (c : CellId) (g : GroupRec) :
    QueuesNoLonger s (clearGroup s r c g) := by
  simp only [clearGroup]
  split
  · exact .answered_of_ports
  · split
    · exact .answered_of_ports
    · exact .of_ports
  · exact answerRecord_noLonger ..

theorem retainAtOnce_noLonger (s : State) (r : Record) : QueuesNoLonger s (retainAtOnce s r) :=
  ((retainEntry_noLonger s _).answered ..).trans (wakeByRecord_noLonger _)

theorem retainByStage_noLonger (r : Record) (s : State) : QueuesNoLonger s (retainByStage r s) := by
  simp only [retainByStage]
  split
  · split
    · exact retainAtOnce_noLonger ..
    · split
      · exact .of_ports rfl
      · exact answerRecord_noLonger ..
  · exact retainAtOnce_noLonger ..
  · exact answerRecord_noLonger ..
  · exact answerRecord_noLonger ..
  · exact answerRecord_noLonger ..

theorem wakeByStage_noLonger (r : Record) (s : State) : QueuesNoLonger s (wakeByStage r s) := by
  simp only [wakeByStage]
  split
  · exact (answerRecord_noLonger ..).trans (.of_ports rfl)
  · exact answerRecord_noLonger ..
  · exact answerRecord_noLonger ..
  · exact answerRecord_noLonger ..
  · exact answerRecord_noLonger ..

theorem laneTestByStage_noLonger (r : Record) (s : State) : QueuesNoLonger s (laneTestByStage r s) := by
  simp only [laneTestByStage]
  split
  · exact .of_ports rfl
  · exact .of_ports rfl
  · exact .of_ports rfl
  · exact answerRecord_noLonger ..
  · exact answerRecord_noLonger ..

theorem endTestRun_noLonger (s : State) (run : TestRun) : QueuesNoLonger s (endTestRun s run) := by
  have moved : ∀ c, QueuesNoLonger s (raiseSelfTest (s.setStage c)) := fun c => .of_port fun p => by cases p <;> rfl
  simp only [endTestRun]
  split
  · exact (moved _).trans (post_noLonger ..)
  · exact moved _

theorem endLaneTest_noLonger (s : State) (l : LaneId) (run : TestRun) (passed : Bool) :
    QueuesNoLonger s (endLaneTest s l run passed) := by
  simp only [endLaneTest]
  split
  · exact .of_ports
  · exact QueuesNoLonger.trans .of_ports (endTestRun_noLonger ..)

end Sys2Proof.Machine
end
section
/-! PROOFS. Each command keeps the queues within their places (R169, R171), and so does every step. -/

namespace Sys2Proof.Machine

/-! ### Records taken and decided (R171) -/

/-- A record taken has found a free place, and its block makes no queue longer. -/
theorem onRecord_within {s t : State} {p : Port} {k : Kind} {f : Record → State → State}
    (h : onRecord p k s f = .next t) (law : PortsWithin s) (block : ∀ r u, QueuesNoLonger u (f r u)) : PortsWithin t := by
  obtain rfl | ⟨r, ⟨-, place, -, -⟩, rfl⟩ := onRecord_cases h
  · exact law
  · exact (block r _).within (law.takeRecord place)

theorem place_of_offered {s : State} {p : Port} {r : Record} (h : offered s p = some r) :
    (s.port p).filled.length + (s.port p).reserved < 32 := by
  simp only [offered] at h
  split at h
  · next free => exact (hasPlace_iff _).mp (Bool.and_eq_true _ _ ▸ free).2
  · cases h

theorem decideRecord_noLonger {p : Port} {r : Record} {checks : List (Bool × Status)} {s accept : State}
    (h : QueuesNoLonger s accept) : QueuesNoLonger s (decideRecord p r checks s accept) := by
  simp only [decideRecord]
  split
  · exact answerRecord_noLonger ..
  · exact h

theorem withRange_noLonger {p : Port} {r : Record} {assigned : List Nat} {s : State} {f : RangeId → State}
    (h : ∀ x, QueuesNoLonger s (f x)) : QueuesNoLonger s (withRange p r assigned s f) := by
  simp only [withRange]
  split
  · split
    · exact h _
    · exact answerRecord_noLonger ..
  · exact answerRecord_noLonger ..

theorem withGroup_noLonger {r : Record} {s : State} {f : CellId → State} (h : ∀ g, QueuesNoLonger s (f g)) :
    QueuesNoLonger s (withGroup r s f) := by
  simp only [withGroup]
  split
  · exact h _
  · exact answerRecord_noLonger ..

theorem withCell_noLonger {r : Record} {assigned : List Nat} {s : State} {f : CellId → State}
    (h : ∀ c, QueuesNoLonger s (f c)) : QueuesNoLonger s (withCell r assigned s f) := by
  simp only [withCell]
  split
  · split
    · exact h _
    · exact answerRecord_noLonger ..
  · exact answerRecord_noLonger ..

/-- A command that answers a state with no longer queues. -/
theorem PortsWithin.of_next {s t u : State} (h : (.next u : Host.Outcome State Fault Refusal) = .next t)
    (law : PortsWithin s) (change : QueuesNoLonger s u) : PortsWithin t := Host.Outcome.next.inj h ▸ change.within law

section
variable {s t : State} (law : PortsWithin s)
include law

/-! ### The Range Table's requests (R33 to R43, R109 to R119) -/

theorem execRangeDefine_within (h : execRangeDefine s = .next t) : PortsWithin t :=
  onRecord_within h law fun _ _ => withRange_noLonger fun _ => decideRecord_noLonger .answered_of_ports

theorem execRangeDelete_within (h : execRangeDelete s = .next t) : PortsWithin t :=
  onRecord_within h law fun _ _ => withRange_noLonger fun _ => decideRecord_noLonger .answered_of_ports

theorem execRangeLocks_within (h : execRangeLocks s = .next t) : PortsWithin t :=
  onRecord_within h law fun _ _ => withRange_noLonger fun _ => decideRecord_noLonger .answered_of_ports

theorem execCountClear_within (h : execCountClear s = .next t) : PortsWithin t :=
  onRecord_within h law fun _ _ => withRange_noLonger fun _ => decideRecord_noLonger .answered_of_ports

theorem execRangeBind_within (h : execRangeBind s = .next t) : PortsWithin t :=
  onRecord_within h law fun _ _ => withRange_noLonger fun _ => withGroup_noLonger fun _ =>
    decideRecord_noLonger (.answered_of_ports rfl)

theorem execRangeRekey_within (h : execRangeRekey s = .next t) : PortsWithin t := by
  refine onRecord_within h law fun r s => withRange_noLonger fun x => withGroup_noLonger fun g =>
    decideRecord_noLonger (QueuesNoLonger.answered ?_ ..)
  have started : QueuesNoLonger s (startSweep s x { group := g, epoch := epochOf r }) := .of_ports rfl
  simp only [rekeyRange]
  split
  · exact started
  · exact started.trans (endSweep_noLonger ..)

theorem execRangeErase_within (h : execRangeErase s = .next t) : PortsWithin t := by
  refine onRecord_within h law fun r s => withRange_noLonger fun x => withGroup_noLonger fun g =>
    decideRecord_noLonger (QueuesNoLonger.answered ?_ ..)
  have erased : QueuesNoLonger s (cancelSweep (replaceBindings s x { group := g, epoch := epochOf r }) x) := .of_ports rfl
  refine (erased.trans (.foldl (fun u k => ?_) _ _)).trans (settle_noLonger _)
  split
  · exact cancelJob_noLonger u k
  · exact .refl u

theorem execRangeQuery_within (h : execRangeQuery s = .next t) : PortsWithin t :=
  onRecord_within h law fun _ _ => withRange_noLonger fun _ => answerRecord_noLonger ..

theorem execSweepQuery_within {p : QueryPort} (h : execSweepQuery p s = .next t) : PortsWithin t :=
  onRecord_within h law fun _ _ => withRange_noLonger fun _ => decideRecord_noLonger (answerRecord_noLonger ..)

/-! ### Format, admission and resets (R159 to R168) -/

theorem execFormatSet_within (h : execFormatSet s = .next t) : PortsWithin t := by
  refine onRecord_within h law fun r s => ?_
  dsimp only
  split
  · exact answerRecord_noLonger ..
  · exact decideRecord_noLonger (.answered_of_ports rfl)

theorem execAdmitRequest_within (h : execAdmitRequest s = .next t) : PortsWithin t :=
  onRecord_within h law fun _ _ => decideRecord_noLonger (.answered_of_ports rfl)

theorem execSealRequest_within (h : execSealRequest s = .next t) : PortsWithin t :=
  onRecord_within h law fun _ _ => decideRecord_noLonger (.answered_of_ports rfl)

theorem execEngineReset_within (h : execEngineReset s = .next t) : PortsWithin t :=
  onRecord_within h law fun _ _ => decideRecord_noLonger (takeReset_noLonger ..)

theorem execZeroize_within (h : execZeroize s = .next t) : PortsWithin t :=
  onRecord_within h law fun _ _ => decideRecord_noLonger (takeReset_noLonger ..)

omit law in
/-- The queues are empty at power-on, whatever stood before (R169). -/
theorem execPowerOnReset_within (h : execPowerOnReset s = .next t) : PortsWithin t := by
  cases h
  intro p
  cases p <;> exact ⟨Nat.zero_le _, Nat.zero_le _⟩

/-! ### Data requests and claims (R68 to R74, R127 to R138) -/

theorem execRead_within (h : execRead s = .next t) : PortsWithin t := by
  refine onRecord_within h law fun r s => ?_
  split
  · exact refuseIo_noLonger ..
  · exact acceptJob_noLonger ..

theorem execWrite_within (h : execWrite s = .next t) : PortsWithin t := by
  refine onRecord_within h law fun r s => ?_
  split
  · exact refuseIo_noLonger ..
  · exact (acceptJob_noLonger ..).trans (.of_ports rfl)

theorem execClaim_within (h : execClaim s = .next t) : PortsWithin t := by
  refine onRecord_within h law fun r s => withRange_noLonger fun x => ?_
  split
  · exact answerRecord_noLonger ..
  · split
    · exact answerRecord_noLonger ..
    · exact .answered_of_ports rfl

theorem execRelease_within (h : execRelease s = .next t) : PortsWithin t := by
  refine onRecord_within h law fun r s => withRange_noLonger fun x => ?_
  split
  · exact answerRecord_noLonger ..
  · exact .answered_of_ports rfl

theorem execRecipher_within (h : execRecipher s = .next t) : PortsWithin t := by
  refine onRecord_within h law fun r s => ?_
  split
  · next c _ _ =>
    have begun : QueuesNoLonger s (startClaim s r c.range ((freeSlot s .m).getD 0)) := .of_ports rfl
    exact begun.trans (acceptJob_noLonger ..)
  · exact answerRecord_noLonger ..
  · exact answerRecord_noLonger ..

theorem execScreen_within (h : execScreen s = .next t) : PortsWithin t := by
  refine onRecord_within h law fun r s => ?_
  split
  · exact answerRecord_noLonger ..
  · exact acceptJob_noLonger ..

/-! ### The Key Store's requests (R51 to R60) -/

theorem execKeyOpen_within (h : execKeyOpen s = .next t) : PortsWithin t := by
  refine onRecord_within h law fun r s => withCell_noLonger fun base => ?_
  split
  · exact answerRecord_noLonger ..
  · exact decideRecord_noLonger .answered_of_ports

theorem execKeyPart_within (h : execKeyPart s = .next t) : PortsWithin t := by
  refine onRecord_within h law fun r s => withCell_noLonger fun c => ?_
  split
  · exact answerRecord_noLonger ..
  · exact decideRecord_noLonger .answered_of_ports

theorem execKeyClear_within (h : execKeyClear s = .next t) : PortsWithin t := by
  refine onRecord_within h law fun r s => withCell_noLonger fun c => ?_
  split
  · exact answerRecord_noLonger ..
  · exact decideRecord_noLonger (clearGroup_noLonger ..)

theorem execKeyQuery_within (h : execKeyQuery s = .next t) : PortsWithin t :=
  onRecord_within h law fun _ _ => withCell_noLonger fun _ => answerRecord_noLonger ..

/-! ### The arbiter, the lanes and the Buffer Port (R12 to R21, R91 to R103) -/

theorem execClassSet_within (h : execClassSet s = .next t) : PortsWithin t := by
  refine onRecord_within h law fun r s => ?_
  dsimp only
  split
  · exact .answered_of_ports rfl
  · exact answerRecord_noLonger ..

theorem execGrant_within (h : execGrant s = .next t) : PortsWithin t := by
  simp only [execGrant] at h
  split at h
  · split at h
    · split at h
      · exact law.of_next h ((grantSector_noLonger ..).trans (.of_ports rfl))
      · exact law.of_next h (.refl s)
    · exact law.of_next h (.refl s)
  · exact law.of_next h (.refl s)

theorem execTrailerReadDone_within {l : LaneId} {placed : List Byte} (h : execTrailerReadDone l placed s = .next t) :
    PortsWithin t := by
  simp only [execTrailerReadDone] at h
  split at h
  · next a _ _ =>
    split at h
    · split at h
      · have read : QueuesNoLonger s (clearAccess (placeBytes s a placed) (.lane l)) := .of_ports rfl
        exact law.of_next h (read.trans (afterTrailer_noLonger ..))
      · exact law.of_next h (.refl s)
    · exact law.of_next h (.refl s)
  · exact law.of_next h (.refl s)

theorem execDataUnitReadDone_within {l : LaneId} {placed : List Byte}
    (h : execDataUnitReadDone l placed s = .next t) : PortsWithin t := by
  simp only [execDataUnitReadDone] at h
  split at h
  · split at h
    · exact law.of_next h (.of_ports rfl)
    · exact law.of_next h (.refl s)
  · exact law.of_next h (.refl s)

theorem execTransformEnd_within {l : LaneId} (h : execTransformEnd l s = .next t) : PortsWithin t := by
  simp only [execTransformEnd] at h
  split at h
  · split at h
    · split at h
      · exact law.of_next h (startWriting_noLonger ..)
      · exact law.of_next h ((reportSector_noLonger ..).trans (settle_noLonger _))
      · exact law.of_next h (.refl s)
    · exact law.of_next h (.refl s)
  · exact law.of_next h (.refl s)

theorem execResultWriteDone_within {l : LaneId} (h : execResultWriteDone l s = .next t) : PortsWithin t := by
  simp only [execResultWriteDone] at h
  split at h
  · split at h
    · split at h
      · exact law.of_next h (((writeLanded_noLonger s _ _).trans (reportSector_noLonger ..)).trans (settle_noLonger _))
      · exact law.of_next h (.refl s)
    · exact law.of_next h (.refl s)
  · exact law.of_next h (.refl s)

theorem execVerdictListWriteDone_within {side : Side} {slot : Nat} (h : execVerdictListWriteDone side slot s = .next t) :
    PortsWithin t := by
  simp only [execVerdictListWriteDone] at h
  split at h
  · split at h
    · exact law.of_next h (((writeLanded_noLonger s _ _).trans (postJob_noLonger ..)).trans (settle_noLonger _))
    · exact law.of_next h (.refl s)
  · exact law.of_next h (.refl s)

theorem execBusErrorResponse_within {who : Requester} (h : execBusErrorResponse who s = .next t) : PortsWithin t := by
  simp only [execBusErrorResponse] at h
  split at h
  · split at h
    · exact law.of_next h (.refl s)
    · exact law.of_next h (busFault_noLonger s _)
  · exact law.of_next h (.refl s)

theorem execBusRecover_within (h : execBusRecover s = .next t) : PortsWithin t :=
  onRecord_within h law fun _ _ => decideRecord_noLonger .answered_of_ports

/-! ### The windows and the Port Block (R169 to R178) -/

/-- A record joins a queue of at most 15 (R170). -/
theorem execRequestWindowWrite_within {p : Port} {r : Record} (h : execRequestWindowWrite p r s = .next t) :
    PortsWithin t := by
  simp only [execRequestWindowWrite] at h
  split at h
  · next room =>
    have queued : PortsWithin ((s.setPort p { s.port p with requests := (s.port p).requests ++ [r] }).setAnswer
        (.written p)) := by
      refine QueuesNoLonger.within (.of_ports (State.setAnswer_ports ..)) (law.setPort ?_ (law p).2)
      rw [List.length_append, List.length_singleton]
      exact room
    refine queued.of_next h ?_
    split
    · exact .refl _
    · exact wakeByRecord_noLonger _
  · exact law.of_next h .of_ports

/-- A completion read frees the place of the oldest record (R172). -/
theorem execCompletionWindowRead_within {p : Port} (h : execCompletionWindowRead p s = .next t) : PortsWithin t := by
  simp only [execCompletionWindowRead] at h
  split at h
  · next c cs filled =>
    have freed : QueuesNoLonger s (s.setPort p { s.port p with filled := cs }) :=
      .setPort le_rfl (by simp only [filled, List.length_cons]; omega)
    exact law.of_next h (freed.trans .of_ports)
  · exact law.of_next h .of_ports

theorem execBadWindowAccess_within {p : Port} {a : WindowAccess} (h : execBadWindowAccess p a s = .next t) :
    PortsWithin t := by
  simp only [execBadWindowAccess] at h
  split at h
  · exact law.of_next h .of_ports
  · exact law.of_next h .of_ports
  · exact law.of_next h .of_ports
  · exact law.of_next h (.refl s)
  · exact law.of_next h (.refl s)

theorem execUnknownKindRecord_within {p : Port} (h : execUnknownKindRecord p s = .next t) : PortsWithin t := by
  simp only [execUnknownKindRecord] at h
  split at h
  · next r offers =>
    split at h
    · exact law.of_next h (.refl s)
    · exact (law.takeRecord (place_of_offered offers)).of_next h (answerRecord_noLonger ..)
  · exact law.of_next h (.refl s)

theorem execStatus_within (h : execStatus s = .next t) : PortsWithin t :=
  onRecord_within h law fun _ _ => decideRecord_noLonger (answerRecord_noLonger ..)

/-- An event is posted into a free place (R176). -/
theorem execEventPost_within (h : execEventPost s = .next t) : PortsWithin t := by
  simp only [execEventPost] at h
  split at h
  · next v e _ =>
    split at h
    · next place =>
      cases h
      exact ((setEvents_noLonger s e).within law).postFree (p := .s) ((hasPlace_iff _).mp place) _
    · exact law.of_next h (.refl s)
  · exact law.of_next h (.refl s)

/-- A quota record leaves its queue and is answered in a free place (R162). -/
theorem execAbortQuotaAnswer_within {side : Side} (h : execAbortQuotaAnswer side s = .next t) : PortsWithin t := by
  simp only [execAbortQuotaAnswer] at h
  split at h
  · next run r rest _ waiting =>
    split at h
    · next answers =>
      obtain ⟨-, place⟩ := answers
      have fewer : QueuesNoLonger s (s.setPort (sidePort side)
          { s.port (sidePort side) with requests := (s.port (sidePort side)).requests.tail }) :=
        .setPort (by simp) le_rfl
      have answered := (fewer.within law).postFree (p := sidePort side) (by simpa using (hasPlace_iff _).mp place)
        (completionOf r run.kind.quotaStatus .empty)
      exact answered.of_next h ((setReset_noLonger _ (some (run.answered side))).trans (settle_noLonger _))
    · exact law.of_next h (.refl s)
  · exact law.of_next h (.refl s)

/-! ### The Stage Controller's commands (R146 to R156) -/

theorem execInactivityTick_within (h : execInactivityTick s = .next t) : PortsWithin t := by
  simp only [execInactivityTick] at h
  split at h
  · exact law.of_next h (timerSecond_noLonger s)
  · exact law.of_next h (.refl s)

theorem execInactivityExpiry_within (h : execInactivityExpiry s = .next t) : PortsWithin t := by
  simp only [execInactivityExpiry] at h
  split at h
  · exact law.of_next h (expireTimer_noLonger s)
  · exact law.of_next h (.refl s)

theorem execInactivitySet_within (h : execInactivitySet s = .next t) : PortsWithin t := by
  refine onRecord_within h law fun r s => ?_
  dsimp only
  split
  · exact .answered_of_ports
  · exact answerRecord_noLonger ..

theorem execRetain_within (h : execRetain s = .next t) : PortsWithin t :=
  onRecord_within h law fun _ _ => decideRecord_noLonger (retainByStage_noLonger ..)

theorem execWake_within (h : execWake s = .next t) : PortsWithin t :=
  onRecord_within h law fun _ _ => decideRecord_noLonger (wakeByStage_noLonger ..)

theorem execLaneTest_within (h : execLaneTest s = .next t) : PortsWithin t :=
  onRecord_within h law fun _ _ => decideRecord_noLonger (laneTestByStage_noLonger ..)

theorem execLaneSelfTestEnd_within {l : LaneId} {encOk decOk : Bool}
    (h : execLaneSelfTestEnd l encOk decOk s = .next t) : PortsWithin t := by
  simp only [execLaneSelfTestEnd] at h
  split at h
  · split at h
    · exact law.of_next h (endLaneTest_noLonger ..)
    · exact law.of_next h (.refl s)
  · exact law.of_next h (.refl s)

/-! ### Every step -/

/-- Every command keeps the queues within their places. -/
theorem exec_within {c : Instr} (h : exec c s = .next t) : PortsWithin t := by
  cases c with
  | powerOnReset => exact execPowerOnReset_within h
  | inactivityTick => exact execInactivityTick_within law h
  | inactivityExpiry => exact execInactivityExpiry_within law h
  | requestWindowWrite p r => exact execRequestWindowWrite_within law h
  | completionWindowRead p => exact execCompletionWindowRead_within law h
  | badWindowAccess p a => exact execBadWindowAccess_within law h
  | read => exact execRead_within law h
  | write => exact execWrite_within law h
  | claim => exact execClaim_within law h
  | release => exact execRelease_within law h
  | sweepQuery p => exact execSweepQuery_within law h
  | recipher => exact execRecipher_within law h
  | screen => exact execScreen_within law h
  | unknownKindRecord p => exact execUnknownKindRecord_within law h
  | status => exact execStatus_within law h
  | formatSet => exact execFormatSet_within law h
  | admitRequest => exact execAdmitRequest_within law h
  | sealRequest => exact execSealRequest_within law h
  | engineReset => exact execEngineReset_within law h
  | zeroize => exact execZeroize_within law h
  | rangeDefine => exact execRangeDefine_within law h
  | rangeDelete => exact execRangeDelete_within law h
  | rangeLocks => exact execRangeLocks_within law h
  | rangeBind => exact execRangeBind_within law h
  | rangeRekey => exact execRangeRekey_within law h
  | rangeErase => exact execRangeErase_within law h
  | rangeQuery => exact execRangeQuery_within law h
  | countClear => exact execCountClear_within law h
  | keyOpen => exact execKeyOpen_within law h
  | keyPart => exact execKeyPart_within law h
  | keyClear => exact execKeyClear_within law h
  | keyQuery => exact execKeyQuery_within law h
  | classSet => exact execClassSet_within law h
  | busRecover => exact execBusRecover_within law h
  | inactivitySet => exact execInactivitySet_within law h
  | retain => exact execRetain_within law h
  | wake => exact execWake_within law h
  | laneTest => exact execLaneTest_within law h
  | abortQuotaAnswer side => exact execAbortQuotaAnswer_within law h
  | grant => exact execGrant_within law h
  | trailerReadDone l placed => exact execTrailerReadDone_within law h
  | dataUnitReadDone l placed => exact execDataUnitReadDone_within law h
  | transformEnd l => exact execTransformEnd_within law h
  | resultWriteDone l => exact execResultWriteDone_within law h
  | verdictListWriteDone side slot => exact execVerdictListWriteDone_within law h
  | busErrorResponse who => exact execBusErrorResponse_within law h
  | droppedAccessResponse who kind => exact law.of_next h (.refl s)
  | laneSelfTestEnd l encOk decOk => exact execLaneSelfTestEnd_within law h
  | eventPost => exact execEventPost_within law h
  | drainEnd => exact law.of_next h (endDrain_noLonger s)
  | keyClearDeferredDone => exact law.of_next h (finishKeyClears_noLonger s)
  | engineResetEnd => exact law.of_next h (endEngineReset_noLonger s)
  | zeroizeClearing => exact law.of_next h (endZeroize_noLonger s)

theorem step_within (h : step s = .next t) : PortsWithin t := by
  simp only [step] at h
  split at h
  · exact law.of_next h (.refl s)
  · next rest _ =>
    have popped : PortsWithin { s with pending := rest } := (QueuesNoLonger.of_ports rfl).within law
    exact exec_within popped h

end

/-- Settles O54: what every command keeps, from the state whose queue of commands has lost its first. -/
theorem stepKeepsPortsWithin : Obligations.StepKeepsPortsWithin := fun _ _ law h => step_within law h

end Sys2Proof.Machine
end
section
/-! PROOFS. The port windows and the Port Block's own steps (R169 to R176): what a window access answers, which event is
posted, and when a port takes no record or refuses one unread. -/

namespace Sys2Proof.Machine

/-! ### The request window (R170) -/

/-- The state with a record written into a port's request window (R170; log entry 13). -/
def recordQueued (s : State) (p : Port) (r : Record) : State :=
  { s.setPort p { s.port p with requests := (s.port p).requests ++ [r] } with answer := .written p }

theorem recordQueued_stage (s : State) (p : Port) (r : Record) : (recordQueued s p r).stage = s.stage :=
  State.setPort_stage ..

theorem recordQueued_buffer (s : State) (p : Port) (r : Record) : (recordQueued s p r).buffer = s.buffer :=
  State.setPort_buffer ..

theorem exec_requestWindowWrite {s : State} {p : Port} (r : Record) (room : (s.port p).requests.length < 16) :
    exec (.requestWindowWrite p r) s =
      .next (if p = .s then recordQueued s p r else wakeByRecord (recordQueued s p r)) := if_pos room

/-- Outside RETAIN a waiting record wakes nothing (R147). -/
theorem wakeByRecord_awake {s : State} (stage : s.stage.stage ≠ .retain) : wakeByRecord s = s :=
  if_neg fun h => stage h.1

/-- With no reset the record just written at the I-port or the M-port is held: no quota covers it (R147, R162). -/
theorem recordHeld_recordQueued {s : State} {p : Port} (r : Record) (side : p ≠ .s) (noReset : s.ports.reset = none) :
    RecordHeld (recordQueued s p r) := by
  cases p with
  | i => exact .inl (by simp [recordQueued, State.setPort, noReset])
  | m => exact .inr (by simp [recordQueued, State.setPort, noReset])
  | s => exact absurd rfl side

/-- Settles O3: a queue with room by stage and port, and a full one. -/
theorem requestWriteQueuesOrDrops : Obligations.RequestWriteQueuesOrDrops := by
  intro p r s
  refine ⟨fun room quiet => ?_, fun room side retain => ?_, fun full => ?_⟩
  · refine next_of_exec ((exec_requestWindowWrite r room).trans (congrArg _ ?_)) (recordQueued_buffer s p r)
    split
    · rfl
    · next side => exact wakeByRecord_awake (by rw [recordQueued_stage]; exact quiet.resolve_left side)
  · obtain ⟨wakes, stays⟩ := wakeByRecord_retain (s := recordQueued s p r) (by rw [recordQueued_stage]; exact retain)
    have runs := exec_requestWindowWrite r room
    rw [if_neg side] at runs
    exact ⟨_, runs, sameMemory_of_buffer ((wakeByRecord_buffer _).trans (recordQueued_buffer s p r)),
      recordHeld_recordQueued r side, wakes, stays⟩
  · exact next_of_exec (if_neg (not_lt.mpr full)) rfl

/-! ### The other accesses of a window (R169, R170) -/

/-- An access that the layout of R169 does not name is a bad one (R170). -/
theorem WindowAccess.kind_bad {a : WindowAccess} (write : a ≠ { isWrite := true, offset := 0x00, size := 32 })
    (read : a ≠ { isWrite := false, offset := 0x20, size := 32 })
    (free : a ≠ { isWrite := false, offset := 0x40, size := 4 })
    (waiting : a ≠ { isWrite := false, offset := 0x44, size := 4 }) : a.kind = .bad := by
  obtain ⟨isWrite, offset, size⟩ := a
  rw [ne_eq, WindowAccess.mk.injEq] at write read free waiting
  rw [WindowAccess.kind, if_neg write, if_neg read, if_neg free, if_neg waiting]

/-- Settles O5: an access that the layout does not name, and the read of each count. -/
theorem otherWindowAccessChangesNothing : Obligations.OtherWindowAccessChangesNothing := by
  refine fun p a s => ⟨fun write read free waiting => ?_, ?_, ?_⟩
  · have bad : execBadWindowAccess p a s = .next (s.setAnswer (.error p)) := by
      simp only [execBadWindowAccess, WindowAccess.kind_bad write read free waiting]
    exact next_of_exec bad rfl
  · rintro rfl
    exact next_of_exec rfl rfl
  · rintro rfl
    exact next_of_exec rfl rfl

/-! ### Events posted (R176) -/

/-- The member found is the one with the lowest range index. -/
theorem firstMember_eq_some {v : Vector Bool 16} {r : RangeId} (member : v.get r = true)
    (lowest : ∀ q, q < r → v.get q = false) : firstMember v = some r := by
  rw [firstMember, ← List.findSome?_guard, findSome_rising _ _ (List.pairwise_lt_finRange 16)]
  exact ⟨r, List.mem_finRange r, by simp [Option.guard, member], fun q _ below => by simp [Option.guard, lowest q below]⟩

theorem firstMember_eq_none {v : Vector Bool 16} (empty : ∀ q, v.get q = false) : firstMember v = none := by
  simp [firstMember, empty]

theorem exec_eventPost {s : State} {v : EventRecord} {e : EventSet} (first : firstEvent s = some (v, e))
    (place : s.ports.s.filled.length + s.ports.s.reserved < 32) :
    exec .eventPost s = .next (postFree (s.setEvents e) .s (eventCompletion v)) := by
  show execEventPost s = _
  simp only [execEventPost, first]
  exact if_pos ((hasPlace_iff _).mpr place)

/-- Settles O7: the first pending event in each case of the order, posted into the free place. -/
theorem eventPostTakesFirstInOrder : Obligations.EventPostTakesFirstInOrder := by
  rintro s _ rfl place posts
  have post : ∀ v e, firstEvent s = some (v, e) → posts v e := fun v e first =>
    next_of_exec (exec_eventPost first place) rfl
  refine ⟨fun fault => post _ _ ?_, fun noFault entered => post _ _ ?_, fun noFault notEntered test => post _ _ ?_,
    fun noFault notEntered noTest => ⟨fun r member lowest => post _ _ ?_, fun r noSweep member lowest => post _ _ ?_⟩⟩
  · simp [firstEvent, fault]
  · simp [firstEvent, noFault, entered]
  · simp [firstEvent, noFault, notEntered, test]
  · rcases binding : (s.table.entry r).current with _ | b <;>
      simp [firstEvent, noFault, notEntered, noTest, firstMember_eq_some member lowest, binding]
  · simp [firstEvent, noFault, notEntered, noTest, firstMember_eq_none noSweep, firstMember_eq_some member lowest]

/-! ### Records not taken, and records refused unread (R171, R178) -/

/-- Each port has a command for each kind it takes (R178). -/
theorem recordCommands_kinds (p : Port) : (recordCommands p).map Prod.fst = portKinds p := by cases p <;> rfl

/-- A record's command takes a record of its kind at its port. -/
theorem exec_recordCommand (s : State) (p : Port) : ∀ c ∈ recordCommands p, ∃ f, exec c.2 s = onRecord p c.1 s f := by
  cases p <;> simp only [recordCommands, exec, List.forall_mem_cons, List.not_mem_nil, false_imp_iff, implies_true,
    and_true]
  all_goals
    repeat' apply And.intro
    all_goals exact ⟨_, rfl⟩

theorem portTakesCode_iff (p : Port) (code : Byte) : portTakesCode p code = true ↔ ∃ k ∈ portKinds p, k.code = code := by
  simp [portTakesCode]

theorem exec_unknownKind_nothing {s : State} {p : Port} (nothing : TakesNothing s p) :
    exec (.unknownKindRecord p) s = .next s := by
  show execUnknownKindRecord p s = _
  simp only [execUnknownKindRecord, offered_of_takesNothing nothing]

/-- The record offered is the oldest one (R171). -/
theorem head_of_offered {s : State} {p : Port} {r : Record} (offers : offered s p = some r) :
    (s.port p).requests.head? = some r := by
  simp only [offered] at offers
  split at offers
  · exact offers
  · cases offers

/-- A record of a kind that the port takes is no unknown one. -/
theorem exec_unknownKind_known {s : State} {p : Port} {r : Record} (oldest : (s.port p).requests.head? = some r)
    (known : portTakesCode p (kindCode r) = true) : exec (.unknownKindRecord p) s = .next s := by
  show execUnknownKindRecord p s = _
  simp only [execUnknownKindRecord]
  split
  · next r' offers =>
    have same : r' = r := Option.some.inj ((head_of_offered offers).symm.trans oldest)
    rw [same, if_pos known]
  · rfl

/-- The first check of a request with no fields beyond its header is that its other bytes are zero (R32, R178). -/
theorem exec_headerRequest : ∀ h ∈ headerRequests, ∃ (checks : State → List (Bool × Status))
    (accept : Record → State → State), ∀ s, exec h.2 s = onRecord .s h.1 s fun r s =>
      decideRecord .s r ((!(reservedZero r []), .badField) :: checks s) s (accept r s) := by
  simp only [headerRequests, exec, List.forall_mem_cons, List.not_mem_nil, false_imp_iff, implies_true, and_true]
  exact ⟨⟨fun _ => [], _, fun _ => rfl⟩,
    ⟨fun s => [(s.table.admission == .sealed && s.table.capacity == 0, .formatUnset)], _, fun _ => rfl⟩,
    ⟨fun _ => [], _, fun _ => rfl⟩, ⟨fun _ => [], _, fun _ => rfl⟩, ⟨fun _ => [], _, fun _ => rfl⟩,
    ⟨fun _ => [], _, fun _ => rfl⟩, ⟨fun _ => [], _, fun _ => rfl⟩, ⟨fun _ => [], _, fun _ => rfl⟩⟩

/-- Settles O6: the grounds on which a port takes nothing, and the two refusals. -/
theorem unknownKindAndBadHeaderRefused : Obligations.UnknownKindAndBadHeaderRefused := by
  refine ⟨fun p s => ⟨portPermits_iff s p, fun k takes => ?_, fun nothing => ⟨exec_unknownKind_nothing nothing,
    fun c command => ?_⟩, fun r oldest => ⟨fun c command other => ?_, fun k takes same => ?_⟩⟩,
    fun p r s => ⟨fun permits place oldest unknown => ?_, fun h header taken reserved => ?_⟩⟩
  · rw [← recordCommands_kinds, List.mem_map] at takes
    obtain ⟨c, command, rfl⟩ := takes
    exact ⟨c.2, command⟩
  · obtain ⟨f, runs⟩ := exec_recordCommand s p c command
    rw [runs, onRecord_nothing _ _ nothing]
  · obtain ⟨f, runs⟩ := exec_recordCommand s p c command
    rw [runs, onRecord_other _ oldest other]
  · exact exec_unknownKind_known oldest ((portTakesCode_iff p _).mpr ⟨k, takes, same.symm⟩)
  · have offers : offered s p = some r := by
      rw [offered, if_pos (by simp [permits, (hasPlace_iff _).mpr place]), oldest]
    have strange : ¬ portTakesCode p (kindCode r) = true := fun h => by
      obtain ⟨k, takes, same⟩ := (portTakesCode_iff p _).mp h
      exact unknown k takes same
    refine answeredOnly_of_exec ?_
    show execUnknownKindRecord p s = _
    simp only [execUnknownKindRecord, offers, if_neg strange]
  · obtain ⟨checks, accept, runs⟩ := exec_headerRequest h header
    refine answeredOnly_of_exec ?_
    rw [runs, onRecord_taken _ taken]
    simp [decideRecord, firstRefusal_cons, reserved]

end Sys2Proof.Machine
end
section
/-! PROOFS. The bytes of a completion record (R172, R173, R178): the fields of each layout share no byte, so each reads
back at its place; and the read of a completion window with the interrupt line. -/

namespace Sys2Proof.Machine

/-! ### The layout of a completion (R178) -/

/-- The fields of a completion's header: kind, status, tag (R178). -/
def headerFields (c : Completion) : List (Nat × Nat × Nat) :=
  [(0, 1, c.kind.toNat), (1, 1, c.status.code), (2, 2, c.tag.toNat)]

theorem record_eq (c : Completion) : c.record = assemble (headerFields c ++ c.body.fields) := rfl

/-- A body's fields lie behind the header and within the record. -/
theorem bodyFields_behind (b : Body) : ∀ f ∈ b.fields, 4 ≤ f.1 ∧ f.1 + f.2.1 ≤ 32 := by
  cases b with
  | keyQuery q => rcases q with ⟨_, _, _ | ⟨_, _⟩, _⟩ <;> simp [Body.fields, keyFields]
  | event e => cases e <;> simp [Body.fields, eventFields]
  | _ => simp [Body.fields, sweepFields, rangeFields, statusFields]

/-- A body's fields share no byte. -/
theorem bodyFields_apart (b : Body) : b.fields.Pairwise FieldsApart := by
  cases b with
  | keyQuery q => rcases q with ⟨_, _, _ | ⟨_, _⟩, _⟩ <;> simp [Body.fields, keyFields, FieldsApart]
  | event e => cases e <;> simp [Body.fields, eventFields, FieldsApart]
  | _ => simp [Body.fields, sweepFields, rangeFields, statusFields, FieldsApart]

/-- The header is the first four bytes. -/
theorem headerFields_before (c : Completion) : ∀ f ∈ headerFields c, f.1 + f.2.1 ≤ 4 := by simp [headerFields]

theorem recordFields_apart (c : Completion) : (headerFields c ++ c.body.fields).Pairwise FieldsApart := by
  refine List.pairwise_append.mpr ⟨by simp [headerFields, FieldsApart], bodyFields_apart _, fun f hf g hg => .inl ?_⟩
  exact (headerFields_before c f hf).trans (bodyFields_behind _ g hg).1

/-- A field of the header reads back. -/
theorem recordField_header (c : Completion) :
    recordField c.record 0 1 = c.kind.toNat ∧ recordField c.record 1 1 = c.status.code ∧
      recordField c.record 2 2 = c.tag.toNat := by
  have field : ∀ f ∈ headerFields c, f.1 + f.2.1 ≤ 32 →
      recordField c.record f.1 f.2.1 = f.2.2 % 2 ^ (8 * f.2.1) := fun f hf =>
    recordField_assemble (recordFields_apart c) (List.mem_append_left _ hf)
  simp only [headerFields, List.forall_mem_cons] at field
  obtain ⟨kind, status, tag, -⟩ := field
  refine ⟨(kind (by decide)).trans (Nat.mod_eq_of_lt c.kind.isLt), (status (by decide)).trans ?_,
    (tag (by decide)).trans (Nat.mod_eq_of_lt c.tag.isLt)⟩
  cases c.status <;> rfl

/-- Each field listed reads back from the record, cut to its width. -/
def FieldsRead (r : Record) (fs : List (Nat × Nat × Nat)) : Prop :=
  ∀ f ∈ fs, recordField r f.1 f.2.1 = f.2.2 % 2 ^ (8 * f.2.1)

theorem fieldsRead_cons {r : Record} {lo n v : Nat} {fs : List (Nat × Nat × Nat)} :
    FieldsRead r ((lo, n, v) :: fs) ↔ recordField r lo n = v % 2 ^ (8 * n) ∧ FieldsRead r fs := List.forall_mem_cons

theorem fieldsRead_body (c : Completion) : FieldsRead c.record c.body.fields := fun f hf =>
  recordField_assemble (recordFields_apart c) (List.mem_append_right _ hf) (bodyFields_behind _ f hf).2

/-- A byte behind the header that no field of the body names is zero. -/
theorem recordByte_unassigned (c : Completion) {i : Nat} (behind : 4 ≤ i)
    (unassigned : ∀ f ∈ c.body.fields, i < f.1 ∨ f.1 + f.2.1 ≤ i) : recordByte c.record i = 0 := by
  rw [record_eq]
  refine recordByte_assemble fun f hf => ?_
  rcases List.mem_append.mp hf with header | body
  · exact .inr ((headerFields_before c f header).trans behind)
  · exact unassigned f body

/-! ### Values within their fields -/

/-- A value within its field reads back whole. -/
theorem read_whole {a v n : Nat} (read : a = v % 2 ^ (8 * n)) (within : v < 2 ^ (8 * n)) : a = v :=
  read.trans (Nat.mod_eq_of_lt within)

theorem rangeId_byte (x : RangeId) : x.1 < 2 ^ (8 * 1) := x.isLt.trans (by decide)

theorem cellId_byte (c : CellId) : c.1 < 2 ^ (8 * 1) := c.isLt.trans (by decide)

theorem laneMask_byte (v : Vector Bool 4) : laneMask v < 2 ^ (8 * 1) := by
  have masks : ∀ a b c d : Bool, bitAt 0 a + bitAt 1 b + bitAt 2 c + bitAt 3 d < 2 ^ (8 * 1) := by decide
  exact masks _ _ _ _

theorem testCauseCode_byte (c : Option TestCause) : testCauseCode c < 2 ^ (8 * 1) := by
  rcases c with _ | _ | _ | _ <;> decide

theorem retainCauseCode_byte (c : Option RetainCause) : retainCauseCode c < 2 ^ (8 * 1) := by
  rcases c with _ | _ | _ <;> decide

theorem stageCode_byte (st : Stage) : st.code < 2 ^ (8 * 1) := by cases st <;> decide

theorem strengthCode_byte (st : Strength) : st.code < 2 ^ (8 * 1) := by cases st <;> decide

theorem groupStateCode_byte (st : GroupState) : st.code < 2 ^ (8 * 1) := by cases st <;> decide

theorem slotCode_byte (x : Slot) : x.code < 2 ^ (8 * 1) := by cases x <;> decide

theorem bindingBase_byte (b : Option Binding) : bindingBase b < 2 ^ (8 * 1) := by
  cases b with
  | none => decide
  | some b => exact cellId_byte b.group

theorem bindingEpoch_word (b : Option Binding) : bindingEpoch b < 2 ^ (8 * 4) := by
  cases b with
  | none => decide
  | some b => exact b.epoch.isLt

/-- A claim's state has a code below 4, and so has the place of a claim that is not there (R178). -/
theorem claimState_code (q : SweepReport) (n : Nat) : claimField q n (fun c => c.state.code) < 4 := by
  simp only [claimField]
  split
  · next c _ => cases c.state <;> decide
  · decide

/-! ### The flags of a byte (R178) -/

/-- The flags of a RANGE_QUERY completion, byte 5. -/
theorem rangeFlags_bits : ∀ a b c d e f : Bool,
    let n := (bitAt 0 a + bitAt 1 b + bitAt 2 c + bitAt 3 d + bitAt 4 e + bitAt 5 f) % 2 ^ (8 * 1)
    n.testBit 0 = a ∧ n.testBit 1 = b ∧ n.testBit 2 = c ∧ n.testBit 3 = d ∧ n.testBit 4 = e ∧ n.testBit 5 = f := by
  decide

/-- The flags of a STATUS completion, byte 5. -/
theorem statusFlags_bits : ∀ a b c d : Bool,
    let n := (bitAt 0 a + bitAt 1 b + bitAt 2 c + bitAt 3 d) % 2 ^ (8 * 1)
    n.testBit 0 = a ∧ n.testBit 1 = b ∧ n.testBit 2 = c ∧ n.testBit 3 = d := by decide

/-- The flags of a KEY_QUERY completion, byte 6, of a cell in no group and of one in a group. -/
theorem keyFlags_bits : ∀ a b : Bool,
    let free := (bitAt 0 a + bitAt 1 true) % 2 ^ (8 * 1)
    let held := (bitAt 0 a + bitAt 2 b) % 2 ^ (8 * 1)
    (free.testBit 0 = a ∧ free.testBit 1 = true) ∧
      held.testBit 0 = a ∧ held.testBit 1 = false ∧ held.testBit 2 = b := by decide

/-- The flags of a SWEEP_QUERY completion, byte 5, with the states of two claims above them. -/
theorem sweepFlags_bits : ∀ a b : Bool, ∀ x < 4, ∀ y < 4,
    let n := (bitAt 0 a + bitAt 1 b + 4 * x + 16 * y) % 2 ^ (8 * 1)
    n.testBit 0 = a ∧ n.testBit 1 = b ∧ n / 4 % 4 = x ∧ n / 16 = y := by decide

/-! ### The body of each layout (R178) -/

theorem sweep_bytes {r : Record} {q : SweepReport} (read : FieldsRead r (sweepFields q)) : BodyBytes r (.sweep q) := by
  simp only [sweepFields, fieldsRead_cons] at read
  obtain ⟨range, flags, count0, count1, mark, next, first0, first1, overtaken0, overtaken1, -⟩ := read
  obtain ⟨bit0, bit1, state0, state1⟩ := sweepFlags_bits q.mark.isSome (q.next == some none) _ (claimState_code q 0) _
    (claimState_code q 1)
  simp only [BodyBytes, recordByte_bit, flags]
  exact ⟨read_whole range (rangeId_byte _), bit0, bit1, state0, state1, count0, count1, mark, next, first0, first1,
    overtaken0, overtaken1⟩

theorem range_bytes {r : Record} {x : RangeId} {e : RangeRec} (read : FieldsRead r (rangeFields x e)) :
    BodyBytes r (.range x e) := by
  simp only [rangeFields, fieldsRead_cons] at read
  obtain ⟨range, flags, base, previousBase, first, last, epoch, previousEpoch, refusals, -⟩ := read
  obtain ⟨bit0, bit1, bit2, bit3, bit4, bit5⟩ := rangeFlags_bits e.present e.readLock e.writeLock e.locksAtRetain
    e.current.isSome e.previous.isSome
  simp only [BodyBytes, recordByte_bit, flags]
  exact ⟨read_whole range (rangeId_byte _), bit0, bit1, bit2, bit3, bit4, bit5, read_whole base (bindingBase_byte _),
    read_whole previousBase (bindingBase_byte _), first, last, read_whole epoch (bindingEpoch_word _),
    read_whole previousEpoch (bindingEpoch_word _), refusals⟩

/-- A cell in no group: the bytes of a group's state and strength, which the layout does not assign then, are zero. -/
theorem key_bytes {r : Record} {q : KeyReport} (read : FieldsRead r (keyFields q))
    (zero : ∀ i, 4 ≤ i → (∀ f ∈ keyFields q, i < f.1 ∨ f.1 + f.2.1 ≤ i) → recordByte r i = 0) :
    BodyBytes r (.keyQuery q) := by
  obtain ⟨cell, cellFilled, _ | ⟨b, g⟩, filled⟩ := q
  · simp only [keyFields, fieldsRead_cons] at read
    obtain ⟨own, base, flags, -⟩ := read
    obtain ⟨⟨bit0, bit1⟩, -⟩ := keyFlags_bits cellFilled false
    have state : recordField r 7 1 = 0 := congrArg BitVec.toNat (zero 7 (by decide) (by simp [keyFields]))
    have strength : recordField r 8 1 = 0 := congrArg BitVec.toNat (zero 8 (by decide) (by simp [keyFields]))
    simp only [BodyBytes, recordByte_bit, flags]
    exact ⟨read_whole own (cellId_byte _), bit0, bit1,
      fun _ => ⟨read_whole base (cellId_byte _), state, strength⟩, fun _ _ h => nomatch h⟩
  · obtain ⟨_, _, bound, _, waiting⟩ := g
    simp only [keyFields, fieldsRead_cons] at read
    obtain ⟨own, base, flags, state, strength, held, range, slot, pinned, tag, -⟩ := read
    obtain ⟨-, bit0, bit1, bit2⟩ := keyFlags_bits cellFilled waiting.isSome
    simp only [BodyBytes, recordByte_bit, flags]
    refine ⟨read_whole own (cellId_byte _), bit0, bit1, (fun h => nomatch h), ?_⟩
    rintro _ _ ⟨⟩
    refine ⟨bit2, read_whole base (cellId_byte _), read_whole state (groupStateCode_byte _),
      read_whole strength (strengthCode_byte _), held, ?_, ?_, pinned, ?_⟩
    · cases bound with
      | none => exact range
      | some b => exact read_whole range (rangeId_byte _)
    · cases bound with
      | none => exact slot
      | some b => exact read_whole slot (slotCode_byte _)
    · cases waiting with
      | none => exact tag
      | some t => exact read_whole tag t.isLt

theorem status_bytes {r : Record} {q : StatusReport} (read : FieldsRead r (statusFields q)) : BodyBytes r (.status q) := by
  obtain ⟨stage, admission, capacity, dataUnit, faulted, faultAddr, inService, selfTest, remaining, iJobs, mJobs, claims,
    load⟩ := q
  simp only [statusFields, fieldsRead_cons] at read
  obtain ⟨code, flags, lanes, passed, size, addr, cause, runs, left, i, m, claimed, base, strength, parts, -⟩ := read
  obtain ⟨bit0, bit1, bit2, bit3⟩ := statusFlags_bits (admission == .opened) faulted (dataUnit == .u4096) load.isSome
  simp only [BodyBytes, recordByte_bit, flags]
  refine ⟨read_whole code (stageCode_byte _), bit0, bit1, bit2, bit3, read_whole lanes (laneMask_byte _),
    read_whole passed (laneMask_byte _), size, addr, read_whole cause (testCauseCode_byte _),
    read_whole runs selfTest.runs.isLt, left, i, m, claimed, ?_⟩
  cases load with
  | none => exact ⟨base, strength, parts⟩
  | some l => exact ⟨read_whole base (cellId_byte _), read_whole strength (strengthCode_byte _), parts⟩

theorem event_bytes {r : Record} {e : EventRecord} (read : FieldsRead r (eventFields e)) : BodyBytes r (.event e) := by
  cases e with
  | rangeRefused x n =>
    simp only [eventFields, fieldsRead_cons] at read
    obtain ⟨code, range, count, -⟩ := read
    exact ⟨code, read_whole range (rangeId_byte _), count⟩
  | sweepDone x epoch =>
    simp only [eventFields, fieldsRead_cons] at read
    obtain ⟨code, range, bits, -⟩ := read
    exact ⟨code, read_whole range (rangeId_byte _), read_whole bits epoch.isLt⟩
  | busFault a =>
    simp only [eventFields, fieldsRead_cons] at read
    obtain ⟨code, addr, -⟩ := read
    exact ⟨code, addr⟩
  | selfTest t =>
    simp only [eventFields, fieldsRead_cons] at read
    obtain ⟨code, cause, passed, runs, -⟩ := read
    exact ⟨code, read_whole cause (testCauseCode_byte _), read_whole passed (laneMask_byte _),
      read_whole runs t.runs.isLt⟩
  | retainEntered cause =>
    simp only [eventFields, fieldsRead_cons] at read
    obtain ⟨code, why, -⟩ := read
    exact ⟨code, read_whole why (retainCauseCode_byte _)⟩

/-- The flags of a key load, two bits of byte 4. -/
theorem loadFlags_byte : ∀ a b : Bool, bitAt 0 a + bitAt 1 b < 2 ^ (8 * 1) := by decide

/-- The bytes of a completion's body stand at the places of R178. -/
theorem bodyBytes_record (c : Completion) : BodyBytes c.record c.body := by
  have read := fieldsRead_body c
  have zero := fun i behind => recordByte_unassigned c (i := i) behind
  generalize c.body = body at read zero
  cases body with
  | empty => trivial
  | data done blank fault first =>
    simp only [Body.fields, fieldsRead_cons] at read
    obtain ⟨done, blank, fault, first, -⟩ := read
    exact ⟨done, blank, fault, first⟩
  | recipher n already fault first overtaken =>
    simp only [Body.fields, fieldsRead_cons] at read
    obtain ⟨n, already, fault, first, overtaken, -⟩ := read
    exact ⟨n, already, fault, first, overtaken⟩
  | screen live retired =>
    simp only [Body.fields, fieldsRead_cons] at read
    obtain ⟨live, retired, -⟩ := read
    exact ⟨live, retired⟩
  | claim x next =>
    simp only [Body.fields, fieldsRead_cons] at read
    obtain ⟨range, flag, start, -⟩ := read
    exact ⟨read_whole range (rangeId_byte _), read_whole flag (loadFlags_byte next.isNone false), start⟩
  | sweep q => exact sweep_bytes read
  | range x e => exact range_bytes read
  | keyLoad abandoned complete filled =>
    simp only [Body.fields, fieldsRead_cons] at read
    obtain ⟨flags, filled, -⟩ := read
    exact ⟨read_whole flags (loadFlags_byte _ _), filled⟩
  | keyQuery q => exact key_bytes read zero
  | laneTest passed runs =>
    simp only [Body.fields, fieldsRead_cons] at read
    obtain ⟨lanes, count, -⟩ := read
    exact ⟨read_whole lanes (laneMask_byte _), read_whole count runs.isLt⟩
  | reset iJobs mJobs iRecords mRecords =>
    simp only [Body.fields, fieldsRead_cons] at read
    obtain ⟨iJobs, mJobs, iRecords, mRecords, -⟩ := read
    exact ⟨iJobs, mJobs, iRecords, mRecords⟩
  | status q => exact status_bytes read
  | event e => exact event_bytes read

/-! ### The completion window and the interrupt line (R172, R173) -/

theorem interruptLine_iff (s : State) (p : Port) : interruptLine s p = true ↔ (s.port p).filled ≠ [] := by
  simp [interruptLine, completionsWaiting, List.length_pos_iff]

/-- The interrupt line is told from the filled places of its own port. -/
theorem interruptLine_congr {s t : State} {p : Port} (same : t.port p = s.port p) :
    interruptLine t p = interruptLine s p := by rw [interruptLine, interruptLine, same]

/-- The state with a port's oldest completion read and its place freed (R172; log entry 13). -/
def completionRead (s : State) (p : Port) (c : Completion) (cs : List Completion) : State :=
  { s.setPort p { s.port p with filled := cs } with answer := .record p c.record }

theorem port_completionRead (s : State) (p p' : Port) (c : Completion) (cs : List Completion) :
    (completionRead s p c cs).port p' = if p' = p then { s.port p with filled := cs } else s.port p' :=
  (State.port_setAnswer _ (.record p c.record) p').trans (State.port_setPort ..)

theorem exec_completionWindowRead_filled {s : State} {p : Port} {c : Completion} {cs : List Completion}
    (filled : (s.port p).filled = c :: cs) : exec (.completionWindowRead p) s = .next (completionRead s p c cs) := by
  show execCompletionWindowRead p s = _
  simp only [execCompletionWindowRead, filled]
  rfl

theorem exec_completionWindowRead_empty {s : State} {p : Port} (filled : (s.port p).filled = []) :
    exec (.completionWindowRead p) s = .next (s.setAnswer (.record p 0)) := by
  show execCompletionWindowRead p s = _
  simp only [execCompletionWindowRead, filled]

/-- Settles O4: the record's bytes, the interrupt line, and the read with and without a filled place. -/
theorem completionReadGivesOldest : Obligations.CompletionReadGivesOldest := by
  refine ⟨fun c => ?_, fun p s => ⟨interruptLine_iff s p, fun c cs filled => ?_, fun filled => ?_⟩⟩
  · obtain ⟨kind, status, tag⟩ := recordField_header c
    exact ⟨BitVec.eq_of_toNat_eq kind, status, BitVec.eq_of_toNat_eq tag, bodyBytes_record c,
      fun i behind _ unassigned => recordByte_unassigned c behind unassigned⟩
  · refine ⟨_, exec_completionWindowRead_filled filled, sameMemory_of_buffer (State.setPort_buffer ..), ?_,
      fun p' other => interruptLine_congr ?_, rfl⟩
    · rw [interruptLine_iff, port_completionRead, if_pos rfl]
    · rw [port_completionRead, if_neg other]
  · exact next_of_exec (exec_completionWindowRead_empty filled) rfl

end Sys2Proof.Machine
end
section
/-! PROOFS. The step takes the command at the front of the queue (O1); and what one command makes of buffer memory (R15, R78,
R98, R168): all but six leave it as it was, those write at one address or cut the writes in flight, and so every step
keeps the canonical form (O53). -/

namespace Sys2Proof.Machine

/-! ### One step (log entry 1) -/

theorem step_of_cons {s : State} {c : Instr} {rest : List Instr} (front : s.pending = c :: rest) :
    step s = exec c { s with pending := rest } := by rw [step, front]

theorem step_of_nil {s : State} (idle : s.pending = []) : step s = .next s := by rw [step, idle]

/-- Settles O1, by what a step does on a queue with a front and on an empty one. -/
theorem stepRunsFrontCommand : Obligations.StepRunsFrontCommand :=
  ⟨fun _ _ _ => step_of_cons rfl, fun _ => step_of_nil⟩

/-! ### Operations that leave memory alone -/

/-- Operations one after the other, none of which changes memory. -/
theorem foldl_buffer {α : Type} {f : State → α → State} (leaves : ∀ u a, (f u a).buffer = u.buffer) (L : List α)
    (s : State) : (L.foldl f s).buffer = s.buffer :=
  List.foldlRecOn (motive := fun u => u.buffer = s.buffer) L f rfl fun u same a _ => (leaves u a).trans same

/-- A command that answers a state with the memory of before. -/
theorem buffer_of_next {s t u : State} (h : (.next u : Host.Outcome State Fault Refusal) = .next t)
    (same : u.buffer = s.buffer) : t.buffer = s.buffer := Host.Outcome.next.inj h ▸ same

theorem onRecord_buffer {s t : State} {p : Port} {k : Kind} {f : Record → State → State}
    (h : onRecord p k s f = .next t) (block : ∀ r u, (f r u).buffer = u.buffer) : t.buffer = s.buffer := by
  obtain rfl | ⟨r, -, rfl⟩ := onRecord_cases h
  · rfl
  · rw [block, takeRecord_buffer]

theorem decideRecord_buffer {p : Port} {r : Record} {checks : List (Bool × Status)} {s accept : State}
    (h : accept.buffer = s.buffer) : (decideRecord p r checks s accept).buffer = s.buffer := by
  obtain e | ⟨st, -, e⟩ := decideRecord_cases p r checks s accept
  · rw [e, h]
  · rw [e, answerRecord_buffer]

theorem withRange_buffer {p : Port} {r : Record} {assigned : List Nat} {s : State} {f : RangeId → State}
    (h : ∀ x, (f x).buffer = s.buffer) : (withRange p r assigned s f).buffer = s.buffer := by
  simp only [withRange]
  split
  · split
    · exact h _
    · exact answerRecord_buffer ..
  · exact answerRecord_buffer ..

theorem withGroup_buffer {r : Record} {s : State} {f : CellId → State} (h : ∀ g, (f g).buffer = s.buffer) :
    (withGroup r s f).buffer = s.buffer := by
  simp only [withGroup]
  split
  · exact h _
  · exact answerRecord_buffer ..

theorem withCell_buffer {r : Record} {assigned : List Nat} {s : State} {f : CellId → State}
    (h : ∀ c, (f c).buffer = s.buffer) : (withCell r assigned s f).buffer = s.buffer := by
  simp only [withCell]
  split
  · split
    · exact h _
    · exact answerRecord_buffer ..
  · exact answerRecord_buffer ..

/-! ### What the blocks do with a record -/

theorem rekeyRange_buffer (s : State) (x : RangeId) (b : Binding) : (rekeyRange s x b).buffer = s.buffer := by
  simp only [rekeyRange]
  split <;> rfl

theorem cancelJob_buffer (s : State) (k : Nat) : (cancelJob s k).buffer = s.buffer := by
  simp only [cancelJob]
  split
  · rw [closeJob_buffer, setJob_buffer]
  · rfl

theorem eraseRange_buffer (s : State) (x : RangeId) (b : Binding) : (eraseRange s x b).buffer = s.buffer := by
  rw [eraseRange, settle_buffer, forEachSlot, foldl_buffer]
  · rfl
  · intro u k
    split
    · exact cancelJob_buffer u k
    · rfl

theorem refuseIo_buffer (s : State) (k : JobKind) (r : Record) (st : Status) : (refuseIo s k r st).buffer = s.buffer := by
  simp only [refuseIo]
  split
  · rw [answerRecord_buffer, countRefusal_buffer]
  · exact answerRecord_buffer ..

theorem acceptJob_buffer (s : State) (side : Side) (j : Job) : (acceptJob s side j).buffer = s.buffer := by
  have told : ∀ u : State, (jobAccepted u side).buffer = u.buffer := fun u => by
    cases side with
    | i => rfl
    | m => simp only [jobAccepted]; split <;> rfl
  rw [acceptJob, told, State.setKeys_buffer, setJob_buffer]

theorem clearGroup_buffer (s : State) (r : Record) (c : CellId) (g : GroupRec) :
    (clearGroup s r c g).buffer = s.buffer := by
  simp only [clearGroup]
  split
  · rw [answerRecord_buffer, State.setKeys_buffer]
  · split
    · rw [answerRecord_buffer, State.setKeys_buffer]
    · rw [State.setKeys_buffer]
  · rw [answerRecord_buffer]

theorem retainAtOnce_buffer (s : State) (r : Record) : (retainAtOnce s r).buffer = s.buffer := by
  rw [retainAtOnce, wakeByRecord_buffer, answerRecord_buffer]
  rfl

theorem retainByStage_buffer (r : Record) (s : State) : (retainByStage r s).buffer = s.buffer := by
  simp only [retainByStage]
  split
  · split
    · exact retainAtOnce_buffer s r
    · split <;> rfl
  · exact retainAtOnce_buffer s r
  · rfl
  · rfl
  · rfl

theorem wakeByStage_buffer (r : Record) (s : State) : (wakeByStage r s).buffer = s.buffer := by
  simp only [wakeByStage]
  split <;> rfl

theorem laneTestByStage_buffer (r : Record) (s : State) : (laneTestByStage r s).buffer = s.buffer := by
  simp only [laneTestByStage]
  split <;> rfl

/-! ### Lanes, stages and resets -/

theorem grantSector_buffer (s : State) (l : LaneId) (side : Side) (k : Nat) (j : Job) (lba : Nat) :
    (grantSector s l side k j lba).buffer = s.buffer := by
  rw [grantSector, askAccess_buffer, setWork, State.setLane_buffer, setJob_buffer]

theorem expireTimer_buffer (s : State) : (expireTimer s).buffer = s.buffer := by
  simp only [expireTimer]
  split
  · exact wakeByRecord_buffer _
  · rfl

theorem timerSecond_buffer (s : State) : (timerSecond s).buffer = s.buffer := by
  simp only [timerSecond]
  split
  · exact expireTimer_buffer s
  · rfl

theorem endLaneTest_buffer (s : State) (l : LaneId) (run : TestRun) (passed : Bool) :
    (endLaneTest s l run passed).buffer = s.buffer := by
  simp only [endLaneTest]
  split
  · rfl
  · simp only [endTestRun]
    split <;> rfl

theorem endEngineReset_buffer (s : State) : (endEngineReset s).buffer = s.buffer := by
  simp only [endEngineReset]
  split
  · split <;> rfl
  · rfl

theorem endZeroize_buffer (s : State) : (endZeroize s).buffer = s.buffer := by
  simp only [endZeroize]
  split
  · split <;> rfl
  · rfl

theorem answerQuota_buffer (s : State) (side : Side) (run : ResetRun) (r : Record) :
    (answerQuota s side run r).buffer = s.buffer := by cases side <;> rfl

/-! ### The writes in flight cut off (R98, R168) -/

theorem wf_cutWrite {s : State} (h : Memory.wf s.buffer = true) (a : Access) :
    Memory.wf (cutWrite s a).buffer = true := by
  simp only [cutWrite]
  split
  · exact wf_cutBytes _ _ _ _ _ h
  · exact h

theorem wf_dropAll {s : State} (h : Memory.wf s.buffer = true) : Memory.wf (dropAll s).buffer = true :=
  List.foldlRecOn (motive := fun u : State => Memory.wf u.buffer = true) _ cutWrite h fun _ hu a _ => wf_cutWrite hu a

/-- A bus fault changes memory where it drops the accesses, and nowhere later (R98 to R101). -/
theorem busFault_buffer (s : State) (a : Access) : (busFault s a).buffer = (dropAll s).buffer := by
  rw [busFault_eq_settle, settle_buffer, raiseBusFault, State.setEvents_buffer, (faultEndedAll_tells s a).buffer,
    (faultEndedI_tells s a).buffer, faultStopped, mapJobs_buffer, mapJobs_buffer, abandonAll,
    (foldl_abandonSector_quits _ (List.nodup_finRange 4) _).buffer]
  rfl

/-! ### What a command makes of memory -/

/-- All that buffer memory can be after a command: as it was, with bytes written from one address on, or with the writes in
flight cut off (R15, R78, R98, R168; log entries 5 and 6). -/
inductive MemoryAfter (s : State) : Memory → Prop
  | same : MemoryAfter s s.buffer
  | written (a : Nat) (bytes : List Byte) : MemoryAfter s (writeBytes s.buffer a bytes)
  | cut : MemoryAfter s (dropAll s).buffer

namespace MemoryAfter

variable {s t u : State}

theorem wf {m : Memory} (h : MemoryAfter s m) (canonical : Memory.wf s.buffer = true) : m.wf = true := by
  cases h with
  | same => exact canonical
  | written a bytes => exact wf_writeBytes bytes _ a canonical
  | cut => exact wf_dropAll canonical

theorem of_same (h : t.buffer = s.buffer) : MemoryAfter s t.buffer := h ▸ .same

theorem of_next (h : (.next u : Host.Outcome State Fault Refusal) = .next t) (same : u.buffer = s.buffer) :
    MemoryAfter s t.buffer := of_same (buffer_of_next h same)

/-- A command that answers a state with bytes written. -/
theorem of_written {a : Nat} {bytes : List Byte} (h : (.next u : Host.Outcome State Fault Refusal) = .next t)
    (written : u.buffer = writeBytes s.buffer a bytes) : MemoryAfter s t.buffer :=
  Host.Outcome.next.inj h ▸ written ▸ .written a bytes

end MemoryAfter

section
variable {s t : State}

/-! ### Accesses delivered (R13, R15, R78) -/

theorem execTrailerReadDone_memory {l : LaneId} {placed : List Byte} (h : execTrailerReadDone l placed s = .next t) :
    MemoryAfter s t.buffer := by
  have follows : ∀ (u : State) w (c : Classified), (afterTrailer u l w c).buffer = u.buffer := fun u w c => by
    cases c with
    | choose g => exact askAccess_buffer ..
    | zeros => exact startWriting_buffer ..
    | ends v => exact settle_reportSector_buffer ..
  simp only [execTrailerReadDone] at h
  split at h
  · split at h
    · split at h
      · exact .of_written h (follows ..)
      · exact .of_next h rfl
    · exact .of_next h rfl
  · exact .of_next h rfl

theorem execDataUnitReadDone_memory {l : LaneId} {placed : List Byte} (h : execDataUnitReadDone l placed s = .next t) :
    MemoryAfter s t.buffer := by
  simp only [execDataUnitReadDone] at h
  split at h
  · split at h
    · exact .of_written h rfl
    · exact .of_next h rfl
  · exact .of_next h rfl

theorem execResultWriteDone_memory {l : LaneId} (h : execResultWriteDone l s = .next t) : MemoryAfter s t.buffer := by
  simp only [execResultWriteDone] at h
  split at h
  · split at h
    · split at h
      · exact .of_written h ((settle_buffer _).trans (reportSector_buffer ..))
      · exact .of_next h rfl
    · exact .of_next h rfl
  · exact .of_next h rfl

theorem execVerdictListWriteDone_memory {side : Side} {slot : Nat} (h : execVerdictListWriteDone side slot s = .next t) :
    MemoryAfter s t.buffer := by
  simp only [execVerdictListWriteDone] at h
  split at h
  · split at h
    · exact .of_written h ((settle_buffer _).trans (postJob_buffer ..))
    · exact .of_next h rfl
  · exact .of_next h rfl

theorem execBusErrorResponse_memory {who : Requester} (h : execBusErrorResponse who s = .next t) :
    MemoryAfter s t.buffer := by
  simp only [execBusErrorResponse] at h
  split at h
  · split at h
    · exact .of_next h rfl
    · rw [← Host.Outcome.next.inj h, busFault_buffer]
      exact .cut
  · exact .of_next h rfl

/-! ### Commands other than requests -/

theorem execGrant_buffer (h : execGrant s = .next t) : t.buffer = s.buffer := by
  simp only [execGrant] at h
  split at h
  · split at h
    · split at h
      · exact buffer_of_next h (grantSector_buffer ..)
      · exact buffer_of_next h rfl
    · exact buffer_of_next h rfl
  · exact buffer_of_next h rfl

theorem execTransformEnd_buffer {l : LaneId} (h : execTransformEnd l s = .next t) : t.buffer = s.buffer := by
  simp only [execTransformEnd] at h
  split at h
  · split at h
    · split at h
      · exact buffer_of_next h (startWriting_buffer ..)
      · exact buffer_of_next h (settle_reportSector_buffer ..)
      · exact buffer_of_next h rfl
    · exact buffer_of_next h rfl
  · exact buffer_of_next h rfl

theorem execRequestWindowWrite_buffer {p : Port} {r : Record} (h : execRequestWindowWrite p r s = .next t) :
    t.buffer = s.buffer := by
  simp only [execRequestWindowWrite] at h
  split at h
  · refine buffer_of_next h ?_
    split
    · exact State.setPort_buffer ..
    · exact (wakeByRecord_buffer _).trans (State.setPort_buffer ..)
  · exact buffer_of_next h rfl

theorem execCompletionWindowRead_buffer {p : Port} (h : execCompletionWindowRead p s = .next t) :
    t.buffer = s.buffer := by
  simp only [execCompletionWindowRead] at h
  split at h
  · exact buffer_of_next h (State.setPort_buffer ..)
  · exact buffer_of_next h rfl

theorem execBadWindowAccess_buffer {p : Port} {a : WindowAccess} (h : execBadWindowAccess p a s = .next t) :
    t.buffer = s.buffer := by
  simp only [execBadWindowAccess] at h
  split at h <;> exact buffer_of_next h rfl

theorem execUnknownKindRecord_buffer {p : Port} (h : execUnknownKindRecord p s = .next t) : t.buffer = s.buffer := by
  simp only [execUnknownKindRecord] at h
  split at h
  · split at h
    · exact buffer_of_next h rfl
    · exact buffer_of_next h (by rw [answerRecord_buffer, takeRecord_buffer])
  · exact buffer_of_next h rfl

theorem execEventPost_buffer (h : execEventPost s = .next t) : t.buffer = s.buffer := by
  simp only [execEventPost] at h
  split at h
  · split at h <;> exact buffer_of_next h rfl
  · exact buffer_of_next h rfl

theorem execAbortQuotaAnswer_buffer {side : Side} (h : execAbortQuotaAnswer side s = .next t) :
    t.buffer = s.buffer := by
  simp only [execAbortQuotaAnswer] at h
  split at h
  · split at h
    · exact buffer_of_next h ((settle_buffer _).trans (answerQuota_buffer ..))
    · exact buffer_of_next h rfl
  · exact buffer_of_next h rfl

theorem execInactivityTick_buffer (h : execInactivityTick s = .next t) : t.buffer = s.buffer := by
  simp only [execInactivityTick] at h
  split at h
  · exact buffer_of_next h (timerSecond_buffer s)
  · exact buffer_of_next h rfl

theorem execInactivityExpiry_buffer (h : execInactivityExpiry s = .next t) : t.buffer = s.buffer := by
  simp only [execInactivityExpiry] at h
  split at h
  · exact buffer_of_next h (expireTimer_buffer s)
  · exact buffer_of_next h rfl

theorem execLaneSelfTestEnd_buffer {l : LaneId} {encOk decOk : Bool} (h : execLaneSelfTestEnd l encOk decOk s = .next t) :
    t.buffer = s.buffer := by
  simp only [execLaneSelfTestEnd] at h
  split at h
  · split at h
    · exact buffer_of_next h (endLaneTest_buffer ..)
    · exact buffer_of_next h rfl
  · exact buffer_of_next h rfl

/-! ### Requests with more than one outcome past their checks -/

theorem execRead_buffer (h : execRead s = .next t) : t.buffer = s.buffer := by
  refine onRecord_buffer h fun r u => ?_
  split
  · exact refuseIo_buffer ..
  · exact acceptJob_buffer ..

theorem execWrite_buffer (h : execWrite s = .next t) : t.buffer = s.buffer := by
  refine onRecord_buffer h fun r u => ?_
  split
  · exact refuseIo_buffer ..
  · exact acceptJob_buffer ..

theorem execClaim_buffer (h : execClaim s = .next t) : t.buffer = s.buffer := by
  refine onRecord_buffer h fun r u => withRange_buffer fun x => ?_
  split
  · rfl
  · split <;> rfl

theorem execRelease_buffer (h : execRelease s = .next t) : t.buffer = s.buffer := by
  refine onRecord_buffer h fun r u => withRange_buffer fun x => ?_
  split <;> rfl

theorem execRecipher_buffer (h : execRecipher s = .next t) : t.buffer = s.buffer := by
  refine onRecord_buffer h fun r u => ?_
  split
  · exact acceptJob_buffer ..
  · rfl
  · rfl

theorem execScreen_buffer (h : execScreen s = .next t) : t.buffer = s.buffer := by
  refine onRecord_buffer h fun r u => ?_
  split
  · rfl
  · exact acceptJob_buffer ..

theorem execFormatSet_buffer (h : execFormatSet s = .next t) : t.buffer = s.buffer := by
  refine onRecord_buffer h fun r u => ?_
  split
  · rfl
  · exact decideRecord_buffer rfl

theorem execKeyOpen_buffer (h : execKeyOpen s = .next t) : t.buffer = s.buffer := by
  refine onRecord_buffer h fun r u => withCell_buffer fun base => ?_
  split
  · rfl
  · exact decideRecord_buffer rfl

theorem execKeyPart_buffer (h : execKeyPart s = .next t) : t.buffer = s.buffer := by
  refine onRecord_buffer h fun r u => withCell_buffer fun c => ?_
  split
  · rfl
  · exact decideRecord_buffer rfl

theorem execKeyClear_buffer (h : execKeyClear s = .next t) : t.buffer = s.buffer := by
  refine onRecord_buffer h fun r u => withCell_buffer fun c => ?_
  split
  · rfl
  · exact decideRecord_buffer (clearGroup_buffer ..)

theorem execClassSet_buffer (h : execClassSet s = .next t) : t.buffer = s.buffer := by
  refine onRecord_buffer h fun r u => ?_
  dsimp only
  split <;> rfl

theorem execInactivitySet_buffer (h : execInactivitySet s = .next t) : t.buffer = s.buffer := by
  refine onRecord_buffer h fun r u => ?_
  dsimp only
  split <;> rfl

/-! ### Requests with one outcome past their checks -/

theorem execKeyQuery_buffer (h : execKeyQuery s = .next t) : t.buffer = s.buffer :=
  onRecord_buffer h fun _ _ => withCell_buffer fun _ => rfl

theorem execRangeQuery_buffer (h : execRangeQuery s = .next t) : t.buffer = s.buffer :=
  onRecord_buffer h fun _ _ => withRange_buffer fun _ => rfl

theorem execSweepQuery_buffer {p : QueryPort} (h : execSweepQuery p s = .next t) : t.buffer = s.buffer :=
  onRecord_buffer h fun _ _ => withRange_buffer fun _ => decideRecord_buffer (answerRecord_buffer ..)

theorem execRangeDefine_buffer (h : execRangeDefine s = .next t) : t.buffer = s.buffer :=
  onRecord_buffer h fun _ _ => withRange_buffer fun _ => decideRecord_buffer rfl

theorem execRangeDelete_buffer (h : execRangeDelete s = .next t) : t.buffer = s.buffer :=
  onRecord_buffer h fun _ _ => withRange_buffer fun _ => decideRecord_buffer rfl

theorem execRangeLocks_buffer (h : execRangeLocks s = .next t) : t.buffer = s.buffer :=
  onRecord_buffer h fun _ _ => withRange_buffer fun _ => decideRecord_buffer rfl

theorem execCountClear_buffer (h : execCountClear s = .next t) : t.buffer = s.buffer :=
  onRecord_buffer h fun _ _ => withRange_buffer fun _ => decideRecord_buffer rfl

theorem execRangeBind_buffer (h : execRangeBind s = .next t) : t.buffer = s.buffer :=
  onRecord_buffer h fun _ _ => withRange_buffer fun _ => withGroup_buffer fun _ =>
    decideRecord_buffer rfl

theorem execRangeRekey_buffer (h : execRangeRekey s = .next t) : t.buffer = s.buffer :=
  onRecord_buffer h fun _ _ => withRange_buffer fun _ => withGroup_buffer fun _ =>
    decideRecord_buffer ((answerRecord_buffer ..).trans (rekeyRange_buffer ..))

theorem execRangeErase_buffer (h : execRangeErase s = .next t) : t.buffer = s.buffer :=
  onRecord_buffer h fun _ _ => withRange_buffer fun _ => withGroup_buffer fun _ =>
    decideRecord_buffer ((answerRecord_buffer ..).trans (eraseRange_buffer ..))

/-! ### Requests without a range, a group or a cell -/

/-- A request decided by checks alone. -/
theorem decided_buffer {p : Port} {k : Kind} {checks : Record → State → List (Bool × Status)}
    {accept : Record → State → State}
    (h : onRecord p k s (fun r u => decideRecord p r (checks r u) u (accept r u)) = .next t)
    (block : ∀ r u, (accept r u).buffer = u.buffer) : t.buffer = s.buffer :=
  onRecord_buffer h fun r u => decideRecord_buffer (block r u)

theorem execStatus_buffer (h : execStatus s = .next t) : t.buffer = s.buffer :=
  decided_buffer h fun _ _ => rfl

theorem execAdmitRequest_buffer (h : execAdmitRequest s = .next t) : t.buffer = s.buffer :=
  decided_buffer h fun _ _ => rfl

theorem execSealRequest_buffer (h : execSealRequest s = .next t) : t.buffer = s.buffer :=
  decided_buffer h fun _ _ => rfl

theorem execBusRecover_buffer (h : execBusRecover s = .next t) : t.buffer = s.buffer :=
  decided_buffer h fun _ _ => rfl

theorem execEngineReset_buffer (h : execEngineReset s = .next t) : t.buffer = s.buffer :=
  decided_buffer h (takeReset_buffer .engine)

theorem execZeroize_buffer (h : execZeroize s = .next t) : t.buffer = s.buffer :=
  decided_buffer h (takeReset_buffer .zeroize)

theorem execRetain_buffer (h : execRetain s = .next t) : t.buffer = s.buffer :=
  decided_buffer h retainByStage_buffer

theorem execWake_buffer (h : execWake s = .next t) : t.buffer = s.buffer :=
  decided_buffer h wakeByStage_buffer

theorem execLaneTest_buffer (h : execLaneTest s = .next t) : t.buffer = s.buffer :=
  decided_buffer h laneTestByStage_buffer

/-! ### Every command and every step -/

/-- What each command makes of memory: the first six reach it, no other command does. -/
theorem exec_memory {c : Instr} (h : exec c s = .next t) : MemoryAfter s t.buffer := by
  cases c with
  | powerOnReset =>
    cases h
    exact .cut
  | trailerReadDone l placed => exact execTrailerReadDone_memory h
  | dataUnitReadDone l placed => exact execDataUnitReadDone_memory h
  | resultWriteDone l => exact execResultWriteDone_memory h
  | verdictListWriteDone side slot => exact execVerdictListWriteDone_memory h
  | busErrorResponse who => exact execBusErrorResponse_memory h
  | droppedAccessResponse who kind => exact .of_next h rfl
  | grant => exact .of_same (execGrant_buffer h)
  | transformEnd l => exact .of_same (execTransformEnd_buffer h)
  | requestWindowWrite p r => exact .of_same (execRequestWindowWrite_buffer h)
  | completionWindowRead p => exact .of_same (execCompletionWindowRead_buffer h)
  | badWindowAccess p a => exact .of_same (execBadWindowAccess_buffer h)
  | unknownKindRecord p => exact .of_same (execUnknownKindRecord_buffer h)
  | eventPost => exact .of_same (execEventPost_buffer h)
  | abortQuotaAnswer side => exact .of_same (execAbortQuotaAnswer_buffer h)
  | inactivityTick => exact .of_same (execInactivityTick_buffer h)
  | inactivityExpiry => exact .of_same (execInactivityExpiry_buffer h)
  | laneSelfTestEnd l encOk decOk => exact .of_same (execLaneSelfTestEnd_buffer h)
  | drainEnd => exact .of_next h (endDrain_buffer s)
  | keyClearDeferredDone => exact .of_next h (finishKeyClears_buffer s)
  | engineResetEnd => exact .of_next h (endEngineReset_buffer s)
  | zeroizeClearing => exact .of_next h (endZeroize_buffer s)
  | read => exact .of_same (execRead_buffer h)
  | write => exact .of_same (execWrite_buffer h)
  | claim => exact .of_same (execClaim_buffer h)
  | release => exact .of_same (execRelease_buffer h)
  | recipher => exact .of_same (execRecipher_buffer h)
  | screen => exact .of_same (execScreen_buffer h)
  | formatSet => exact .of_same (execFormatSet_buffer h)
  | keyOpen => exact .of_same (execKeyOpen_buffer h)
  | keyPart => exact .of_same (execKeyPart_buffer h)
  | keyClear => exact .of_same (execKeyClear_buffer h)
  | classSet => exact .of_same (execClassSet_buffer h)
  | inactivitySet => exact .of_same (execInactivitySet_buffer h)
  | keyQuery => exact .of_same (execKeyQuery_buffer h)
  | rangeQuery => exact .of_same (execRangeQuery_buffer h)
  | sweepQuery p => exact .of_same (execSweepQuery_buffer h)
  | rangeDefine => exact .of_same (execRangeDefine_buffer h)
  | rangeDelete => exact .of_same (execRangeDelete_buffer h)
  | rangeLocks => exact .of_same (execRangeLocks_buffer h)
  | countClear => exact .of_same (execCountClear_buffer h)
  | rangeBind => exact .of_same (execRangeBind_buffer h)
  | rangeRekey => exact .of_same (execRangeRekey_buffer h)
  | rangeErase => exact .of_same (execRangeErase_buffer h)
  | status => exact .of_same (execStatus_buffer h)
  | admitRequest => exact .of_same (execAdmitRequest_buffer h)
  | sealRequest => exact .of_same (execSealRequest_buffer h)
  | busRecover => exact .of_same (execBusRecover_buffer h)
  | engineReset => exact .of_same (execEngineReset_buffer h)
  | zeroize => exact .of_same (execZeroize_buffer h)
  | retain => exact .of_same (execRetain_buffer h)
  | wake => exact .of_same (execWake_buffer h)
  | laneTest => exact .of_same (execLaneTest_buffer h)

end

/-- Settles O53: memory as it was, written or cut off is canonical where it was before. -/
theorem stepKeepsMemoryCanonical : Obligations.StepKeepsMemoryCanonical := fun s t canonical h => by
  rcases pending : s.pending with _ | ⟨c, rest⟩
  · rw [step_of_nil pending] at h
    exact Host.Outcome.next.inj h ▸ canonical
  · rw [step_of_cons pending] at h
    exact (exec_memory h).wf canonical

end Sys2Proof.Machine
end
